-- ==== Sys2Proof/Word.lean ====
section
/-! DEFINITION. The word types of the M9 (00 R3, R5, R6). -/

namespace Sys2Proof

/-- 8 bits (R3). -/
abbrev Byte := BitVec 8
/-- 32 bits, the manual's word (R3). -/
abbrev Word := BitVec 32
/-- 64 bits. -/
abbrev DWord := BitVec 64
/-- A device physical address or a job address (R6, R212). -/
abbrev Addr := BitVec 48
/-- A port word of the array, 128 bytes (R63). -/
abbrev PortBits := BitVec 1024

end Sys2Proof
end

