-- ==== Sys2Proof/Syntax.lean ====
section
/-! DEFINITION. The commands of the block: one constructor for each row of spec/opcode_table.json, with the
operands a row needs. What comes from outside the module in the course of a command (bytes that the host or a
partner delivers, sensor readings, what a link training achieved) is an operand (log entry 5). -/

namespace Sys2Proof

/-- The two PCI Express functions (R262). -/
inductive PFn where
  | pf0
  | pf1
  deriving DecidableEq, Repr

/-- Ring IDs of Table 10.4, 0 to 65; IDs that the table does not list are reserved. -/
abbrev RingId := Fin 66
/-- Engine number, 32 h + 8 c + e (00, Names). -/
abbrev EngineId := Fin 64
/-- Course number 4 h + c. -/
abbrev CourseId := Fin 8
/-- Half A is 0, half B is 1. -/
abbrev HalfId := Fin 2
/-- Tile mover number (R300). -/
abbrev MoverId := Fin 48
/-- Stack, and Praline unit, number. -/
abbrev StackId := Fin 16
/-- Limfaette port number. -/
abbrev PortId := Fin 8
/-- Codec engine number. -/
abbrev CodecId := Fin 2
/-- Core rail: 0 half A, 1 half B, 2 I/O (R418). -/
abbrev RailId := Fin 3
/-- Temperature sensor, numbered as UNIT of R418: courses 0-7, I/O dies 8-11, stacks 16-31. -/
abbrev SensorId := Fin 32
/-- Filtered input, by its row of Table 15.6: PERST_N, THROTTLE_N, WAKE_N, ALERT_N, MGT_RST_N. -/
abbrev PinId := Fin 5

/-- How a read of the device to the host ended (R267). -/
inductive RdStatus where
  | ok
  | ur
  | ca
  | ep
  | timeout
  deriving DecidableEq, Repr

/-- What the host answers to the reads that one command makes: bytes by host address (bytes not listed read
as zero) and how the reads ended. -/
structure HostData where
  cells : List (Nat × Byte)
  status : RdStatus
  deriving DecidableEq, Repr

/-- Host protocol violations, the rows of Table 10.3 in order. -/
inductive HostViol where
  | malformedTlp
  | noBar
  | bar0Access
  | bar2Access
  | bar4Refused
  | atomicOp
  | poisonedWrite
  | unexpectedCompletion
  | badTranslation (m : Fin 48)
  deriving DecidableEq, Repr

/-- A usable ATS translation: the translated host address of the page, and its size in bytes. -/
structure AtsResult where
  base : DWord
  size : Nat
  deriving DecidableEq, Repr

/-- Response code of a PRI group response (R269). -/
inductive PriCode where
  | success
  | invalidRequest
  | responseFailure
  deriving DecidableEq, Repr

/-- The three address generators of an engine. -/
inductive AgId where
  | a
  | b
  | c
  deriving DecidableEq, Repr

/-- Units that can hold a fault (Table 11.3). -/
inductive FaultUnit where
  | engine (e : EngineId)
  | mover (m : MoverId)
  | steward (c : CourseId)
  | counter (c : CourseId)
  | sorter (c : CourseId)
  | praline (st : StackId)
  deriving DecidableEq, Repr

/-- Which lanes of a port achieved lock in training (R332, R333). -/
inductive LaneLock where
  | none
  | low
  | high
  | all
  deriving DecidableEq, Repr

/-- The registers whose writes change topology or link map (R493). -/
inductive FabMapReg where
  | topo
  | linkmap
  | nbr (d : Fin 6)
  deriving DecidableEq, Repr

/-- Sensor readings of a pace-monitor window, as the governor uses them (R411): input power and compute-rail
power in milliwatts, temperatures in 1/16 degree by sensor number, and the rail codes the governor sets. -/
structure Telemetry where
  inputMw : Nat
  railMw : Nat
  temps : List (BitVec 16)
  vset : List (BitVec 8)
  deriving DecidableEq, Repr

/-- An error that a unit reports to the module manager (Table 15.2): rung, reporting source, code of
Table 15.4, the unit concerned, the causing record, and DATA of its log entry. -/
structure ErrArrival where
  rung : Fin 5
  src : BitVec 16
  code : BitVec 16
  unit : BitVec 16
  forJob : Bool
  kind : BitVec 16
  seq : Word
  data : Nat
  deriving DecidableEq, Repr

/-- What an I3C SDR transfer does (R511). -/
inductive I3cOp where
  | assign (addr : BitVec 7)
  | writePacket (desc : List Byte) (host : HostData)
  | readResponse
  deriving DecidableEq, Repr

/-- The drain of an engine, with the entries that have an error as the drain reads them, and whether each is uncorrectable
(R111, R118; log entry 88). -/
structure DrainOp where
  e : EngineId
  upsets : List (Fin 131072 × Bool) := []
  deriving DecidableEq, Repr

/-- What the limiter does while input power exceeds the ceiling: how far its caps have come, in millivolts, and whether the
power still exceeds it with both at the bottom (R407). -/
structure PowerCut where
  cap : BitVec 10
  freeze : Bool
  deriving DecidableEq, Repr

/-- The JTAG instruction set (R512). -/
inductive JtagOp where
  | bypass
  | idcode
  | samplePreload
  | extest
  deriving DecidableEq, Repr

/-- The commands, in the order of spec/opcode_table.json. -/
inductive Instr where
  /-- DOORBELL (R280): An aligned 64-bit write to a descriptor ring's doorbell page is checked and accepted, clears a halt, or is rejected. -/
  | doorbell (ring : RingId) (data : DWord)
  /-- EVENT_DOORBELL (R295): A doorbell to an event ring updates the consumer index, frees slots and optionally arms the interrupt. -/
  | eventDoorbell (ring : RingId) (data : DWord)
  /-- DESCRIPTOR_FETCH (R282): The fetcher issues a read of up to 8 available descriptors once the ring's previous read has completed. -/
  | descriptorFetch (ring : RingId)
  /-- DESCRIPTOR_CHECK (R278): Fetched descriptors are checked for DCRC, SEQ, version and fields, then posted, completed malformed or the ring halted. -/
  | descriptorCheck (ring : RingId)
  /-- COMPLETION_TIMEOUT (R267): The PCIe completion timeout expires for a device read, faulting the mover or halting the ring. -/
  | completionTimeout (tag : Nat)
  /-- READ_COMPLETION (R267): A completion for a device read arrives; UR, CA or EP status faults the requester or halts the ring. -/
  | readCompletion (tag : Nat) (status : RdStatus) (data : List Byte)
  /-- RECORD_WRITE (R293): A queued record is written into a free event-ring slot as two TLPs, waiting for room if the ring is full. -/
  | recordWrite (ring : RingId)
  /-- BAR4_READ (R266): A host memory read through the BAR4 window returns device memory, EP for bad words, or UR for refused addresses. -/
  | bar4Read (off len : Nat) (rid : BitVec 16)
  /-- BAR4_WRITE (R266): A host memory write through the BAR4 window is merged into device memory or refused. -/
  | bar4Write (off : Nat) (data : List Byte) (be : List Bool) (ep : Bool) (rid : BitVec 16)
  /-- HOST_PROTOCOL_VIOLATION (R272): A TLP that breaks a host protocol rule is answered per Table 10.3 and reported in a HOST_VIOLATION record. -/
  | hostProtocolViolation (v : HostViol) (fn : PFn) (rid : BitVec 16) (fmtType : Byte) (addr : DWord)
  /-- CONFIG_REQUEST (R479): A PCIe configuration request is answered normally, or with Request Retry Status before READY. -/
  | configRequest (fn : PFn) (isWrite : Bool) (reg : BitVec 12) (data : Word)
  /-- ATS_TRANSLATION_COMPLETION (R268): An ATS translation completion arrives and the waiting tile mover proceeds or treats it as failed. -/
  | atsTranslationCompletion (m : MoverId) (res : Option AtsResult)
  /-- ATS_INVALIDATE (R268): An ATS Invalidate Request is completed after every request using the translation has been issued. -/
  | atsInvalidate (pasid : Option (BitVec 20)) (addr : DWord) (size : Nat)
  /-- PAGE_REQUEST_RESPONSE (R269): A PRI group response arrives; success retries translation, Invalid Request or Response Failure raises XL_NOT_PRESENT. -/
  | pageRequestResponse (m : MoverId) (code : PriCode)
  /-- FLR_PF0 (R298): A Function Level Reset of PF0 pre-empts the job with a save, discards queued descriptors and disables PF0 rings. -/
  | flrPf0
  /-- FLR_PF1 (R298): A Function Level Reset of PF1 disables the PF1 rings only. -/
  | flrPf1
  /-- D3HOT (R263): Moving PF0 to D3hot pre-empts the running job as an FLR does. -/
  | d3hot
  /-- HOST_INTERFACE_RESET (R474): Filtered PERST_N assertion or a PCIe Hot Reset resets the host interface with the effects of both FLRs. -/
  | hostInterfaceReset
  /-- PERST_N_RELEASE (R479): Filtered PERST_N deassertion starts PCIe link training within 20 ms. -/
  | perstNRelease (samples : Nat)
  /-- LINK_DOWN (R297): The PCIe link goes down without a reset; records wait and host-data movers hold. -/
  | linkDown
  /-- JOB (R284): The lead supervisor takes a job descriptor, allocates a save area, checks plan, manifests and encode list, and starts the job. -/
  | job (host : HostData)
  /-- JOB_COMPLETION (R284): The lead supervisor writes the job's single COMPLETION record and the module takes the next job. -/
  | jobCompletion
  /-- IMG_VERIFY (R86): The module manager verifies a fabric image, measures it, copies it into the image store and returns a handle. -/
  | imgVerify (fn : PFn) (host : HostData)
  /-- TSET_VERIFY (R168): The module manager verifies a special-function table set and returns a handle. -/
  | tsetVerify (fn : PFn) (host : HostData)
  /-- HANDLE_RELEASE (R287): Releases an image or table-set handle, or completes BUSY if it is in use. -/
  | handleRelease (fn : PFn)
  /-- PREEMPT (R288): Pre-empts the running job at the next tile boundary, optionally exporting the save. -/
  | preempt (fn : PFn)
  /-- CANCEL (R288): Cancels a queued, running or pre-empted job. -/
  | cancel (fn : PFn)
  /-- FW_STAGE (R436): Verifies a Golaimin package and writes it into the inactive firmware slot. -/
  | fwStage (fn : PFn) (host : HostData)
  /-- FW_ACTIVATE (R437): Requests a firmware hand-over to the staged or previous slot at the next step boundary. -/
  | fwActivate (fn : PFn)
  /-- SET_CEILING (R406): Sets the power and throttle ceilings, persisting them in the vault through the Gatehouse. -/
  | setCeiling (fn : PFn)
  /-- PORT_FENCE (R356): Fences a Limfaette port on the host's command. -/
  | portFence (fn : PFn)
  /-- PORT_UNFENCE (R356): Clears a port fence and its violation count. -/
  | portUnfence (fn : PFn)
  /-- RETIRE_READ (R428): Writes retired pages and fenced or withdrawn units to a host buffer. -/
  | retireRead (fn : PFn)
  /-- LOG_READ (R435): Writes the live error log or a supply-loss record to a host buffer, optionally clearing pinned entries. -/
  | logRead (fn : PFn)
  /-- JOBDOM_SET (R468): Sets a range of module IDs in the job-domain table. -/
  | jobdomSet (fn : PFn)
  /-- WINDOW_SET (R467): Programs one Gatehouse write window and extends MR5. -/
  | windowSet (fn : PFn)
  /-- MCTP_REQUEST (R273): An MCTP message over PCIe VDM or I3C carries a management descriptor to the module manager. -/
  | mctpRequest (viaI3c : Bool) (desc : List Byte) (host : HostData)
  /-- DOE_DISCOVERY (R273): A DOE Discovery request is answered by the mailbox. -/
  | doeDiscovery (fn : PFn) (index : Byte)
  /-- GET_CERTS (R461): Returns the identity and alias certificates. -/
  | getCerts (fn : PFn)
  /-- GET_LOG (R457): Returns entries of the measurement log. -/
  | getLog (fn : PFn) (first count : Word)
  /-- REPORT (R462): Returns an attestation report over a nonce, signed by the alias key. -/
  | report (fn : PFn) (nonce : List Byte)
  /-- OWNER_CLAIM (R463): Blows the owner root digest fuses with the digest of the given key. -/
  | ownerClaim (fn : PFn) (key : List Byte)
  /-- SLOT_WRITE (R463): Writes an owner-signed public key into image key slot 4 to 7. -/
  | slotWrite (fn : PFn) (payload : List Byte)
  /-- SVN_COMMIT (R454): Raises FUSE_SVN to the SVN of the active package. -/
  | svnCommit (fn : PFn)
  /-- RANGE (R286): A RANGE plan segment copies tile descriptors to the steward area and appends a range to the work counter. -/
  | range (host : HostData)
  /-- MOVERS (R301): A MOVERS plan segment runs a tile-mover descriptor list on the half's movers. -/
  | movers (host : HostData)
  /-- SORT (R188): A SORT segment issues a sort descriptor to the course sort unit, which draws credits and ranks the pairs. -/
  | sort (host : HostData)
  /-- SORT_COMPLETE (R190): The sort unit finishes writing ranked pairs and reports completion. -/
  | sortComplete (c : CourseId)
  /-- BARRIER (R286): A BARRIER plan segment holds later segments until every earlier segment of the step has retired or completed. -/
  | barrier
  /-- STEP_END (R320): A STEP_END segment ends a step: cursors advance and the step checkpoint stream is written. -/
  | stepEnd (host : HostData)
  /-- STEP_COMMAND (R19): The lead supervisor issues a step command to both halves after writing its lead record. -/
  | stepCommand (h : HalfId) (epoch : Word)
  /-- ENCODE_LIST (R398): After the last step the encode list is handed to the codec encode pipeline, which runs it whole. -/
  | encodeList (host : HostData)
  /-- TILE_CLAIM (R140): An engine sequencer raises a claim through the energy-credit gate and the work counter issues a value or EMPTY. -/
  | tileClaim (e : EngineId)
  /-- DISPATCH (R74): The sequencer reads and checks the tile descriptor and staging entries, resolves the image handle and dispatches the tile. -/
  | dispatch (e : EngineId)
  /-- STAGING_FILL (R138): Staging fills bring job memory into the scratchpad; dispatch waits for the last fill byte. -/
  | stagingFill (e : EngineId)
  /-- PLANE_LOAD (R75): The steward loads a verified image into the idle configuration plane. -/
  | planeLoad (e : EngineId)
  /-- PLANE_SWITCH (R76): The engine switches active and idle planes at a tile boundary. -/
  | planeSwitch (e : EngineId)
  /-- TABLE_SET_LOAD (R167): Stewards load the job's table set into every engine's special-function pipes at job start or resume. -/
  | tableSetLoad (e : EngineId)
  /-- AG_BEAT (R130): An address generator emits one beat of its stream, reading memory or a pad pattern. -/
  | agBeat (e : EngineId) (g : AgId)
  /-- BRICK_NOP (R65): A brick slot with OPC NOP fires and does nothing. -/
  | brickNop (e : EngineId) (row col : Fin 16)
  /-- MAC (R96): A brick MAC firing multiplies a fragment by a weight block, adds into the narrow runs and promotes or offers them. -/
  | mac (e : EngineId) (row col : Fin 16)
  /-- PASS (R65): A brick PASS firing offers a fragment to the router as local activation. -/
  | pass (e : EngineId) (row col : Fin 16)
  /-- LDW (R94): A brick LDW firing writes 128 bytes into a register-file entry, and scale registers for entry 63. -/
  | ldw (e : EngineId) (row col : Fin 16)
  /-- EMAX (R96): A brick EMAX firing replaces each run with the maximum of run and element. -/
  | emax (e : EngineId) (row col : Fin 16)
  /-- EADD (R96): A brick EADD firing adds each column's element to its run. -/
  | eadd (e : EngineId) (row col : Fin 16)
  /-- VEC_NOP (R70): Vector NOP does nothing for one stage. -/
  | vecNop (e : EngineId)
  /-- IN (R70): Vector IN loads 32 elements from the row's E port or stream C. -/
  | vecIn (e : EngineId)
  /-- OUT (R70): Vector OUT sends a register to the W input, scratchpad, fused operand or channel masks. -/
  | vecOut (e : EngineId)
  /-- ADD (R120): Vector FP32 addition. -/
  | vecAdd (e : EngineId)
  /-- SUB (R120): Vector FP32 subtraction. -/
  | vecSub (e : EngineId)
  /-- MUL (R120): Vector FP32 multiplication. -/
  | vecMul (e : EngineId)
  /-- MAX (R120): Vector element-wise maximum. -/
  | vecMax (e : EngineId)
  /-- MIN (R120): Vector element-wise minimum. -/
  | vecMin (e : EngineId)
  /-- SFU (R166): Vector SFU issues the lanes' arguments to the special-function pipes over four issue stages. -/
  | vecSfu (e : EngineId)
  /-- SFU_EVALUATION (R171): A special-function pipe evaluates a slot's table at one argument and returns the result 9 st later. -/
  | sfuEvaluation (e : EngineId)
  /-- RMAX (R71): Vector reduction maximum by the fixed tree. -/
  | vecRmax (e : EngineId)
  /-- RSUM (R71): Vector reduction sum by the fixed tree. -/
  | vecRsum (e : EngineId)
  /-- CONST (R70): Vector CONST loads a constant-table value into every element. -/
  | vecConst (e : EngineId)
  /-- CVT (R121): Vector CVT converts elements to a format and returns their FP32 values. -/
  | vecCvt (e : EngineId)
  /-- SEL (R70): Vector SEL selects elements where the mask register is non-zero. -/
  | vecSel (e : EngineId)
  /-- LOOP (R70): Vector LOOP repeats the following instructions a given count. -/
  | vecLoop (e : EngineId)
  /-- END (R70): Vector END ends the vector program for the phase. -/
  | vecEnd (e : EngineId)
  /-- PHASE_END (R72): A phase ends when bricks, vector program and streams are done, and the next phase starts 5 st later. -/
  | phaseEnd (e : EngineId)
  /-- SET_SWAP (R109): After the last phase the accumulator sets swap, waiting under DRAIN_WAIT for an earlier drain, and the drain starts. -/
  | setSwap (e : EngineId)
  /-- DRAIN (R111): The drain converts shadow entries, writes elements, scales and records in block order. -/
  | drain (e : DrainOp)
  /-- WRITE_BACK (R138): Staging write-backs are issued after the drain's last write lands. -/
  | writeBack (e : EngineId)
  /-- COMMIT (R142): A commit reaches the work counter and is accepted or discarded; ranges retire. -/
  | commit (e : EngineId)
  /-- STEWARD_RELOAD (R143): A reloaded steward re-appends its ranges with a higher epoch. -/
  | stewardReload (c : CourseId)
  /-- FIRMWARE_RESOLVE (R308): Firmware resolves a firmware-resolved fault by retry, reload or containment to the job. -/
  | firmwareResolve (u : FaultUnit) (host : HostData)
  /-- HBM_READ (R210): An HBM4 controller serves a read request by row hit, activate or precharge. -/
  | hbmRead (addr : Addr) (len : Nat) (reader : Byte) (readerId : BitVec 16) (upsets : List (Nat × BitVec 39))
  /-- REFRESH (R211): The refresh interval timer expires and each bank is refreshed. -/
  | refresh (st : StackId)
  /-- SCRUB (R227): Each refresh interval the scrubber reads, corrects and writes back one granule per pseudo-channel. -/
  | scrub (st : StackId)
  /-- PAGE_WALK (R216): A translation-cache miss walks the device page table, ending in a translation or one fault cause. -/
  | pageWalk (h : HalfId) (u : FaultUnit) (ja : Addr) (isWrite staging : Bool)
  /-- MOVE_COPY (R302): A tile-mover COPY moves rows of lines between address spaces. -/
  | moveCopy (m : MoverId)
  /-- MOVE_PRALINE (R239): A tile mover translates and expands a Praline command and sends it to the stack's Praline unit. -/
  | movePraline (m : MoverId)
  /-- MOVE_NOISE (R324): A tile mover writes keyed-counter noise draws to the destination. -/
  | moveNoise (m : MoverId)
  /-- MOVE_COLL (R358): A tile mover starts a collective, reading and checking the group table. -/
  | moveColl (m : MoverId)
  /-- RESOLVE (R310): A host RESOLVE retries or aborts a held host-resolved fault. -/
  | resolve (ring : RingId)
  /-- PRALINE_STATUS (R256): A Praline unit returns a command's status and the tile mover folds it into its completion. -/
  | pralineStatus (st : StackId)
  /-- MV_DENSE (R247): Praline MV mode 0 computes a dense INT8 matrix-vector product. -/
  | mvDense (st : StackId)
  /-- MV_K_FRAME (R248): Praline MV mode 1 scores a query against a K frame part. -/
  | mvKFrame (st : StackId)
  /-- MV_V_FRAME (R248): Praline MV mode 2 forms a weighted sum over a V frame part. -/
  | mvVFrame (st : StackId)
  /-- STATS_ROWS (R251): Praline STATS mode 0 forms row statistics records. -/
  | statsRows (st : StackId)
  /-- STATS_MERGE (R251): Praline STATS mode 1 merges statistics records by smerge. -/
  | statsMerge (st : StackId)
  /-- PRALINE_EADD (R252): Praline element-wise addition. -/
  | pralineEadd (st : StackId)
  /-- EMUL (R252): Praline element-wise multiplication. -/
  | emul (st : StackId)
  /-- APPEND (R220): Praline appends keys and values into a frame part with its scales. -/
  | append (st : StackId)
  /-- GATHER (R254): Praline gathers a key block's frame part rows into the operand layout. -/
  | gather (st : StackId)
  /-- ENCODE (R255): Praline encodes source elements into a Crumb, Glaze or Crumb-Glaze stream. -/
  | encode (st : StackId)
  /-- DECODE (R255): Praline decodes a compressed stream into elements. -/
  | decode (st : StackId)
  /-- PREEMPTION_SIGNAL (R313): The module manager's pre-emption signal stops claims, movers and Praline units at tile boundaries. -/
  | preemptionSignal
  /-- SAVE (R316): Once all units of the job stop, the supervisors write the save area, header last. -/
  | save
  /-- RESUME (R318): A RESUME job restores a save area or checkpoint stream and continues the job. -/
  | resume (host : HostData)
  /-- SHIFT (R365): Collective SHIFT sends a buffer downstream and receives one from upstream in one ring step. -/
  | shift (m : MoverId)
  /-- ALLREDUCE (R364): Collective ALLREDUCE runs reduce-scatter then all-gather. -/
  | allreduce (m : MoverId)
  /-- REDUCE_SCATTER (R362): Collective REDUCE_SCATTER reduces shards around the ring. -/
  | reduceScatter (m : MoverId)
  /-- ALLGATHER (R363): Collective ALLGATHER circulates shards, optionally widening them. -/
  | allgather (m : MoverId)
  /-- STATS_COMBINE (R364): Collective STATS_COMBINE is an ALLREDUCE with SMERGE. -/
  | statsCombine (m : MoverId)
  /-- FONDANT (R367): Collective FONDANT re-shards data among members by WRITE messages. -/
  | fondant (m : MoverId)
  /-- COLL_BARRIER (R366): Collective BARRIER circulates BARRIER messages until m minus 1 arrive. -/
  | collBarrier (m : MoverId)
  /-- ADD64 (R366): Collective ADD64 sends one ATOMIC_ADD to a group member. -/
  | add64 (m : MoverId)
  /-- RING_STEP_SEND (R361): A collective sends a ring step's chunks and SENT after DONE of the previous step arrives. -/
  | ringStepSend (m : MoverId)
  /-- PORT_TRAINING (R333): An enabled, unfenced port trains lanes, locks FEC and exchanges PARAM flits. -/
  | portTraining (p : PortId) (lock : LaneLock)
  /-- TRAIN_TIMEOUT (R333): FAB_TRAIN_TO expires before ACTIVE; TRAIN_FAIL is posted and training restarts. -/
  | trainTimeout (p : PortId)
  /-- LOCK_LOST (R333): Lock is lost in ACTIVE; DOWN is posted and the port trains again. -/
  | lockLost (p : PortId)
  /-- PARAM (R334): A PARAM control flit is received and checked against the expected neighbour and boot count. -/
  | param (p : PortId) (flit : List Byte)
  /-- SEQUENCED_FLIT (R337): A sequenced flit is accepted, its body, credits and ACK acted on, or a RETRY_REQ is sent. -/
  | sequencedFlit (p : PortId) (flit : List Byte) (fecCe fecUe : Nat)
  /-- RETRY_REQ (R337): A received RETRY_REQ replays unacknowledged flits from the named FSEQ. -/
  | retryReq (p : PortId) (flit : List Byte)
  /-- RETRY_TIMEOUT (R337): The oldest unacknowledged flit waits FAB_RETRY.TIMEOUT cycles and is replayed, retraining after LIMIT replays. -/
  | retryTimeout (p : PortId)
  /-- IDLE (R338): An IDLE control flit is received. -/
  | idle (p : PortId) (flit : List Byte)
  /-- NOP (R338): A NOP control flit is received. -/
  | nop (p : PortId) (flit : List Byte)
  /-- VIOLATION (R355): A received VIOLATION flit is counted and, for FRAMING or CREDIT, answered with VC_RESYNC. -/
  | violation (p : PortId) (flit : List Byte)
  /-- VC_RESYNC (R355): A received VC_RESYNC ends framing loss on its virtual channel. -/
  | vcResync (p : PortId) (flit : List Byte)
  /-- READ_REQ (R348): A received READ_REQ is served from HBM with a READ_RSP. -/
  | readReq (p : PortId)
  /-- READ_RSP (R349): A received READ_RSP delivers peer data to the requesting mover. -/
  | readRsp (p : PortId)
  /-- WRITE (R348): A received WRITE is translated through the running job's table and applied. -/
  | msgWrite (p : PortId)
  /-- WRITE_ACK (R347): A received WRITE_ACK completes an outstanding write. -/
  | writeAck (p : PortId)
  /-- ATOMIC_ADD (R348): A received ATOMIC_ADD adds to job memory and returns the old value. -/
  | atomicAdd (p : PortId)
  /-- ATOMIC_RSP (R347): A received ATOMIC_RSP completes an outstanding atomic. -/
  | atomicRsp (p : PortId)
  /-- CHUNK (R362): A received CHUNK is applied by the collective with the same CID, or held or discarded. -/
  | chunk (p : PortId)
  /-- SENT (R361): A received SENT closes a ring step on its port; when all have arrived and writes landed, DONE is sent. -/
  | sent (p : PortId)
  /-- DONE (R361): A received DONE releases the next send step. -/
  | done (p : PortId)
  /-- MSG_BARRIER (R366): A received BARRIER message is counted and forwarded. -/
  | msgBarrier (p : PortId)
  /-- MGMT (R348): A received MGMT message is delivered to the module manager or refused with NAK DENIED. -/
  | mgmt (p : PortId)
  /-- MGMT_RSP (R347): A received MGMT_RSP answers a management request. -/
  | mgmtRsp (p : PortId)
  /-- NAK (R353): A received NAK raises PEER_NAK on the sender's operation. -/
  | nak (p : PortId)
  /-- MESSAGE_FORWARD (R344): An intermediate module forwards a message by dimension-order routing. -/
  | messageForward (p : PortId)
  /-- CBL_PRES_N (R505): A change of CBL_PRES_N switches cable power on or off. -/
  | cblPresN (p : PortId) (low : Bool)
  /-- CABLE_OVERCURRENT (R505): A cable drawing more than 4.5 A opens its power switch. -/
  | cableOvercurrent (p : PortId)
  /-- POOL_SET (R379): Sets a codec engine's reference pool. -/
  | poolSet (ring : RingId)
  /-- OPEN (R384): Opens a codec context, checking the encode parameter block. -/
  | codecOpen (ring : RingId)
  /-- ENC_FRAME (R385): Encodes one frame through crop, conversion, scaling, rotation and rate control. -/
  | encFrame (ring : RingId) (host : HostData)
  /-- DEC_UNIT (R392): Decodes one temporal unit or access unit into pool buffers. -/
  | decUnit (ring : RingId) (host : HostData)
  /-- FLUSH (R383): Outputs every picture that still awaits output. -/
  | flush (ring : RingId)
  /-- RELEASE (R383): Clears OUT in the masked pool buffers. -/
  | release (ring : RingId)
  /-- CLOSE (R383): Closes a codec context and drops its reference marks. -/
  | codecClose (ring : RingId)
  /-- FRAME_PACING (R396): The pacing period elapses and the next frame of the context may start. -/
  | framePacing (c : CodecId) (ctx : Fin 4)
  /-- POOL_WAIT (R382): A frame waiting for a free pool buffer starts once one frees. -/
  | poolWait (c : CodecId) (enc : Bool) (host : HostData)
  /-- SUPPLY_LOSS (R413): The supply-loss detector asserts on under- or overvoltage and the module halts and switches to the bank. -/
  | supplyLoss (ovf : Bool)
  /-- VAULT_SAVE (R414): The module manager writes the supply-loss record into the vault, header last, and all rails go off. -/
  | vaultSave
  /-- COLD_START (R478): The input rises through the release threshold and the module boots, trains, self-tests and initialises HBM. -/
  | coldStart (failed : List (BitVec 16)) (untrained : List StackId) (bankUf : BitVec 16)
  /-- BANK_READY (R415): The hold-up bank reaches 46.0 V and jobs may start. -/
  | bankReady
  /-- UV_HOLD (R405): A core rail falls below 0.44 V and its region's acknowledges are withheld. -/
  | uvHold (r : RailId)
  /-- UV_RELEASE (R405): The rail rises above 0.46 V and the region continues. -/
  | uvRelease (r : RailId)
  /-- RAIL_LOST (R405): A core rail below 0.40 V is reported module-fatal. -/
  | railLost (r : RailId)
  /-- LIMIT_ENTER (R407): Input power exceeds the ceiling and the limiter lowers rail caps, then freezes gates. -/
  | limitEnter (cut : PowerCut)
  /-- LIMIT_EXIT (R407): Input power falls below 0.97 of the ceiling and the limiter undoes freeze and caps. -/
  | limitExit
  /-- THROTTLE_N (R408): A filtered THROTTLE_N edge changes the effective ceiling. -/
  | throttleN (low : Bool) (samples : Nat)
  /-- THERMAL_HOLD (R412): A sensor reaches its hardware hold threshold and its unit is held. -/
  | thermalHold (u : SensorId) (temp : BitVec 16)
  /-- THERMAL_RELEASE (R412): A sensor falls to its release threshold and the hold ends. -/
  | thermalRelease (u : SensorId) (temp : BitVec 16)
  /-- THERMAL_TRIP (R412): A compute or I/O-die sensor reaches 115 °C and the core rails are removed. -/
  | thermalTrip (u : SensorId) (temp : BitVec 16)
  /-- DRAM_TRIP (R412): A stack reaches its DRAM trip and is reported at fence-unit. -/
  | dramTrip (st : StackId) (temp : BitVec 16)
  /-- CREDIT_REFILL (R411): Each pace-monitor window the governor refills course buckets and sets class masks. -/
  | creditRefill (t : Telemetry)
  /-- PACE_WINDOW (R37): A pace-monitor window ends, reporting the replica stage count. -/
  | paceWindow (u : Fin 12) (count : BitVec 16)
  /-- REFCLK_LOSS (R38): The PCIe reference clock stops; pace monitors hold and set STALE. -/
  | refclkLoss
  /-- PROGRESS_WATCHDOG (R58): The watchdog count reaches its limit and a PROGRESS event is posted. -/
  | progressWatchdog (periods : Word)
  /-- ERROR_HANDLE (R430): The module manager takes the highest-rung queued error and applies its ladder action. -/
  | errorHandle (arrivals : List ErrArrival)
  /-- RELOAD (R444): A hung or faulted course or half is reloaded from the active image and rejoins. -/
  | reload (u : BitVec 16) (ok : Bool)
  /-- HEARTBEAT_CHECK (R444): A control core whose heartbeat has not advanced over two windows is reported hung. -/
  | heartbeatCheck (u : BitVec 16) (advanced : Bool)
  /-- FW_HANDOVER (R437): At a step boundary the halves and module manager reload into the new image and the lease changes half. -/
  | fwHandover (failing : Option (BitVec 16))
  /-- HANDOVER_TIMEOUT (R438): A hand-over not done within its window count fails and is rolled back. -/
  | handoverTimeout (u : BitVec 16)
  /-- RENEW (R440): The lead renews the lease; a refused renewal loses the lead. -/
  | renew (h : HalfId) (epoch : Word)
  /-- ACQUIRE (R440): A half acquires a vacant lease with a new epoch. -/
  | acquire (h : HalfId)
  /-- LEASE_RELEASE (R440): The lead releases the lease and a hand-over grant follows. -/
  | leaseRelease (h : HalfId) (epoch : Word)
  /-- LEASE_EXPIRY (R441): AGE reaches TERM and the lease becomes vacant. -/
  | leaseExpiry
  /-- LEASE_VACANT (R443): The lease stays vacant for TERM windows and one half is fenced and the other granted. -/
  | leaseVacant
  /-- PERST_N (R445): A filtered assertion of PERST_N holds the PCIe interface in reset. -/
  | perstN (samples : Nat)
  /-- WAKE_N (R510): A filtered change of the sensed WAKE_N line is observed. -/
  | wakeN (low : Bool) (samples : Nat)
  /-- ALERT_N (R445): Filtered ALERT_N pre-empts the running job and blocks job starts. -/
  | alertN (samples : Nat)
  /-- MGT_RST_N (R473): Filtered MGT_RST_N assertion triggers a module reset. -/
  | mgtRstN (samples : Nat)
  /-- MGT_RST_N_RELEASE (R475): Filtered MGT_RST_N release starts the boot ROM. -/
  | mgtRstNRelease (samples : Nat)
  /-- MOD_RST (R498): Writing MGT_CTRL.MOD_RST triggers a module reset. -/
  | modRst (value : Word)
  /-- MODULE_RESET (R473): A module reset takes hold after the save or the 2.0 ms bound and the module reboots keeping HBM. -/
  | moduleReset (failed : List (BitVec 16)) (untrained : List StackId)
  /-- MODULE_RESET_BOUND (R473): The 2.0 ms bound expires and the module reset takes hold. -/
  | moduleResetBound (failed : List (BitVec 16)) (untrained : List StackId)
  /-- INPUT_STUCK_COUNT (R447): An input active for 2^24 samples counts ERR_PIN_STUCK once and logs PIN_STUCK. -/
  | inputStuckCount (pin : PinId)
  /-- I3C_TRANSFER (R511): An I3C SDR transfer carries MCTP packets to and from the module. -/
  | i3cTransfer (x : I3cOp)
  /-- I3C_SCL_TIMEOUT (R511): SCL unchanged for 60 µs while the target drives SDA releases SDA and abandons the transfer. -/
  | i3cSclTimeout
  /-- JTAG_INSTRUCTION (R512): A JTAG instruction is loaded; EXTEST acts only under MGT_RST_N. -/
  | jtagInstruction (op : JtagOp)
  /-- RING_ENABLE (R487): A write of RING_CTRL.EN enables a ring after checks or disables it. -/
  | ringEnable (fn : PFn) (ring : RingId) (value : Word)
  /-- BAR4_BASE_WRITE (R265): A write of HIF_BAR4_BASE moves the BAR4 window for later accesses. -/
  | bar4BaseWrite (value : DWord)
  /-- DEBUG_EN_WRITE (R490): A 0-to-1 write of ENG_CTRL.DEBUG_EN extends MR6. -/
  | debugEnWrite (value : Word)
  /-- PORT_EN_WRITE (R492): A write of FAB_CTRL.PORT_EN enables ports for training or idles their lanes. -/
  | portEnWrite (value : Word)
  /-- FAB_TOPO_WRITE (R493): A FAB_TOPO or FAB_LINKMAP write takes force and ports in PARAM repeat their comparison. -/
  | fabTopoWrite (r : FabMapReg) (value : DWord)
  /-- W1C_COUNTER_WRITE (R485): A write of all ones to a W1C counter clears it. -/
  | w1cCounterWrite (fn : PFn) (off : BitVec 24) (value : Word)
  /-- REGISTER_WRITE (R485): A write to any other register stores fields by type, discarding out-of-range writes and counting violations. -/
  | registerWrite (fn : PFn) (off : BitVec 24) (size8 : Bool) (value : DWord)
  /-- REFCLK_RETURN (R59): The PCIe reference clock returns; pace monitors, credit refill, the lease age and the progress watchdog resume counting. -/
  | refclkReturn
  /-- ALERT_N_RELEASE (R445): Filtered ALERT_N deasserts and the module may start jobs again. -/
  | alertNRelease (samples : Nat)
  /-- PCIE_LINK_UP (R308): The PCIe link returns to up after a link loss, and firmware restarts movers held on T3_TIMEOUT from their restart points. -/
  | pcieLinkUp (width rate : Nat) (flit : Bool)
  deriving DecidableEq, Repr

end Sys2Proof
end

