-- ==== Sys2Proof/Config.lean ====
section
/-! DEFINITION. What the spec leaves to the part or states no value for: constants without a body, so that no
proof can see a value of them (log entries 6, 8, 10, 11, 13, 14). A first argument `n` is the count of free values
drawn so far (`State.free`). -/

namespace Sys2Proof.Config

/-- A free bit (log entry 8). -/
opaque freeBit : Nat → Bool
/-- A free word (log entry 8). -/
opaque freeWord : Nat → Word
/-- Byte `i` of a free byte string (log entry 8). -/
opaque freeByte (n i : Nat) : Byte
/-- A free choice below `k`, where `k` is not zero: the entry a full cache replaces (R215, R268). -/
opaque freeIndex (n k : Nat) : Nat

/-- FIPS 204 verification of an ML-DSA-65 signature, pure form, empty context: key, message, signature
(log entry 6). -/
opaque mldsaVerify (key msg sig : List Byte) : Bool
/-- The ML-DSA-65 signature of a message under the key pair of a seed (log entry 6). -/
opaque mldsaSign (seed msg : List Byte) : List Byte
/-- The ML-DSA-65 public key of a seed (log entry 6). -/
opaque mldsaPublic (seed : List Byte) : List Byte
/-- The Edxus root public key whose digest the ROM holds (R451, Table 16.1). -/
opaque rootKey : List Byte
/-- The device identity seed (R458). -/
opaque identitySeed : List Byte
/-- The identity certificate, DER (R458). -/
opaque identityCert : List Byte
/-- The alias certificate for an alias public key, DER (R459). -/
opaque aliasCert (aliasKey : List Byte) : List Byte
/-- The module serial number (R263, R462). -/
opaque serial : DWord
/-- The boot ROM version, and the debug fuses, as MR0 is extended with them (R452). -/
opaque romVersion : List Byte
opaque debugFuses : List Byte

/-- What a debug-enable change is measured as: the digest that extends MR6 (R456; log entry 6). -/
opaque debugDigest : List Byte
/-- The fields of a write window, of the job-domain table and of the two ceilings as GH_DIGEST takes them (R462; log
entry 6): base, length, PASID, PV, AT, EN of each window; the table; the power and throttle ceilings. -/
opaque gatehouseBytes : List (Nat × Nat × Nat × Bool × Bool × Bool) → BitVec 16384 → Nat → Nat → List Byte

/-- The capacity of the image store in bytes (R87, R287). -/
opaque imageStore : Nat

/-- CDC_ENC_VER (R400, R494). -/
opaque encVer : Word
/-- Coding tools and in-loop filters (Table 13.2). -/
inductive Tool where
  | intraAll | cfl | compound | quarterPel | merge | tmvp | dctAdst32 | dct64 | dst4 | deblock | cdef | wiener | sao
  | uniformTiles
  | block128 | palette | intraBlockCopy | obmc | warped | globalMotion | superres | filmGrain | switchFrames
  | amp | transformSkip | pcm | lossless | longTerm | scalingLists | wpp
  deriving DecidableEq, Repr

/-- What the sequence headers of a coded stream say (R374, R376, R386): codec, profile, level, tier, coded size and depth,
frame rate, matrix, range, chroma siting, block sizes, tile grid, and the tools in use. -/
structure SeqSyntax where
  codec : Nat
  profile : Nat
  level : Nat
  tier : Nat
  width : Nat
  height : Nat
  depth : Nat
  frNum : Nat
  frDen : Nat
  bt2020 : Bool
  fullRange : Bool
  centredChroma : Bool
  largestBlock : Nat
  smallestBlock : Nat
  tileCols : Nat
  tileRows : Nat
  tools : List Tool
  deriving DecidableEq, Repr

/-- How a frame carries its QPs (R390): HEVC the PPS init_qp and a delta for each CTU row, AV1 base_q_idx, delta_q_res and a
delta for each superblock row; with the chroma offsets. -/
inductive QpSyntax where
  | hevc (initQp : Int) (cuDeltas : List Int) (chroma : Int)
  | av1 (baseQIdx : Int) (deltaQRes : Nat) (deltas : List Int) (chroma : Int)
  deriving DecidableEq, Repr

/-- The headers of a coded frame: the sequence headers where it carries them, its order, whether it is a key frame, how many
frames before it it may predict from, and its QPs. -/
structure FrameSyntax where
  seq : Option SeqSyntax
  order : Nat
  key : Bool
  refs : Nat
  qp : QpSyntax
  deriving DecidableEq, Repr

/-- Samples of a picture row by row, a missing one not decoded, and its motion field. -/
structure Planes where
  y : List (Option Nat)
  cb : List (Option Nat)
  cr : List (Option Nat)
  motion : List Byte
  deriving DecidableEq, Repr, Inhabited

/-- A frame that another predicts from: size, depth, samples and motion field. -/
structure RefFrame where
  width : Nat
  height : Nat
  depth : Nat
  planes : Planes
  deriving DecidableEq, Repr, Inhabited

/-- Bits of the rows coded so far of a frame, headers included: the parameter block, the frame's headers with the QPs of those
rows, its reference frames and its picture (R389, R400; log entry 10). -/
opaque rowBits (ver : Word) (param : List Byte) (head : FrameSyntax) (refs : List RefFrame) (picture : Planes) : Nat
/-- The bitstream of a frame under its headers (R376, R390, R400; log entry 10). -/
opaque encodeFrame (ver : Word) (param : List Byte) (head : FrameSyntax) (refs : List RefFrame) (picture : Planes) : List Byte
/-- A frame's reconstruction (R381; log entry 10). -/
opaque reconFrame (ver : Word) (param : List Byte) (head : FrameSyntax) (refs : List RefFrame) (picture : Planes) : Planes
/-- The quotient by a row target of zero, which R389 does not state (log entry 10). -/
opaque zeroTarget (param : List Byte) (num : Int) : Int

/-- What the headers of a picture in a unit say: profile, level, tier, chroma format (0 monochrome, 1 4:2:0, 2 4:2:2, 3 4:4:4) and
whether large-scale tiles are used; coded size, depth and order; whether it is an intra picture; whether its data break the
syntax; the reference slots it predicts from; and what becomes of it. Of AV1: `refresh` the slots it takes (refresh_frame_flags),
`shown`, `grain` (apply_grain), and, where no picture is coded, the slot that is shown. Of HEVC: the slots, the pictures awaiting
output and the outputs after it by the reference picture sets and the output process, where 255 names the picture itself, a number
in `keep` an old slot, and one in `wait` and `outs` a place among the pictures that awaited output. -/
structure PicHead where
  coded : Bool
  profile : Nat
  level : Nat
  tier : Nat
  chroma : Nat
  largeTiles : Bool
  width : Nat
  height : Nat
  depth : Nat
  order : Word
  intra : Bool
  broken : Bool
  uses : List Nat
  refresh : Nat
  shown : Bool
  grain : Bool
  existing : Nat
  keep : List Nat
  wait : List Nat
  outs : List Nat
  deriving DecidableEq, Repr, Inhabited

/-- The headers of a unit's pictures in decoding order, and whether the unit breaks the syntax outside them: codec, the units of
the context before it, the unit (R375, R393; log entry 10). -/
opaque parseUnit (codec : Nat) (history : List (List Byte)) (unit : List Byte) : Bool × List PicHead
/-- The samples of picture `k` of a unit, from the frames of the slots that it predicts from (R375; log entry 10). -/
opaque decodePlanes (codec : Nat) (history : List (List Byte)) (unit : List Byte) (k : Nat) (refs : List RefFrame) : Planes
/-- The grain-synthesised picture of a shown frame (R375; log entry 10). -/
opaque grainPlanes (history : List (List Byte)) (unit : List Byte) (k : Nat) (frame : RefFrame) : Planes

/-- A PCI Express configuration register as the part presents it before the host writes it, and the bits of it that the
host writes, where the spec settles neither (R262, R263; log entry 13). -/
opaque configReset (fn reg : Nat) : Word
opaque cfgWritable (fn reg : Nat) : Word
/-- Vendor ID, revision ID, and the word of the subsystem IDs, which both functions share (R262; log entry 13). -/
opaque vendorId : BitVec 16
opaque revisionId : Byte
opaque subsystemIds : Word
/-- The order code of a variant, as the vendor-specific capability shows it (R263; log entry 13). -/
opaque orderCode (variant : Nat) : Word
/-- The response to an MCTP control message (R273; log entry 32). -/
opaque mctpControl (request : List Byte) : List Byte

/-- By how many tokens a step, whose manifest is given, advances the page list of a sequence (R221; log entry 37). -/
opaque stepTokens (manifest : List Byte) (seq : Nat) : Nat

/-- The COUNT field of a merged statistics record whose count does not fit 64 bits (R178; log entry 8). -/
opaque wideCount : Nat → Nat

/-- The rounded quotient of an appended element by a stored scale that is not positive and finite (R220; log entry
8). -/
opaque oddQuotient (x scale : Word) : Int

/-- Where a steward stages an image or table set of a handle in the steward area of its course buffer (R75, R167; log
entry 60). -/
opaque stageAt (course handle : Nat) : Nat

/-- Whether EXPE's 48-bit product with log2 e is the neighbour above the exact product in magnitude, not the one
below (R172; log entry 14). -/
opaque expeUp (x : Word) : Bool

/-- The 58 bits that a port's scrambler holds when training ends (R331; log entry 94). -/
opaque scramblerSeed (port : Nat) : List Bool

end Sys2Proof.Config
end

