-- ==== Sys2Proof/Machine/Bits.lean ====
section
/-! DEFINITION. Bytes, fields, counters and CRC-32C (00 R5, 10 R274). -/

namespace Sys2Proof

/-- The little-endian value of bytes (R5). -/
def leNat : List Byte → Nat
  | [] => 0
  | b :: bs => b.toNat + 256 * leNat bs

/-- `n` as `len` little-endian bytes (R5). -/
def toLe (n : Nat) : Nat → List Byte
  | 0 => []
  | len + 1 => BitVec.ofNat 8 n :: toLe (n / 256) len

/-- `len` zero bytes. -/
def zeros (len : Nat) : List Byte := List.replicate len 0

/-- Bytes `off` to `off + len - 1`. -/
def bytesAt (bs : List Byte) (off len : Nat) : List Byte := (bs.drop off).take len

/-- The little-endian field of `len` bytes at `off`. -/
def fieldAt (bs : List Byte) (off len : Nat) : Nat := leNat (bytesAt bs off len)

/-- Whether bytes `off` to `off + len - 1` are all zero. -/
def zeroAt (bs : List Byte) (off len : Nat) : Bool := (bytesAt bs off len).all (· == 0)

/-- Bits [lo + len - 1 : lo] of a number (R5). -/
def bitsOf (n lo len : Nat) : Nat := (n >>> lo) % 2 ^ len

/-- Bit `i` of a number. -/
def bitOf (n i : Nat) : Bool := n.testBit i

/-- A Boolean as a bit. -/
def b2n (b : Bool) : Nat := if b then 1 else 0

/-- The two's-complement value of the low `w` bits. -/
def signedOf (w n : Nat) : Int :=
  let m := n % 2 ^ w
  if 2 * m < 2 ^ w then (m : Int) else (m : Int) - (2 ^ w : Nat)

/-- An integer in `w` bits, two's complement. -/
def wrapTo (w : Nat) (i : Int) : Nat := (i % ((2 ^ w : Nat) : Int)).toNat

/-- Clamp to `lo … hi`. -/
def clampInt (lo hi i : Int) : Int := if i < lo then lo else if hi < i then hi else i

/-- A counter of `w` bits that stops at its largest value (R122, R485). -/
def satAdd {w : Nat} (c : BitVec w) (n : Nat) : BitVec w :=
  BitVec.ofNat w (min (c.toNat + n) (2 ^ w - 1))

/-- Serial-number order of two sequence numbers of one source (02 R53): `a` precedes `b`. -/
def serialLt (a b : Word) : Bool :=
  let d := (b - a).toNat
  decide (1 ≤ d) && decide (d ≤ 2 ^ 31 - 1)

/-- Round up to a multiple. -/
def roundUp (n k : Nat) : Nat := ((n + k - 1) / k) * k

/-- Ceiling of a quotient. -/
def ceilDiv (n k : Nat) : Nat := (n + k - 1) / k

/-- Change entry `i` of a list, where it exists. -/
def modifyNth {α : Type} (f : α → α) (l : List α) (i : Nat) : List α :=
  match l, i with
  | [], _ => []
  | a :: as, 0 => f a :: as
  | a :: as, i + 1 => a :: modifyNth f as i

/-- A keyed table with a default: the entry of a key. -/
def look {α : Type} (d : α) : List (Nat × α) → Nat → α
  | [], _ => d
  | (k, v) :: t, key => if k = key then v else look d t key

/-- A keyed table in rising key order: set an entry; the default removes it, so equal tables are equal
lists. -/
def store {α : Type} [DecidableEq α] (d : α) : List (Nat × α) → Nat → α → List (Nat × α)
  | [], key, v => if v = d then [] else [(key, v)]
  | (k, w) :: t, key, v =>
    if key < k then (if v = d then (k, w) :: t else (key, v) :: (k, w) :: t)
    else if key = k then (if v = d then t else (key, v) :: t)
    else (k, w) :: store d t key v

/-- One bit step of CRC-32C, reflected (R274). -/
def crcBit (c : Word) : Word :=
  if c.getLsbD 0 then (c >>> 1) ^^^ 0x82F63B78#32 else c >>> 1

/-- One byte of CRC-32C. -/
def crcByte (c : Word) (b : Byte) : Word :=
  Nat.repeat crcBit 8 (c ^^^ b.setWidth 32)

/-- CRC-32C, Castagnoli, reflected, initial value and final XOR 0xFFFF_FFFF (R274). -/
def crc32c (bs : List Byte) : Word := (bs.foldl crcByte 0xFFFFFFFF#32) ^^^ 0xFFFFFFFF#32

/-- A CRC field at `off` covers the bytes before it (R274). -/
def crcOk (bs : List Byte) (off : Nat) : Bool :=
  fieldAt bs off 4 == (crc32c (bs.take off)).toNat

/-- Append to bytes the CRC-32C of all of them. -/
def withCrc (bs : List Byte) : List Byte := bs ++ toLe (crc32c bs).toNat 4

/-- Pad with zero bytes to `len`, or cut there. -/
def padTo (bs : List Byte) (len : Nat) : List Byte := bs.take len ++ zeros (len - bs.length)

/-- Put `v` over the bytes of `bs` at `off`. -/
def putAt (bs : List Byte) (off : Nat) (v : List Byte) : List Byte :=
  bs.take off ++ v ++ bs.drop (off + v.length)

/-- The bytes of a port word, byte 0 first. -/
def portBytes (p : PortBits) : List Byte :=
  (List.range 128).map fun i => p.extractLsb' (8 * i) 8

/-- A port word from bytes. -/
def portOf (bs : List Byte) : PortBits := BitVec.ofNat 1024 (leNat (bs.take 128))

/-- Cut a list into pieces of `k`, with fuel. -/
def chunksOf {α : Type} (k : Nat) : Nat → List α → List (List α)
  | 0, _ => []
  | fuel + 1, l => if l.isEmpty then [] else l.take k :: chunksOf k fuel (l.drop k)

end Sys2Proof
end

