-- ==== Sys2Proof/Machine/State.lean ====
section
/-! DEFINITION. The state of the block: everything the spec gives the module, as plain data, and its value at
reset. The default value of each field is its value at reset; INVENTORY.md names the rule and the reset value of
every field, and notes/assumptions/4.md lists the fields whose value the spec does not state. -/

namespace Sys2Proof.Machine

/-- Assembly variants (Table 0.1). -/
inductive Variant where
  | v16H4
  | v12H4
  | v16H2
  deriving DecidableEq, Repr

/-- Memory with a device address (Table 8.2): bytes in rising address order, none of them zero (an address
that is not listed reads as zero, R478), and the SECDED syndromes of the words whose check bits do not match
their data, by word index, none of them zero (R224, R225). -/
structure Memory where
  cells : List Host.Cell := []
  synd : List (Nat × BitVec 7) := []
  deriving DecidableEq, Repr

/-- An event record before it is written (R289): header fields and body bytes 0x20 to 0x7B. -/
structure Rec where
  kind : BitVec 16
  src : BitVec 16
  boot : BitVec 16
  seq : Word
  causeSrc : BitVec 16
  causeSeq : Word
  tag : Word
  htime : DWord
  body : List Byte
  deriving DecidableEq, Repr

/-- Completion status of a TLP that the module sends. -/
inductive CplStatus where
  | sc
  | ur
  | rrs
  deriving DecidableEq, Repr

/-- A TLP or message that the module presents to the PCIe transmit queue (Table 2.4). -/
inductive Tlp where
  | write (fn : PFn) (addr : Nat) (data : List Byte) (ro ep : Bool) (pasid : Option (BitVec 20)) (translated : Bool)
  | msix (fn : PFn) (vec : Nat) (addr : DWord) (data : Word)
  | read (fn : PFn) (tag : Nat) (addr len : Nat) (pasid : Option (BitVec 20))
  | atsRequest (m : MoverId) (addr : Nat) (pasid : Option (BitVec 20))
  | pageRequest (m : MoverId) (addr : Nat) (pasid : Option (BitVec 20))
  | invalidateDone
  | completion (rid : BitVec 16) (status : CplStatus) (data : List Byte) (ep : Bool)
  | doe (fn : PFn) (data : List Byte)
  | vdm (data : List Byte)
  deriving DecidableEq, Repr

/-- Who waits for a host read. -/
inductive ReadFor where
  | ring (r : RingId) (first count : Nat)
  | mover (m : MoverId)
  deriving DecidableEq, Repr

/-- An outstanding read request (R267). -/
structure OutRead where
  tag : Nat
  fn : PFn
  addr : Nat
  len : Nat
  who : ReadFor
  deriving DecidableEq, Repr

/-- An address-translation-cache entry (R268). -/
structure AtcEntry where
  die : Nat
  pasid : Option (BitVec 20)
  page : Nat
  base : Nat
  size : Nat
  deriving DecidableEq, Repr

/-- An MSI-X table entry (R264, R271); masked at reset (log entry 13). -/
structure Msix where
  addr : DWord := 0
  data : Word := 0
  masked : Bool := true
  deriving DecidableEq, Repr

/-- A BAR4 access to a fenced stack, which holds (R233, R266): device address, and what it asks. -/
inductive BarAccess where
  | read (addr len : Nat) (rid : BitVec 16)
  | write (addr : Nat) (data : List Byte) (be : List Bool) (ep : Bool)
  deriving DecidableEq, Repr

/-- The host interface (10; 17 Table 17.5). `errs` lists the AER messages sent, by function and whether fatal; `barHeld`
the BAR4 accesses that hold, oldest first. -/
structure Hif where
  linkUp : Bool := false
  width : Nat := 0
  rate : Nat := 0
  flit : Bool := false
  bar4Base : DWord := 0
  bar4Log2 : Nat := 36
  evroute : BitVec 24 := 0
  doeVec : BitVec 11 := 0
  violCnt : Word := 0
  dbBad : Word := 0
  dbReject : Word := 0
  evqHold : Word := 0
  evqDrop : Word := 0
  maxRd : BitVec 11 := 1024
  reads : List OutRead := []
  nextTag : Nat := 0
  tx : List Tlp := []
  cfg : List (Nat × Word) := []
  atsEn : Bool := false
  priEn : Bool := false
  atc : List AtcEntry := []
  priStopped : Bool := false
  pageReqs : List MoverId := []
  msix : List (Nat × Msix) := []
  fmask0 : Bool := false
  fmask1 : Bool := false
  aer0 : Word := 0
  aer1 : Word := 0
  errs : List (PFn × Bool) := []
  barHeld : List BarAccess := []
  pba : List Nat := []
  deriving DecidableEq, Repr

/-- A descriptor with its free-running index. -/
structure Posted where
  idx : Nat
  bytes : List Byte
  deriving DecidableEq, Repr

/-- A ring (R275, R276; 17 Table 17.6). For an event ring `ci` is the count of records written and `last` the
last consumer index accepted. -/
structure Ring where
  base : DWord := 0
  pv : Bool := false
  log2s : Nat := 4
  loc : Bool := false
  pasid : BitVec 20 := 0
  vec : BitVec 11 := 0
  shadow : DWord := 0
  en : Bool := false
  halted : Bool := false
  hcause : BitVec 3 := 0
  ci : BitVec 24 := 0
  last : BitVec 24 := 0
  disabling : Bool := false
  reading : Bool := false
  fetched : List Posted := []
  posted : List Posted := []
  held : Option Posted := none
  inHand : Nat := 0
  armed : Bool := false
  evq : List Rec := []
  dropped : Word := 0
  refused : Bool := false
  deriving DecidableEq, Repr

/-- A restart point (Table 11.2). -/
structure Restart where
  dseq : Word := 0
  row : Word := 0
  off : Word := 0
  rkind : Byte := 0
  walk : Byte := 0xFF
  deriving DecidableEq, Repr

/-- A fault record that a unit holds (Table 11.4), with the sequence number its record carried; `escalated` once it is
resolved by containment and the unit only waits for the job's end (R312). -/
structure HeldFault where
  cause : BitVec 16
  host : Bool
  access : Byte := 0
  faddr : DWord := 0
  space : Byte := 0
  nak : Byte := 0
  tile : Word := 0xFFFFFFFF
  epoch : BitVec 16 := 0
  restart : Restart := {}
  entry : DWord := 0
  eaddr : DWord := 0
  seq : Word := 0
  ofJob : Bool := true
  escalated : Bool := false
  deriving DecidableEq, Repr

/-- A tile-mover descriptor in a mover's hands (R300, R303): of a DMA ring or of a MOVERS list. -/
structure MTask where
  ring : Option RingId
  list : Nat
  dseq : Nat
  bytes : List Byte
  deriving DecidableEq, Repr

/-- What a mover waits for (R267 to R269, R351, R256). -/
inductive MWait where
  | none
  | hostRead (tag : Nat)
  | ats (addr : Nat)
  | pri (addr : Nat)
  | peer (tag : Word)
  | praline
  | coll
  deriving DecidableEq, Repr

/-- A collective in progress on a mover (Table 12.8, R359, R361). -/
structure Coll where
  cop : Nat
  rop : Nat
  efmt : Nat
  wfmt : Nat
  cid : Nat
  group : List Nat
  pos : Nat
  src : Nat
  dst : Nat
  aux : Nat
  grain : Nat
  units : Nat
  arg : DWord
  started : Bool := false
  nsteps : Nat := 0
  sendStep : Nat := 0
  sendOff : Nat := 0
  recvStep : Nat := 0
  doneSeen : List Nat := []
  sentSeen : List (Nat × Nat) := []
  barriers : Nat := 0
  entry : Nat := 0
  finished : Bool := false
  deriving DecidableEq, Repr

/-- A tile mover (11; 17 Table 17.7; 09 R256). `prNext` is the Praline command it sends next; `prOpen` are those sent whose
status is not done. -/
structure Mover where
  cur : Option MTask := none
  queue : List MTask := []
  restart : Restart := {}
  hold : Byte := 0
  fault : Option HeldFault := none
  lastRestart : Option Word := none
  wait : MWait := .none
  coll : Option Coll := none
  prOpen : List Nat := []
  prNext : Nat := 0
  prSat : Nat := 0
  prZero : Nat := 0
  prRect : Nat := 0
  prOut : Nat := 0
  prFlags : Byte := 0
  prReturned : Nat := 0
  poisoned : Bool := false
  stalls : List (BitVec 48) := List.replicate 32 0
  deriving DecidableEq, Repr

/-- A narrow run (R96, R97, R107): value (a 20-bit integer sign-extended, or FP32), count of products, 40-bit
side sum, and the mark of R99. -/
structure Run where
  val : Word := 0
  count : Nat := 0
  side : BitVec 40 := 0
  ovf : Bool := false
  deriving DecidableEq, Repr

/-- A port word with its kind (R519). -/
inductive PortWord where
  | act (bits : PortBits)
  | runs (rs : List Run)
  deriving DecidableEq, Repr

/-- A brick (R60, R67, R94): program position, register file by entry, narrow runs, scale registers, and the
words offered at its four inputs. -/
structure Brick where
  slot : Nat := 0
  fired : Nat := 0
  done : Bool := true
  rf : List (Nat × PortBits) := []
  runs : List Run := List.replicate 16 {}
  scale : List (BitVec 128) := List.replicate 8 0
  inN : List PortWord := []
  inE : List PortWord := []
  inS : List PortWord := []
  inW : List PortWord := []
  deriving DecidableEq, Repr

/-- A configuration plane (R73): slot words by 32 * brick + slot, parameter blocks, header fields, handle,
valid and poisoned marks. -/
structure Plane where
  words : List (Nat × (DWord × DWord)) := []
  params : List (List Byte) := []
  phases : Nat := 0
  slots : Nat := 0
  flags : Word := 0
  handle : Word := 0
  valid : Bool := false
  poisoned : Bool := false
  deriving DecidableEq, Repr

/-- An accumulator entry that is not EMPTY (R103). -/
structure Acc where
  val : BitVec 40 := 0
  sticky : Bool := false
  poison : Bool := false
  deriving DecidableEq, Repr

/-- A tile of an engine, from its claim on: value and epoch tag, class, credits drawn, where its descriptor
lies, the descriptor and staging entries once read and checked, progress, poison mark, and the extents each
writer has addressed (R134 to R142, R149, R230). -/
structure Tile where
  value : Word := 0
  epoch : BitVec 16 := 0
  eclass : Nat := 0
  cost : Nat := 0
  descAddr : Nat := 0
  read : Bool := false
  desc : List Byte := []
  stage : List (List Byte) := []
  fills : Nat := 0
  wbs : Nat := 0
  off : Nat := 0
  phase : Nat := 0
  poison : Bool := false
  ext : List (Nat × Nat) := List.replicate 5 (0xFFFFFF, 0)
  deriving DecidableEq, Repr

/-- A tile in the drain path, or drained and not yet committed, with its latched parameters (Table 4.4, R118). -/
structure Drain where
  tile : Tile
  fmt : Nat
  fuse : Nat
  pol : Nat
  floating : Bool
  debug : Bool := false
  masks : BitVec 256
  afterSignal : Bool := false
  deriving DecidableEq, Repr

/-- A special-function evaluation that waits (R166): slot, destination register, lane, element, argument. -/
structure SfuReq where
  slot : Nat
  vd : Nat
  lane : Nat
  elem : Nat
  arg : Word
  deriving DecidableEq, Repr

/-- A LOOP in progress (R70): first instruction of the body, the one after its last, passes left. -/
structure VLoop where
  first : Nat
  last : Nat
  left : Nat
  deriving DecidableEq, Repr

/-- An engine (03 to 06; 17 Tables 17.9 and 17.10). -/
structure Engine where
  bricks : List Brick := List.replicate 256 {}
  plane0 : Plane := {}
  plane1 : Plane := {}
  active : Nat := 0
  loading : Option Word := none
  acc0 : List (Nat × Acc) := []
  acc1 : List (Nat × Acc) := []
  accActive : Nat := 0
  vregs : List (List (List Word)) := List.replicate 16 (List.replicate 32 (List.replicate 32 0))
  laneE : List (List PortWord) := List.replicate 16 []
  laneC : List (List PortBits) := List.replicate 16 []
  vpc : Nat := 0
  vdone : Bool := true
  vgot : BitVec 16 := 0
  loops : List VLoop := []
  fusedElem : Nat := 0
  marks : BitVec 256 := 0
  sfuQ : List SfuReq := []
  sfuNext : Nat := 0
  sWord : List (List PortBits) := List.replicate 16 []
  vecOut : List (List PortBits) := List.replicate 16 []
  beatA : Nat := 0
  beatB : Nat := 0
  beatC : Nat := 0
  claim : Option Tile := none
  run : Option Tile := none
  drain : Option Drain := none
  wbQ : List Drain := []
  drainFirst : Bool := false
  counters : List Word := List.replicate 16 0
  wextLo : List (BitVec 24) := List.replicate 5 0
  wextHi : List (BitVec 24) := List.replicate 5 0
  wextTile : Word := 0
  stalls : List (BitVec 48) := List.replicate 32 0
  hold : Byte := 0
  fault : Option HeldFault := none
  fault2 : Option HeldFault := none
  reloadActive : Option Word := none
  reloadIdle : Option Word := none
  lastRestart : Option Word := none
  tset : Word := 0
  tsetLoaded : Bool := false
  tsetPoison : Bool := false
  tables : List Byte := []
  sfuEmpty : Word := 0
  deriving DecidableEq, Repr

/-- A work-counter range (Table 5.6) with its issued values (offset, engine of the course) and committed
offsets. -/
structure Range where
  first : Word
  count : Nat
  epoch : BitVec 16
  descBase : Nat
  slotShift : Nat
  eclass : Nat
  affinity : Nat
  src : DWord
  issued : List (Nat × Nat) := []
  committed : List Nat := []
  poison : Nat := 0
  deriving DecidableEq, Repr

/-- A sort in the sort unit (R188, R190): its descriptor, and the ranked output once ranked. -/
structure SortRun where
  desc : List Byte
  src : DWord
  descBase : Nat
  cost : Nat := 0
  ranked : Option (List (List Byte) × Bool) := none
  deriving DecidableEq, Repr

/-- A course: work counter, sort unit, energy-credit gate, steward, dirty lines (05, 07, 14; 17 ENG
registers). -/
structure Course where
  ranges : List Range := []
  epoch : BitVec 16 := 0
  wcDup : Word := 0
  wcStray : Word := 0
  wcOldEpoch : Word := 0
  wcReturned : Word := 0
  wcPoison : Word := 0
  sortNan : Word := 0
  sort : Option SortRun := none
  bucket : BitVec 24 := 0
  cost : List (BitVec 16) := List.replicate 8 0
  mask : BitVec 8 := 0
  stewardFault : Option HeldFault := none
  counterFault : Option HeldFault := none
  sortFault : Option HeldFault := none
  lastRestart : Option Word := none
  imageReq : List (Nat × Word) := []
  dirty : List Nat := []
  stalls : List (BitVec 48) := List.replicate 32 0
  deriving DecidableEq, Repr

/-- A translation-cache entry (R215): 64 KiB-aligned job address of the leaf, its size, the leaf entry and
where it was read. -/
structure Tlb where
  base : Nat
  big : Bool
  entry : DWord
  eaddr : Nat
  deriving DecidableEq, Repr

/-- A half: its translation cache, the newest epoch its supervisor has seen, and the epoch under which the
supervisor takes itself for the lead (R215, R441, R442). -/
structure Half where
  tcache : List Tlb := []
  newestEpoch : Word := 0
  leads : Option Word := none
  deriving DecidableEq, Repr

/-- A Praline command as a tile mover sends it (R239, R248, R253, R254): operation, operands by device
address, dimensions, the frame part and scale record of a key-value command, and an address in each operand that its
unit reads or writes. -/
structure PCmd where
  mover : MoverId
  idx : Nat
  opc : Nat
  mode : Nat
  fmt : Nat
  ofmt : Nat
  bcast : Bool
  src0 : Nat
  src1 : Nat
  src2 : Nat
  dst : Nat
  mf : Option Nat
  rows : Nat
  cols : Nat
  cfw : Word := 0
  part : Nat := 0
  d : Nat := 0
  headroom : Nat := 0
  tok : Nat := 0
  ntok : Nat := 0
  scale : Nat := 0
  ks : Word := 0
  nanIn : Bool := false
  bad : Bool := false
  homes : List Nat := []
  deriving DecidableEq, Repr

/-- A Praline status (Table 9.6) on its way to a mover. -/
structure PStat where
  mover : MoverId
  idx : Nat := 0
  out : Nat := 0
  sat : Nat := 0
  zero : Nat := 0
  rect : Nat := 0
  status : Nat := 0
  malf : Bool := false
  nan : Bool := false
  poison : Bool := false
  recSeq : Word := 0
  deriving DecidableEq, Repr

/-- A stack, its controller and scrubber, and its Praline unit (08, 09). -/
structure Stack where
  rows : List (Nat × Nat) := []
  scrubPtr : Nat := 0
  selfRefresh : Bool := false
  queue : List PCmd := []
  status : List PStat := []
  fault : Option HeldFault := none
  prFenced : Bool := false
  stalls : List (BitVec 48) := List.replicate 32 0
  deriving DecidableEq, Repr

/-- The MEM set-up registers and counters, and ENG_CTRL (17 Tables 17.8, 17.9). -/
structure MemRegs where
  jobMib : Nat := 48
  splitNow : Nat := 48
  scrubEn : Bool := true
  ceRetire : Nat := 4
  stackLimit : Nat := 1024
  pralineShare : Nat := 8
  ceCnt : Word := 0
  ueCnt : Word := 0
  poisonCnt : Word := 0
  debugEn : Bool := false
  deriving DecidableEq, Repr

/-- A plan segment (Table 10.8), and the manifest of a STEP_END as read with the plan (R319). -/
structure Seg where
  kind : Nat
  half : Nat
  course : Nat
  affinity : Nat
  eclass : Nat
  slotShift : Nat
  first : Word
  src : DWord
  len : Nat
  descBase : Nat
  man : List Byte := []
  deriving DecidableEq, Repr

/-- A MOVERS list in progress (R301): its id, half, the descriptor count, and those completed. -/
structure MList where
  id : Nat
  half : Nat
  total : Nat
  doneIdx : List Nat
  deriving DecidableEq, Repr

/-- How a job will complete. -/
structure JobEnd where
  status : BitVec 16
  res0 : Option DWord := none
  resExt : List Byte := []
  deriving DecidableEq, Repr

/-- Who asked for a pre-emption. -/
inductive PreBy where
  | command
  | flr
  | d3
  | hostReset
  | moduleReset
  | alert
  | fence
  deriving DecidableEq, Repr

/-- The stage of the running job. -/
inductive JobPhase where
  | running
  | resuming
  | encoding
  | lastStep
  deriving DecidableEq, Repr

/-- The running job (R283 to R286, R319, R320). `order` is the order in which the supervisors take the step's sequences
(R222). -/
structure Job where
  posted : Posted
  phase : JobPhase := .running
  segs : List Seg := []
  nextSeg : Nat := 0
  inStep : Bool := false
  step : Nat := 0
  order : List Nat := []
  cursors : List DWord := List.replicate 4 0
  jobMib : Nat := 48
  area : Nat := 0
  poisTiles : Nat := 0
  poisSteps : Nat := 0
  outlier : Bool := false
  firstMem : Option Word := none
  preempt : Option PreBy := none
  signalled : Bool := false
  ckptPending : Bool := false
  handover : Bool := false
  outlierExt : List Byte := []
  ckptPois : Bool := false
  ckptLine : Nat := 0
  ending : Option JobEnd := none
  ckptOff : DWord := 0
  ckptTotal : DWord := 0
  deriving DecidableEq, Repr

/-- What a save keeps of an engine (Table 11.6: engine record and accumulators). -/
structure EngineSave where
  activeHandle : Word
  idleHandle : Option Word
  drain : Option Drain
  wbQ : List Drain
  shadow : List (Nat × Acc)
  accActive : Nat
  scale : List (List (BitVec 128))
  runs : List (List Run)
  counters : List Word
  wext : List (BitVec 24 × BitVec 24)
  wextTile : Word
  deriving DecidableEq, Repr

/-- What a save keeps of a mover. -/
structure MoverSave where
  cur : Option MTask
  queue : List MTask
  restart : Restart
  returned : Nat
  coll : Option Coll
  sat : Nat
  zero : Nat
  rect : Nat
  out : Nat
  flags : Byte
  poisoned : Bool
  deriving DecidableEq, Repr

/-- A save area (Tables 11.6, 11.7): STATE, boot count, the job with its cursors and step state, the handle
map, work counters, movers, engine records, scratchpads, dirty course-buffer lines. -/
structure SaveArea where
  st : Nat
  boot : BitVec 16
  job : Job
  handles : List (Word × Nat × List Byte)
  ranges : List (List Range)
  epochs : List (BitVec 16)
  sorts : List (Option SortRun)
  movers : List MoverSave
  lists : List MList
  engines : List EngineSave
  scratch : Memory
  dirty : List (List Nat)
  lines : Memory
  doneCids : List Nat
  deriving DecidableEq, Repr

/-- The way a management descriptor came (R273): a function's management ring, or MCTP over PCI Express or I3C. -/
inductive Via where
  | ring (fn : PFn)
  | mctp (viaI3c : Bool)
  deriving DecidableEq, Repr

/-- A PREEMPT command that waits for the end of its save (R288, R327). -/
structure PreWait where
  via : Via
  posted : Posted
  exp : Bool
  addr : DWord
  len : DWord
  saved : Bool := false
  deriving DecidableEq, Repr

/-- Jobs (10, 11). -/
structure JobUnit where
  cur : Option Job := none
  areas : List (Option SaveArea) := List.replicate 8 none
  lists : List MList := []
  waitPre : Option PreWait := none
  cancelled : List Word := []
  deriving DecidableEq, Repr

/-- A Limfaette message: its 32-byte header and its data (Table 12.5). -/
structure Msg where
  hdr : List Byte
  data : List Byte
  id : Nat := 0
  deriving DecidableEq, Repr

/-- A Limfaette port (12; 17 Table 17.11). `unacked` holds the sequenced flits not yet acknowledged, with their
FSEQ, without ACK and FCRC filled in; `txQ` the messages waiting on each virtual channel, of whose first `txOff`
bytes have been sent; `ctrlQ` sequenced control bodies waiting; `rxStream` the bytes of the message that each channel
is receiving; `rxCount` the messages that each channel has received, which number them; `rxBodies` the messages, by number,
whose bytes each body buffer in use still holds; `rxOwed` credits to return; `passing` where each channel's message on its way
through this module leaves (port and channel) and how many of its bytes have gone on; `lockHigh` that lanes 4–7 are the four
that locked, `outFrom` where the flits sent since training begin. -/
structure Port where
  state : Nat := 0
  lanes : Nat := 0
  fenced : Bool := false
  peer : BitVec 14 := 0
  peerPort : Byte := 0
  peerBoot : BitVec 16 := 0
  txNext : Nat := 0
  rxNext : Nat := 0
  acked : Nat := 1023
  unacked : List (Nat × List Byte) := []
  replays : Nat := 0
  rejecting : Bool := false
  paired : Bool := false
  peerDir : Nat := 0
  gotParam : Bool := false
  gotSeen : Bool := false
  txCredits : List Nat := List.replicate 8 0
  txQ : List (List (List Byte)) := List.replicate 8 []
  txOff : List Nat := List.replicate 8 0
  ctrlQ : List (List Byte) := []
  rxStream : List (List Byte) := List.replicate 8 []
  rxCount : List Nat := List.replicate 8 0
  rxBodies : List (List (List Nat)) := List.replicate 8 []
  rxOwed : List Nat := List.replicate 8 0
  rxCredits : List Nat := [128, 128, 1024, 1024, 2048, 16, 32, 32]
  framing : List Bool := List.replicate 8 false
  passing : List (Option (Nat × Nat × Nat)) := List.replicate 8 none
  lockHigh : Bool := false
  outFrom : Nat := 0
  rxMsgs : List (Nat × Msg) := []
  violCnt : Word := 0
  nakCnt : Word := 0
  violRx : Word := 0
  stale : Word := 0
  fecCe : Word := 0
  fecUe : Word := 0
  replay : Word := 0
  seenCodes : List Nat := []
  recCe : Nat := 0
  recUe : Nat := 0
  recReplay : Nat := 0
  out : List (List Byte) := []
  stalls : List (BitVec 48) := List.replicate 32 0
  cblPres : Bool := false
  cblPower : Bool := false
  deriving DecidableEq, Repr

/-- An outstanding operation towards a peer (R347, R352). `job` is the job it was sent for; `away` that the job was
pre-empted while an atomic was outstanding, and `answer` what has come for it meanwhile. -/
structure PeerOp where
  tag : Word
  mover : Option MoverId
  mtype : Nat
  addr : DWord
  len : Nat
  dst : Nat
  port : Nat
  job : Word := 0
  away : Bool := false
  answer : Option (List Byte × Bool) := none
  deriving DecidableEq, Repr

/-- The Limfaette unit (12; 17 Table 17.11). -/
structure Fab where
  portEn : BitVec 8 := 0
  allowX4 : Bool := false
  mgmtIn : Bool := false
  topo : DWord := 0
  linkmap : DWord := 0
  nbr : List Word := List.replicate 6 0
  topoNow : DWord := 0
  linkmapNow : DWord := 0
  nbrNow : List Word := List.replicate 6 0
  trainTo : BitVec 16 := 500
  retryTimeout : BitVec 16 := 2048
  retryLimit : Nat := 8
  violLimit : BitVec 16 := 64
  collOvf : Word := 0
  ports : List Port := List.replicate 8 {}
  ops : List PeerOp := []
  nextTag : Word := 0
  held : List (Nat × Msg) := []
  mgmtIn' : List Msg := []
  doneCids : List Nat := []
  deriving DecidableEq, Repr

/-- State of the last frame of one kind for rate control (R389). -/
structure RcLast where
  q : Int
  a : Int
  t : Int
  deriving DecidableEq, Repr

/-- An open codec context (R384, R389, R381). -/
structure Ctx where
  ring : RingId
  codec : Nat
  param : List Byte := []
  coef : List Byte := []
  stage : Nat := 0
  stageLen : Nat := 0
  ofList : Bool := false
  frames : Nat := 0
  sinceKey : Nat := 0
  b : Int := 0
  lastKey : Option RcLast := none
  lastInter : Option RcLast := none
  refs : List Nat := []
  waiting : List Nat := []
  units : List (List Byte) := []
  paced : Bool := false
  deriving DecidableEq, Repr

/-- An encode list in progress (R397, R398). -/
structure EncRun where
  descs : List (List Byte)
  next : Nat := 0
  frames : Nat := 0
  bytes : Nat := 0
  deriving DecidableEq, Repr

/-- A codec engine (13; 17 Table 17.12). -/
structure Codec where
  pool : List (Nat × Nat) := []
  marks : List (BitVec 12) := List.replicate 32 0
  ctxs : List (Option Ctx) := List.replicate 4 none
  poolWait : Word := 0
  rcOver : Word := 0
  encHeld : Bool := false
  decHeld : Bool := false
  list : Option EncRun := none
  deriving DecidableEq, Repr

/-- Power (14; 17 Table 17.13). -/
structure Pwr where
  railsOn : Bool := false
  halted : Bool := false
  lossCause : Nat := 0
  limit : Bool := false
  freeze : Bool := false
  throttle : Bool := false
  bankLow : Bool := false
  bankReady : Bool := false
  ceil : Nat := 2000
  throttleCeil : Nat := 800
  bankUf : BitVec 16 := 0
  vset : List Nat := [24, 24, 24]
  vcap : List Nat := [750, 750, 750]
  ecost : List (BitVec 16) := List.replicate 8 0
  creditCap : BitVec 24 := 4096
  tsoft : Nat := 90
  thot : Nat := 103
  hotClass : Nat := 3
  uvCnt : Word := 0
  pace : List (Bool × BitVec 16) := List.replicate 12 (false, 0)
  temp : List (BitVec 16) := List.replicate 32 0
  uvHold : List Bool := [false, false, false]
  thermalHold : List Bool := List.replicate 32 false
  refclk : Bool := true
  tripped : Bool := false
  deriving DecidableEq, Repr

/-- An error log entry (Table 15.4). -/
structure LogEntry where
  lseq : Word
  boot : BitVec 16
  rung : Nat
  lflags : Byte
  src : BitVec 16
  kind : BitVec 16
  seq : Word
  code : BitVec 16
  action : Byte
  unit : BitVec 16
  job : Word
  step : Word
  data : Nat
  deriving DecidableEq, Repr

/-- A queued error (R429) with the log entry made at its arrival. -/
structure QErr where
  a : ErrArrival
  lseq : Word
  job : Word
  deriving DecidableEq, Repr

/-- The overflow summary (R431). -/
structure Summary where
  rung : Nat
  first : ErrArrival
  job : Word
  count : Nat
  deriving DecidableEq, Repr

/-- The lease cell (R440). HOLDER: 0 half A, 1 half B, 3 none. -/
structure Lease where
  holder : Nat := 3
  epoch : Word := 0
  age : Nat := 0
  lastA : Word := 0
  lastB : Word := 0
  vacant : Nat := 0
  granted : Option Nat := none
  record : Option (Word × Nat × Nat) := none
  deriving DecidableEq, Repr

/-- A firmware hand-over in progress or requested (R437, R438). -/
structure Handover where
  slot : Nat
  via : Via
  posted : Posted
  windows : Nat := 0
  deriving DecidableEq, Repr

/-- Reliability: error registers, filtered inputs, queue, log, fences, retired pages, lease (15). `ceRec` and `poisRec`
give, for a page, the sequence number of the record of its first CE and of its first poisoned word in the scrub pass, plus
one (R228). `pinLock` counts down the lockout of each filtered input, in samples (R445). -/
structure Rel where
  pinnedRemap : Bool := false
  regViol : Word := 0
  queueOvf : Word := 0
  leaseStale : Word := 0
  pinGlitch : List Word := List.replicate 5 0
  pinStuck : List Word := List.replicate 5 0
  pinActive : List Bool := List.replicate 5 false
  pinLock : List Nat := List.replicate 5 0
  stuckDone : List Bool := List.replicate 5 false
  queue : List QErr := []
  summary : Option Summary := none
  logNext : Word := 0
  logOver : Word := 0
  log : List LogEntry := []
  pinned : List LogEntry := []
  fenced : List (BitVec 16) := []
  withdrawn : List (BitVec 16) := []
  pages : List (Nat × Nat) := []
  ceCount : List (Nat × Nat) := []
  ceRec : List (Nat × Nat) := []
  poisSeen : List Nat := []
  poisRec : List (Nat × Nat) := []
  lease : Lease := {}
  handover : Option Handover := none
  beats : List (Nat × Nat) := []
  reloading : List (BitVec 16) := []
  deriving DecidableEq, Repr

/-- A Gatehouse write window (R466, R467): base and length in bytes. -/
structure Window where
  base : Nat := 0
  len : Nat := 0
  pasid : BitVec 20 := 0
  pv : Bool := false
  at' : Bool := false
  en : Bool := false
  deriving DecidableEq, Repr

/-- A measurement-log entry (R457). -/
structure MLog where
  index : Nat
  mr : Nat
  ekind : Nat
  boot : BitVec 16
  arg : Word
  digest : List Byte
  deriving DecidableEq, Repr

/-- An image key slot (Table 16.1): the key, empty when unset, and its SLOT_SVN. -/
structure KeySlot where
  key : List Byte := []
  svn : Word := 0
  deriving DecidableEq, Repr

/-- Security: Gatehouse, measurements, keys (16). -/
structure Sec where
  windows : List Window := List.replicate 32 {}
  jobdom : BitVec 16384 := 0
  ghRefuse : Word := 0
  mr : List (List Byte) := List.replicate 8 (List.replicate 64 0)
  mlog : List MLog := []
  logCount : Nat := 0
  ownerDigest : List Byte := List.replicate 64 0
  fuseSvn : Nat := 0
  slots : List KeySlot := List.replicate 8 {}
  aliasSeed : List Byte := []
  debugSeen : Bool := false
  ownerKey : List Byte := []
  fwSvn : Nat := 0
  deriving DecidableEq, Repr

/-- A verified image or table set (R87, R168): kind 1 image, 2 table set. -/
structure Stored where
  handle : Word
  kind : Nat
  bytes : List Byte
  digest : List Byte
  slot : Nat
  deriving DecidableEq, Repr

/-- A job's cursor in a supply-loss record (Table 14.4). -/
structure VaultJob where
  jobId : Word
  st : Nat
  stepDone : Nat
  off : DWord
  total : DWord
  incStep : Nat
  incSeg : Nat
  deriving DecidableEq, Repr

/-- A supply-loss slot of the vault (Table 14.4). -/
structure VaultSlot where
  complete : Bool
  cause : Nat
  consumed : Bool
  saveNo : Nat
  boot : BitVec 16
  rings : List (Nat × Nat × Nat × Nat)
  jobs : List VaultJob
  epoch : Word
  lead : Nat
  log : List LogEntry
  pinned : List LogEntry
  logNext : Word
  logOver : Word
  deriving DecidableEq, Repr

/-- Why a module reset is pending (R472, R473). -/
inductive RstCause where
  | pin
  | reg
  deriving DecidableEq, Repr

/-- The work that a reset discarded, to be reported once the pre-empted job's end is known (R299): RTYPE, first
index and count of each ring, and whether the records wait for the PF1 event ring (R474). -/
structure ResetNote where
  rtype : Nat
  discards : List (Nat × Nat × Nat)
  held : Bool
  deriving DecidableEq, Repr

/-- Management: start-up, store, firmware slots, vault, watchdog (15, 16, 17 Table 17.16). -/
structure Mgt where
  ready : Bool := false
  fatal : Bool := false
  recovery : Bool := false
  boot : BitVec 16 := 0
  fwSlot : Nat := 0
  resetCause : Nat := 0
  wdogLimit : Word := 10000000
  wdogCount : Word := 0
  wdogBase : List Nat := List.replicate 32 0
  leaseTerm : Nat := 100
  handoverWindows : Nat := 4096
  doeVec : Nat := 0
  images : List Stored := []
  nextHandle : Word := 1
  fwImages : List (Option (List Byte)) := [none, none]
  staged : Option Nat := none
  vaultEpoch : Word := 0
  vaultSlots : List (Option VaultSlot) := [none, none]
  resetPending : Option RstCause := none
  held : List Rec := []
  mctp : List (List Byte) := []
  noJobs : Bool := false
  note : Option ResetNote := none
  deriving DecidableEq, Repr

/-- Sideband (18 R511, R512). -/
structure Side where
  jtag : JtagOp := .bypass
  i3cAddr : Option (BitVec 7) := none
  i3cBusy : Bool := false
  i3cIbi : Bool := false
  i3cOut : List (List Byte) := []
  modFault : Bool := false
  deriving DecidableEq, Repr

/-- The state of the module. `pending` is the queue of commands that wait, first in, first out; `free` counts
the free values drawn (log entry 8). Rings stand by ID, units by number. -/
structure State where
  pending : List Instr := []
  variant : Variant := .v16H4
  mem : Memory := {}
  regs : MemRegs := {}
  hif : Hif := {}
  rings : List Ring := List.replicate 66 {}
  job : JobUnit := {}
  movers : List Mover := List.replicate 48 {}
  engines : List Engine := List.replicate 64 {}
  courses : List Course := List.replicate 8 {}
  halves : List Half := List.replicate 2 {}
  hbm : List Stack := List.replicate 16 {}
  fab : Fab := {}
  codecs : List Codec := List.replicate 2 {}
  pwr : Pwr := {}
  rel : Rel := {}
  sec : Sec := {}
  mgt : Mgt := {}
  side : Side := {}
  seqs : List (Nat × Word) := []
  free : Nat := 0
  deriving DecidableEq, Repr

/-- The module right after reset: every field at its default, which is the value that INVENTORY.md names. The
supply has not yet risen; COLD_START is the command that boots the module (log entry 3). -/
def State.reset : State := {}

/-- Why a step can stop with a fault: for nothing. Each command has an effect in every state, be it that nothing happens,
as where it names a unit that the assembly variant lacks (R2, R477). -/
inductive Fault where
  deriving DecidableEq, Repr

/-- Why a step can be refused. -/
inductive Refusal where
  /-- A command that the model does not give a meaning yet. Raised by Dispatch.lean alone. Safe: nothing is
  claimed of it. -/
  | notModelled (mnemonic : String)
  deriving DecidableEq, Repr

/-- The outcome of a command of this machine. -/
abbrev Out := Host.Outcome State Fault Refusal

end Sys2Proof.Machine
end

