-- ==== Sys2Proof/Machine/Flags.lean ====
section
/-! DEFINITION. Codes and flag computations: SECDED syndromes and their classes (08 R224, R225), source IDs (Table
10.11), status, fault, stall and error codes, and register words that hold status fields. -/

namespace Sys2Proof.Machine

/-! ### SECDED (R224, R225) -/

/-- The number of set bits among the low seven. -/
def ones7 (n : Nat) : Nat := ((List.range 7).filter fun i => n.testBit i).length

/-- The columns of the data bits: the 7-bit values with exactly three bits set, in ascending order. -/
def dataCols : List Nat := (List.range 128).filter fun n => ones7 n == 3

/-- The column of data bit `i`. -/
def dataCol (i : Nat) : BitVec 7 := BitVec.ofNat 7 (dataCols.getD i 0)

/-- The syndrome that flipping the marked bits of a clean word gives: bits 0 to 31 data, 32 + j check bit j. -/
def synOf (flips : BitVec 39) : BitVec 7 :=
  (List.range 39).foldl
    (fun acc i => if flips.getLsbD i then acc ^^^ (if i < 32 then dataCol i else 1#7 <<< (i - 32)) else acc) 0

/-- Classes of Table 8.9; a CE with its bit as BIT of Table 8.10 numbers it. -/
inductive SynClass where
  | clean
  | ce (bit : Nat)
  | poison
  | ue
  deriving DecidableEq, Repr

/-- The class of a syndrome (Table 8.9). -/
def synClass (syn : BitVec 7) : SynClass :=
  if syn = 0 then .clean
  else if syn = 0x7F#7 then .poison
  else match (List.range 32).find? (fun i => dataCol i == syn) with
    | some i => .ce i
    | none => match (List.range 7).find? (fun j => (1#7 <<< j) == syn) with
      | some j => .ce (32 + j)
      | none => .ue

/-- The poison pattern (R225). -/
def poisonSyn : BitVec 7 := 0x7F

/-! ### Source IDs (Table 10.11) -/

/-- The module manager. -/
def srcMgr : Nat := 0x1000
/-- A half supervisor. -/
def srcHalf (h : Nat) : Nat := 0x2000 + h
/-- A course steward. -/
def srcSteward (c : Nat) : Nat := 0x3000 + c
/-- An engine sequencer. -/
def srcEngine (e : Nat) : Nat := 0x4000 + e
/-- A tile mover. -/
def srcMover (m : Nat) : Nat := 0x5000 + m
/-- A Limfaette port. -/
def srcPort (p : Nat) : Nat := 0x6000 + p
/-- A codec engine. -/
def srcCodec (c : Nat) : Nat := 0x7000 + c
/-- A Praline unit. -/
def srcPraline (n : Nat) : Nat := 0x8000 + n
/-- A course work counter. -/
def srcCounter (c : Nat) : Nat := 0x9000 + c
/-- A course sort unit. -/
def srcSort (c : Nat) : Nat := 0xA000 + c

/-- The source ID of a unit that can hold a fault. -/
def srcOf : FaultUnit → Nat
  | .engine e => srcEngine e
  | .mover m => srcMover m
  | .steward c => srcSteward c
  | .counter c => srcCounter c
  | .sorter c => srcSort c
  | .praline st => srcPraline st

/-- The half of a unit, for the resolver's record; host movers have none. -/
def halfOf : FaultUnit → Option Nat
  | .engine e => some (e / 32)
  | .mover m => if m.val < 32 then some (m / 16) else none
  | .steward c | .counter c | .sorter c => some (c / 4)
  | .praline st => some (st / 8)

/-! ### Record kinds (Table 10.12) -/

def kCompletion : Nat := 0x01
def kRingHalt : Nat := 0x02
def kDbReject : Nat := 0x03
def kHostViol : Nat := 0x04
def kEvqOverflow : Nat := 0x05
def kResetReport : Nat := 0x06
def kStepDone : Nat := 0x10
def kPoisonSummary : Nat := 0x11
def kProgress : Nat := 0x12
def kFault : Nat := 0x20
def kFaultResolved : Nat := 0x21
def kRestart : Nat := 0x22
def kMemError : Nat := 0x30
def kError : Nat := 0x40
def kLink : Nat := 0x50
def kPower : Nat := 0x60
def kCodec : Nat := 0x70

/-- The record group that HIF_EVROUTE routes a kind by (Table 17.5). -/
def routeGroup (kind : Nat) : Nat :=
  if kind = 0x20 ∨ kind = 0x21 ∨ kind = 0x22 then 0
  else if kind = 0x30 then 1 else if kind = 0x40 then 2 else if kind = 0x50 then 3
  else if kind = 0x60 then 4 else if kind = 0x70 then 5 else if kind = 0x04 then 6 else 7

/-! ### Completion status (Table 10.13) -/

def stOk : Nat := 0
def stMalformed : Nat := 1
def stVerifyFail : Nat := 2
def stNoSaveArea : Nat := 3
def stCancelled : Nat := 4
def stPreempted : Nat := 5
def stOutlierFault : Nat := 6
def stTableSetMissing : Nat := 7
def stNoJob : Nat := 8
def stBusy : Nat := 9
def stStoreFull : Nat := 0xA
def stHostFault : Nat := 0xB
def stOkPoisoned : Nat := 0xC
def stFailed : Nat := 0xD
def stAlready : Nat := 0xE
def stDenied : Nat := 0xF

/-! ### Stall causes (Table 8.13) -/

def wFabricStarve : Nat := 0x01
def wImageWait : Nat := 0x02
def wDrainWait : Nat := 0x03
def wWorkEmpty : Nat := 0x04
def wWorkPinned : Nat := 0x05
def wCreditWait : Nat := 0x06
def wFaultWait : Nat := 0x07
def wPriWait : Nat := 0x08
def wXlateWalk : Nat := 0x09
def wXlateAts : Nat := 0x0A
def wT3HostFail : Nat := 0x0B
def wT3PeerFail : Nat := 0x0C
def wT2Fail : Nat := 0x0D
def wT3HostLate : Nat := 0x0E
def wT3PeerLate : Nat := 0x0F
def wLinkCredit : Nat := 0x10
def wT2Late : Nat := 0x11
def wT1Late : Nat := 0x12
def wPralineBusy : Nat := 0x13
def wMortarArb : Nat := 0x14
def wBankConflict : Nat := 0x15

/-! ### Fault causes (Table 11.3) -/

def fXlNotPresent : Nat := 0x01
def fXlMalformed : Nat := 0x02
def fXlWriteProt : Nat := 0x03
def fXlT3Stage : Nat := 0x04
def fXlPoison : Nat := 0x05
def fXlRetired : Nat := 0x06
def fKvUnassigned : Nat := 0x07
def fT3Timeout : Nat := 0x08
def fLinkLost : Nat := 0x09
def fAddrUnbacked : Nat := 0x0A
def fGatehouse : Nat := 0x0B
def fMoverMalformed : Nat := 0x0C
def fDescCrc : Nat := 0x10
def fDescMalformed : Nat := 0x11
def fEclassMismatch : Nat := 0x12
def fStageCrc : Nat := 0x13
def fStageMalformed : Nat := 0x14
def fPlanePoison : Nat := 0x15
def fImageDebug : Nat := 0x16
def fOutlierOvf : Nat := 0x17
def fRangeBad : Nat := 0x18
def fSortDesc : Nat := 0x19
def fPralineCmd : Nat := 0x1A
def fPralineSpan : Nat := 0x1B
def fSfuTabPoison : Nat := 0x1C
def fPeerNak : Nat := 0x1D
def fImageMissing : Nat := 0x1E

/-- Whether the host resolves a cause (Table 11.3). -/
def hostResolved (c : Nat) : Bool := (decide (1 ≤ c) && decide (c ≤ 7)) || c == 0x1D

/-- How firmware resolves a firmware-resolved cause (Table 11.3). -/
inductive FwPolicy where
  | whenLinkUp
  | retryOnce
  | reload
  | outlier
  | contain
  deriving DecidableEq, Repr

/-- Table 11.3, Resolution, of the firmware-resolved causes. -/
def fwPolicy (c : Nat) : FwPolicy :=
  if c = 0x08 ∨ c = 0x09 then .whenLinkUp
  else if c = 0x10 ∨ c = 0x13 ∨ c = 0x19 then .retryOnce
  else if c = 0x15 ∨ c = 0x1C then .reload
  else if c = 0x17 then .outlier
  else .contain

/-! ### Error codes (Table 15.5) and log actions (Table 15.4) -/

def eQueueOvf : Nat := 0x301
def eLeaseLost : Nat := 0x302
def eLeaseVacant : Nat := 0x303
def eCoreHang : Nat := 0x304
def eCtrlUe : Nat := 0x305
def eStackLimit : Nat := 0x306
def ePortFenced : Nat := 0x307
def eThermalTrip : Nat := 0x308
def eRailLost : Nat := 0x309
def eHandoverFail : Nat := 0x30A
def ePinStuck : Nat := 0x30B
def eBoardAlert : Nat := 0x30C
def eUnitRestored : Nat := 0x30D
def eStaleLead : Nat := 0x30E
def eDramTrip : Nat := 0x30F
def eFwRegionLost : Nat := 0x310
def eMgrFault : Nat := 0x311

def aNone : Byte := 0
def aCounted : Byte := 1
def aRetirement : Byte := 2
def aJobEnded : Byte := 3
def aFenced : Byte := 4
def aWithdrawn : Byte := 5
def aPreempted : Byte := 6
def aFatal : Byte := 7
def aAbsorbed : Byte := 8
def aRemapped : Byte := 9
def aRolledBack : Byte := 10
def aRestored : Byte := 11

/-! ### Ring arithmetic (R280, R295) -/

/-- Number of slots S. -/
def Ring.size (g : Ring) : Nat := 2 ^ g.log2s

/-- Descriptors outstanding, (LAST − CI) mod 2^24; on an event ring −u. -/
def Ring.outstanding (g : Ring) : Nat := (g.last - g.ci).toNat

/-- Records written and not yet consumed, u = (W − CI) mod 2^24 of an event ring. -/
def Ring.unread (g : Ring) : Nat := (g.ci - g.last).toNat

/-- PHASE of the next record: 1 on the first pass after enable, flipping on each wrap (R290). -/
def Ring.phase (g : Ring) : Bool := (g.ci.toNat / g.size) % 2 == 0

end Sys2Proof.Machine
end

