-- ==== Sys2Proof/Machine/Memory.lean ====
section
/-! DEFINITION. Memory by device address: bytes, check bits as syndromes, and the device address map (08 R206 to
R208, R224 to R226). -/

namespace Sys2Proof.Machine

/-! ### The byte and syndrome tables -/

/-- A keyed table is in canonical form: keys strictly rising, no default entry. -/
def tableOk {α : Type} [DecidableEq α] (d : α) : List (Nat × α) → Bool
  | [] => true
  | [(_, v)] => decide (v ≠ d)
  | (k, v) :: (k', v') :: t => decide (v ≠ d) && decide (k < k') && tableOk d ((k', v') :: t)

/-- The canonical form of memory: bytes and syndromes in rising order of address, none of them zero. -/
def Memory.wf (m : Memory) : Bool := tableOk 0 m.cells && tableOk 0 m.synd

/-- The byte stored at an address; an address that is not listed reads as zero (R478). -/
def Memory.byte (m : Memory) (a : Nat) : Byte := look 0 m.cells a

/-- The syndrome of a word. -/
def Memory.syn (m : Memory) (w : Nat) : BitVec 7 := look 0 m.synd w

/-- Store one byte. -/
def Memory.setByte (m : Memory) (a : Nat) (b : Byte) : Memory := { m with cells := store 0 m.cells a b }

/-- Store the syndrome of a word. -/
def Memory.setSyn (m : Memory) (w : Nat) (s : BitVec 7) : Memory := { m with synd := store 0 m.synd w s }

/-- Store bytes from an address on, leaving syndromes alone. -/
def Memory.setBytes (m : Memory) (a : Nat) : List Byte → Memory
  | [] => m
  | b :: bs => (m.setByte a b).setBytes (a + 1) bs

/-- The bytes of a word as stored. -/
def Memory.stored (m : Memory) (w : Nat) : List Byte := (List.range 4).map fun i => m.byte (4 * w + i)

/-- The bytes of a word as a reader receives them: a corrected error corrected, anything else as stored
(Table 8.9). -/
def Memory.deliver (m : Memory) (w : Nat) : List Byte :=
  match synClass (m.syn w) with
  | .ce b => if b < 32 then toLe (leNat (m.stored w) ^^^ 2 ^ b) 4 else m.stored w
  | _ => m.stored w

/-- Whether a word is uncorrectable or poisoned. -/
def Memory.bad (m : Memory) (w : Nat) : Bool :=
  match synClass (m.syn w) with
  | .poison | .ue => true
  | _ => false

/-- The words that a range of bytes touches. -/
def wordsOf (a len : Nat) : List Nat :=
  if len = 0 then [] else (List.range ((a + len - 1) / 4 + 1 - a / 4)).map fun i => a / 4 + i

/-- Delivered bytes of a range. -/
def Memory.read (m : Memory) (a len : Nat) : List Byte :=
  (((wordsOf a len).map fun w => m.deliver w).flatten.drop (a % 4)).take len

/-- The words of a range whose syndrome is not zero, in rising order. -/
def Memory.flawed (m : Memory) (a len : Nat) : List Nat :=
  if len = 0 then []
  else (m.synd.filter fun x => decide (a / 4 ≤ x.1) && decide (x.1 ≤ (a + len - 1) / 4)).map (·.1)

/-- Whether a range holds an uncorrectable or poisoned word. -/
def Memory.anyBad (m : Memory) (a len : Nat) : Bool := (m.flawed a len).any fun w => m.bad w

/-- Write bytes within one word, reading, merging and rewriting a partial word: a corrected error is corrected
before the merge, and an uncorrectable or poisoned word keeps its bytes and takes the poison pattern (R226). A
whole word, and the rest, takes correct check bits, or the poison pattern when `poison` (R225). -/
def Memory.mergeWord (m : Memory) (a : Nat) (bs : List Byte) (poison : Bool) : Memory :=
  let w := a / 4
  let whole := bs.length == 4
  let keep := !whole && m.bad w
  let m1 := if whole then m else m.setBytes (4 * w) (m.deliver w)
  (m1.setBytes a bs).setSyn w (if poison || keep then poisonSyn else 0)

/-- Write bytes from an address on, word by word; `fuel` bounds the words. -/
def Memory.writeFuel (poison : Bool) : Nat → Memory → Nat → List Byte → Memory
  | 0, m, _, _ => m
  | fuel + 1, m, a, bs =>
    if bs.isEmpty then m
    else
      let n := 4 - a % 4
      Memory.writeFuel poison fuel (m.mergeWord a (bs.take n) poison) (a + n) (bs.drop n)

/-- Write bytes from an address on. -/
def Memory.write (m : Memory) (a : Nat) (bs : List Byte) (poison : Bool := false) : Memory :=
  Memory.writeFuel poison bs.length m a bs

/-- Write bytes of which each word carries its own poison mark: the marks of the words in order. -/
def Memory.writeMarked : List Bool → Memory → Nat → List Byte → Memory
  | [], m, _, _ => m
  | p :: ps, m, a, bs =>
    if bs.isEmpty then m
    else
      let n := 4 - a % 4
      Memory.writeMarked ps (m.mergeWord a (bs.take n) p) (a + n) (bs.drop n)

/-- Flip stored bits of a word: bits 0 to 31 data, 32 + j check bit j (an upset, log entry 5). -/
def Memory.upset (m : Memory) (w : Nat) (flips : BitVec 39) : Memory :=
  (m.setBytes (4 * w) (toLe (leNat (m.stored w) ^^^ (flips.toNat % 2 ^ 32)) 4)).setSyn w (m.syn w ^^^ synOf flips)

/-! ### The device address map (Table 8.2, R2, R207, R208) -/

/-- Whether the variant has stack `n` (R2, R207). -/
def Variant.hasStack (v : Variant) (n : Nat) : Bool :=
  match v with
  | .v12H4 => decide (n < 16) && n != 6 && n != 7 && n != 14 && n != 15
  | _ => decide (n < 16)

/-- The number of I/O dies (Table 0.1). -/
def Variant.ioDies (v : Variant) : Nat := match v with | .v16H2 => 2 | _ => 4

/-- Whether the variant has port `p`: two ports an I/O die. -/
def Variant.hasPort (v : Variant) (p : Nat) : Bool := decide (p < 2 * v.ioDies)

/-- Whether the variant has tile mover `m`: four host movers an I/O die. -/
def Variant.hasMover (v : Variant) (m : Nat) : Bool := decide (m < 32 + 4 * v.ioDies)

/-- Whether the variant has codec engine `e`: one on each of the I/O dies that has one (R275). -/
def Variant.hasCodec (v : Variant) (e : Nat) : Bool := match v with | .v16H2 => e == 0 | _ => decide (e < 2)

/-- The stack that holds the firmware region (R206, R207). -/
def Variant.fwStack (v : Variant) : Nat := match v with | .v12H4 => 13 | _ => 15

/-- First address of the firmware region. -/
def Variant.fwBase (v : Variant) : Nat := v.fwStack * 0x1000000000 + 0xC00000000

/-- What lies at a device address. -/
inductive Region where
  | hbm (stack : Nat)
  | firmware
  | jobPart (course : Nat)
  | steward (course : Nat)
  | scratchpad (engine : Nat)
  | hole
  deriving DecidableEq, Repr

/-- First address of a course buffer. -/
def courseBase (c : Nat) : Nat := 0x10000000000 + c * 0x4000000
/-- First address of an engine scratchpad. -/
def scratchBase (e : Nat) : Nat := 0x10020000000 + e * 0x400000

/-- The region of a device address, for a variant and a job part of `jobMib` MiB. -/
def regionAt (v : Variant) (jobMib a : Nat) : Region :=
  if a < 0x10000000000 then
    let n := a / 0x1000000000
    if ¬ v.hasStack n then .hole
    else if v.fwBase ≤ a ∧ a < v.fwBase + 0x400000000 then .firmware
    else .hbm n
  else if a < 0x10020000000 then
    let c := (a - 0x10000000000) / 0x4000000
    if (a - 0x10000000000) % 0x4000000 < jobMib * 0x100000 then .jobPart c else .steward c
  else if a < 0x10030000000 then .scratchpad ((a - 0x10020000000) / 0x400000)
  else .hole

/-- The region of a device address now. -/
def State.region (s : State) (a : Nat) : Region := regionAt s.variant s.regs.splitNow a

/-- Whether a host access may reach a region: HBM outside the firmware region and the job parts (R208, R266). -/
def Region.hostOk : Region → Bool
  | .hbm _ | .jobPart _ => true
  | _ => false

/-- HBM outside the firmware region. -/
def Region.isHbm : Region → Bool
  | .hbm _ => true
  | _ => false

/-- Whether every byte of a range lies where `ok` holds; the map changes only at multiples of 64 bytes. -/
def State.rangeAll (s : State) (ok : Region → Bool) (a len : Nat) : Bool :=
  (List.range ((a % 64 + len + 63) / 64)).all fun i => ok (s.region ((a / 64 + i) * 64))

/-- Put a number into a rising list without repeats. -/
def insertNat (n : Nat) : List Nat → List Nat
  | [] => [n]
  | k :: t => if n < k then n :: k :: t else if n = k then k :: t else k :: insertNat n t

/-- The dirty lines of a course with those of `len` bytes at offset `o` added. -/
def addDirty (o len : Nat) (c : Course) : Course :=
  let lines := (List.range ((o % 64 + len + 63) / 64)).map fun i => o / 64 + i
  { c with dirty := lines.foldl (fun d n => insertNat n d) c.dirty }

/-- Mark the course-buffer lines of a range dirty (R316). -/
def markDirty (s : State) (a len : Nat) : State :=
  if a < 0x10000000000 ∨ 0x10020000000 ≤ a ∨ len = 0 then s
  else
    let o := a - 0x10000000000
    { s with courses := modifyNth (addDirty (o % 0x4000000) len) s.courses (o / 0x4000000) }

/-! ### Address decode and rows (Table 8.3, R210) -/

/-- Stack of a device address in HBM. -/
def hbmStack (a : Nat) : Nat := a / 0x1000000000
/-- Row of an address: bits [35:22]. -/
def hbmRow (a : Nat) : Nat := bitsOf a 22 14
/-- Bank of an address among all of a stack's: stack ID, bank, bank group (bits [21:16]), channel and pseudo-channel
(bits [11:6]). -/
def hbmBank (a : Nat) : Nat := bitsOf a 16 6 * 64 + bitsOf a 6 6
/-- Granule within the row: bits [15:12]. -/
def hbmGranule (a : Nat) : Nat := bitsOf a 12 4
/-- Channel and pseudo-channel. -/
def hbmChannel (a : Nat) : Nat := bitsOf a 7 5
def hbmPseudo (a : Nat) : Nat := bitsOf a 6 1

/-- The row that a bank of a stack holds open. -/
def Stack.openRow (k : Stack) (bank : Nat) : Option Nat := (k.rows.find? fun r => r.1 == bank).map (·.2)

/-- Open a row of a bank; it stays open until another row of the bank is asked for or a refresh closes it. -/
def Stack.setRow (k : Stack) (bank row : Nat) : Stack :=
  { k with rows := (k.rows.filter fun r => r.1 != bank) ++ [(bank, row)] }

/-- An access opens the row of each granule that it touches, in rising order (R210). -/
def Stack.touch (k : Stack) (a len : Nat) : Stack :=
  (List.range ((a % 64 + len + 63) / 64)).foldl
    (fun k i => k.setRow (hbmBank ((a / 64 + i) * 64)) (hbmRow ((a / 64 + i) * 64))) k

/-- The rows that an access opens, where it lies in a stack. -/
def State.touchRows (s : State) (a len : Nat) : State :=
  if a < 0x10000000000 then { s with hbm := modifyNth (fun k => k.touch a len) s.hbm (hbmStack a) } else s

/-- Write bytes at a device address, with correct check bits or with the poison pattern. -/
def State.writeMem (s : State) (a : Nat) (bs : List Byte) (poison : Bool := false) : State :=
  markDirty ({ s with mem := s.mem.write a bs poison }.touchRows a bs.length) a bs.length

/-- Write bytes with a poison mark for each word. -/
def State.writeMarked (s : State) (a : Nat) (bs : List Byte) (marks : List Bool) : State :=
  markDirty ({ s with mem := s.mem.writeMarked marks a bs }.touchRows a bs.length) a bs.length

/-- The bytes at a device address as a reader receives them. -/
def State.peek (s : State) (a len : Nat) : List Byte := s.mem.read a len

end Sys2Proof.Machine
end

