-- ==== Sys2Proof/Machine/Operands.lean ====
section
/-! DEFINITION. Operand forms: the fields of the descriptors and records that commands read, each at the offset its
table gives. -/

namespace Sys2Proof.Machine

/-! ### Descriptor header (Table 10.5) -/

/-- OPC. -/
def dOpc (d : List Byte) : Nat := fieldAt d 0 2
/-- VER. -/
def dVer (d : List Byte) : Nat := fieldAt d 2 1
/-- DFLAGS. -/
def dFlags (d : List Byte) : Nat := fieldAt d 3 1
/-- DFLAGS.NOREC. -/
def dNorec (d : List Byte) : Bool := bitOf (dFlags d) 0
/-- DFLAGS.FENCE. -/
def dFence (d : List Byte) : Bool := bitOf (dFlags d) 1
/-- TAG. -/
def dTag (d : List Byte) : Nat := fieldAt d 4 4
/-- HTIME. -/
def dHtime (d : List Byte) : Nat := fieldAt d 8 8
/-- The SEQ field, all 32 bits. -/
def dSeqField (d : List Byte) : Nat := fieldAt d 0x10 4
/-- SEQ[23:0]. -/
def dSeq (d : List Byte) : Nat := dSeqField d % 2 ^ 24
/-- EVQ. -/
def dEvq (d : List Byte) : Nat := fieldAt d 0x14 2
/-- PASID when PV is set. -/
def dPasid (d : List Byte) : Option (BitVec 20) :=
  if bitOf (fieldAt d 0x18 4) 31 then some (BitVec.ofNat 20 (fieldAt d 0x18 4)) else none

/-- VER is 1 and the header's reserved fields are zero (R278 check 2, R7). -/
def headerOk (d : List Byte) : Bool :=
  dVer d == 1 && decide (dFlags d < 4) && decide (dSeqField d < 2 ^ 24) && zeroAt d 0x16 2 &&
  bitsOf (fieldAt d 0x18 4) 20 11 == 0 && zeroAt d 0x1C 4

/-- ARG0 to ARG3 of a management descriptor (R287). -/
def mArg (d : List Byte) (i : Nat) : Nat := fieldAt d (0x20 + 8 * i) 8

/-! ### Job descriptor body (Table 10.7) -/

/-- ROOT. -/
def jRoot (d : List Byte) : Nat := fieldAt d 0x20 8
/-- TSET. -/
def jTset (d : List Byte) : Nat := fieldAt d 0x28 4
/-- NSEQ. -/
def jNseq (d : List Byte) : Nat := fieldAt d 0x2C 1
/-- JFLAGS. -/
def jFlags (d : List Byte) : Nat := fieldAt d 0x2D 1
/-- JFLAGS.RESUME. -/
def jResume (d : List Byte) : Bool := bitOf (jFlags d) 0
/-- JFLAGS.ENCODE. -/
def jEncode (d : List Byte) : Bool := bitOf (jFlags d) 1
/-- JFLAGS.PRI. -/
def jPri (d : List Byte) : Bool := bitOf (jFlags d) 2
/-- PLAN. -/
def jPlan (d : List Byte) : Nat := fieldAt d 0x30 8
/-- NSEG. -/
def jNseg (d : List Byte) : Nat := fieldAt d 0x38 4
/-- JOB_ID. -/
def jId (d : List Byte) : Nat := fieldAt d 0x3C 4
/-- NKEY. -/
def jKey (d : List Byte) : List Byte := bytesAt d 0x40 16
/-- CKPT_ADDR. -/
def jCkptAddr (d : List Byte) : Nat := fieldAt d 0x50 8
/-- CKPT_LEN. -/
def jCkptLen (d : List Byte) : Nat := fieldAt d 0x58 8
/-- ENC_DESC. -/
def jEncDesc (d : List Byte) : Nat := fieldAt d 0x60 8
/-- RESUME_SRC. -/
def jResumeSrc (d : List Byte) : Nat := fieldAt d 0x68 8
/-- PLISTi. -/
def jPlist (d : List Byte) (i : Nat) : Nat := fieldAt d (0x70 + 8 * i) 8

/-! ### Tile-mover descriptor body (Table 11.1) -/

/-- MKIND. -/
def mvKind (d : List Byte) : Nat := fieldAt d 0x20 1
/-- Source space. -/
def mvSrcSpace (d : List Byte) : Nat := bitsOf (fieldAt d 0x21 1) 0 2
/-- Destination space. -/
def mvDstSpace (d : List Byte) : Nat := bitsOf (fieldAt d 0x21 1) 2 2
/-- MFLAGS.ZERO. -/
def mvZero (d : List Byte) : Bool := bitOf (fieldAt d 0x22 2) 0
/-- The number of rows. -/
def mvRows (d : List Byte) : Nat := fieldAt d 0x24 2 + 1
/-- SRC. -/
def mvSrc (d : List Byte) : Nat := fieldAt d 0x28 8
/-- DST. -/
def mvDst (d : List Byte) : Nat := fieldAt d 0x30 8
/-- RLEN. -/
def mvRlen (d : List Byte) : Nat := fieldAt d 0x38 4
/-- SSTRIDE. -/
def mvSstride (d : List Byte) : Nat := fieldAt d 0x3C 4
/-- DSTRIDE. -/
def mvDstride (d : List Byte) : Nat := fieldAt d 0x40 4
/-- STREAM. -/
def mvStream (d : List Byte) : Nat := fieldAt d 0x44 4
/-- NOFF. -/
def mvNoff (d : List Byte) : Nat := fieldAt d 0x48 8
/-- NSEQI. -/
def mvNseqi (d : List Byte) : Nat := fieldAt d 0x50 1
/-- NFMT. -/
def mvNfmt (d : List Byte) : Nat := fieldAt d 0x51 1

/-! ### Collective body (Table 12.8) -/

def coCop (d : List Byte) : Nat := fieldAt d 0x21 1
def coRop (d : List Byte) : Nat := fieldAt d 0x22 1
def coEfmt (d : List Byte) : Nat := fieldAt d 0x23 1
def coWfmt (d : List Byte) : Nat := fieldAt d 0x24 1
def coCid (d : List Byte) : Nat := fieldAt d 0x26 2
def coGroup (d : List Byte) : Nat := fieldAt d 0x28 8
def coSrc (d : List Byte) : Nat := fieldAt d 0x30 8
def coDst (d : List Byte) : Nat := fieldAt d 0x38 8
def coAux (d : List Byte) : Nat := fieldAt d 0x40 8
def coGrain (d : List Byte) : Nat := fieldAt d 0x48 4
def coUnits (d : List Byte) : Nat := fieldAt d 0x4C 4
def coArg (d : List Byte) : Nat := fieldAt d 0x50 8

/-- Whether a reduction and element format fit (R362, R364). -/
def coRopOk (cop rop efmt : Nat) : Bool :=
  match cop with
  | 2 | 3 => (rop == 1 && efmt == 0) || (rop == 2 && efmt == 2) || (rop == 3 && efmt == 0) || rop == 4
  | 5 => rop == 4
  | _ => rop == 0

/-- Whether an ALLGATHER's formats and grain fit (R363). -/
def coGatherOk (efmt wfmt grain : Nat) : Bool :=
  if wfmt = 0xFF then true
  else if wfmt ≤ 1 ∧ (efmt = 9 ∨ efmt = 10) then grain == 2112
  else if wfmt ≤ 1 ∧ efmt = 11 then grain == 2176
  else wfmt == 0 && efmt == 1

/-- The fields of a collective body are in range (R358 to R366). -/
def collBodyOk (d : List Byte) : Bool :=
  decide (1 ≤ coCop d) && decide (coCop d ≤ 8) && coRopOk (coCop d) (coRop d) (coEfmt d) && decide (coEfmt d ≤ 11) &&
  (coCop d != 4 || coGatherOk (coEfmt d) (coWfmt d) (coGrain d)) && zeroAt d 0x25 1 && zeroAt d 0x58 36 &&
  decide (coGrain d % 64 = 0) && decide (64 ≤ coGrain d) && decide (coGrain d ≤ 4096) &&
  (coCop d != 1 || coArg d % 64 == 0)

/-! ### RESOLVE body (R310) -/

/-- FSRC. -/
def rvSrc (d : List Byte) : Nat := fieldAt d 0x20 2
/-- ACTION. -/
def rvAction (d : List Byte) : Nat := fieldAt d 0x22 1
/-- FSEQ. -/
def rvSeq (d : List Byte) : Nat := fieldAt d 0x24 4

/-! ### Plan segment (Table 10.8) -/

/-- LEN of a segment is in range for its kind. -/
def segLenOk (kind len : Nat) : Bool :=
  match kind with
  | 1 => decide (len < 2 ^ 16)
  | 2 => decide (1 ≤ len) && decide (len ≤ 65536)
  | 5 => decide (len ≤ 4096)
  | _ => len == 0

/-- The fields of a segment are in range (R284, R285). A field that its kind does not use is reserved (R7). -/
def segFieldsOk (kind unit fl first src len base : Nat) : Bool :=
  let usesCourse := kind == 1 || kind == 3
  (decide (1 ≤ kind) && decide (kind ≤ 5)) && bitsOf unit 2 5 == 0 && (usesCourse || bitsOf unit 0 2 == 0) &&
  ((kind == 1 || kind == 2 || kind == 3) || unit == 0) && (if kind == 1 then decide (fl < 2 ^ 9) else fl == 0) &&
  (kind == 1 || first == 0) && (kind != 4 || src == 0) && segLenOk kind len && (usesCourse || base == 0)

/-- The fields of a segment's bytes are in range. -/
def segOk (b : List Byte) : Bool :=
  crcOk b 0x1C && zeroAt b 0x18 4 &&
  segFieldsOk (fieldAt b 0 1) (fieldAt b 1 1) (fieldAt b 2 2) (fieldAt b 4 4) (fieldAt b 8 8) (fieldAt b 0x10 4)
    (fieldAt b 0x14 4)

/-- The segment that 32 bytes hold. -/
def segOf (b : List Byte) : Seg :=
  let unit := fieldAt b 1 1
  let fl := fieldAt b 2 2
  { kind := fieldAt b 0 1, half := b2n (bitOf unit 7), course := 4 * b2n (bitOf unit 7) + bitsOf unit 0 2,
    affinity := bitsOf fl 0 2, eclass := bitsOf fl 2 3, slotShift := bitsOf fl 5 4,
    first := BitVec.ofNat 32 (fieldAt b 4 4), src := BitVec.ofNat 64 (fieldAt b 8 8), len := fieldAt b 0x10 4,
    descBase := fieldAt b 0x14 4 }

/-- A segment from its 32 bytes, when its SEG_CRC is right and its fields are in range. -/
def parseSeg (b : List Byte) : Option Seg := if segOk b then some (segOf b) else none

/-! ### Codec descriptors (Tables 13.3, 13.5, 13.7) -/

/-- CTX. -/
def cCtx (d : List Byte) : Nat := fieldAt d 0x20 1
/-- ENC_FRAME: width and height of the source plane. -/
def eSrcW (d : List Byte) : Nat := fieldAt d 0x24 2
def eSrcH (d : List Byte) : Nat := fieldAt d 0x26 2
/-- ENC_FRAME: IFMT, XFORM, SRC, pitch, chroma source, crop, destination. -/
def eFmt (d : List Byte) : Nat := fieldAt d 0x22 1
def eXform (d : List Byte) : Nat := fieldAt d 0x23 1
def eSrc (d : List Byte) : Nat := fieldAt d 0x28 8
def ePitch (d : List Byte) : Nat := fieldAt d 0x30 4
def eSrcSpace (d : List Byte) : Nat := bitsOf (fieldAt d 0x34 1) 0 2
def eDstSpace (d : List Byte) : Nat := bitsOf (fieldAt d 0x34 1) 4 2
def eSrcC (d : List Byte) : Nat := fieldAt d 0x38 8
def eCropX (d : List Byte) : Nat := fieldAt d 0x40 2
def eCropY (d : List Byte) : Nat := fieldAt d 0x42 2
def eCropW (d : List Byte) : Nat := fieldAt d 0x44 2
def eCropH (d : List Byte) : Nat := fieldAt d 0x46 2
def eDst (d : List Byte) : Nat := fieldAt d 0x48 8
def eCap (d : List Byte) : Nat := fieldAt d 0x50 4

/-- The body of ENC_FRAME is in range, apart from what its context decides (Table 13.5). `inList` says that the
descriptor stands in an encode list. -/
def encBodyOk (inList : Bool) (d : List Byte) : Bool :=
  decide (cCtx d < 4) && decide (fieldAt d 0x21 1 < 2) && decide (1 ≤ eFmt d) && decide (eFmt d ≤ 4) &&
  decide (eXform d < 8) && decide (1 ≤ eSrcW d) && decide (eSrcW d ≤ 8192) && decide (1 ≤ eSrcH d) &&
  decide (eSrcH d ≤ 8192) && ePitch d % 64 == 0 &&
  (fieldAt d 0x34 1 &&& 0xCC) == 0 && zeroAt d 0x35 3 &&
  (if inList then eSrcSpace d == 0 && (eDstSpace d == 0 || eDstSpace d == 2)
   else eSrcSpace d == 1 && (eDstSpace d == 1 || eDstSpace d == 2)) &&
  (decide (eFmt d ≤ 2) || eSrcC d == 0) &&
  eCropX d % 2 == 0 && eCropY d % 2 == 0 && eCropW d % 2 == 0 && eCropH d % 2 == 0 &&
  decide (1 ≤ eCropW d) && decide (1 ≤ eCropH d) &&
  decide (eCropX d + eCropW d ≤ eSrcW d) && decide (eCropY d + eCropH d ≤ eSrcH d) && zeroAt d 0x54 40

/-- The body of a codec descriptor is in range for its ring; `encRing` says that it is an encode ring (R383,
Table 13.3). -/
def codecBodyOk (encRing inList : Bool) (d : List Byte) : Bool :=
  match dOpc d with
  | 1 => decide (1 ≤ fieldAt d 0x28 1) && decide (fieldAt d 0x28 1 ≤ 32) && zeroAt d 0x29 83
  | 2 => decide (cCtx d < 4) && decide (1 ≤ fieldAt d 0x21 1) && decide (fieldAt d 0x21 1 ≤ 2) &&
         zeroAt d 0x22 6 && (encRing || fieldAt d 0x28 8 == 0) && zeroAt d 0x3C 64
  | 3 => encRing && encBodyOk inList d
  | 4 => !encRing && decide (cCtx d < 4) && (fieldAt d 0x21 1 == 1 || fieldAt d 0x21 1 == 2) &&
         decide (fieldAt d 0x22 1 < 2) && zeroAt d 0x23 1 && decide (1 ≤ fieldAt d 0x24 4) &&
         decide (fieldAt d 0x24 4 ≤ 2 ^ 26) && zeroAt d 0x30 76
  | 5 => !encRing && decide (cCtx d < 4) && zeroAt d 0x21 91
  | 6 => zeroAt d 0x24 88
  | 7 => decide (cCtx d < 4) && zeroAt d 0x21 91
  | _ => false

/-! ### Bodies that a consumer checks (R278 check 2) -/

/-- Job descriptor (Table 10.7, R319). -/
def jobBodyOk (d : List Byte) : Bool :=
  dOpc d == 1 && decide (jRoot d < 2 ^ 48) && jRoot d % 4096 == 0 && decide (1 ≤ jNseq d) && decide (jNseq d ≤ 4) &&
  decide (jFlags d < 8) && zeroAt d 0x2E 2 && decide (jPlan d < 2 ^ 48) && jPlan d % 64 == 0 &&
  decide (1 ≤ jNseg d) && decide (jNseg d ≤ 2 ^ 24) && jId d != 0 && jCkptAddr d % 4096 == 0 &&
  jCkptLen d % 4096 == 0 && (jResume d || jResumeSrc d == 0) &&
  (List.range 4).all (fun i => if i < jNseq d then jPlist d i % 64 == 0 else jPlist d i == 0) && zeroAt d 0x90 108

/-- MOVE descriptor of a DMA ring or of a MOVERS list (R303, R304). -/
def moveBodyOk (inList : Bool) (d : List Byte) : Bool :=
  let k := mvKind d
  if k = 2 then inList && zeroAt d 0x21 0x17 && zeroAt d 0x78 4
  else if k = 4 then inList
  else if k = 1 ∨ k = 3 then
    let spaces := fieldAt d 0x21 1
    decide (spaces < 16) && decide (fieldAt d 0x22 2 < 2) && zeroAt d 0x26 2 && zeroAt d 0x52 42 &&
    decide (mvRlen d % 64 = 0) && decide (64 ≤ mvRlen d) && decide (mvRlen d ≤ 0x400000) &&
    decide (mvSrc d % 64 = 0) && decide (mvDst d % 64 = 0) && decide (mvSstride d % 64 = 0) &&
    decide (mvDstride d % 64 = 0) &&
    (if inList then decide (mvDstSpace d ≤ 1)
     else k == 1 && (mvSrcSpace d == 1 || mvSrcSpace d == 2) && (mvDstSpace d == 1 || mvDstSpace d == 2)) &&
    (if k = 3 then mvSrcSpace d == 0 && mvSrc d == 0 && fieldAt d 0x24 4 == 0 && mvSstride d == 0 &&
        mvDstride d == 0 && decide (mvNseqi d < 4) && decide (mvNfmt d < 2)
     else zeroAt d 0x44 14)
  else false

/-- RESOLVE descriptor: the rest of the body zero, no FENCE (R310). -/
def resolveBodyOk (d : List Byte) : Bool := !(dFence d) && zeroAt d 0x23 1 && zeroAt d 0x28 84

/-- The bits that ARG0 to ARG3 of a management operation may set; others are reserved (R287, R7). -/
def mgmtMasks (opc : Nat) : Option (List Nat) :=
  let full := 2 ^ 64 - 1
  match opc with
  | 0x01 | 0x02 => some [full, full, 1, 0]
  | 0x03 | 0x05 => some [0xFFFFFFFF, 0, 0, 0]
  | 0x04 => some [0xFFFFFFFF, 1, full, full]
  | 0x10 => some [full, full, 1, 0]
  | 0x11 => some [1, 0, 0, 0]
  | 0x12 => some [0xFFF, 0xFFF, 0, 0]
  | 0x13 | 0x14 => some [7, 0, 0, 0]
  | 0x15 => some [full, full, 0xFFFFFFFF, 0]
  | 0x16 => some [0x3FFF, 0x7FFF, 1, 0]
  | 0x17 => some [0x31F, full, full, 0x800FFFFF]
  | 0x18 => some [full, full, 0x103, 0xFFFFFFFF]
  | _ => none

/-- Management descriptor (R287). -/
def mgmtBodyOk (d : List Byte) : Bool :=
  match mgmtMasks (dOpc d) with
  | none => false
  | some ms => (List.range 4).all (fun i => mArg d i &&& ms.getD i 0 == mArg d i) && zeroAt d 0x40 60

/-- Whether a descriptor of a ring is well formed (R278 check 2). -/
def descriptorOk (r : Nat) (d : List Byte) : Bool :=
  headerOk d && decide (dEvq d < (if r = 64 then 1 else 8)) &&
  (if r = 0 then jobBodyOk d
   else if r = 1 ∨ r = 64 then mgmtBodyOk d
   else if r < 18 then (dOpc d == 1 && moveBodyOk false d) || (dOpc d == 2 && resolveBodyOk d)
   else codecBodyOk (r % 2 == 0) false d)

end Sys2Proof.Machine
end

