-- ==== Sys2Proof/Machine/Ops.lean ====
section
/-! DEFINITION. Shared operations: units by number, records and their routing, the Gatehouse, memory errors and the
error queue, completions, ring halts, address translation, faults. -/

namespace Sys2Proof.Machine

/-! ### Units by number -/

def State.ring (s : State) (r : Nat) : Ring := s.rings.getD r {}
def State.modRing (s : State) (r : Nat) (f : Ring → Ring) : State := { s with rings := modifyNth f s.rings r }
def State.mover (s : State) (m : Nat) : Mover := s.movers.getD m {}
def State.modMover (s : State) (m : Nat) (f : Mover → Mover) : State := { s with movers := modifyNth f s.movers m }
def State.engine (s : State) (e : Nat) : Engine := s.engines.getD e {}
def State.modEngine (s : State) (e : Nat) (f : Engine → Engine) : State := { s with engines := modifyNth f s.engines e }
def State.course (s : State) (c : Nat) : Course := s.courses.getD c {}
def State.modCourse (s : State) (c : Nat) (f : Course → Course) : State := { s with courses := modifyNth f s.courses c }
def State.half (s : State) (h : Nat) : Half := s.halves.getD h {}
def State.modHalf (s : State) (h : Nat) (f : Half → Half) : State := { s with halves := modifyNth f s.halves h }
def State.stack (s : State) (n : Nat) : Stack := s.hbm.getD n {}
def State.modStack (s : State) (n : Nat) (f : Stack → Stack) : State := { s with hbm := modifyNth f s.hbm n }
def State.port (s : State) (p : Nat) : Port := s.fab.ports.getD p {}
def State.modPort (s : State) (p : Nat) (f : Port → Port) : State :=
  { s with fab := { s.fab with ports := modifyNth f s.fab.ports p } }
def State.codec (s : State) (c : Nat) : Codec := s.codecs.getD c {}
def State.modCodec (s : State) (c : Nat) (f : Codec → Codec) : State := { s with codecs := modifyNth f s.codecs c }

/-- Count one more free value drawn (log entry 8). -/
def State.drawn (s : State) : State := { s with free := s.free + 1 }

/-- Whether a unit, by source ID, is fenced or withdrawn (R424). -/
def State.isFenced (s : State) (u : Nat) : Bool :=
  s.rel.fenced.contains (BitVec.ofNat 16 u) || s.rel.withdrawn.contains (BitVec.ofNat 16 u)

/-- Whether an access lies in a stack that is fenced and not withdrawn: it holds under T2_FAIL (R233, R424). -/
def State.stackHeld (s : State) (a : Nat) : Bool :=
  decide (a < 0x10000000000) && s.rel.fenced.contains (BitVec.ofNat 16 (srcPraline (a / 0x1000000000)))

/-- Whether an address lies in a stack in thermal hold (R412). -/
def State.stackSlow (s : State) (a : Nat) : Bool :=
  decide (a < 0x10000000000) && s.pwr.thermalHold.getD (16 + a / 0x1000000000) false

/-- The half that holds the lease (R440). -/
def State.lead (s : State) : Option Nat := if s.rel.lease.holder < 2 then some s.rel.lease.holder else none

/-- The running job's descriptor. -/
def State.jobDesc (s : State) : List Byte := match s.job.cur with | some j => j.posted.bytes | none => []

/-- JOB_ID of the running job, or 0. -/
def State.jobId (s : State) : Nat := match s.job.cur with | some j => jId j.posted.bytes | none => 0

/-- Steps the running job has completed. -/
def State.jobStep (s : State) : Nat := match s.job.cur with | some j => j.step | none => 0

/-- Change the running job. -/
def State.modJob (s : State) (f : Job → Job) : State := { s with job := { s.job with cur := s.job.cur.map f } }

/-- Whether the always-on domain of I/O die 0 works: supplied, not halted by a supply loss (R413), not held by
MGT_RST_N once the module reset has taken hold (R473, R475). -/
def State.ioUp (s : State) : Bool :=
  s.pwr.railsOn && !s.pwr.halted && !(s.rel.pinActive.getD 4 false && s.mgt.resetPending.isNone)

/-- Whether a region answers: half A 0, half B 1, the host interface 2, the other I/O logic (host movers, ports, codec
engines) 3. A core rail's undervoltage hold stops its region (R405); after a thermal trip the rails of the halves and of
the I/O logic are off, while the host interface serves (R412, R423). -/
def State.regionUp (s : State) (h : Nat) : Bool :=
  s.ioUp && !(s.pwr.uvHold.getD (min h 2) false) && (h == 2 || !s.pwr.tripped)

/-- Whether a half's control cores work: its die answers, it is not fenced, and it is not reloading. -/
def State.halfUp (s : State) (h : Nat) : Bool :=
  s.regionUp h && !s.isFenced (srcHalf h) && !s.rel.reloading.contains (BitVec.ofNat 16 (srcHalf h))

/-- Whether the module manager serves: booted, supplied, not held in reset. -/
def State.mgrUp (s : State) : Bool := s.mgt.ready && s.ioUp

/-! ### Sequence counters (R52) -/

/-- The sequence number that the next record of a source carries. -/
def State.seqOf (s : State) (src : Nat) : Word := look 0 s.seqs src

/-- Advance a source's counter. -/
def State.bumpSeq (s : State) (src : Nat) : State := { s with seqs := store 0 s.seqs src (s.seqOf src + 1) }

/-! ### Records (R289 to R293) -/

/-- What caused a record: nothing, the running job, or a descriptor of a ring. -/
inductive Owner where
  | none
  | job
  | desc (ring : Nat) (d : List Byte)
  deriving DecidableEq, Repr

/-- The descriptor whose TAG and HTIME a record carries. -/
def State.ownerDesc (s : State) : Owner → List Byte
  | .none => []
  | .job => s.jobDesc
  | .desc _ d => d

/-- The PF0 event ring of a descriptor's EVQ; a value that names a disabled ring means event ring 0 (R277). -/
def State.evqRing (s : State) (d : List Byte) : Nat :=
  let r := 32 + dEvq d
  if dEvq d < 8 ∧ (s.ring r).en then r else 32

/-- The event ring that HIF_EVROUTE names for a kind. -/
def State.routed (s : State) (kind : Nat) : Nat := 32 + bitsOf s.hif.evroute.toNat (3 * routeGroup kind) 3

/-- The event rings of a record (R292). -/
def State.destinations (s : State) (kind : Nat) (o : Owner) : List Nat :=
  let main := match o with
    | .desc r d => if r ≥ 64 then 65 else s.evqRing d
    | _ => s.routed kind
  if main ≠ 65 ∧ (kind = kError ∨ kind = kMemError ∨ kind = kHostViol) then [main, 65] else [main]

/-- A record to post: kind, source, causing record (source 0: none), owner, body, and its rings where R292 names
them apart from the owner. -/
structure Post where
  kind : Nat
  src : Nat
  cause : Nat × Word := (0, 0)
  owner : Owner := .none
  body : List Byte
  rings : Option (List Nat) := none
  deriving DecidableEq, Repr

/-- The record of a post, with the source's next sequence number. -/
def State.record (s : State) (p : Post) : Rec :=
  let d := s.ownerDesc p.owner
  { kind := BitVec.ofNat 16 p.kind, src := BitVec.ofNat 16 p.src, boot := s.mgt.boot, seq := s.seqOf p.src,
    causeSrc := BitVec.ofNat 16 p.cause.1, causeSeq := p.cause.2,
    tag := BitVec.ofNat 32 (dTag d), htime := BitVec.ofNat 64 (dHtime d), body := padTo p.body 0x5C }

/-- Put a record into a ring's device-side queue (R293): a COMPLETION record always waits there, and its wait is
counted when the ring has no free slot; any other record is dropped and counted when 64 wait. -/
def State.enqueue (s : State) (r : Nat) (x : Rec) : State :=
  let g := s.ring r
  if x.kind = 1#16 then
    let s := if decide (g.unread < g.size) && !g.halted then s
      else { s with hif := { s.hif with evqHold := satAdd s.hif.evqHold 1 } }
    s.modRing r fun g => { g with evq := g.evq ++ [x] }
  else if g.evq.length < 64 then s.modRing r fun g => { g with evq := g.evq ++ [x] }
  else
    { s with hif := { s.hif with evqDrop := satAdd s.hif.evqDrop 1 } }.modRing r
      fun g => { g with dropped := satAdd g.dropped 1 }

/-- Post a record: each copy carries the same source and sequence number, and the source's counter advances. -/
def State.post (s : State) (p : Post) : State :=
  let x := s.record p
  let rs := p.rings.getD (s.destinations p.kind p.owner)
  (rs.foldl (fun s r => s.enqueue r x) s).bumpSeq p.src

/-- The 128 bytes of a record with its PHASE (Table 10.10). -/
def Rec.bytes (x : Rec) (phase : Bool) : List Byte :=
  withCrc (toLe (b2n phase) 1 ++ [1] ++ toLe x.kind.toNat 2 ++ toLe x.src.toNat 2 ++ toLe x.boot.toNat 2 ++
    toLe x.seq.toNat 4 ++ toLe x.causeSrc.toNat 2 ++ zeros 2 ++ toLe x.causeSeq.toNat 4 ++ toLe x.tag.toNat 4 ++
    toLe x.htime.toNat 8 ++ x.body)

/-! ### The Gatehouse (R464 to R466) -/

/-- Whether one window lets a write TLP pass (R466). -/
def Window.covers (w : Window) (addr len : Nat) (pasid : Option (BitVec 20)) (translated : Bool) : Bool :=
  w.en && decide (w.base ≤ addr) && decide (addr + len ≤ w.base + w.len) && (w.at' == translated) &&
  (match pasid with
   | none => !w.pv
   | some p => w.pv && w.pasid == p)

/-- Whether the Gatehouse lets a write TLP pass. -/
def State.ghPass (s : State) (addr len : Nat) (pasid : Option (BitVec 20)) (translated : Bool) : Bool :=
  s.sec.windows.any fun w => w.covers addr len pasid translated

/-- Present a TLP to the PCIe transmit queue. -/
def State.send (s : State) (t : Tlp) : State := { s with hif := { s.hif with tx := s.hif.tx ++ [t] } }

/-- Count a refusal in SEC_GH_REFUSE. -/
def State.countRefuse (s : State) : State := { s with sec := { s.sec with ghRefuse := satAdd s.sec.ghRefuse 1 } }

/-- An untranslated write to host memory, with the PASID of the job it is made for (R270), if any: sent, or refused and
counted. The Boolean says whether it passed. -/
def State.hostWrite (s : State) (fn : PFn) (addr : Nat) (data : List Byte) (ro ep : Bool)
    (pasid : Option (BitVec 20) := none) : Bool × State :=
  if s.ghPass addr data.length pasid false then (true, s.send (.write fn addr data ro ep pasid false))
  else (false, s.countRefuse)

/-- The function of a ring. -/
def fnOfRing (r : Nat) : PFn := if r < 64 then .pf0 else .pf1

/-- Signal an MSI-X vector: a masked vector sets its pending bit (R271); the message passes the Gatehouse, since
address and data are those of its table entry (R466). Vectors of PF1 are keyed from 2,048 on. -/
def State.msixKey (fn : PFn) (vec : Nat) : Nat := match fn with | .pf0 => vec | .pf1 => 2048 + vec

def State.signal (s : State) (fn : PFn) (vec : Nat) : State :=
  let k := State.msixKey fn vec
  let e := look {} s.hif.msix k
  let fm := match fn with | .pf0 => s.hif.fmask0 | .pf1 => s.hif.fmask1
  if e.masked || fm then { s with hif := { s.hif with pba := insertNat k s.hif.pba } }
  else s.send (.msix fn vec e.addr e.data)

/-! ### Consumer-index shadow, ring halts (R282, R291, R517) -/

/-- The 8-byte shadow value: CI in [23:0], HALTED in bit 24. -/
def shadowBytes (g : Ring) : List Byte := toLe (g.ci.toNat + (b2n g.halted) * 2 ^ 24) 8

/-- The rings of a RING_HALT record (R278, R292, R296). -/
def haltRings (r : Nat) : List Nat :=
  if r ≥ 64 then (if r = 65 then [] else [65]) else if 32 ≤ r then [65] else [32]

/-- Mark a ring halted and post RING_HALT. -/
def State.markHalt (s : State) (r cause slot seqRead : Nat) : State :=
  let s := s.modRing r fun g => { g with halted := true, hcause := BitVec.ofNat 3 cause }
  if haltRings r = [] then s
  else s.post { kind := kRingHalt, src := srcMgr, rings := some (haltRings r),
                body := toLe r 2 ++ toLe cause 2 ++ toLe slot 4 ++ toLe seqRead 4 }

/-- Write the consumer-index shadow of a descriptor ring; a refusal halts the ring with cause 6 and writes
nothing more (R276, R517). -/
def State.writeShadow (s : State) (r : Nat) : State :=
  let g := s.ring r
  match s.hostWrite (fnOfRing r) g.shadow.toNat (shadowBytes g) false false with
  | (true, s') => s'
  | (false, s') =>
    if g.halted then s'
    else (s'.markHalt r 6 g.ci.toNat 0).modRing r fun g => { g with refused := true }

/-- Halt a descriptor ring and show it in the shadow. -/
def State.haltRing (s : State) (r cause slot seqRead : Nat) : State := (s.markHalt r cause slot seqRead).writeShadow r

/-! ### Completions (R291) -/

/-- The consumer's source ID (Table 10.4); ring 0 is the lead half's. -/
def State.ringSource (s : State) (r : Nat) : Nat :=
  if r = 0 then srcHalf (s.lead.getD 0)
  else if r = 1 ∨ r = 64 then srcMgr
  else if r < 18 then srcMover (32 + (r - 2))
  else srcCodec ((r - 18) / 2)

/-- COMPLETION body. -/
def completionBody (r : Nat) (d : List Byte) (status jobId : Nat) (res0 : Nat) (resExt : List Byte) : List Byte :=
  toLe r 2 ++ toLe (dOpc d) 2 ++ toLe (dSeqField d) 4 ++ toLe status 2 ++ zeros 2 ++ toLe jobId 4 ++
  toLe res0 8 ++ padTo resExt 64

/-- Complete a descriptor: its COMPLETION record, which DFLAGS.NOREC leaves out on success (Table 10.5), goes to
its event ring; the consumer no longer has it in hand. -/
def State.complete (s : State) (r : Nat) (d : List Byte) (status : Nat) (jobId : Nat := 0) (res0 : Nat := 0)
    (resExt : List Byte := []) : State :=
  let s := s.modRing r fun g => { g with inHand := g.inHand - 1 }
  if status = stOk ∧ dNorec d then s
  else s.post { kind := kCompletion, src := s.ringSource r, owner := .desc r d,
                body := completionBody r d status jobId res0 resExt }

/-- The management ring of a function (Table 10.4). -/
def mgmtRing : PFn → Nat
  | .pf0 => 1
  | .pf1 => 64

/-- Announce an MCTP response: a vendor-defined message goes out on the PCI Express link; over I3C it waits behind an
in-band interrupt (R273, R511). -/
def State.sendMctp (s : State) (viaI3c : Bool) (bytes : List Byte) : State :=
  if viaI3c then
    { s with mgt := { s.mgt with mctp := s.mgt.mctp ++ [bytes] }, side := { s.side with i3cIbi := true } }
  else s.send (.vdm bytes)

/-- Answer a management descriptor: its completion on its ring, or an MCTP response that carries the completion record
(R273). That record is not of any ring's pass: its PHASE is free; its RING names ring 64 (log entry 32). -/
def State.respond (s : State) (via : Via) (d : List Byte) (status : Nat) (jobId : Nat := 0) (res0 : Nat := 0)
    (resExt : List Byte := []) : State :=
  match via with
  | .ring fn => s.complete (mgmtRing fn) d status jobId res0 resExt
  | .mctp viaI3c =>
    let x := s.record { kind := kCompletion, src := srcMgr, owner := .desc 64 d,
                        body := completionBody 64 d status jobId res0 resExt }
    ((s.bumpSeq srcMgr).sendMctp viaI3c (x.bytes (Config.freeBit s.free))).drawn

/-- Whether the consumer of a ring may take its oldest posted descriptor: none is held by a halt of cause 6, and a
FENCE descriptor waits until none is in hand (R277, R517). -/
def Ring.canTake (g : Ring) : Bool :=
  g.held.isNone &&
  match g.posted with
  | p :: _ => !(dFence p.bytes) || g.inHand == 0
  | [] => false

/-- Whether a ring's consumer holds (R293): a COMPLETION record of the ring waits for an event ring that has no free slot
or is halted (log entry 87). -/
def State.completionHeld (s : State) (r : Nat) : Bool :=
  s.rings.any fun g =>
    (decide (g.size ≤ g.unread) || g.halted) && g.evq.any fun x => x.kind == 1#16 && fieldAt x.body 0 2 == r

/-- Take the oldest posted descriptor of a ring. -/
def State.take (s : State) (r : Nat) : Option (Posted × State) :=
  let g := s.ring r
  match g.posted with
  | p :: rest =>
    if g.canTake && !s.completionHeld r then some (p, s.modRing r fun g => { g with posted := rest, inHand := g.inHand + 1 }) else none
  | [] => none

/-- A descriptor's own host write was refused: the ring halts with cause 6 and the consumer keeps its copy (R517,
second case). -/
def State.holdDescriptor (s : State) (r : Nat) (p : Posted) : State :=
  (s.haltRing r 6 p.idx 0).modRing r fun g => { g with held := some p, inHand := g.inHand - 1 }

/-! ### The error log and queue (R429 to R434) -/

/-- The 64 bytes of a log entry (Table 15.4). -/
def LogEntry.bytes (e : LogEntry) : List Byte :=
  withCrc (toLe e.lseq.toNat 4 ++ toLe e.boot.toNat 2 ++ toLe e.rung 1 ++ [e.lflags] ++ toLe e.src.toNat 2 ++
    toLe e.kind.toNat 2 ++ toLe e.seq.toNat 4 ++ toLe e.code.toNat 2 ++ [e.action, 0] ++ toLe e.unit.toNat 2 ++
    zeros 2 ++ toLe e.job.toNat 4 ++ toLe e.step.toNat 4 ++ toLe e.data 28)

/-- The log's ring part holds 32,192 entries and its pinned part 256 (R433). -/
def logRing : Nat := 32192
def logPinned : Nat := 256

/-- Enter an entry into the log under the next LSEQ. -/
def State.logAdd (s : State) (e : LogEntry) : State :=
  let e := { e with lseq := s.rel.logNext }
  let full := s.rel.log.length ≥ logRing
  let log := (if full then s.rel.log.drop 1 else s.rel.log) ++ [e]
  { s with rel := { s.rel with
      log := log
      logNext := s.rel.logNext + 1
      logOver := if full then s.rel.logOver + 1 else s.rel.logOver
      pinned := if e.rung ≥ 3 ∧ s.rel.pinned.length < logPinned then s.rel.pinned ++ [e] else s.rel.pinned } }

/-- The entry of an arrival. -/
def State.entryOf (s : State) (a : ErrArrival) (job : Word) (lflags action : Byte) : LogEntry :=
  { lseq := s.rel.logNext, boot := s.mgt.boot, rung := a.rung, lflags, src := a.src, kind := a.kind, seq := a.seq,
    code := a.code, action, unit := a.unit, job,
    step := if job = 0 then 0 else BitVec.ofNat 32 s.jobStep, data := a.data % 2 ^ 224 }

/-- Post the ERROR record of an entry (R434); a causing record of another source is named as its cause. -/
def State.postError (s : State) (e : LogEntry) : State :=
  let cause := if e.kind ≠ 0 ∧ e.src.toNat ≠ srcMgr then (e.src.toNat, e.seq) else (0, 0)
  s.post { kind := kError, src := srcMgr, cause, body := e.bytes,
           rings := if e.rung = 4 then some [32, 65] else none }

/-- Change the log entry of an LSEQ, in the ring part and in the pinned part. -/
def State.setAction (s : State) (lseq : Word) (act : Byte) : State :=
  let f := fun (e : LogEntry) => if e.lseq = lseq then { e with action := act } else e
  { s with rel := { s.rel with log := s.rel.log.map f, pinned := s.rel.pinned.map f } }

/-- Fold an overflowing error into the summary (R431). -/
def foldSummary (sum : Option Summary) (a : ErrArrival) (job : Word) : Summary :=
  match sum with
  | none => { rung := min 4 (a.rung + 1), first := a, job, count := 1 }
  | some m => { m with rung := max m.rung (min 4 (a.rung + 1)), count := m.count + 1 }

/-- An error reaches the module manager (R421, R429, R431): rung 0 is counted and logged; a higher rung is logged
and queued, or, when 16 wait, logged with OVF and folded into the summary. `retired` says that hardware has put a
page into retirement for it. -/
def State.arrive (s : State) (a : ErrArrival) (retired : Bool := false) : State :=
  let job := if a.forJob then BitVec.ofNat 32 s.jobId else 0
  if a.rung = 0 then
    let e := s.entryOf a job 0 aCounted
    let s := s.logAdd e
    if 0x300 ≤ a.code.toNat then s.postError e else s
  else if s.rel.queue.length < 16 then
    let e := s.entryOf a job 0 (if retired then aRetirement else aNone)
    let s := s.logAdd e
    { s with rel := { s.rel with queue := s.rel.queue ++ [{ a, lseq := e.lseq, job }] } }
  else
    let e := s.entryOf a job 1 (if retired then aRetirement else aNone)
    let s := (s.logAdd e).postError e
    { s with rel := { s.rel with
        queueOvf := satAdd s.rel.queueOvf 1
        summary := some (foldSummary s.rel.summary a job) } }

/-- An error without a causing record. -/
def plainError (rung : Fin 5) (code unit : Nat) (data : Nat := 0) (forJob : Bool := false) (src : Nat := srcMgr) :
    ErrArrival :=
  { rung, src := BitVec.ofNat 16 src, code := BitVec.ofNat 16 code, unit := BitVec.ofNat 16 unit, forJob, kind := 0,
    seq := 0, data }

/-! ### Memory errors (R225 to R233) -/

/-- Who reads (Table 8.10). -/
structure Reader where
  kind : Nat
  id : Nat
  owner : Owner := .none
  tile : Word := 0xFFFFFFFF
  epoch : BitVec 16 := 0
  deriving DecidableEq, Repr

/-- Table 8.10. -/
def memErrorBody (a cls syn bit : Nat) (rd : Reader) (count action : Nat) (index : Nat := 0) : List Byte :=
  toLe a 8 ++ toLe cls 1 ++ toLe syn 1 ++ toLe bit 1 ++ toLe rd.kind 1 ++ toLe rd.id 2 ++ toLe count 2 ++
  toLe rd.tile.toNat 4 ++ toLe rd.epoch.toNat 2 ++ toLe action 1 ++ zeros 1 ++ toLe index 4

/-- Whether a queued record is the MEM_ERROR record of a sequence number; `n` is that number plus one, 0 where there is
none. -/
def State.isMemRec (s : State) (n : Nat) (x : Rec) : Bool :=
  x.kind == 0x30#16 && x.boot == s.mgt.boot && x.seq.toNat + 1 == n

/-- Add an event to a record that is not yet written: COUNT saturates at 65,535; ACTION bits join (R228). -/
def bumpMemRec (action : Nat) (x : Rec) : Rec :=
  let n := min (fieldAt x.body 0xC 2 + 1) 65535
  let act := fieldAt x.body 0x16 1 ||| action
  { x with body := putAt (putAt x.body 0xC (toLe n 2)) 0x16 (toLe act 1) }

/-- Whether a page can be retired: HBM, firmware region included, or the job part of a course buffer (R231). -/
def State.retirable (s : State) (page : Nat) : Bool :=
  match s.region (page * 0x10000) with
  | .hbm _ | .firmware | .jobPart _ => true
  | _ => false

/-- Pages of a stack that are pending or retired. -/
def State.stackPages (s : State) (n : Nat) : Nat :=
  (s.rel.pages.filter fun p => decide (p.1 / 0x100000 = n)).length

/-- Put a page into pending retirement: the vault's list, and its cached translations go (R231, R215). -/
def State.pendPage (s : State) (page : Nat) : State :=
  let inPage := fun (t : Tlb) =>
    let frame := (t.entry.toNat / 0x10000) % 2 ^ 32
    decide (bitsOf t.entry.toNat 3 2 = 0) &&
      (if t.big then decide (frame / 512 = page / 512) else decide (frame = page))
  { s with
    rel := { s.rel with pages := store 0 s.rel.pages page 1 }
    halves := s.halves.map fun h => { h with tcache := h.tcache.filter fun t => !inPage t } }

/-- Whether a page lies in a stack whose pages in retirement have reached the limit (R232). -/
def State.atPageLimit (s : State) (page : Nat) : Bool :=
  decide (page < 0x1000000) && decide (s.stackPages (page / 0x100000) ≥ s.regs.stackLimit)

/-- What is reported of a flawed word: its syndrome and address, the class (1 CE, 2 UE, 3 poisoned word on a demand read;
4 and 5 by scrub), the bit, the rung, whether its page goes into retirement, whether the event is the page's first. -/
structure WordEvent where
  syn : BitVec 7
  addr : Nat
  cls : Nat
  bit : Nat
  rung : Fin 5
  pend : Bool
  fresh : Bool
  deriving DecidableEq, Repr

/-- The record of the page and pass of an event, as `isMemRec` takes it. -/
def Rel.openOf (x : Rel) (v : WordEvent) : Nat := look 0 (if v.cls = 3 then x.poisRec else x.ceRec) (v.addr / 0x10000)

/-- The record of a page's first CE or first poisoned word of the pass stands open for more (R228). -/
def Rel.openRecord (x : Rel) (v : WordEvent) (n : Nat) : Rel :=
  if ¬ v.fresh then x
  else if v.cls = 3 then { x with poisRec := store 0 x.poisRec (v.addr / 0x10000) n }
  else if v.rung = 0 then { x with ceRec := store 0 x.ceRec (v.addr / 0x10000) n }
  else x

/-- The MEM_ERROR record of an event: a new one, or one more count in a record that still waits (R228). -/
def State.recordWord (s : State) (rd : Reader) (v : WordEvent) (action : Nat) : State :=
  let first := s.rel.openOf v
  let queued := s.rings.any fun g => g.evq.any (s.isMemRec first)
  if v.fresh || (v.pend && !queued) then
    let seq := s.seqOf srcMgr
    let s := State.post { s with rel := s.rel.openRecord v (seq.toNat + 1) }
      { kind := kMemError, src := srcMgr, owner := rd.owner, body := memErrorBody v.addr v.cls v.syn.toNat v.bit rd 1 action }
    s.modJob fun j => { j with firstMem := some (j.firstMem.getD seq) }
  else if queued then
    { s with rings := s.rings.map fun g =>
        { g with evq := g.evq.map fun x => if s.isMemRec first x then bumpMemRec action x else x } }
  else s

/-- The error that an event hands to the ladder; `seq` is the number of its record. -/
def State.reportWord (s : State) (rd : Reader) (v : WordEvent) (seq : Word) : State :=
  if v.rung ≠ 0 ∧ ¬ v.fresh then s
  else s.arrive { rung := v.rung, src := BitVec.ofNat 16 srcMgr, code := BitVec.ofNat 16 (0x100 + v.cls), unit := 0,
                  forJob := decide (rd.owner = .job), kind := if v.fresh then 0x30 else 0,
                  seq := if v.fresh then seq else 0, data := v.addr } v.pend

/-- An event of a flawed word: its page's retirement, its record, its error, and the stack's limit (R228, R231, R232). -/
def State.wordEvent (s : State) (rd : Reader) (v : WordEvent) : State :=
  let page := v.addr / 0x10000
  let s := if v.pend then s.pendPage page else s
  let lim := v.pend && s.atPageLimit page
  let action := b2n v.pend + 2 * b2n (decide (rd.tile ≠ 0xFFFFFFFF) && decide (v.rung ≠ 0)) + 4 * b2n lim
  let seq := s.seqOf srcMgr
  let s := (s.recordWord rd v action).reportWord rd v seq
  if lim then s.arrive (plainError 3 eStackLimit (srcPraline (page / 0x100000)) v.addr) else s

/-- A word is read, on demand or by the scrubber: its counter and what is reported of it (R225, R228, R229). -/
def State.noteWord (s : State) (rd : Reader) (scrub : Bool) (w : Nat) : State :=
  let syn := s.mem.syn w
  let a := 4 * w
  let page := a / 0x10000
  let listed := decide (look 0 s.rel.pages page ≠ 0)
  match synClass syn with
  | .clean => s
  | .ce bit =>
    let n := look 0 s.rel.ceCount page + 1
    let s := { s with regs := { s.regs with ceCnt := satAdd s.regs.ceCnt 1 }
                      rel := { s.rel with ceCount := store 0 s.rel.ceCount page n } }
    let pend := decide (s.regs.ceRetire ≠ 0) && decide (n ≥ s.regs.ceRetire) && !listed && s.retirable page
    s.wordEvent rd { syn, addr := a, cls := if scrub then 4 else 1, bit, rung := 0, pend, fresh := n == 1 }
  | .ue =>
    let s := { s with regs := { s.regs with ueCnt := satAdd s.regs.ueCnt 1 } }
    s.wordEvent rd { syn, addr := a, cls := if scrub then 5 else 2, bit := 0xFF, rung := 1,
                     pend := !listed && s.retirable page, fresh := true }
  | .poison =>
    let s := { s with regs := { s.regs with poisonCnt := satAdd s.regs.poisonCnt 1 } }
    if scrub then s
    else
      let fresh := !s.rel.poisSeen.contains page
      State.wordEvent { s with rel := { s.rel with poisSeen := insertNat page s.rel.poisSeen } } rd
        { syn, addr := a, cls := 3, bit := 0xFF, rung := 1, pend := false, fresh }

/-- A flawed word of an SRAM array without a device address: its counter, and a record of its own that reports the class
and the place in the array (R224, R228; log entry 88). -/
def State.noteArray (s : State) (rd : Reader) (index : Nat) (ue : Bool) : State :=
  let cls := if ue then 2 else 1
  let regs := if ue then { s.regs with ueCnt := satAdd s.regs.ueCnt 1 } else { s.regs with ceCnt := satAdd s.regs.ceCnt 1 }
  let action := 2 * b2n (ue && decide (rd.tile ≠ 0xFFFFFFFF))
  let seq := s.seqOf srcMgr
  let s := State.post { s with regs }
    { kind := kMemError, src := srcMgr, owner := rd.owner, body := memErrorBody 0 cls 0 0xFF rd 1 action index }
  (s.modJob fun j => { j with firstMem := some (j.firstMem.getD seq) }).arrive
    { rung := if ue then 1 else 0, src := BitVec.ofNat 16 srcMgr, code := BitVec.ofNat 16 (0x100 + cls), unit := 0,
      forJob := decide (rd.owner = .job), kind := 0x30, seq, data := 0 }

/-- Read memory: the bytes delivered, whether a word was bad, and the state with the rows opened and every error counted
and reported (R210, R225, R228). -/
def State.readMem (s : State) (rd : Reader) (a len : Nat) : List Byte × Bool × State :=
  (s.peek a len, s.mem.anyBad a len, (s.mem.flawed a len).foldl (fun s w => s.noteWord rd false w) (s.touchRows a len))

/-! ### Address translation (R212 to R216) -/

/-- The outcome of a translation: a target and address; one cause of Table 8.6 with the level, the entry and where it was
read; or an entry that lies in a fenced stack, for which the walk holds under T2_FAIL (R233). -/
inductive Xlate where
  | ok (tgt addr : Nat)
  | held
  | bad (cause : Nat) (level : Nat) (entry : Nat) (eaddr : Nat)
  deriving DecidableEq, Repr

/-- Low bit of the index of a level (R212). -/
def levelShift (l : Nat) : Nat := 16 + 9 * l

/-- XL_MALFORMED of Table 8.6, for an entry read at a level. -/
def State.entryMalformed (s : State) (level e : Nat) : Bool :=
  let leaf := bitOf e 2
  let tgt := bitsOf e 3 2
  let w := bitOf e 1
  let rsv := bitsOf e 5 7 != 0
  if leaf then
    let top := match tgt with
      | 0 => bitsOf e 48 16 != 0
      | 2 => bitsOf e 62 2 != 0
      | _ => false
    let base := bitsOf e 16 32 * 0x10000
    let span := if level = 1 then 0x2000000 else 0x10000
    let badFrame := tgt == 0 &&
      !((List.range (span / 0x10000)).all fun i => (s.region (base + i * 0x10000)).hostOk)
    rsv || level ≥ 2 || tgt == 3 || (w && tgt != 0) || bitsOf e 12 4 != 0 || top ||
      (level == 1 && bitsOf e 16 9 != 0) || badFrame
  else
    let t := bitsOf e 12 36 * 0x1000
    rsv || level == 0 || tgt != 0 || bitsOf e 48 16 != 0 ||
      !(s.region t).isHbm

/-- Whether the 64 KiB page of a device address is retired, or lies in a withdrawn stack (R216, R232, R427). -/
def State.pageRetired (s : State) (a : Nat) : Bool :=
  look 0 s.rel.pages (a / 0x10000) == 2 ||
  (decide (a < 0x10000000000) && s.rel.withdrawn.contains (BitVec.ofNat 16 (srcPraline (a / 0x1000000000))))

/-- The tests at the leaf, in their order: XL_T3_STAGE, XL_RETIRED, XL_WRITE_PROT (R214). -/
def State.leafResult (s : State) (ja : Nat) (isWrite staging : Bool) (level e eaddr : Nat) : Xlate :=
  let tgt := bitsOf e 3 2
  let span := if level = 1 then 0x2000000 else 0x10000
  let a := if tgt = 1 then bitsOf e 16 48 * 0x10000 + ja % span
           else if tgt = 2 then bitsOf e 16 46 * 0x10000 + ja % span
           else bitsOf e 16 32 * 0x10000 + ja % span
  if staging ∧ tgt ≠ 0 then .bad fXlT3Stage level e eaddr
  else if tgt = 0 ∧ s.pageRetired a then .bad fXlRetired level e eaddr
  else if isWrite ∧ ¬ bitOf e 1 then .bad fXlWriteProt level e eaddr
  else .ok tgt a

/-- What a walk finds in the entry of a level: its end, with the leaf to cache, or the table of the next level. -/
inductive WalkStep where
  | ends (x : Xlate) (leaf : Option (Nat × Nat × Nat))
  | down (table : Nat)
  deriving DecidableEq, Repr

/-- Where the entry of a job address lies in a level's table. -/
def entryAddr (ja level table : Nat) : Nat :=
  table + 8 * bitsOf ja (levelShift level) (if level = 3 then 5 else 9)

/-- Judge an entry read at a level; `bad` says that its word was bad (R214, R216). -/
def State.judgeEntry (s : State) (ja : Nat) (isWrite staging : Bool) (level eaddr e : Nat) (bad : Bool) : WalkStep :=
  if bad then .ends (.bad fXlPoison level e eaddr) none
  else if ¬ bitOf e 0 then .ends (.bad fXlNotPresent level e eaddr) none
  else if s.entryMalformed level e then .ends (.bad fXlMalformed level e eaddr) none
  else if bitOf e 2 then .ends (s.leafResult ja isWrite staging level e eaddr) (some (level, e, eaddr))
  else .down (bitsOf e 12 36 * 0x1000)

/-- Read and judge the entry of a level; `rd` is the unit that reads the tables. -/
def State.walkEntry (s : State) (rd : Reader) (ja : Nat) (isWrite staging : Bool) (level table : Nat) :
    WalkStep × State :=
  if s.stackHeld (entryAddr ja level table) then (.ends .held none, s)
  else
  let r := s.readMem rd (entryAddr ja level table) 8
  (r.2.2.judgeEntry ja isWrite staging level (entryAddr ja level table) (leNat r.1) r.2.1, r.2.2)

/-- One walk from a level down (R214, R216). A level 0 entry is a leaf or malformed. -/
def walkLevels (rd : Reader) (ja : Nat) (isWrite staging : Bool) :
    Nat → Nat → State → Xlate × Option (Nat × Nat × Nat) × State
  | 0, table, s =>
    match s.walkEntry rd ja isWrite staging 0 table with
    | (.ends x leaf, s) => (x, leaf, s)
    | (.down _, s) => (.bad fXlMalformed 0 0 (entryAddr ja 0 table), none, s)
  | l + 1, table, s =>
    match s.walkEntry rd ja isWrite staging (l + 1) table with
    | (.ends x leaf, s) => (x, leaf, s)
    | (.down t, s) => walkLevels rd ja isWrite staging l t s

/-- Whether a cached leaf maps a job address. -/
def Tlb.hits (t : Tlb) (ja : Nat) : Bool :=
  if t.big then ja / 0x2000000 == t.base / 512 else ja / 0x10000 == t.base

/-- Keep a leaf in a half's cache of 4,096; the entry that a full cache replaces is free (R215). -/
def State.cacheLeaf (s : State) (h ja level e eaddr : Nat) : State :=
  let t : Tlb := { base := ja / 0x10000 - (if level = 1 then (ja / 0x10000) % 512 else 0), big := level == 1,
                   entry := BitVec.ofNat 64 e, eaddr }
  let hf := s.half h
  if hf.tcache.length < 4096 then s.modHalf h fun x => { x with tcache := x.tcache ++ [t] }
  else
    let k := Config.freeIndex s.free 4096 % 4096
    (s.modHalf h fun x => { x with tcache := x.tcache.set k t }).drawn

/-- Translate a job address for a unit of half `h` through the job's table: the half's cache first, then a walk
from the root, which table addresses outside HBM end in XL_MALFORMED (Table 8.6). A failed walk is not cached
(R215). -/
def State.translate (s : State) (h : Nat) (rd : Reader) (ja : Nat) (isWrite staging : Bool) : Xlate × State :=
  match (s.half h).tcache.find? (fun t => t.hits ja) with
  | some t => (s.leafResult ja isWrite staging (b2n t.big) t.entry.toNat t.eaddr, s)
  | none =>
    let root := jRoot s.jobDesc
    if ¬ (s.region root).isHbm ∨ root % 0x1000 ≠ 0 then
      (.bad fXlMalformed 3 0 0, s)
    else
      let r := walkLevels rd ja isWrite staging 3 root s
      match r.1, r.2.1 with
      | .ok tgt a, some (level, e, eaddr) => (.ok tgt a, r.2.2.cacheLeaf h ja level e eaddr)
      | x, _ => (x, r.2.2)

/-- Job-address bytes read for control: from local memory through the translation; `none` where a translation
fails or leads to T3 or a bad word shows. Pieces end at 64 KiB boundaries; `fuel` bounds them. -/
def readJobFuel (h : Nat) (rd : Reader) (staging : Bool) : Nat → State → Nat → Nat →
    Except Xlate (List Byte × Bool) × State
  | 0, s, _, _ => (.ok ([], false), s)
  | fuel + 1, s, ja, len =>
    if len = 0 then (.ok ([], false), s)
    else
      let n := min len (0x10000 - ja % 0x10000)
      match s.translate h rd ja false staging with
      | (.ok 0 a, s) =>
        if s.stackHeld a then (.error .held, s)
        else
        let r := s.readMem rd a n
        match readJobFuel h rd staging fuel r.2.2 (ja + n) (len - n) with
        | (.ok (bs, b), s) => (.ok (r.1 ++ bs, r.2.1 || b), s)
        | (.error x, s) => (.error x, s)
      | (x, s) => (.error x, s)

/-- Read bytes at a job address that must lie in T1 or T2. -/
def State.readJob (s : State) (h : Nat) (rd : Reader) (staging : Bool) (ja len : Nat) :
    Except Xlate (List Byte × Bool) × State :=
  readJobFuel h rd staging (len / 0x10000 + 2) s ja len

/-! ### Faults (R308, R309, R312) -/

/-- The fault that a unit holds. -/
def State.faultOf (s : State) : FaultUnit → Option HeldFault
  | .engine e => (s.engine e).fault
  | .mover m => (s.mover m).fault
  | .steward c => (s.course c).stewardFault
  | .counter c => (s.course c).counterFault
  | .sorter c => (s.course c).sortFault
  | .praline n => (s.stack n).fault

/-- Set the fault that a unit holds; an engine or mover then shows FAULT_WAIT. Where an engine's fault ends and a second one
was raised behind it, that one is held next (R118). -/
def State.setFault (s : State) (u : FaultUnit) (f : Option HeldFault) : State :=
  let hold : Byte := if f.isSome then 7 else 0
  match u with
  | .engine e => s.modEngine e fun x =>
    match f, x.fault2 with
    | none, some g => { x with fault := some g, fault2 := none, hold := 7 }
    | _, _ => { x with fault := f, hold }
  | .mover m => s.modMover m fun x => { x with fault := f, hold }
  | .steward c => s.modCourse c fun x => { x with stewardFault := f }
  | .counter c => s.modCourse c fun x => { x with counterFault := f }
  | .sorter c => s.modCourse c fun x => { x with sortFault := f }
  | .praline n => s.modStack n fun x => { x with fault := f }

/-- Sequence number of the unit's RESTART record, when its repeated work has not yet succeeded (R329). -/
def State.lastRestart (s : State) : FaultUnit → Option Word
  | .engine e => (s.engine e).lastRestart
  | .mover m => (s.mover m).lastRestart
  | .steward c | .counter c | .sorter c => (s.course c).lastRestart
  | .praline _ => none

def State.setLastRestart (s : State) (u : FaultUnit) (w : Option Word) : State :=
  match u with
  | .engine e => s.modEngine e fun x => { x with lastRestart := w }
  | .mover m => s.modMover m fun x => { x with lastRestart := w }
  | .steward c | .counter c | .sorter c => s.modCourse c fun x => { x with lastRestart := w }
  | .praline _ => s

/-- The 16 bytes of a restart point (Table 11.2). -/
def Restart.bytes (r : Restart) : List Byte :=
  toLe r.dseq.toNat 4 ++ toLe r.row.toNat 4 ++ toLe r.off.toNat 4 ++ [r.rkind, r.walk] ++ zeros 2

/-- FAULT body (Table 11.4). -/
def faultBody (f : HeldFault) (jobId step : Nat) : List Byte :=
  toLe f.cause.toNat 2 ++ toLe (b2n f.host) 1 ++ [f.access] ++ toLe jobId 4 ++ toLe f.faddr.toNat 8 ++ [f.space] ++
  [f.nak] ++ zeros 2 ++ toLe f.tile.toNat 4 ++ toLe f.epoch.toNat 2 ++ zeros 2 ++ f.restart.bytes ++
  toLe f.entry.toNat 8 ++ toLe f.eaddr.toNat 8 ++ toLe step 4

/-- A fault of a cause, with nothing else set. -/
def newFault (cause : Nat) : HeldFault := { cause := BitVec.ofNat 16 cause, host := hostResolved cause }

/-- Raise a fault: the unit posts its FAULT record and holds. A second fault during a restart names the RESTART
record as its cause (R329), unless another cause is given. -/
def State.raiseFault (s : State) (u : FaultUnit) (f : HeldFault) (owner : Owner := .job)
    (cause : Nat × Word := (0, 0)) : State :=
  let seq := s.seqOf (srcOf u)
  let why := if cause.1 ≠ 0 then cause else match s.lastRestart u with
    | some w => (srcOf u, w)
    | none => (0, 0)
  let inJob := decide (owner = .job)
  let s := s.post { kind := kFault, src := srcOf u, cause := why, owner,
                    body := faultBody f (if inJob then s.jobId else 0) (if inJob then s.jobStep else 0) }
  s.setFault u (some { f with seq, ofJob := inJob })

/-- OUTCOME of FAULT_RESOLVED (R312). -/
inductive FaultEnd where
  | retry
  | escalated
  | cancelled
  | abandoned
  deriving DecidableEq, Repr

def FaultEnd.code : FaultEnd → Nat
  | .retry => 1 | .escalated => 2 | .cancelled => 3 | .abandoned => 4

/-- Who resolves a unit's fault: firmware at the unit's own level (R18), the host through the half supervisor of
the unit or the module manager. -/
def resolverSrc (u : FaultUnit) (byHost : Bool) : Nat :=
  match u with
  | .mover m => if m.val < 32 then srcHalf (m / 16) else srcMgr
  | .praline _ => srcMgr
  | .engine e => if byHost then srcHalf (e / 32) else srcSteward (e / 8)
  | .steward c | .counter c | .sorter c => if byHost then srcHalf (c / 4) else srcSteward c

/-- The owner of a held fault's records: the job, or the DMA descriptor of the mover. -/
def State.faultOwner (s : State) (u : FaultUnit) (f : HeldFault) : Owner :=
  if f.ofJob then .job
  else match u with
    | .mover m => match (s.mover m).cur with
      | some t => match t.ring with
        | some r => .desc r t.bytes
        | none => .none
      | none => .none
    | _ => .none

/-- Post FAULT_RESOLVED for a held fault (R312). -/
def State.postResolved (s : State) (u : FaultUnit) (f : HeldFault) (out : FaultEnd) (byHost : Bool) : State :=
  s.post { kind := kFaultResolved, src := resolverSrc u byHost, cause := (srcOf u, f.seq), owner := s.faultOwner u f,
           body := toLe f.cause.toNat 2 ++ toLe out.code 1 ++ toLe (b2n byHost) 1 }

/-- End a held fault (R312): FAULT_RESOLVED names the fault record; RESTART names FAULT_RESOLVED, except after
CANCELLED and ESCALATED. -/
def State.settleFault (s : State) (u : FaultUnit) (out : FaultEnd) (byHost : Bool) : State :=
  match s.faultOf u with
  | none => s
  | some f =>
    let owner := s.faultOwner u f
    let rs := resolverSrc u byHost
    let seq := s.seqOf rs
    let s := s.postResolved u f out byHost
    let s := s.setFault u none
    match out with
    | .cancelled | .escalated => s.setLastRestart u none
    | _ =>
      let w := s.seqOf (srcOf u)
      let s := s.post { kind := kRestart, src := srcOf u, cause := (rs, seq), owner,
                        body := f.restart.bytes ++ toLe (if f.ofJob then s.jobId else 0) 4 }
      s.setLastRestart u (if out = .retry then some w else none)

/-! ### Stall counters (R236) -/

/-- Add one stage to a stall counter (log entry 7). -/
def bumpStall (l : List (BitVec 48)) (code : Nat) : List (BitVec 48) := modifyNth (fun c => satAdd c 1) l code

/-- The sum of each stall cause over the job's units: a host mover, which serves its DMA ring, is none (R236, R300). -/
def State.stallSums (s : State) : List Nat :=
  let all := (s.movers.take 32).map (·.stalls) ++ s.engines.map (·.stalls) ++ s.courses.map (·.stalls) ++ s.hbm.map (·.stalls) ++
    s.fab.ports.map (·.stalls)
  (List.range 32).map fun k => (all.map fun l => (l.getD k 0).toNat).sum

/-- The progress watchdog starts its count anew (R58). -/
def State.restartWatch (s : State) : State := { s with mgt := { s.mgt with wdogCount := 0, wdogBase := s.stallSums } }

/-- An engine holds under a cause. -/
def State.stallEngine (s : State) (e code : Nat) : State :=
  s.modEngine e fun x => { x with stalls := bumpStall x.stalls code, hold := BitVec.ofNat 8 code }

/-- A tile mover holds under a cause. -/
def State.stallMover (s : State) (m code : Nat) : State :=
  s.modMover m fun x => { x with stalls := bumpStall x.stalls code, hold := BitVec.ofNat 8 code }

/-- The cause under which a unit holds while a fault of its waits: a lost link under T3_PEER_FAIL, a completion time-out under
T3_HOST_FAIL, any other under FAULT_WAIT (Table 8.13, R352). -/
def faultStall (cause : Nat) : Nat :=
  if cause = fLinkLost then wT3PeerFail else if cause = fT3Timeout then wT3HostFail else wFaultWait

/-- A mover whose fault waits counts the hold. -/
def State.stallFault (s : State) (m : Nat) : State :=
  match (s.mover m).fault with
  | some f => s.stallMover m (faultStall f.cause.toNat)
  | none => s

end Sys2Proof.Machine
end

