-- ==== Sys2Proof/Machine/Image.lean ====
section
/-! DEFINITION. Fabric image files: configuration and route words, sections, parameter blocks, address generator
programs, vector instructions, the checks of verification, and the plane that a load fills (03 R61 to R66, R79 to R86;
04 R98, R100, R102, R110; 05 R128, R129). -/

namespace Sys2Proof.Machine

/-! ### Configuration and route words (Tables 3.1 to 3.4) -/

/-- A field of a slot word. -/
def wf (w : DWord) (lo len : Nat) : Nat := bitsOf w.toNat lo len

def cOpc (w : DWord) : Nat := wf w 58 6
def cWfmt (w : DWord) : Nat := wf w 54 4
def cAfmt (w : DWord) : Nat := wf w 50 4
def cAsrc (w : DWord) : Nat := wf w 47 3
def cPsrc (w : DWord) : Nat := wf w 44 3
def cDst (w : DWord) : Nat := wf w 41 3
def cRfw (w : DWord) : Nat := wf w 35 6
def cRfInc (w : DWord) : Nat := wf w 29 6
def cAccRow (w : DWord) : Nat := wf w 24 5
def cRep (w : DWord) : Nat := wf w 16 8
def cNext (w : DWord) : Nat := wf w 11 5
def cLast (w : DWord) : Bool := w.getLsbD 10
def cScale (w : DWord) : Nat := wf w 7 3

/-- Source code of an output: 0 N, 1 E, 2 S, 3 W. -/
def rSel (w : DWord) (side : Nat) : Nat := wf w (60 - 4 * side) 4
/-- Added stages of an output. -/
def rDly (w : DWord) (side : Nat) : Nat := wf w (44 - 4 * side) 4

def opNop : Nat := 0
def opMac : Nat := 1
def opPass : Nat := 2
def opLdw : Nat := 3
def opEmax : Nat := 4
def opEadd : Nat := 5

/-- A floating pair of Table 3.1. -/
def floatW (w : Nat) : Bool := decide (0xA ≤ w) && decide (w ≤ 0xD)
/-- A microscaling pair (R95). -/
def mxW (w : Nat) : Bool := w == 0xA || w == 0xB || w == 0xC

/-- K of a format pair, where the pair is legal (Table 3.1). -/
def pairK (w a : Nat) : Option Nat :=
  if (w = 1 ∨ w = 2 ∨ w = 9) ∧ a = 8 then some 32
  else if (w = 3 ∨ w = 4) ∧ (a = 4 ∨ a = 8) then some 16
  else if 5 ≤ w ∧ w ≤ 8 ∧ a = 8 then some 8
  else if (w = 0xA ∨ w = 0xB) ∧ (a = 0xA ∨ a = 0xB) then some 8
  else if w = 0xC ∧ a = 0xC then some 16
  else if w = 0xD ∧ a = 0xD then some 2
  else none

/-- The largest power of two `n` up to 256 with `n × p` at most 2^19 − 1 (R98). -/
def runLimit (p : Nat) : Nat :=
  ([256, 128, 64, 32, 16, 8, 4, 2].find? fun n => decide (n * p ≤ 2 ^ 19 - 1)).getD 1

/-- RUN_LEN limit of a format pair (Table 4.3). -/
def pairLimit (w a : Nat) : Nat :=
  if floatW w then 256
  else runLimit ((if w = 1 ∨ w = 9 then 1 else 2 ^ (w - 1)) * (if a = 8 then 128 else 8))

/-- A configuration word and route word are well formed (R61, R64 to R66). -/
def slotOk (c r : DWord) : Bool :=
  let op := cOpc c
  decide (op ≤ 5) && wf c 0 7 == 0 && decide (cAsrc c ≤ 4) && decide (cPsrc c ≤ 4) && decide (cDst c ≤ 2) &&
  (if op = opMac then (pairK (cWfmt c) (cAfmt c)).isSome && (mxW (cWfmt c) || cScale c == 0)
   else cWfmt c == 0 && cAfmt c == 0 && cScale c == 0) &&
  wf r 0 32 == 0 &&
  (List.range 4).all fun d =>
    let x := rSel r d
    decide (x ≤ 6) && x != d + 1 && (x != 5 || ((op == opMac || op == opEmax || op == opEadd) && cDst c == 2)) &&
    (x != 6 || op != opNop)

/-! ### Parameter blocks (Table 3.9) -/

def phLen (b : List Byte) : Nat := fieldAt b 0 2
def phEntry (b : List Byte) : Nat := fieldAt b 3 1
def phWest (b : List Byte) : Nat := fieldAt b 4 1
def phPol (b : List Byte) : Nat := fieldAt b 5 1
def phRunLen (b : List Byte) : Nat := fieldAt b 6 2
def phAccMode (b : List Byte) : Nat := fieldAt b 8 1
def phFuse (b : List Byte) : Nat := fieldAt b 9 1
def phFmt (b : List Byte) : Nat := fieldAt b 0xA 1
def phElem (b : List Byte) : Nat := fieldAt b 0xB 1
/-- Offset of a program: A at 0x0C, B at 0x0E, C at 0x10. -/
def phAgOff (b : List Byte) : AgId → Nat
  | .a => fieldAt b 0xC 2
  | .b => fieldAt b 0xE 2
  | .c => fieldAt b 0x10 2
def phVecOff (b : List Byte) : Nat := fieldAt b 0x12 2
def phVecLen (b : List Byte) : Nat := fieldAt b 0x14 2
def phConstOff (b : List Byte) : Nat := fieldAt b 0x16 2
def phConstLen (b : List Byte) : Nat := fieldAt b 0x18 1

/-- The program of an address generator, where the phase uses it. -/
def phProg (b : List Byte) (g : AgId) : Option (List Byte) :=
  if phAgOff b g = 0 then none else some (bytesAt b (phAgOff b g) 128)

/-- Vector instruction `i`. -/
def phVec (b : List Byte) (i : Nat) : Word := BitVec.ofNat 32 (fieldAt b (phVecOff b + 4 * i) 4)

/-- Constant `i`: +0 at or beyond CONST_LEN, and without a table (Table 3.5). -/
def phConst (b : List Byte) (i : Nat) : Word :=
  if phConstOff b = 0 ∨ phConstLen b ≤ i then 0 else BitVec.ofNat 32 (fieldAt b (phConstOff b + 4 * i) 4)

/-! ### Address generator programs (Tables 5.1 to 5.3) -/

def agDir (p : List Byte) : Nat := fieldAt p 0 1
def agLevels (p : List Byte) : Nat := fieldAt p 1 1
/-- Bytes of a beat. -/
def agBytes (p : List Byte) : Nat := fieldAt p 2 1 + 1
def agElem (p : List Byte) : Nat := fieldAt p 3 1 % 4
def agPad (p : List Byte) : Nat := fieldAt p 4 4
def agBase (p : List Byte) : Nat := fieldAt p 8 1
def agSide (p : List Byte) : Nat := fieldAt p 9 1
def agOutl (p : List Byte) : Nat := fieldAt p 0xA 1
def agScale (p : List Byte) : Nat := fieldAt p 0xB 1

def axExtent (p : List Byte) (x : Nat) : Nat := fieldAt p (0x10 + 8 * (x - 1)) 2
def axSlot (p : List Byte) (x : Nat) : Nat := fieldAt p (0x12 + 8 * (x - 1)) 1
def axLo (p : List Byte) (x : Nat) : Nat := fieldAt p (0x14 + 8 * (x - 1)) 2
def axHi (p : List Byte) (x : Nat) : Nat := fieldAt p (0x16 + 8 * (x - 1)) 2

def lvCount (p : List Byte) (l : Nat) : Nat := fieldAt p (0x30 + 12 * l) 2
def lvSlot (p : List Byte) (l : Nat) : Nat := fieldAt p (0x32 + 12 * l) 1
def lvAxisByte (p : List Byte) (l : Nat) : Nat := fieldAt p (0x33 + 12 * l) 1
def lvAxis (p : List Byte) (l : Nat) : Nat := lvAxisByte p l % 4
def lvKer (p : List Byte) (l : Nat) : Bool := bitOf (lvAxisByte p l) 7
def lvStep (p : List Byte) (l : Nat) : Int := signedOf 32 (fieldAt p (0x34 + 12 * l) 4)
def lvCstep (p : List Byte) (l : Nat) : Nat := fieldAt p (0x38 + 12 * l) 2

/-- A level entry is well formed (R128, R129). -/
def levelOk (p : List Byte) (l : Nat) : Bool :=
  let ax := lvAxis p l
  if agLevels p ≤ l then zeroAt p (0x30 + 12 * l) 12
  else
    decide (lvSlot p l ≤ 8) && (lvSlot p l == 0 || lvCount p l == 0) && bitsOf (lvAxisByte p l) 2 5 == 0 &&
    (if ax = 0 then lvCstep p l == 0 else decide (1 ≤ lvCstep p l) && (!lvKer p l || decide (lvCstep p l ≤ 4095))) &&
    (!lvKer p l || (lvSlot p l == 0 && decide (lvCount p l ≤ 15))) && zeroAt p (0x3A + 12 * l) 2 &&
    (ax == 0 || (List.range (agLevels p)).all fun k =>
      k == l || lvAxis p k != ax || lvKer p k != lvKer p l)

/-- An axis entry is well formed. -/
def axisOk (p : List Byte) (x : Nat) : Bool :=
  if (List.range (agLevels p)).any fun l => lvAxis p l == x then
    zeroAt p (0x13 + 8 * (x - 1)) 1 &&
    (if axExtent p x = 0 then decide (1 ≤ axSlot p x) && decide (axSlot p x ≤ 8) else axSlot p x == 0)
  else zeroAt p (0x10 + 8 * (x - 1)) 8

/-- The direction of a program fits its generator. -/
def progDirOk (g : AgId) (p : List Byte) : Bool :=
  match g with
  | .c => decide (agDir p ≤ 2) && agSide p == 0
  | _ => agDir p == 0

/-- The single fields of a program are in range and its reserved bytes zero. -/
def progFieldsOk (p : List Byte) : Bool :=
  decide (1 ≤ agLevels p) && decide (agLevels p ≤ 6) && decide (agBytes p ≤ 128) && decide (fieldAt p 3 1 < 4) &&
  decide (agBase p ≤ 3) && decide (agSide p < 4) && decide (agOutl p ≤ 3) && decide (agScale p ≤ 3) &&
  zeroAt p 0xC 4 && zeroAt p 0x28 8 && zeroAt p 0x78 8

/-- A program is well formed for its generator (R128, R129). -/
def progOk (g : AgId) (p : List Byte) : Bool :=
  progDirOk g p && progFieldsOk p && (List.range 6).all (levelOk p) && [1, 2, 3].all (axisOk p)

/-! ### Vector instructions (Table 3.5) -/

def viOp (w : Word) : Nat := bitsOf w.toNat 26 6
def viVd (w : Word) : Nat := bitsOf w.toNat 21 5
def viVa (w : Word) : Nat := bitsOf w.toNat 16 5
def viVb (w : Word) : Nat := bitsOf w.toNat 11 5
def viImm (w : Word) : Nat := bitsOf w.toNat 0 11

/-- A vector instruction is well formed, with the direction of the phase's program C (Table 3.5, R121, R129, R167).
DESIGN CHOICE: the bits to which Table 3.5 gives no meaning for an operation (IMM[10:2] of IN and OUT, IMM[10:6] of CONST
and LOOP, an unused VD, VA or VB) may hold anything: the table calls none of them reserved (log entry 93). -/
def vecInstrOk (cDir : Option Nat) (w : Word) : Bool :=
  let imm := viImm w
  match viOp w with
  | 1 => imm % 4 == 0 || (imm % 4 == 1 && cDir == some 0)
  | 2 => imm % 4 != 1 || cDir == some 2
  | 8 => decide (imm ≤ 0x1F)
  | 0xC => decide (imm ≤ 0xB)
  | op => decide (op ≤ 0xF)

/-! ### Image files (Tables 3.7, 3.8) -/

def imgLen (b : List Byte) : Nat := fieldAt b 8 4
def imgFlags (b : List Byte) : Nat := fieldAt b 0xC 4
def imgPhases (b : List Byte) : Nat := fieldAt b 0x14 1
def imgSlots (b : List Byte) : Nat := fieldAt b 0x15 1
def imgSections (b : List Byte) : Nat := fieldAt b 0x16 2
def imgSectOff (b : List Byte) : Nat := fieldAt b 0x18 4
def imgParamOff (b : List Byte) : Nat := fieldAt b 0x1C 4
def imgParamLen (b : List Byte) : Nat := fieldAt b 0x20 4
/-- FLAGS.M7_SFU and FLAGS.DEBUG. -/
def flagM7 (flags : Nat) : Bool := bitOf flags 0
def flagDebug (flags : Nat) : Bool := bitOf flags 1

/-- Signature trailer bytes (R85). -/
def trailerLen : Nat := 3320

/-- A section-table entry. -/
structure Section where
  off : Nat
  row0 : Nat
  rows : Nat
  col0 : Nat
  cols : Nat
  slot0 : Nat
  slots : Nat
  repl : Bool
  len : Nat
  rsv : Bool
  deriving DecidableEq, Repr

/-- Section-table entry `i`. -/
def imgSection (b : List Byte) (i : Nat) : Section :=
  let w0 := fieldAt b (imgSectOff b + 16 * i) 8
  let w1 := fieldAt b (imgSectOff b + 16 * i + 8) 8
  { off := bitsOf w0 32 32, row0 := bitsOf w0 28 4, rows := bitsOf w0 24 4 + 1, col0 := bitsOf w0 20 4,
    cols := bitsOf w0 16 4 + 1, slot0 := bitsOf w0 11 5, slots := bitsOf w0 6 5 + 1, repl := bitOf w0 5,
    len := bitsOf w1 32 32, rsv := bitsOf w0 0 5 != 0 || bitsOf w1 0 32 != 0 }

def imgSectionList (b : List Byte) : List Section := (List.range (imgSections b)).map (imgSection b)

/-- Bricks that a section lists. -/
def Section.listed (x : Section) : Nat := if x.repl then 1 else x.rows * x.cols

/-- The slot words of a section, by brick of the list and slot. -/
def Section.pair (b : List Byte) (x : Section) (brick slot : Nat) : DWord × DWord :=
  let o := x.off + 16 * (brick * x.slots + slot)
  (BitVec.ofNat 64 (fieldAt b o 8), BitVec.ofNat 64 (fieldAt b (o + 8) 8))

/-- Slot words of a section keyed by 32 × brick + slot (R83). -/
def Section.words (b : List Byte) (x : Section) : List (Nat × (DWord × DWord)) :=
  let data := bytesAt b x.off x.len
  let cut : Section := { x with off := 0 }
  ((List.range x.rows).map fun r =>
    ((List.range x.cols).map fun c =>
      (List.range x.slots).map fun k =>
        (32 * (16 * (x.row0 + r) + (x.col0 + c)) + x.slot0 + k,
         cut.pair data (if x.repl then 0 else r * x.cols + c) k)).flatten).flatten

/-- The parameter blocks from the parameter area on; `fuel` is PHASES. -/
def cutBlocks : Nat → List Byte → List (List Byte)
  | 0, _ => []
  | fuel + 1, b => b.take (phLen b) :: cutBlocks fuel (b.drop (phLen b))

def imgBlocks (b : List Byte) : List (List Byte) :=
  cutBlocks (imgPhases b) (bytesAt b (imgParamOff b) (imgParamLen b))

/-- The plane that a load of an image fills (R75): later sections overwrite earlier ones. -/
def imgPlane (b : List Byte) (handle : Word) : Plane :=
  { words := (imgSectionList b).foldl (fun t x => (x.words b).foldl (fun t w => store (0, 0) t w.1 w.2) t) [],
    params := imgBlocks b, phases := imgPhases b, slots := imgSlots b, flags := BitVec.ofNat 32 (imgFlags b),
    handle, valid := true, poisoned := false }

/-- The slot words of a brick. -/
def Plane.slot (p : Plane) (brick k : Nat) : DWord × DWord := look (0, 0) p.words (32 * brick + k)

/-- The parameter block of a phase. -/
def Plane.block (p : Plane) (phase : Nat) : List Byte := p.params.getD phase []

/-- An image is of floating kind when a MAC slot uses a floating pair (R102). -/
def Plane.floating (p : Plane) : Bool := p.words.any fun w => cOpc w.2.1 == opMac && floatW (cWfmt w.2.1)

/-! ### Checks of verification (R86) -/

/-- Check 1 for a file of length `len`. -/
def imgCheck1 (b : List Byte) : Bool :=
  decide (256 ≤ b.length) && fieldAt b 0 4 == 0x4D394649 && fieldAt b 4 1 == 1 && fieldAt b 6 2 == 256 &&
  crcOk (b.take 256) 0xFC && decide (imgFlags b < 4) && zeroAt b 0x2C 4 && zeroAt b 0x60 156 &&
  b.length == imgLen b + trailerLen

/-- Whether the bytes of a file outside the parts given, below `len`, are zero; the parts are (offset, length). -/
def gapsZero (b : List Byte) (len : Nat) (parts : List (Nat × Nat)) : Bool :=
  let covered := fun (i : Nat) => parts.any fun p => decide (p.1 ≤ i) && decide (i < p.1 + p.2)
  (b.take len).zipIdx.all fun x => x.1 == 0 || covered x.2

/-- Check 3. What a section's DATA_LEN rounds up by is padding, and so is what follows the last parameter block (log
entry 85). -/
def imgCheck3 (b : List Byte) : Bool :=
  let n := imgLen b
  let used := ((imgBlocks b).map List.length).sum
  let tEnd := imgSectOff b + 16 * imgSections b
  zeroAt b (n + 2) 2 && zeroAt b (n + 3313) 7 && n % 64 == 0 && decide (n ≤ 143616) &&
  decide (1 ≤ imgPhases b) && decide (imgPhases b ≤ 8) && decide (1 ≤ imgSlots b) && decide (imgSlots b ≤ 32) &&
  decide (1 ≤ imgSections b) && decide (imgSections b ≤ 256) && imgParamLen b % 64 == 0 &&
  decide (imgParamLen b ≤ 8192) && imgSectOff b % 64 == 0 && imgParamOff b % 64 == 0 && decide (256 ≤ imgSectOff b) &&
  decide (tEnd ≤ imgParamOff b) && decide (imgParamOff b + imgParamLen b ≤ n) &&
  (imgSectionList b).all (fun x => x.off % 64 == 0 && decide (tEnd ≤ x.off) && decide (x.off + x.len ≤ imgParamOff b)) &&
  zeroAt b (imgParamOff b + used) (imgParamLen b - used) && gapsZero b n ([(0, 256), (imgSectOff b, 16 * imgSections b), (imgParamOff b, imgParamLen b)] ++
    (imgSectionList b).map fun x => (x.off, min x.len (16 * x.slots * x.listed)))

/-- Check 4. -/
def imgCheck4 (b : List Byte) : Bool :=
  (imgSectionList b).all fun x =>
    decide (x.row0 + x.rows ≤ 16) && decide (x.col0 + x.cols ≤ 16) && decide (x.slot0 + x.slots ≤ imgSlots b) &&
    x.len == roundUp (16 * x.slots * x.listed) 64 && !x.rsv

/-- The slots of a brick that a phase reaches from a slot on, by NEXT up to LAST; `fuel` bounds the walk. -/
def slotWalk (p : Plane) (brick : Nat) : Nat → Nat → List DWord
  | 0, _ => []
  | fuel + 1, k =>
    let c := if k < 32 then (p.slot brick k).1 else 0
    c :: (if cLast c then [] else slotWalk p brick fuel (cNext c))

/-- RUN_LEN and ELEM_FMT fit a slot of the phase (R98, R100). -/
def runLenOk (b : List Byte) (c : DWord) : Bool :=
  let op := cOpc c
  if op = opMac then
    (match pairK (cWfmt c) (cAfmt c) with
     | some k => decide (k ≤ phRunLen b) && decide (phRunLen b ≤ pairLimit (cWfmt c) (cAfmt c))
     | none => true)
  else if op = opEmax then phElem b == 3 || phElem b == 4
  else if op = opEadd then (phElem b == 4) || (phElem b == 3 && decide (phRunLen b ≤ 8))
  else true

/-- An offset, count and size of a part of a block: absent, or inside the block behind its header (R84). -/
def partOk (b : List Byte) (off count : Nat) : Bool :=
  if off = 0 then count == 0 else decide (64 ≤ off) && decide (off + 4 * count ≤ phLen b)

/-- A parameter block is well formed (R84, R98, R100, R110, R128, R129). `isLast` marks the last phase. -/
def blockOk (p : Plane) (i : Nat) (isLast : Bool) (b : List Byte) : Bool :=
  let progs : List AgId := [.a, .b, .c]
  let cDir := (phProg b .c).map agDir
  let rl := phRunLen b
  decide (64 ≤ phLen b) && phLen b % 64 == 0 && decide (phLen b ≤ 1024) && b.length == phLen b &&
  fieldAt b 2 1 == i && decide (phWest b ≤ 1) && decide (1 ≤ rl) && decide (rl ≤ 256) && rl == 2 ^ rl.log2 &&
  decide (phAccMode b ≤ 1) && zeroAt b 0x19 39 &&
  (!isLast || (decide (phPol b ≤ 1) && decide (phFuse b ≤ 2) && decide (phFmt b < 32) && decide (phFmt b % 16 ≤ 0xB) &&
    (decide (phFmt b < 16) || phFmt b % 16 == 4 || phFmt b % 16 == 5) && (phFuse b == 0 || phFmt b % 16 != 2))) &&
  progs.all (fun g => phAgOff b g == 0 ||
    (decide (64 ≤ phAgOff b g) && decide (phAgOff b g + 128 ≤ phLen b) && progOk g (bytesAt b (phAgOff b g) 128))) &&
  partOk b (phVecOff b) (phVecLen b) && decide (phVecLen b ≤ 144) && partOk b (phConstOff b) (phConstLen b) &&
  decide (phConstLen b ≤ 64) &&
  (List.range (phVecLen b)).all (fun k => vecInstrOk cDir (phVec b k)) &&
  (List.range 256).all fun brick => (slotWalk p brick 32 (phEntry b)).all (runLenOk b)

/-- Check 5: every word of the file, and the kinds of the slots that the image holds once later sections have overwritten
earlier ones (R83, R102; log entry 85). -/
def imgCheck5 (b : List Byte) : Bool :=
  let p := imgPlane b 0
  let ws := ((imgSectionList b).map fun x => (x.words b).map (·.2)).flatten
  let slots := p.words.map (·.2)
  let macs := slots.filter fun w => cOpc w.1 == opMac
  ws.all (fun w => slotOk w.1 w.2) && p.params.length == imgPhases b &&
  (!p.floating || (macs.all (fun w => floatW (cWfmt w.1)) &&
    slots.all fun w => cOpc w.1 != opEmax && cOpc w.1 != opEadd)) &&
  p.params.zipIdx.all fun x => blockOk p x.2 (x.2 + 1 == imgPhases b) x.1

/-- Check 6. -/
def imgCheck6 (b : List Byte) : Bool :=
  ((imgSectionList b).all fun x => (x.words b).all fun w => decide (cNext w.2.1 < imgSlots b)) &&
  (imgBlocks b).all fun k => decide (phEntry k < imgSlots b)

/-- The first failed check of an image, whose signature check is given; 0 when all hold. -/
def imgFirstFail (b : List Byte) (sigOk : Bool) : Nat :=
  if ¬ imgCheck1 b then 1 else if ¬ sigOk then 2 else if ¬ imgCheck3 b then 3 else if ¬ imgCheck4 b then 4
  else if ¬ imgCheck5 b then 5 else if ¬ imgCheck6 b then 6 else 0

/-- Stages of a plane load under free flow (R75). -/
def loadStages (b : List Byte) : Nat :=
  22 + ceilDiv (16 * imgSections b) 64 + ((imgSectionList b).map fun x => 6 + ceilDiv x.len 64).sum +
  ceilDiv (imgParamLen b) 64 + 2

end Sys2Proof.Machine
end

