-- ==== Sys2Proof/Machine/Agen.lean ====
section
/-! DEFINITION. Tile descriptors, local addresses and the address generators (05 R125 to R134, R149; 03 R123). -/

namespace Sys2Proof.Machine

/-! ### Tile descriptors and staging entries (Tables 5.4, 5.5) -/

def tdHandle (d : List Byte) : Nat := fieldAt d 0 4
def tdEclass (d : List Byte) : Nat := fieldAt d 4 1
def tdStages (d : List Byte) : Nat := fieldAt d 5 1
/-- The drain count N. -/
def tdDrainN (d : List Byte) : Nat := 128 * fieldAt d 6 2
def tdBase (d : List Byte) (i : Nat) : Nat := fieldAt d (8 + 4 * i) 4
/-- EXT1 to EXT8: 0 means 65,536. -/
def tdExt (d : List Byte) (i : Nat) : Nat :=
  let v := fieldAt d (0x18 + 2 * (i - 1)) 2
  if v = 0 then 65536 else v
def tdDest (d : List Byte) : Nat := fieldAt d 0x28 4 % 2 ^ 24
def tdCscale (d : List Byte) : Nat := fieldAt d 0x2C 4 % 2 ^ 24
def tdFused (d : List Byte) : Nat := fieldAt d 0x30 4 % 2 ^ 24
def tdOutrec (d : List Byte) : Nat := fieldAt d 0x34 4 % 2 ^ 24
def tdSiderec (d : List Byte) : Nat := fieldAt d 0x38 4 % 2 ^ 24

/-- The cause with which a tile descriptor is faulty, for a range of class `cls` (R135). DESIGN CHOICE: non-zero bits
[31:24] of DEST, CSCALE, FUSED, OUTREC and SIDEREC are DESC_MALFORMED, as Table 5.4 says of BASE0–BASE3: they lie beyond a
24-bit local address (log entry 93). -/
def tileDescFault (d : List Byte) (cls : Nat) : Option Nat :=
  let fields := decide (tdEclass d < 8) && decide (tdStages d ≤ 16) && decide (tdDrainN d ≤ 131072) &&
    (List.range 4).all (fun i => decide (tdBase d i < 2 ^ 24)) &&
    (List.range 5).all (fun i => decide (fieldAt d (0x28 + 4 * i) 4 < 2 ^ 24)) && tdHandle d != 0
  if ¬ crcOk d 0x3C then some fDescCrc
  else if ¬ fields then some fDescMalformed
  else if tdEclass d ≠ cls then some fEclassMismatch
  else none

def seJaddr (b : List Byte) : Nat := fieldAt b 0 8
def seLaddr (b : List Byte) : Nat := fieldAt b 8 4
def seLen (b : List Byte) : Nat := fieldAt b 0xC 4
def seWrite (b : List Byte) : Bool := fieldAt b 0x10 1 == 1

/-- The cause with which a staging entry is faulty (R135, R136). -/
def stageFault (b : List Byte) : Option Nat :=
  let fields := decide (seJaddr b < 2 ^ 48) && seJaddr b % 64 == 0 && decide (seLaddr b < 2 ^ 24) &&
    seLaddr b % 64 == 0 && seLen b % 64 == 0 && decide (64 ≤ seLen b) && decide (seLen b ≤ 0x400000) &&
    decide (fieldAt b 0x10 1 ≤ 1) && zeroAt b 0x11 11
  if ¬ crcOk b 0x1C then some fStageCrc else if ¬ fields then some fStageMalformed else none

/-! ### Engine helpers -/

/-- Counters in the order of their registers (17, ENG registers). -/
def nSat : Nat := 0
def nZero : Nat := 1
def nNan : Nat := 2
def nAllz : Nat := 3
def nAlls : Nat := 4
def nClip : Nat := 5
def nRunOver : Nat := 6
def nAccSat : Nat := 7
def nTernBad : Nat := 8
def nDebugWr : Nat := 9
def nOorRd : Nat := 10
def nOorWr : Nat := 11
def nAddrWrap : Nat := 12
def nPadx : Nat := 13
def nResidue : Nat := 14
def nKind : Nat := 15

/-- Advance a counter of an engine, which stops at its largest value (R122). -/
def Engine.count (x : Engine) (i n : Nat) : Engine :=
  if n = 0 then x else { x with counters := modifyNth (fun c => satAdd c n) x.counters i }

/-- The active plane. -/
def Engine.plane (x : Engine) : Plane := if x.active = 0 then x.plane0 else x.plane1
/-- The idle plane. -/
def Engine.idlePlane (x : Engine) : Plane := if x.active = 0 then x.plane1 else x.plane0
/-- Write the idle plane. -/
def Engine.setIdle (x : Engine) (p : Plane) : Engine :=
  if x.active = 0 then { x with plane1 := p } else { x with plane0 := p }
/-- The phase that runs. -/
def Engine.phase (x : Engine) : Nat := match x.run with | some t => t.phase | none => 0
/-- The parameter block of the phase that runs. -/
def Engine.block (x : Engine) : List Byte := x.plane.block x.phase
/-- The descriptor of the tile that runs. -/
def Engine.desc (x : Engine) : List Byte := match x.run with | some t => t.desc | none => []
/-- Whether the active image is a debug image. -/
def Engine.debug (x : Engine) : Bool := flagDebug x.plane.flags.toNat
/-- Change the running tile. -/
def Engine.modRun (x : Engine) (f : Tile → Tile) : Engine := { x with run := x.run.map f }

/-- The reader that an engine is for a tile (Table 8.10). -/
def engReader (e : Nat) (t : Tile) : Reader := { kind := 0, id := e, owner := .job, tile := t.value, epoch := t.epoch }

/-- An entry of an accumulator set that is not EMPTY. -/
def accGet (l : List (Nat × Acc)) (k : Nat) : Option Acc := (l.find? fun p => p.1 == k).map (·.2)

/-- Set an entry of an accumulator set, in rising order. -/
def accPut : List (Nat × Acc) → Nat → Acc → List (Nat × Acc)
  | [], k, a => [(k, a)]
  | (j, b) :: t, k, a =>
    if k < j then (k, a) :: (j, b) :: t else if k = j then (k, a) :: t else (j, b) :: accPut t k a

/-- The active accumulator set. -/
def Engine.activeSet (x : Engine) : List (Nat × Acc) := if x.accActive = 0 then x.acc0 else x.acc1
def Engine.setActive (x : Engine) (l : List (Nat × Acc)) : Engine :=
  if x.accActive = 0 then { x with acc0 := l } else { x with acc1 := l }
/-- The shadow accumulator set. -/
def Engine.shadowSet (x : Engine) : List (Nat × Acc) := if x.accActive = 0 then x.acc1 else x.acc0
def Engine.setShadow (x : Engine) (l : List (Nat × Acc)) : Engine :=
  if x.accActive = 0 then { x with acc1 := l } else { x with acc0 := l }

/-! ### Local addresses (R125, R149) -/

/-- First local address beyond the scratchpad, and beyond the accumulator window. -/
def spEnd : Nat := 0x400000
def winEnd : Nat := 0x600000
/-- The local space. -/
def localSpace : Nat := 0x1000000

/-- Pieces of a local range, modulo 2^24, each wholly in the scratchpad, the window or beyond; `fuel` bounds them. -/
def localPieces : Nat → Nat → Nat → List (Nat × Nat)
  | 0, _, _ => []
  | fuel + 1, a, len =>
    if len = 0 then []
    else
      let b := a % localSpace
      let stop := if b < spEnd then spEnd else if b < winEnd then winEnd else localSpace
      let n := min len (stop - b)
      (b, n) :: localPieces fuel (b + n) (len - n)

/-- The pieces of a range of at most 16 MiB. -/
def piecesOf (a len : Nat) : List (Nat × Nat) := localPieces 8 a len

/-- Whether a range crosses from 0xFF_FFFF to 0 (R149). -/
def wraps (a len : Nat) : Bool := decide (localSpace < a % localSpace + len)

/-- Whether a piece is unbacked (R125). -/
def unbacked (debug : Bool) (p : Nat × Nat) : Bool := decide (spEnd ≤ p.1) && !(debug && decide (p.1 < winEnd))

/-- The 64-bit word of an accumulator entry as the debug window shows it (R123). -/
def windowWord (floating : Bool) (a : Option Acc) : Nat :=
  match a with
  | none => 2 ^ 40 + b2n floating * 2 ^ 43
  | some a => a.val.toNat + b2n a.sticky * 2 ^ 41 + b2n a.poison * 2 ^ 42 + b2n floating * 2 ^ 43

/-- Whether a physical accumulator set is of floating kind: the active set is of its image's, one that still drains of the
kind latched at its swap (Table 4.4). -/
def Engine.setFloating (x : Engine) (n : Nat) : Bool :=
  match x.drain with
  | some d => if n = x.accActive then x.plane.floating else d.floating
  | none => x.plane.floating

/-- A byte of the window. -/
def Engine.windowByte (x : Engine) (a : Nat) : Byte :=
  let off := a - spEnd
  let n := if off < 0x100000 then 0 else 1
  let set := if n = 0 then x.acc0 else x.acc1
  BitVec.ofNat 8 (windowWord (x.setFloating n) (accGet set (off % 0x100000 / 8)) >>> (8 * (off % 8)))

/-- What a local read gives: bytes, whether a word was bad, whether a byte was unbacked, whether it wrapped. -/
structure LRead where
  bytes : List Byte
  bad : Bool
  oor : Bool
  wrap : Bool
  deriving DecidableEq, Repr

/-- Read local bytes for a tile of an engine. -/
def State.localRead (s : State) (e : Nat) (t : Tile) (debug : Bool) (a len : Nat) : LRead × State :=
  let ps := piecesOf a len
  let r := ps.foldl
    (fun (acc : List Byte × Bool × State) p =>
      if p.1 < spEnd then
        let g := acc.2.2.readMem (engReader e t) (scratchBase e + p.1) p.2
        (acc.1 ++ g.1, acc.2.1 || g.2.1, g.2.2)
      else if debug && decide (p.1 < winEnd) then
        (acc.1 ++ (List.range p.2).map (fun i => (acc.2.2.engine e).windowByte (p.1 + i)), acc.2.1, acc.2.2)
      else (acc.1 ++ zeros p.2, acc.2.1, acc.2.2))
    ([], false, s)
  (⟨r.1, r.2.1, ps.any (unbacked debug), wraps a len⟩, r.2.2)

/-- Writers of R126. -/
def wFill : Nat := 0
def wAgc : Nat := 1
def wDrainEl : Nat := 2
def wDrainRec : Nat := 3
def wFused : Nat := 4

/-- The extents of a tile with a range added for a writer (R149). -/
def addExtent (ext : List (Nat × Nat)) (w : Nat) (ps : List (Nat × Nat)) : List (Nat × Nat) :=
  modifyNth (fun x => ps.foldl (fun x p => (min x.1 p.1, max x.2 (p.1 + p.2 - 1))) x) ext w

/-- Count one write to a local range: unbacked bytes, and the window of a debug image (R123, R149). The spec does not say
what one write is: a beat, a staging entry, the elements or scales of a drained block, a record, and the elements or scale
that one lane gives with OUT 2 each are one (DESIGN CHOICE, log entry 89). -/
def Engine.countWrite (x : Engine) (debug : Bool) (a len : Nat) : Engine :=
  let ps := piecesOf a len
  (x.count nOorWr (b2n (ps.any (unbacked debug)))).count nDebugWr
    (b2n (debug && ps.any fun p => decide (spEnd ≤ p.1) && decide (p.1 < winEnd)))

/-- Count one access whose bytes cross the end of the local space (R149). -/
def Engine.countWrap (x : Engine) (a len : Nat) : Engine := x.count nAddrWrap (b2n (wraps a len))

/-- Write local bytes, with a poison mark for each word: the scratchpad takes them, and every other byte is discarded
(R123, R125). -/
def State.localWrite (s : State) (e : Nat) (a : Nat) (bs : List Byte) (marks : List Bool) : State :=
  let ps := piecesOf a bs.length
  (ps.foldl
    (fun (acc : State × List Byte × List Bool) p =>
      let (s, bs, ms) := acc
      let s := if p.1 < spEnd then s.writeMarked (scratchBase e + p.1) (bs.take p.2) ms else s
      (s, bs.drop p.2, ms.drop (wordsOf p.1 p.2).length))
    (s, bs, marks)).1

/-- Clean marks for `len` bytes at an address. -/
def cleanMarks (a len : Nat) : List Bool := (wordsOf a len).map fun _ => false

/-! ### The walk (R130) -/

/-- Iterations of a level. -/
def lvN (p d : List Byte) (l : Nat) : Nat := if lvSlot p l = 0 then lvCount p l + 1 else tdExt d (lvSlot p l)
/-- Data extent of an axis. -/
def axN (p d : List Byte) (x : Nat) : Nat := if axExtent p x ≠ 0 then axExtent p x else tdExt d (axSlot p x)

/-- Beats of a program. -/
def agTotal (p d : List Byte) : Nat := ((List.range (agLevels p)).map (lvN p d)).foldl (· * ·) 1

/-- The index of a level in beat `n`; level 0 runs fastest. -/
def lvIndex (p d : List Byte) (n l : Nat) : Nat :=
  n / ((List.range l).map (lvN p d)).foldl (· * ·) 1 % lvN p d l

/-- Local address of beat `n`. -/
def beatAddr (p d : List Byte) (n : Nat) : Nat :=
  wrapTo 24 ((tdBase d (agBase p) : Int) +
    ((List.range (agLevels p)).map fun l => (lvIndex p d n l : Int) * lvStep p l).sum)

/-- Coordinate of beat `n` on an axis. -/
def beatCoord (p d : List Byte) (n x : Nat) : Int :=
  ((List.range (agLevels p)).map fun l => if lvAxis p l = x then (lvIndex p d n l : Int) * lvCstep p l else 0).sum -
    axLo p x

/-- The axes that a program's levels name. -/
def agAxes (p : List Byte) : List Nat :=
  [1, 2, 3].filter fun x => (List.range (agLevels p)).any fun l => lvAxis p l == x

/-- Whether beat `n` is a pad beat. -/
def beatPad (p d : List Byte) (n : Nat) : Bool :=
  (agAxes p).any fun x => decide (beatCoord p d n x < 0) || decide ((axN p d x : Int) ≤ beatCoord p d n x)

/-- Axes on which beat `n` lies beyond PAD_HI. -/
def beatPadx (p d : List Byte) (n : Nat) : Nat :=
  ((agAxes p).filter fun x => decide ((axN p d x : Int) + axHi p x ≤ beatCoord p d n x)).length

/-- The bytes of a pad beat (R131). -/
def padBytes (p : List Byte) : List Byte :=
  (List.range (agBytes p)).map fun i =>
    match agElem p with
    | 0 => BitVec.ofNat 8 (agPad p % 16 * 17)
    | 1 => BitVec.ofNat 8 (agPad p)
    | 2 => BitVec.ofNat 8 (agPad p >>> (8 * (i % 2)))
    | _ => BitVec.ofNat 8 (agPad p >>> (8 * (i % 4)))

/-- Bytes of a block of `k` elements at a program's element size. -/
def blockBytes (p : List Byte) (k : Nat) : Nat := k * 2 ^ agElem p / 2

/-- The address generator's progress. -/
def Engine.beat (x : Engine) : AgId → Nat
  | .a => x.beatA | .b => x.beatB | .c => x.beatC
def Engine.bumpBeat (x : Engine) : AgId → Engine
  | .a => { x with beatA := x.beatA + 1 }
  | .b => { x with beatB := x.beatB + 1 }
  | .c => { x with beatC := x.beatC + 1 }

/-- Whether a generator has delivered its last beat, or the phase does not use it. With WEST_SRC = 1 stream A has no
port and its program does not run (log entry 61). -/
def Engine.agDone (x : Engine) (g : AgId) : Bool :=
  match phProg x.block g with
  | none => true
  | some p => (decide (g = .a) && phWest x.block == 1) || decide (agTotal p x.desc ≤ x.beat g)

/-- Enter a read into the counters and the tile's poison mark. -/
def Engine.noteRead (x : Engine) (r : LRead) (countOor : Bool) : Engine :=
  ((x.modRun fun t => { t with poison := t.poison || r.bad }).count nOorRd (b2n (r.oor && countOor))).count nAddrWrap
    (b2n r.wrap)

/-- The port word of beat `n` of a read stream: data, then the side bytes of R92 (R131 to R133). A beat longer than 32 bytes
keeps its data where no side stream lays its own bytes: R92 has zeros there, R131 lets the data fill the word (DESIGN
CHOICE, log entry 90). -/
def State.readBeat (s : State) (e : Nat) (t : Tile) (p : List Byte) (n : Nat) : PortBits × State :=
  let x := s.engine e
  let d := t.desc
  let addr := beatAddr p d n
  let pad := beatPad p d n
  let off := (addr + localSpace - tdBase d (agBase p) % localSpace) % localSpace
  let s := s.modEngine e fun x => x.count nPadx (beatPadx p d n)
  let (w, s) :=
    if pad then (padBytes p, s)
    else
      let r := s.localRead e t x.debug addr (agBytes p)
      (r.1.bytes, r.2.modEngine e fun x => x.noteRead r.1 true)
  let w := padTo w 128
  let (w, s) :=
    if ¬ bitOf (agSide p) 0 then (w, s)
    else if pad then (putAt w 32 (zeros 16), s)
    else
      let r := s.localRead e t x.debug (tdBase d (agOutl p) + 16 * (off / blockBytes p 128)) 16
      (putAt w 32 r.1.bytes, r.2.modEngine e fun x => x.noteRead r.1 true)
  let (w, s) :=
    if ¬ bitOf (agSide p) 1 then (w, s)
    else if pad then (putAt w 48 [0x7F], s)
    else
      let r := s.localRead e t x.debug (tdBase d (agScale p) + off / blockBytes p 32) 1
      (putAt w 48 r.1.bytes, r.2.modEngine e fun x => x.noteRead r.1 false)
  (portOf w, s)

/-- Offer a word to the W input of a row or the N input of a column. -/
def Engine.offerWest (x : Engine) (row : Nat) (w : PortWord) : Engine :=
  { x with bricks := modifyNth (fun b => { b with inW := b.inW ++ [w] }) x.bricks (16 * row) }
def Engine.offerNorth (x : Engine) (col : Nat) (w : PortWord) : Engine :=
  { x with bricks := modifyNth (fun b => { b with inN := b.inN ++ [w] }) x.bricks col }

/-- The brick of a row and column. -/
def Engine.brick (x : Engine) (row col : Nat) : Brick := x.bricks.getD (16 * row + col) {}

/-- Whether the port that takes beat `n` of a read stream holds no word. -/
def Engine.portFree (x : Engine) (g : AgId) (n : Nat) : Bool :=
  match g with
  | .a => (x.brick (n % 16) 0).inW.isEmpty
  | .b => (x.brick 0 (n % 16)).inN.isEmpty
  | .c => (x.laneC.getD (n % 16) []).isEmpty

/-- Deliver a beat of a read stream to its port (R132). -/
def Engine.deliverBeat (x : Engine) (g : AgId) (n : Nat) (w : PortBits) : Engine :=
  match g with
  | .a => x.offerWest (n % 16) (.act w)
  | .b => x.offerNorth (n % 16) (.act w)
  | .c => { x with laneC := modifyNth (fun l => l ++ [w]) x.laneC (n % 16) }

/-- The words that wait for program C's write beats: of the S ports of row 15, or of the vector lanes. -/
def Engine.writeQ (x : Engine) (dir : Nat) : List (List PortBits) := if dir = 1 then x.sWord else x.vecOut
def Engine.popWrite (x : Engine) (dir col : Nat) : Engine :=
  if dir = 1 then { x with sWord := modifyNth (List.drop 1) x.sWord col }
  else { x with vecOut := modifyNth (List.drop 1) x.vecOut col }

/-- One write beat of program C: the first BEAT bytes of the word go to the scratchpad; a pad beat is not written
(R131, R132). -/
def State.writeBeat (s : State) (e : Nat) (t : Tile) (p : List Byte) (n : Nat) (w : PortBits) : State :=
  let addr := beatAddr p t.desc n
  let s := s.modEngine e fun x => x.count nPadx (beatPadx p t.desc n)
  if beatPad p t.desc n then s
  else
    let s := s.modEngine e fun x =>
      ((x.modRun fun t => { t with ext := addExtent t.ext wAgc (piecesOf addr (agBytes p)) }).countWrite x.debug addr
        (agBytes p)).countWrap addr (agBytes p)
    s.localWrite e addr ((portBytes w).take (agBytes p)) (cleanMarks addr (agBytes p))

/-- Whether the bricks, lanes and generators of an engine work: a tile runs, its die answers, and it is not fenced. -/
def State.engineRuns (s : State) (e : Nat) : Bool :=
  (s.engine e).run.isSome && s.regionUp (e / 32) && !s.isFenced (srcEngine e) && !s.isFenced (srcSteward (e / 8))

/-- Whether a read stream can deliver beat `n`: its port holds no word, or the brick there is done, which takes no more:
what streams A and B then deliver is surplus and waits to be discarded (R72, R133). -/
def Engine.takesBeat (x : Engine) (g : AgId) (n : Nat) : Bool :=
  x.portFree g n ||
  match g with
  | .a => (x.brick (n % 16) 0).done
  | .b => (x.brick 0 (n % 16)).done
  | .c => false

/-- AG_BEAT (R130). -/
def execAgBeat (e : EngineId) (g : AgId) (s : State) : Out :=
  let x := s.engine e
  if ¬ s.engineRuns e ∨ x.agDone g then .next s
  else match x.run, phProg x.block g with
    | some t, some p =>
      let n := x.beat g
      if agDir p = 0 then
        if ¬ x.takesBeat g n then .next s
        else
          let r := s.readBeat e t p n
          .next (r.2.modEngine e fun x => (x.deliverBeat g n r.1).bumpBeat g)
      else match (x.writeQ (agDir p)).getD (n % 16) [] with
        | [] => .next s
        | w :: _ =>
          .next ((s.writeBeat e t p n w).modEngine e fun x => (x.popWrite (agDir p) (n % 16)).bumpBeat g)
    | _, _ => .next s

end Sys2Proof.Machine
end

