-- ==== Sys2Proof/Machine/Float.lean ====
section
/-! DEFINITION. Exact values, roundings and conversions of the number formats (04 R90, R93, R101, R112 to
R114, R120; 07 R198, R199). -/

namespace Sys2Proof

/-- The value of a floating number: a NaN, an infinity, or (-1)^neg * m * 2^e. -/
inductive FVal where
  | nan
  | inf (neg : Bool)
  | fin (neg : Bool) (m : Nat) (e : Int)
  deriving DecidableEq, Repr

/-- A floating format (Table 4.2): exponent bits, mantissa bits, bias, code of the largest finite value. -/
structure FFmt where
  eb : Nat
  mb : Nat
  bias : Nat
  maxCode : Nat
  deriving DecidableEq, Repr

/-- FP32 (Table 4.2). -/
def fmtFp32 : FFmt := ⟨8, 23, 127, 0x7F7FFFFF⟩
/-- BF16 (Table 4.2). -/
def fmtBf16 : FFmt := ⟨8, 7, 127, 0x7F7F⟩
/-- E4M3 (Table 4.2). -/
def fmtE4m3 : FFmt := ⟨4, 3, 7, 0x7E⟩
/-- E5M2 (Table 4.2). -/
def fmtE5m2 : FFmt := ⟨5, 2, 15, 0x7B⟩
/-- E2M1 (Table 4.2). -/
def fmtE2m1 : FFmt := ⟨2, 1, 1, 0x7⟩

namespace FFmt

/-- Exponent of the last place of the subnormals. -/
def qmin (f : FFmt) : Int := 1 - (f.bias : Int) - f.mb

/-- Position of the sign bit. -/
def signPos (f : FFmt) : Nat := f.eb + f.mb

/-- Decode a code without its special values. -/
def decodeFin (f : FFmt) (n : Nat) : FVal :=
  let ex := bitsOf n f.mb f.eb
  let man := bitsOf n 0 f.mb
  let neg := bitOf n f.signPos
  if ex = 0 then .fin neg man f.qmin else .fin neg (man + 2 ^ f.mb) (f.qmin + (ex - 1 : Nat))

/-- Decode a code of a format whose all-ones exponent holds infinities and NaNs. -/
def decodeIeee (f : FFmt) (n : Nat) : FVal :=
  if bitsOf n f.mb f.eb = 2 ^ f.eb - 1 then
    (if bitsOf n 0 f.mb = 0 then .inf (bitOf n f.signPos) else .nan)
  else f.decodeFin n

end FFmt

/-- Divide by 2^sh, to nearest, ties to even. -/
def rneShift (m sh : Nat) : Nat :=
  let q := m >>> sh
  let r := m % 2 ^ sh
  if sh = 0 then m
  else if 2 * r > 2 ^ sh ∨ (2 * r = 2 ^ sh ∧ q % 2 = 1) then q + 1 else q

/-- Divide by 2^sh, to nearest, ties away from zero (Table 6.8, M7). -/
def rnaShift (m sh : Nat) : Nat :=
  if sh = 0 then m else (m + 2 ^ (sh - 1)) >>> sh

/-- Round m * 2^e to `p` significant bits with a last place of at least 2^qmin: the integer and its
exponent. -/
def roundMag (rs : Nat → Nat → Nat) (p : Nat) (qmin : Int) (m : Nat) (e : Int) : Nat × Int :=
  if m = 0 then (0, qmin)
  else
    let q := max (e + (Nat.log2 m + 1 : Nat) - p) qmin
    if q ≤ e then (m <<< (e - q).toNat, q) else (rs m (q - e).toNat, q)

/-- The code of a rounded magnitude, whatever its size. -/
def magCode (rs : Nat → Nat → Nat) (f : FFmt) (m : Nat) (e : Int) : Nat :=
  let (k, q) := roundMag rs (f.mb + 1) f.qmin m e
  if k = 0 then 0 else (q - f.qmin).toNat * 2 ^ f.mb + k

/-- The canonical NaN of FP32 (R93). -/
def fpNaN : Word := 0x7FC00000#32
/-- Plus zero. -/
def fpZero : Word := 0#32
/-- One. -/
def fpOne : Word := 0x3F800000#32
/-- An infinity. -/
def fpInf (neg : Bool) : Word := if neg then 0xFF800000#32 else 0x7F800000#32

/-- The value of an FP32 word. -/
def fpVal (w : Word) : FVal := fmtFp32.decodeIeee w.toNat

/-- An exact value rounded to FP32 by a rule of rounding; overflow gives the infinity of its sign (R101). -/
def fpRoundBy (rs : Nat → Nat → Nat) : FVal → Word
  | .nan => fpNaN
  | .inf n => fpInf n
  | .fin neg m e =>
    let c := magCode rs fmtFp32 m e
    if c > fmtFp32.maxCode then fpInf neg else BitVec.ofNat 32 (c + b2n neg * 2 ^ 31)

/-- Rounded to FP32, to nearest, ties to even (R101, R120). -/
def fpRound : FVal → Word := fpRoundBy rneShift

namespace FVal

/-- Whether the value is a NaN. -/
def isNaN : FVal → Bool
  | .nan => true
  | _ => false

/-- Whether the value is numerically zero. -/
def isZero : FVal → Bool
  | .fin _ 0 _ => true
  | _ => false

/-- Whether the value is finite. -/
def isFin : FVal → Bool
  | .fin _ _ _ => true
  | _ => false

/-- The sign. -/
def sign : FVal → Bool
  | .nan => false
  | .inf n => n
  | .fin n _ _ => n

/-- The negated value. -/
def neg : FVal → FVal
  | .nan => .nan
  | .inf n => .inf (!n)
  | .fin n m e => .fin (!n) m e

/-- The magnitude. -/
def abs : FVal → FVal
  | .nan => .nan
  | .inf _ => .inf false
  | .fin _ m e => .fin false m e

/-- An exact product. -/
def mul : FVal → FVal → FVal
  | .nan, _ => .nan
  | _, .nan => .nan
  | .inf a, .inf b => .inf (a != b)
  | .inf a, .fin b m _ => if m = 0 then .nan else .inf (a != b)
  | .fin a m _, .inf b => if m = 0 then .nan else .inf (a != b)
  | .fin a m e, .fin b k f => .fin (a != b) (m * k) (e + f)

/-- The signed integer m * 2^(e - q), for q at most e. -/
def atExp (neg : Bool) (m : Nat) (e q : Int) : Int :=
  let v : Int := ((m <<< (e - q).toNat : Nat) : Int)
  if neg then -v else v

/-- An exact sum. A sum of zero is -0 only when both addends are negative. -/
def add : FVal → FVal → FVal
  | .nan, _ => .nan
  | _, .nan => .nan
  | .inf a, .inf b => if a = b then .inf a else .nan
  | .inf a, .fin _ _ _ => .inf a
  | .fin _ _ _, .inf b => .inf b
  | .fin a m e, .fin b k f =>
    let q := min e f
    let v := atExp a m e q + atExp b k f q
    if v = 0 then .fin (a && b) 0 q else .fin (decide (v < 0)) v.natAbs q

/-- Scaled by 2^k. -/
def scale (x : FVal) (k : Int) : FVal :=
  match x with
  | .fin n m e => .fin n m (e + k)
  | y => y

/-- Numeric order; false when either is a NaN. -/
def lt : FVal → FVal → Bool
  | .nan, _ => false
  | _, .nan => false
  | .inf a, .inf b => a && !b
  | .inf a, .fin _ _ _ => a
  | .fin _ _ _, .inf b => !b
  | .fin a m e, .fin b k f =>
    let q := min e f
    decide (atExp a m e q < atExp b k f q)

/-- Floor of the base-2 logarithm of a non-zero finite magnitude. -/
def log2Floor : FVal → Int
  | .fin _ m e => (Nat.log2 m : Int) + e
  | _ => 0

/-- The nearest integer, ties to even, of a finite value. -/
def toInt : FVal → Int
  | .fin n m e =>
    let k := if 0 ≤ e then m <<< e.toNat else rneShift m (-e).toNat
    if n then -(k : Int) else (k : Int)
  | _ => 0

/-- The greatest integer not above a finite value. -/
def floorInt : FVal → Int
  | .fin n m e => if 0 ≤ e then atExp n m e 0 else Int.fdiv (if n then -(m : Int) else m) ((2 ^ (-e).toNat : Nat) : Int)
  | _ => 0

/-- An integer as a value. -/
def ofInt (i : Int) : FVal := .fin (decide (i < 0)) i.natAbs 0

end FVal

/-- FP32 of an integer, rounded once (R112, step 1). -/
def fpOfInt (i : Int) : Word := fpRound (FVal.ofInt i)

/-- FP32 addition (R120). -/
def fpAdd (a b : Word) : Word := fpRound ((fpVal a).add (fpVal b))
/-- FP32 subtraction (R120). -/
def fpSub (a b : Word) : Word := fpRound ((fpVal a).add (fpVal b).neg)
/-- FP32 multiplication (R120). -/
def fpMul (a b : Word) : Word := fpRound ((fpVal a).mul (fpVal b))

/-- Whether an FP32 word is a NaN. -/
def fpIsNaN (a : Word) : Bool := (fpVal a).isNaN
/-- Whether an FP32 word is numerically zero. -/
def fpIsZero (a : Word) : Bool := (fpVal a).isZero

/-- MAX of R120: a NaN gives the canonical NaN; MAX(-0, +0) is +0. -/
def fpMax (a b : Word) : Word :=
  if fpIsNaN a || fpIsNaN b then fpNaN
  else if fpIsZero a && fpIsZero b then (if a = 0 ∨ b = 0 then 0 else a)
  else if (fpVal a).lt (fpVal b) then b else a

/-- MIN of R120: a NaN gives the canonical NaN; MIN(-0, +0) is -0. -/
def fpMin (a b : Word) : Word :=
  if fpIsNaN a || fpIsNaN b then fpNaN
  else if fpIsZero a && fpIsZero b then (if a = 0 then b else a)
  else if (fpVal b).lt (fpVal a) then b else a

/-- The exact sum of values (R101): a zero sum is -0 only when every addend is negative. -/
def exactSum : List FVal → FVal
  | [] => .fin false 0 0
  | [x] => x
  | x :: xs => x.add (exactSum xs)

/-- The result of a conversion to an output format (R113): the element's bits, and whether it was
saturated, zeroed, or a NaN. -/
structure Conv where
  bits : Nat
  sat : Bool
  zeroed : Bool
  nan : Bool
  deriving DecidableEq, Repr

/-- What an infinity becomes, by target (Table 4.6). -/
inductive InfRule where
  | pass (code : Nat)
  | clamp
  deriving DecidableEq, Repr

/-- Conversion of a value to a floating target (Table 4.6). -/
def convFloat (f : FFmt) (infRule : InfRule) (nanCode : Nat) (x : FVal) : Conv :=
  let s (neg : Bool) : Nat := b2n neg * 2 ^ f.signPos
  match x with
  | .nan => ⟨nanCode, false, false, true⟩
  | .inf n =>
    match infRule with
    | .pass c => ⟨c + s n, false, false, false⟩
    | .clamp => ⟨f.maxCode + s n, true, false, false⟩
  | .fin n m e =>
    let c := magCode rneShift f m e
    if c > f.maxCode then ⟨f.maxCode + s n, true, false, false⟩
    else ⟨c + s n, false, decide (c = 0 ∧ m ≠ 0), false⟩

/-- Conversion of a value to an integer target of `w` bits (Table 4.6). -/
def convInt (w : Nat) (x : FVal) : Conv :=
  let lo : Int := -((2 ^ (w - 1) : Nat) : Int)
  let hi : Int := ((2 ^ (w - 1) : Nat) : Int) - 1
  match x with
  | .nan => ⟨0, false, false, true⟩
  | .inf n => ⟨wrapTo w (if n then lo else hi), true, false, false⟩
  | .fin n m e =>
    let v := (FVal.fin n m e).toInt
    if v < lo ∨ hi < v then ⟨wrapTo w (clampInt lo hi v), true, false, false⟩
    else ⟨wrapTo w v, false, decide (v = 0 ∧ m ≠ 0), false⟩

/-- Conversion by a format code of Table 4.5 without scale (Table 4.6). FP32 passes with NaNs made
canonical. -/
def convert (code : Nat) (x : Word) : Conv :=
  let v := fpVal x
  match code with
  | 0 => if v.isNaN then ⟨fpNaN.toNat, false, false, true⟩ else ⟨x.toNat, false, false, false⟩
  | 1 => convFloat fmtBf16 (.pass 0x7F80) 0x7FC0 v
  | 2 => convInt 32 v
  | 3 => convInt 16 v
  | 4 => convInt 8 v
  | 5 => convInt 4 v
  | 6 => convFloat fmtE4m3 .clamp 0x7F v
  | 7 => convFloat fmtE5m2 (.pass 0x7C) 0x7F v
  | _ => convFloat fmtE2m1 .clamp 0 v

/-- Bits of an element in memory, by format code (Table 4.5). -/
def elemBits (code : Nat) : Nat :=
  match code with
  | 0 => 32 | 1 => 16 | 2 => 32 | 3 => 16 | 4 => 8 | 5 => 4 | 6 => 8 | 7 => 8 | 8 => 4
  | 9 => 8 | 10 => 8 | _ => 4

/-- Whether a code is a microscaling code (Table 4.5). -/
def isMx (code : Nat) : Bool := code == 9 || code == 10 || code == 11

/-- The element code of a microscaling code. -/
def mxElem (code : Nat) : Nat := if code = 9 then 6 else if code = 10 then 7 else 8

/-- E4M3 value: no infinities, S.1111.111 is NaN. -/
def e4m3Val (n : Nat) : FVal := if n % 128 = 127 then .nan else fmtE4m3.decodeFin n

/-- The value of an element of a format code, microscaling codes by their element (Tables 4.1, 4.2). -/
def elemVal (code n : Nat) : FVal :=
  match code with
  | 0 => fmtFp32.decodeIeee n
  | 1 => fmtBf16.decodeIeee n
  | 2 => FVal.ofInt (signedOf 32 n)
  | 3 => FVal.ofInt (signedOf 16 n)
  | 4 => FVal.ofInt (signedOf 8 n)
  | 5 => FVal.ofInt (signedOf 4 n)
  | 6 | 9 => e4m3Val n
  | 7 | 10 => fmtE5m2.decodeIeee n
  | _ => fmtE2m1.decodeFin n

/-- The value of an E8M0 scale code other than 0xFF. -/
def e8m0Exp (c : Nat) : Int := (c : Int) - 127

/-- The exponent offset E of R114 by element code. -/
def mxE (elem : Nat) : Int := if elem = 6 then 8 else if elem = 7 then 15 else 2

/-- The largest finite magnitude of a list, as a value (0 when none). -/
def maxMag (xs : List FVal) : FVal :=
  xs.foldl (fun m x => if x.isFin && m.lt x.abs then x.abs else m) (.fin false 0 0)

/-- The result of converting 32 elements to a microscaling code: the scale and the elements. -/
structure MxBlock where
  scale : Nat
  elems : List Conv
  deriving DecidableEq, Repr

/-- x / 2^(c - 127) as FP32: exact, or rounded once below the normal range (R114). -/
def mxDivide (x : Word) (c : Nat) : Word := fpRound ((fpVal x).scale (-(e8m0Exp c)))

/-- Conversion of up to 32 FP32 elements to a microscaling code (R114). -/
def mxConvert (code : Nat) (xs : List Word) : MxBlock :=
  let vs := xs.map fpVal
  let el := mxElem code
  let anyNaN := vs.any FVal.isNaN
  let anyInf := vs.any fun v => !v.isFin && !v.isNaN
  let m := maxMag vs
  if anyNaN then ⟨0xFF, vs.map fun v => ⟨0, false, false, v.isNaN⟩⟩
  else if m.isZero && !anyInf then ⟨0x00, vs.map fun _ => ⟨0, false, false, false⟩⟩
  else
    let c := if m.isZero then 254 else (clampInt 0 254 (m.log2Floor - mxE el + 127)).toNat
    let magBits := if el = 8 then 3 else 7
    ⟨c, xs.map fun x =>
      let r := convert el (mxDivide x c)
      { r with zeroed := (fpVal x).isFin && !fpIsZero x && decide (r.bits % 2 ^ magBits = 0) }⟩

/-- An element of a microscaling code and its scale as FP32: rounded or infinite outside the normal range;
scale 0xFF decodes as NaN (R112, R121). -/
def mxValue (code n c : Nat) : Word :=
  if c = 0xFF then fpNaN else fpRound ((elemVal code n).scale (e8m0Exp c))

/-- Sum of 32 elements by the fixed tree of R71. -/
def treeReduce (f : Word → Word → Word) : Nat → List Word → Word
  | 0, l => l.headD fpZero
  | k + 1, l => treeReduce f k ((chunksOf 2 l.length l).map fun p => f (p.getD 0 0) (p.getD 1 0))

/-- RSUM of one lane (R71). -/
def rsum (l : List Word) : Word := treeReduce fpAdd 5 l
/-- RMAX of one lane (R71). -/
def rmax (l : List Word) : Word := treeReduce fpMax 5 l

end Sys2Proof
end

