-- ==== Sys2Proof/Machine/PciConfig.lean ====
section
/-! DEFINITION. Configuration space: identities, BARs and capabilities of both functions, AER, and what a host protocol
violation does (10 R262 to R264, R272). Where the spec names a capability or a value of it, the place and coding within
the capability follow the PCI Express base specification, and are PRESUMED (log entry 13). -/

namespace Sys2Proof.Machine

/-- The key of a configuration register of a function. -/
def cfgKey (fn : PFn) (reg : Nat) : Nat := (match fn with | .pf0 => 0 | .pf1 => 4096) + reg

/-- FUNC of HOST_VIOLATION. -/
def fnCode : PFn → Nat
  | .pf0 => 0
  | .pf1 => 1

/-! ### What each register presents, and which of its bits the host writes -/

/-- Device ID by function and variant (R262). -/
def State.deviceId (s : State) (fn : PFn) : Nat :=
  (match fn with | .pf0 => 0x0910 | .pf1 => 0x0918) +
  (match s.variant with | .v16H4 => 0 | .v12H4 => 1 | .v16H2 => 2)

/-- Class code (R262). -/
def classCode : PFn → Nat
  | .pf0 => 0x120000
  | .pf1 => 0x088000

/-- Size of a BAR, 0 for one that is not implemented, and whether it is prefetchable (Table 10.2). -/
def State.barSize (s : State) (fn : PFn) (bar : Nat) : Nat :=
  match fn, bar with
  | .pf0, 0 => 2 ^ 24
  | .pf0, 2 => 2 ^ 20
  | .pf0, 4 => 2 ^ s.hif.bar4Log2
  | .pf1, 0 => 2 ^ 20
  | .pf1, 2 => 2 ^ 13
  | _, _ => 0

/-- Prefetchable (Table 10.2): BAR4 alone. -/
def barPrefetch (bar : Nat) : Bool := bar == 4

/-- The word of a BAR register: bar number (even), low or high half. The type of a 64-bit memory BAR is 4; the address
bits above the size are the host's (R264). -/
def State.barWord (s : State) (fn : PFn) (bar : Nat) (high : Bool) : Word × Word :=
  let size := s.barSize fn bar
  if size = 0 then (0, 0)
  else
    let mask := 2 ^ 64 - size
    if high then (0, BitVec.ofNat 32 (mask / 2 ^ 32))
    else (BitVec.ofNat 32 (4 + 8 * b2n (barPrefetch bar)), BitVec.ofNat 32 mask)

/-- The capabilities of Table 10.1 with a header in the first 256 bytes: offset, ID, offset of the next. -/
def pciCaps : List (Nat × Nat × Nat) := [(0x40, 0x01, 0x50), (0x50, 0x10, 0xB0), (0xB0, 0x11, 0)]

/-- The extended capabilities of Table 10.1: offset, ID. -/
def extCaps : PFn → List (Nat × Nat)
  | .pf0 => [(0x100, 0x0001), (0x150, 0x0003), (0x160, 0x000D), (0x170, 0x000F), (0x180, 0x0013), (0x190, 0x001B),
             (0x1A0, 0x002E), (0x1C0, 0x0025), (0x1D0, 0x0019), (0x200, 0x0026), (0x280, 0x002A), (0x300, 0x0031),
             (0x380, 0x0027), (0x400, 0x0015), (0x480, 0x000B)]
  | .pf1 => [(0x100, 0x0001), (0x150, 0x0003), (0x160, 0x000D), (0x1A0, 0x002E), (0x480, 0x000B)]

/-- The offset of the extended capability after one, 0 after the last. -/
def nextExt (fn : PFn) (o : Nat) : Nat := (((extCaps fn).map (·.1)).find? fun x => decide (o < x)).getD 0

/-- Bits of a register that the spec settles and their value; the others are as the part presents them. -/
structure CfgFixed where
  bits : Word
  value : Word
  deriving DecidableEq, Repr

/-- A register of which every bit is settled and read-only. -/
def cfgConst (v : Nat) : CfgFixed := { bits := 0xFFFFFFFF, value := BitVec.ofNat 32 v }

/-- What Tables 10.1 and 10.2 and R262 settle of a register (log entry 13): identities that both functions share, the
capability headers, Max Payload Size 512 (code 2), extended tags, Function Level Reset, completion timeout ranges A to D
and disable, 10-bit tags, the MSI-X table sizes and places, the serial number, Invalidate Queue Depth 32 (code 0) and
page-aligned requests, 512 page requests, the 20-bit PASID without execute permission and privileged mode, the sizes of
BAR4, and the boot count. -/
def State.cfgFixed (s : State) (fn : PFn) (reg : Nat) : Option CfgFixed :=
  let vectors := match fn with | .pf0 => 2047 | .pf1 => 63
  match reg with
  | 0x00 => some (cfgConst (s.deviceId fn * 0x10000 + Config.vendorId.toNat))
  | 0x08 => some (cfgConst (classCode fn * 0x100 + Config.revisionId.toNat))
  | 0x2C => some (cfgConst Config.subsystemIds.toNat)
  | 0x30 => some (cfgConst 0)
  | 0x34 => some (cfgConst 0x40)
  | 0x44 => some { bits := 0, value := 0 }
  | 0x54 => some { bits := 0x10000027, value := 0x10000022 }
  | 0x74 => some { bits := 0x0002001F, value := 0x0002001F }
  | 0xB0 => some { bits := 0x07FFFFFF, value := BitVec.ofNat 32 (vectors * 0x10000 + 0x11) }
  | 0xB4 => some (cfgConst (match fn with | .pf0 => 0xF00000 | .pf1 => 0xF0000))
  | 0xB8 => some (cfgConst (match fn with | .pf0 => 0xF80000 | .pf1 => 0xF8000))
  | 0x154 => some (cfgConst (Config.serial.toNat % 2 ^ 32))
  | 0x158 => some (cfgConst (Config.serial.toNat / 2 ^ 32))
  | 0x174 => if fn = .pf0 then some { bits := 0x0000003F, value := 0x20 } else none
  | 0x188 => if fn = .pf0 then some (cfgConst 512) else none
  | 0x194 => if fn = .pf0 then some { bits := 0x00001F06, value := 0x1400 } else none
  | 0x404 => if fn = .pf0 then some (cfgConst 0x001FF000) else none
  | 0x408 => if fn = .pf0 then
      some { bits := 0x00003FE7, value := BitVec.ofNat 32 ((s.hif.bar4Log2 - 20) * 0x100 + 0x24) } else none
  | 0x488 => some (cfgConst (Config.orderCode (s.deviceId .pf0 - 0x0910)).toNat)
  | 0x48C => some (cfgConst s.mgt.boot.toNat)
  | _ =>
    match pciCaps.find? (fun c => c.1 == reg) with
    | some c => some { bits := 0xFFFF, value := BitVec.ofNat 32 (c.2.2 * 0x100 + c.2.1) }
    | none => match (extCaps fn).find? (fun c => c.1 == reg) with
      | some c => some { bits := 0xFFF0FFFF, value := BitVec.ofNat 32 (nextExt fn reg * 0x100000 + c.2) }
      | none => none

/-- Bits that the host writes and reads back, beside those that the spec settles: the power state, the MSI-X enable and
function mask, the AER masks and severities, ATS and PRI enables; elsewhere as the part has them (log entry 13). -/
def cfgWritable (fn : PFn) (reg : Nat) : Word :=
  match reg with
  | 0x44 => 3
  | 0xB0 => 0xC0000000
  | 0x108 | 0x10C => 0xFFFFFFFF
  | 0x174 => 0x801F0000
  | 0x184 => 1
  | 0x18C => 0xFFFFFFFF
  | 0x408 => 0
  | _ => Config.cfgWritable (fnCode fn) reg

/-- A configuration register as the host last wrote it; the AER severities before that are those of the base
specification: malformed TLPs and link-wide errors fatal. -/
def State.cfgWritten (s : State) (fn : PFn) (reg : Nat) : Word :=
  match s.hif.cfg.find? fun x => x.1 == cfgKey fn reg with
  | some x => x.2
  | none => if reg = 0x10C then 0x00462030 else 0

/-- A register put together: what the spec settles, what the host wrote of the rest, else what the part presents. -/
def cfgJoin (f : CfgFixed) (writable written part : Word) : Word :=
  (f.value &&& f.bits) ||| (written &&& writable &&& ~~~f.bits) ||| (part &&& ~~~(f.bits ||| writable))

/-- A configuration register as a read returns it (R262 to R264). -/
def State.cfgRead (s : State) (fn : PFn) (reg : Nat) : Word :=
  if 0x10 ≤ reg ∧ reg < 0x28 then
    let w := s.barWord fn ((reg - 0x10) / 8 * 2) ((reg - 0x10) % 8 == 4)
    w.1 ||| (s.cfgWritten fn reg &&& w.2)
  else if reg = 0x104 then (match fn with | .pf0 => s.hif.aer0 | .pf1 => s.hif.aer1)
  else
    cfgJoin ((s.cfgFixed fn reg).getD { bits := 0, value := 0 }) (cfgWritable fn reg) (s.cfgWritten fn reg)
      (Config.configReset (fnCode fn) reg)

/-- The bus address of a BAR: BAR0 at 0x10, BAR2 at 0x18, BAR4 at 0x20, without the bits below its size. -/
def State.barAddr (s : State) (fn : PFn) (bar : Nat) : Nat :=
  let lo := (s.cfgRead fn (0x10 + 4 * bar)).toNat
  let hi := (s.cfgRead fn (0x14 + 4 * bar)).toNat
  lo / 16 * 16 + hi * 2 ^ 32

/-! ### Advanced Error Reporting -/

/-- Log an error in AER (R272): its bit of the function's uncorrectable error status; unless the host has masked it, a
message under the severity that the host has set. -/
def State.aerBit (s : State) (fn : PFn) (bit : Nat) : State :=
  let s : State := match fn with
    | .pf0 => { s with hif := { s.hif with aer0 := s.hif.aer0 ||| (1#32 <<< bit) } }
    | .pf1 => { s with hif := { s.hif with aer1 := s.hif.aer1 ||| (1#32 <<< bit) } }
  if (s.cfgWritten fn 0x108).getLsbD bit then s
  else { s with hif := { s.hif with errs := s.hif.errs ++ [(fn, (s.cfgWritten fn 0x10C).getLsbD bit)] } }

/-- The AER bit of a row of Table 10.3: Poisoned TLP 12, Unexpected Completion 16, Malformed TLP 18, Unsupported
Request 20. -/
def aerOfRow (vcode : Nat) : Nat :=
  if vcode = 1 then 18 else if vcode = 7 then 12 else if vcode = 8 ∨ vcode = 9 then 16 else 20

/-- Log a violation, count it and post HOST_VIOLATION (R272). -/
def State.violation (s : State) (fn : PFn) (vcode : Nat) (rid : BitVec 16) (fmt : Byte) (addr : Nat) : State :=
  let s := { s with hif := { s.hif with violCnt := satAdd s.hif.violCnt 1 } }
  (s.aerBit fn (aerOfRow vcode)).post
    { kind := kHostViol, src := srcMgr,
      body := toLe (fnCode fn) 1 ++ toLe vcode 1 ++ toLe rid.toNat 2 ++ [fmt] ++ zeros 3 ++ toLe addr 8 }

end Sys2Proof.Machine
end

