-- ==== Sys2Proof/Machine/Rings.lean ====
section
/-! DEFINITION. Rings: doorbells, descriptor fetch and check, event records (10 R275 to R297, R516, R517). -/

namespace Sys2Proof.Machine

/-- Whether the variant has a ring of Table 10.4 (R275). -/
def Variant.hasRing (v : Variant) (r : Nat) : Bool :=
  if r ≤ 1 then true
  else if r < 18 then v.hasMover (32 + (r - 2))
  else if r ≤ 21 then v.hasCodec ((r - 18) / 2)
  else (decide (32 ≤ r) && decide (r ≤ 39)) || r == 64 || r == 65

/-- A descriptor ring: job, management, DMA and codec rings. -/
def descRing (r : Nat) : Bool := decide (r ≤ 21) || r == 64
/-- An event ring. -/
def eventRing (r : Nat) : Bool := (decide (32 ≤ r) && decide (r ≤ 39)) || r == 65

/-- Slot size in bytes (Table 10.4). -/
def slotSize (r : Nat) : Nat := if r = 0 then 256 else 128

/-- Whether accesses of the host reach the module: link up and host interface answering. -/
def State.hostUp (s : State) : Bool := s.hif.linkUp && s.regionUp 2

/-! ### Doorbells -/

/-- DB_CRC covers the ring ID and bits [31:0] (R279). -/
def doorbellCrc (r : Nat) (data : DWord) : Word := crc32c (toLe r 4 ++ toLe (data.toNat % 2 ^ 32) 4)

/-- INDEX and ARM of a doorbell (R279). -/
def dbIndex (data : DWord) : BitVec 24 := data.extractLsb' 0 24
def dbArm (data : DWord) : Bool := data.getLsbD 24

/-- The REASON for which a doorbell is discarded whole (R279, R291). -/
def doorbellReason (g : Ring) (r : Nat) (isEvent : Bool) (data : DWord) : Option Nat :=
  if data.extractLsb' 32 32 ≠ doorbellCrc r data then some 1
  else if data.extractLsb' 25 7 ≠ 0 then some 5
  else if dbArm data && !isEvent then some 2
  else if !g.en then some 3
  else none

/-- Count and report a rejected doorbell. -/
def State.rejectDoorbell (s : State) (r reason : Nat) (data : DWord) : State :=
  let s := if reason = 4 then { s with hif := { s.hif with dbReject := satAdd s.hif.dbReject 1 } }
    else { s with hif := { s.hif with dbBad := satAdd s.hif.dbBad 1 } }
  s.post { kind := kDbReject, src := srcMgr, rings := if r ≥ 64 then some [65] else none,
           body := toLe r 2 ++ toLe reason 1 ++ zeros 5 ++ toLe data.toNat 8 }

/-- Retry the refused write of a consumer-index shadow; the halt clears when it passes (R517, third case). -/
def State.retryShadow (s : State) (r : Nat) : State :=
  let g := s.ring r
  match s.hostWrite (fnOfRing r) g.shadow.toNat (shadowBytes { g with halted := false }) false false with
  | (true, s') => s'.modRing r fun g => { g with halted := false, hcause := 0, refused := false }
  | (false, s') => s'

/-- Clear a halt of causes 1 to 5, or of cause 6 on a descriptor: the held copy runs again, before the waiting
descriptors (R517). -/
def State.clearHalt (s : State) (r : Nat) : State :=
  s.modRing r fun g =>
    { g with halted := false, hcause := 0, held := none, posted := g.held.toList ++ g.posted }

/-- A doorbell that the unit accepts ends a halt, as R517 states for its kind. -/
def State.resumeRing (s : State) (r : Nat) : State :=
  let g := s.ring r
  if ¬ g.halted then s else if g.refused then s.retryShadow r else s.clearHalt r

/-- The bus address of a ring's doorbell page (R275). -/
def State.doorbellPage (s : State) (r : Nat) : Nat :=
  s.barAddr (fnOfRing r) 2 + 0x1000 * (if r < 64 then r else r - 64)

/-- A write to the doorbell page of a ring that the variant lacks is a BAR2 violation (R272, R275). The command does not
carry the TLP's header: its requester is free, and its Fmt and Type are those of a memory write at that address (log entry
87). -/
def State.strayDoorbell (s : State) (r : Nat) : State :=
  let a := s.doorbellPage r
  let fmt : Byte := if a < 2 ^ 32 then 0x40 else 0x60
  s.drawn.violation (fnOfRing r) 4 ((Config.freeWord s.free).setWidth 16) fmt a

/-- DOORBELL (R280). -/
def execDoorbell (ring : RingId) (data : DWord) (s : State) : Out :=
  let r := ring.val
  if ¬ s.hostUp then .next s
  else if ¬ s.variant.hasRing r then .next (s.strayDoorbell r)
  else if ¬ descRing r then .next s
  else
    let g := s.ring r
    match doorbellReason g r false data with
    | some reason => .next (s.rejectDoorbell r reason data)
    | none =>
      let a := (dbIndex data - g.last).toNat
      if a = 0 then .next (s.resumeRing r)
      else if a + g.outstanding ≤ g.size then
        .next ((s.modRing r fun g => { g with last := dbIndex data }).resumeRing r)
      else .next (s.rejectDoorbell r 4 data)

/-! ### Event records -/

/-- The EVQ_OVERFLOW record of a ring (R291, R293). -/
def State.overflowRec (s : State) (g : Ring) : Rec :=
  s.record { kind := kEvqOverflow, src := srcMgr, body := toLe g.dropped.toNat 4 }

/-- The record that the next write carries: EVQ_OVERFLOW before any other, after drops (R293). -/
def State.nextRecord (s : State) (r : Nat) : Option (Rec × Bool) :=
  let g := s.ring r
  if g.dropped ≠ 0 then some (s.overflowRec g, true)
  else match g.evq with
    | x :: _ => some (x, false)
    | [] => none

/-- Send a record's two TLPs: bytes 0x04 to 0x7F, then bytes 0x00 to 0x03 with PHASE (R290); the Boolean says
whether both passed the Gatehouse. -/
def State.sendRecord (s : State) (r : Nat) (x : Rec) : Bool × State :=
  let g := s.ring r
  let a := g.base.toNat + (g.ci.toNat % g.size) * 128
  let bs := x.bytes g.phase
  match s.hostWrite (fnOfRing r) (a + 4) (bs.drop 4) false false with
  | (false, s) => (false, s)
  | (true, s) => s.hostWrite (fnOfRing r) a (bs.take 4) false false

/-- Send the message of an armed ring, which disarms it (R294). -/
def State.fireRing (s : State) (r : Nat) : State :=
  let s := s.modRing r fun g => { g with armed := false }
  s.signal (fnOfRing r) (s.ring r).vec.toNat

/-- Write the next record of an event ring into a free slot: on a refusal the ring halts with cause 6 and the record
waits (R296); a write that passes ends the halt, and an armed ring sends its message (R294). -/
def State.writeRecord (s : State) (r : Nat) : State :=
  let g := s.ring r
  match s.nextRecord r with
  | none => s
  | some (x, isOverflow) =>
    if ¬ (g.unread < g.size) then s
    else match s.sendRecord r x with
      | (false, s) =>
        if g.halted then s
        else (s.markHalt r 6 g.ci.toNat 0).modRing r fun g => { g with refused := true }
      | (true, s) =>
        let s := s.modRing r fun g =>
          { g with ci := g.ci + 1, halted := false, hcause := 0, refused := false,
                   evq := if isOverflow then g.evq else g.evq.drop 1,
                   dropped := if isOverflow then 0 else g.dropped }
        let s := if isOverflow then s.bumpSeq srcMgr else s
        if g.armed then s.fireRing r else s

/-- RECORD_WRITE (R293). -/
def execRecordWrite (ring : RingId) (s : State) : Out :=
  let r := ring.val
  let g := s.ring r
  if ¬ eventRing r ∨ ¬ s.hostUp ∨ ¬ g.en ∨ g.halted then .next s else .next (s.writeRecord r)

/-- EVENT_DOORBELL (R295). -/
def execEventDoorbell (ring : RingId) (data : DWord) (s : State) : Out :=
  let r := ring.val
  if ¬ s.hostUp ∨ ¬ eventRing r then .next s
  else
    let g := s.ring r
    match doorbellReason g r true data with
    | some reason => .next (s.rejectDoorbell r reason data)
    | none =>
      if (dbIndex data - g.last).toNat ≤ g.unread then
        let s := s.modRing r fun g => { g with last := dbIndex data }
        let s := if g.halted then s.writeRecord r else s
        if dbArm data then
          let s := s.modRing r fun g => { g with armed := true }
          if 0 < (s.ring r).unread ∧ ¬ (s.ring r).halted then .next (s.fireRing r) else .next s
        else .next s
      else .next (s.rejectDoorbell r 4 data)

/-! ### Descriptor fetch and check -/

/-- The host reads that a function has outstanding (R267). -/
def State.readsOf (s : State) (fn : PFn) : Nat := (s.hif.reads.filter fun x => decide (x.fn = fn)).length

/-- Whether a function may issue one more read: at most DMA_CTRL.MAX_RD on PF0 and 16 on PF1 (R267). -/
def State.mayRead (s : State) (fn : PFn) : Bool :=
  match fn with
  | .pf0 => decide (s.readsOf .pf0 < s.hif.maxRd.toNat)
  | .pf1 => decide (s.readsOf .pf1 < 16)

/-- Issue a host read of at most 4,096 bytes. -/
def State.issueRead (s : State) (fn : PFn) (addr len : Nat) (who : ReadFor) (pasid : Option (BitVec 20)) : State :=
  let tag := s.hif.nextTag
  let s := { s with hif := { s.hif with
    nextTag := tag + 1
    reads := s.hif.reads ++ [OutRead.mk tag fn addr len who] } }
  s.send (.read fn tag addr len pasid)

/-- A half that takes itself for the lead although the lease cell does not (R441, R442). -/
def State.staleLead (s : State) : Bool :=
  s.halves.zipIdx.any fun (h, i) =>
    match h.leads with
    | some e => !(decide (s.rel.lease.holder = i) && decide (s.rel.lease.epoch = e))
    | none => false

/-- Whether a half leads under the cell's epoch. -/
def State.leadOk (s : State) : Bool :=
  match s.lead with
  | some h => (s.half h).leads == some s.rel.lease.epoch
  | none => false

/-- Discard an effect of a former lead: counted and logged as STALE_LEAD (R442). -/
def State.stale (s : State) : State :=
  { s with rel := { s.rel with leaseStale := satAdd s.rel.leaseStale 1 } }.arrive
    (plainError 0 eStaleLead 0 s.rel.lease.epoch.toNat)

/-- The slots that the next read of a ring covers: first index and count, up to 8 and never across the ring's
end (R282). -/
def Ring.nextFetch (g : Ring) : Nat × Nat :=
  let avail := g.outstanding
  let slot := g.ci.toNat % g.size
  (g.ci.toNat, min 8 (min avail (g.size - slot)))

/-- DESCRIPTOR_FETCH (R282, R516). The next read is issued when the descriptors of the last one are checked (log
entry 17). -/
def execDescriptorFetch (ring : RingId) (s : State) : Out :=
  let r := ring.val
  let g := s.ring r
  if ¬ s.variant.hasRing r then .next s
  else if ¬ descRing r ∨ ¬ s.regionUp 2 ∨ ¬ g.en ∨ g.halted ∨ g.reading ∨ g.fetched ≠ [] then .next s
  else if r = 0 ∧ ¬ s.leadOk then .next (if s.staleLead then s.stale else s)
  else
    let (first, n) := g.nextFetch
    if n = 0 then .next s
    else
      let a := g.base.toNat + (first % g.size) * slotSize r
      let len := n * slotSize r
      if g.loc then
        if s.stackHeld a then .next s
        else
          let (bs, _, s) := s.readMem { kind := 8, id := r } a len
          .next (s.modRing r fun g =>
            { g with fetched := (chunksOf (slotSize r) n bs).zipIdx.map fun (b, i) =>
                { idx := (first + i) % 2 ^ 24, bytes := b } })
      else if ¬ s.hif.linkUp ∨ ¬ s.mayRead (fnOfRing r) then .next s
      else
        let s := s.issueRead (fnOfRing r) a len (.ring ring first n) (if g.pv then some g.pasid else none)
        .next (s.modRing r fun g => { g with reading := true })

/-- JOB_ID of a descriptor's COMPLETION record: a job's, or the one that PREEMPT or CANCEL names (R291). -/
def descJobId (r : Nat) (d : List Byte) : Nat :=
  if r = 0 then jId d
  else if (r = 1 ∨ r = 64) ∧ (dOpc d = 4 ∨ dOpc d = 5) then mArg d 0 % 2 ^ 32
  else 0

/-- Complete a descriptor that no unit takes: it passes through the consumer at once. -/
def State.completeNow (s : State) (r : Nat) (d : List Byte) (status : Nat) : State :=
  (s.modRing r fun g => { g with inHand := g.inHand + 1 }).complete r d status (descJobId r d)

/-- Whether a management operation is denied for the way it came (R287, R455, R465): what PF0 may not send; the Gatehouse
commands over MCTP; in recovery, all but FW_STAGE and LOG_READ, and all on PF0. -/
def State.mgmtDenied (s : State) (via : Via) (opc : Nat) : Bool :=
  let inRecovery := s.mgt.recovery && opc != 0x10 && opc != 0x18
  match via with
  | .ring .pf0 => decide (5 < opc) || s.mgt.recovery
  | .ring .pf1 => inRecovery
  | .mctp _ => opc == 0x12 || opc == 0x16 || opc == 0x17 || inRecovery

/-- The status with which a well-formed descriptor completes instead of being posted: FAILED for DMA and codec
descriptors while FATAL (R423), for each MOVE of a fenced host mover and each descriptor of a fenced codec engine
(Table 15.3). -/
def State.bypass (s : State) (r : Nat) (d : List Byte) : Option Nat :=
  if 2 ≤ r ∧ r < 22 ∧ s.mgt.fatal then some stFailed
  else if 2 ≤ r ∧ r < 18 ∧ dOpc d = 1 ∧ s.isFenced (srcMover (32 + (r - 2))) then some stFailed
  else if 18 ≤ r ∧ r < 22 ∧ s.isFenced (srcCodec ((r - 18) / 2)) then some stFailed
  else none

/-- Check the oldest fetched descriptor of a ring (R278, R517): a wrong DCRC or SEQ halts the ring at its slot and drops
what was fetched after it. -/
def State.checkOldest (s : State) (r : Nat) : State :=
  let g := s.ring r
  match g.fetched with
  | [] => s
  | p :: rest =>
    if ¬ crcOk p.bytes (slotSize r - 4) then
      (s.modRing r fun g => { g with fetched := [] }).haltRing r 1 p.idx 0
    else if dSeq p.bytes ≠ p.idx then
      (s.modRing r fun g => { g with fetched := [] }).haltRing r 2 p.idx (dSeqField p.bytes)
    else
      let s := s.modRing r fun g => { g with fetched := rest, ci := g.ci + 1 }
      let s :=
        if ¬ descriptorOk r p.bytes then s.completeNow r p.bytes stMalformed
        else match s.bypass r p.bytes with
          | some status => s.completeNow r p.bytes status
          | none => s.modRing r fun g => { g with posted := g.posted ++ [p] }
      s.writeShadow r

/-- DESCRIPTOR_CHECK (R278, R517). The supervisor of the half that leads checks the job ring's (R19, R30); a consumer that
holds checks none (R293). -/
def execDescriptorCheck (ring : RingId) (s : State) : Out :=
  let r := ring.val
  if ¬ s.regionUp 2 ∨ s.completionHeld r then .next s
  else if r = 0 ∧ ¬ s.leadOk then .next (if s.staleLead then s.stale else s)
  else if r = 0 ∧ ¬ s.halfUp (s.lead.getD 0) then .next s
  else .next (s.checkOldest r)

end Sys2Proof.Machine
end

