-- ==== Sys2Proof/Machine/HostIf.lean ====
section
/-! DEFINITION. The host interface beside the rings: BAR4, configuration, violations, ATS invalidation, MSI-X table
(10 R262 to R272). PCI Express encodings that the spec takes from its base specification are PRESUMED (log entry
13). -/

namespace Sys2Proof.Machine

/-! ### BAR4 (R265, R266) -/

/-- The device address of a BAR4 offset: the base without its bits below the BAR4 size. -/
def State.bar4Addr (s : State) (off : Nat) : Nat :=
  let size := 2 ^ s.hif.bar4Log2
  s.hif.bar4Base.toNat / size * size + off

/-- The words of a range of which some byte is enabled are written, and only they: `go` walks the range word by
word. A word of which all four bytes are enabled is written whole; another is merged (R226). -/
def State.writeEnabled (s : State) (a : Nat) (data : List Byte) (be : List Bool) (poison : Bool) : State :=
  (wordsOf a data.length).foldl
    (fun s w =>
      let lo := max a (4 * w)
      let hi := min (a + data.length) (4 * w + 4)
      let en := (be.drop (lo - a)).take (hi - lo)
      let new := (data.drop (lo - a)).take (hi - lo)
      if ¬ en.any id then s
      else if en.all id then s.writeMem lo new poison
      else
        -- a sparse word: merge byte by byte, keeping the class of the word
        (new.zip en).zipIdx.foldl (fun s x => if x.1.2 then s.writeMem (lo + x.2) [x.1.1] poison else s) s) s

/-- Serve a BAR4 access; a write with EP = 1 stores the poison pattern (R266). -/
def State.serveBar (s : State) (x : BarAccess) : State :=
  match x with
  | .read a len rid =>
    let r := s.readMem { kind := 4, id := 0 } a len
    r.2.2.send (.completion rid .sc r.1 r.2.1)
  | .write a data be ep => s.writeEnabled a data be ep

/-- The device address of a BAR4 access. -/
def BarAccess.addr : BarAccess → Nat
  | .read a _ _ | .write a _ _ _ => a

/-- An access to BAR4: one to a fenced stack holds (R233). -/
def State.barAccess (s : State) (x : BarAccess) : State :=
  if s.stackHeld x.addr then { s with hif := { s.hif with barHeld := s.hif.barHeld ++ [x] } } else s.serveBar x

/-- The BAR4 accesses that hold are tried again, oldest first: a withdrawn stack serves them (R232, R427). -/
def State.retryBar (s : State) : State :=
  s.hif.barHeld.foldl State.barAccess { s with hif := { s.hif with barHeld := [] } }

/-- BAR4_READ (R266). -/
def execBar4Read (off len : Nat) (rid : BitVec 16) (s : State) : Out :=
  let a := s.bar4Addr off
  if ¬ s.hostUp then .next s
  else if 2 ^ s.hif.bar4Log2 < off + len then .next s
  else if ¬ s.rangeAll Region.hostOk a len then
    .next ((s.violation .pf0 5 rid 0x20 (s.barAddr .pf0 4 + off)).send (.completion rid .ur [] false))
  else .next (s.barAccess (.read a len rid))

/-- BAR4_WRITE (R266). With EP = 1 the data is written with the poison pattern. -/
def execBar4Write (off : Nat) (data : List Byte) (be : List Bool) (ep : Bool) (rid : BitVec 16) (s : State) : Out :=
  let a := s.bar4Addr off
  if ¬ s.hostUp then .next s
  else if 2 ^ s.hif.bar4Log2 < off + data.length then .next s
  else if ¬ s.rangeAll Region.hostOk a data.length then
    .next (s.violation .pf0 5 rid 0x60 (s.barAddr .pf0 4 + off))
  else .next ((if ep then s.aerBit .pf0 12 else s).barAccess (.write a data be ep))

/-! ### Configuration (R262, R263, R479) -/

/-- Send the messages of the vectors that are pending and no longer masked (R271). -/
def State.drainPba (s : State) : State :=
  s.hif.pba.foldl (fun s k =>
    let fn := if k < 2048 then PFn.pf0 else PFn.pf1
    let s := { s with hif := { s.hif with pba := s.hif.pba.filter (· ≠ k) } }
    s.signal fn (k % 2048)) s

/-- What a configuration write sets beside the register: the MSI-X function mask (0x0B0), ATS enable (0x174), PRI
enable (0x184), the BAR4 size of Resizable BAR (0x408), and AER status, cleared by ones. -/
def State.cfgEffect (s : State) (fn : PFn) (reg : Nat) (data : Word) : State :=
  match fn, reg with
  | .pf0, 0x0B0 => { s with hif := { s.hif with fmask0 := data.getLsbD 30 } }.drainPba
  | .pf1, 0x0B0 => { s with hif := { s.hif with fmask1 := data.getLsbD 30 } }.drainPba
  | .pf0, 0x174 => { s with hif := { s.hif with atsEn := data.getLsbD 31 } }
  | .pf0, 0x184 => { s with hif := { s.hif with priEn := data.getLsbD 0, priStopped := s.hif.priStopped && !data.getLsbD 0 } }
  | .pf0, 0x408 => { s with hif := { s.hif with bar4Log2 := min 36 (max 28 (20 + bitsOf data.toNat 8 6)) } }
  | .pf0, 0x104 => { s with hif := { s.hif with aer0 := s.hif.aer0 &&& ~~~ data } }
  | .pf1, 0x104 => { s with hif := { s.hif with aer1 := s.hif.aer1 &&& ~~~ data } }
  | _, _ => s

/-- ATS_INVALIDATE (R268): every cached translation that overlaps the range under the PASID goes; requests that
used it stand in the transmit queue, and Invalidate Completion follows them there. -/
def execAtsInvalidate (pasid : Option (BitVec 20)) (addr : DWord) (size : Nat) (s : State) : Out :=
  if ¬ s.hostUp then .next s
  else
    let hit := fun (e : AtcEntry) =>
      (decide (e.pasid = pasid)) && decide (e.page < addr.toNat + size) && decide (addr.toNat < e.page + e.size)
    .next ({ s with hif := { s.hif with atc := s.hif.atc.filter fun e => !hit e } }.send .invalidateDone)

end Sys2Proof.Machine
end

