-- ==== Sys2Proof/Machine/Link.lean ====
section
/-! DEFINITION. The Limfaette link: flits, retry, credits, messages, routing, violations, fencing (12 R330 to
R357). -/

namespace Sys2Proof.Machine

/-! ### Topology (R342 to R345) -/

/-- Sizes of the dimensions in force. -/
def State.topoSize (s : State) (d : Nat) : Nat := bitsOf s.fab.topoNow.toNat (10 * d) 10 + 1
/-- This module's coordinates in force. -/
def State.topoCoord (s : State) (d : Nat) : Nat := bitsOf s.fab.topoNow.toNat (30 + 10 * d) 10
/-- Number of valid module IDs. -/
def State.topoCount (s : State) : Nat := s.topoSize 0 * s.topoSize 1 * s.topoSize 2
/-- A coordinate of a module ID. -/
def State.coordOf (s : State) (id d : Nat) : Nat :=
  match d with
  | 0 => id % s.topoSize 0
  | 1 => id / s.topoSize 0 % s.topoSize 1
  | _ => id / s.topoSize 0 / s.topoSize 1
/-- This module's ID. -/
def State.moduleId (s : State) : Nat :=
  s.topoCoord 0 + s.topoSize 0 * (s.topoCoord 1 + s.topoSize 1 * s.topoCoord 2)

/-- The direction code that the link map in force assigns to a port (R343). -/
def State.portDir (s : State) (p : Nat) : Option Nat :=
  let f := bitsOf s.fab.linkmapNow.toNat (4 * p) 4
  if bitOf f 3 ∧ f % 8 < 6 then some (f % 8) else none

/-- The ports of a direction, ascending. -/
def State.dirPorts (s : State) (d : Nat) : List Nat := (List.range 8).filter fun p => s.portDir p == some d

/-- The neighbour expected in a direction. -/
def State.neighbour (s : State) (d : Nat) : Option Nat :=
  let w := s.fab.nbrNow.getD d 0
  if w.getLsbD 31 then some (w.toNat % 2 ^ 14) else none

/-- The opposite direction: +X and −X are codes 0 and 1, and so on. -/
def opposite (d : Nat) : Nat := if d % 2 = 0 then d + 1 else d - 1

/-- The next hop of a message to a module: dimension, direction code; none for this module itself (R344). -/
def State.nextHop (s : State) (dst : Nat) : Option (Nat × Nat) :=
  (List.range 3).findSome? fun d =>
    let n := s.topoSize d
    let dx := (s.coordOf dst d + n - s.topoCoord d) % n
    if dx = 0 then none else some (d, if 2 * dx ≤ n then 2 * d else 2 * d + 1)

/-- Whether a hop crosses the dateline of its dimension, the link between coordinates X − 1 and 0. -/
def State.crossesDateline (s : State) (d dir : Nat) : Bool :=
  if dir % 2 = 0 then s.topoCoord d + 1 == s.topoSize d else s.topoCoord d == 0

/-! ### Messages (R346, R347) -/

def hType (h : List Byte) : Nat := fieldAt h 0 1
def hFlags (h : List Byte) : Nat := fieldAt h 1 1
def hLen (h : List Byte) : Nat := fieldAt h 2 2
def hDst (h : List Byte) : Nat := fieldAt h 4 2
def hSrc (h : List Byte) : Nat := fieldAt h 6 2
def hAddr (h : List Byte) : Nat := fieldAt h 8 8
def hTag (h : List Byte) : Nat := fieldAt h 0x10 4
def hPmap (h : List Byte) : Nat := fieldAt h 0x14 8

/-- Data bytes that follow a header: LEN, except that READ_REQ carries none (Table 12.6). -/
def dataLen (h : List Byte) : Nat := if hType h = 1 then 0 else hLen h

/-- A message header (Table 12.5). -/
def msgHeader (mtype flags len dst src addr tag pmap : Nat) : List Byte :=
  withCrc (toLe mtype 1 ++ toLe flags 1 ++ toLe len 2 ++ toLe dst 2 ++ toLe src 2 ++ toLe addr 8 ++ toLe tag 4 ++
    toLe pmap 8)

/-- The class of a message type: 0 request, 1 response, 2 collective, 3 doorbell, 4 management (Table 12.3). -/
def msgClass (mtype : Nat) : Option Nat :=
  match mtype with
  | 1 | 3 | 5 => some 0
  | 2 | 4 | 6 | 0xD => some 1
  | 7 | 8 => some 2
  | 9 | 0xA => some 3
  | 0xB | 0xC => some 4
  | _ => none

/-- The virtual channel of a message type and routing class (Table 12.3). -/
def vcOf (mtype cls : Nat) : Nat :=
  match msgClass mtype with
  | some 0 => cls
  | some 1 => 2 + cls
  | some 2 => 4
  | some 3 => 5
  | _ => 6 + cls

/-- Whether a message type travels on a virtual channel. -/
def vcFits (mtype vc : Nat) : Bool := vcOf mtype 0 == vc || vcOf mtype 1 == vc

/-- Neighbour-only messages (R344). -/
def neighbourOnly (mtype : Nat) : Bool := mtype == 7 || mtype == 8 || mtype == 9 || mtype == 0xA

/-- Whether a received header is malformed (Table 12.7, code 0x05): MTYPE, reserved bits, MTYPE on a wrong channel,
LEN wrong for the MTYPE, a 4 KiB crossing of the bytes from ADDR to ADDR + LEN − 1 (R346). -/
def msgMalformed (h : List Byte) (vc : Nat) : Bool :=
  let t := hType h
  let n := hLen h
  let off := if t = 7 then hAddr h / 0x10000 else hAddr h
  let lenOk := match t with
    | 1 | 2 | 3 | 7 => decide (64 ≤ n)
    | 5 | 6 => n == 64
    | 0xB | 0xC => n == 128
    | _ => n == 0
  let addrOk := match t with
    | 1 | 2 | 3 | 4 => decide (hAddr h < 2 ^ 48)
    | 5 | 6 => decide (hAddr h < 2 ^ 48) && hAddr h % 8 == 0
    | 8 | 9 | 0xA => decide (hAddr h < 2 ^ 16)
    | 0xB | 0xC => hAddr h == 0
    | _ => true
  let tagOk := match t with
    | 8 | 9 => hTag h % 2 ^ 16 == 0
    | 0xA => decide (hTag h < 2 ^ 16)
    | _ => true
  let crosses := decide (t = 1 ∨ t = 2 ∨ t = 3 ∨ t = 5 ∨ t = 6 ∨ t = 7) && decide (off % 4096 + n > 4096)
  (msgClass t).isNone || !vcFits t vc || (t != 0xD && hFlags h != 0) || decide (hDst h ≥ 2 ^ 14) ||
  decide (hSrc h ≥ 2 ^ 14) || !lenOk || !addrOk || !tagOk || crosses

/-- Whether the data of a message break Table 12.6: bytes 8 to 63 of an ATOMIC_ADD are zero. -/
def dataMalformed (h data : List Byte) : Bool := hType h == 5 && !zeroAt data 8 56

/-- Whether a module ID is in the job-domain table (R468). -/
def State.inDomain (s : State) (id : Nat) : Bool := s.sec.jobdom.getLsbD id

/-! ### LINK records (R357) -/

/-- Post a LINK record; its intervals start again. -/
def State.linkEvent (s : State) (p event code : Nat) (owner : Owner := .none) : State :=
  let g := s.port p
  (s.post { kind := kLink, src := srcPort p, owner,
            body := toLe p 1 ++ toLe event 1 ++ toLe g.lanes 1 ++ toLe code 1 ++ toLe g.peer.toNat 2 ++
              [g.peerPort] ++ zeros 1 ++ toLe g.peerBoot.toNat 2 ++ zeros 2 ++ toLe g.violCnt.toNat 4 ++
              toLe g.recCe 4 ++ toLe g.recUe 4 ++ toLe g.recReplay 4 }).modPort p
    fun g => { g with recCe := 0, recUe := 0, recReplay := 0 }

/-! ### Flits and transmission (R335 to R340) -/

/-- A flit (Table 12.1). -/
def flitBytes (ftype bvc fseq ack crvc crcnt : Nat) (body : List Byte) : List Byte :=
  withCrc (toLe (ftype * 2 ^ 30 + bvc * 2 ^ 27 + fseq * 2 ^ 17 + ack * 2 ^ 7 + crvc * 2 ^ 4 + crcnt) 4 ++
    padTo body 248)

/-- The header word of a flit. -/
def flitWord (f : List Byte) : Nat := fieldAt f 0 4
def fType (f : List Byte) : Nat := bitsOf (flitWord f) 30 2
def fBvc (f : List Byte) : Nat := bitsOf (flitWord f) 27 3
def fSeq (f : List Byte) : Nat := bitsOf (flitWord f) 17 10
def fAck (f : List Byte) : Nat := bitsOf (flitWord f) 7 10
def fCrvc (f : List Byte) : Nat := bitsOf (flitWord f) 4 3
def fCrcnt (f : List Byte) : Nat := bitsOf (flitWord f) 0 4
def fBody (f : List Byte) : List Byte := bytesAt f 4 248
def fCtype (f : List Byte) : Nat := fieldAt f 4 1

/-- ACK that this port sends: the FSEQ of the last flit received in order. -/
def Port.ackNow (g : Port) : Nat := (g.rxNext + 1023) % 1024

/-- Put bytes on the lanes. -/
def Port.emit (g : Port) (f : List Byte) : Port := { g with out := g.out ++ [f] }

/-- Send an unsequenced control flit (FTYPE 0): FSEQ and CRCNT are 0. -/
def Port.sendControl (g : Port) (body : List Byte) : Port := g.emit (flitBytes 0 0 0 g.ackNow 0 0 body)

/-- The channel whose credits the next flit returns, with how many (at most 15). -/
def Port.creditsDue (g : Port) : Nat × Nat :=
  match (List.range 8).find? (fun v => g.rxOwed.getD v 0 ≠ 0) with
  | some v => (v, min 15 (g.rxOwed.getD v 0))
  | none => (0, 0)

/-- Send a sequenced flit: it takes the next FSEQ, returns credits and stays in the retry buffer. -/
def Port.sendSequenced (g : Port) (ftype bvc : Nat) (body : List Byte) : Port :=
  let (v, n) := g.creditsDue
  let f := flitBytes ftype bvc g.txNext g.ackNow v n body
  { g with
      out := g.out ++ [f]
      unacked := g.unacked ++ [(g.txNext, f)]
      txNext := (g.txNext + 1) % 1024
      rxOwed := modifyNth (· - n) g.rxOwed v
      rxCredits := modifyNth (· + n) g.rxCredits v }

/-- Whether bytes of a message that passes through this module are still to come (R344). -/
def msgOpen (m : List Byte) : Bool := decide (m.length < 32 + dataLen m)

/-- Message bytes that the next body of a channel carries: whole or part messages in order, up to 248 bytes; the
remaining messages and how much of their first is sent. Behind a message that is still coming in nothing follows (R340, R344). -/
def packBody : Nat → List (List Byte) → Nat → List Byte × List (List Byte) × Nat
  | _, [], _ => ([], [], 0)
  | room, m :: ms, off =>
    let piece := (m.drop off).take room
    if off + piece.length < m.length ∨ msgOpen m then (piece, m :: ms, off + piece.length)
    else
      let r := packBody (room - piece.length) ms 0
      (piece ++ r.1, r.2.1, r.2.2)

/-- Whether a channel has a byte to send. -/
def Port.ready (g : Port) (v : Nat) : Bool :=
  match g.txQ.getD v [] with
  | [] => false
  | m :: _ => decide (g.txOff.getD v 0 < m.length)

/-- Send all that waits, as far as the window of 512 flits and the credits allow: control bodies first, then the
lowest channel with data and a credit; a fenced port sends none of it (R337, R339, R356). -/
def Port.pump : Nat → Port → Port
  | 0, g => g
  | fuel + 1, g =>
    if g.state ≠ 4 ∨ g.fenced ∨ 512 ≤ g.unacked.length then g
    else match g.ctrlQ with
      | c :: cs => Port.pump fuel ({ g with ctrlQ := cs }.sendSequenced 1 0 c)
      | [] => match (List.range 8).find? (fun v => g.ready v ∧ 0 < g.txCredits.getD v 0) with
        | none =>
          if (List.range 8).any g.ready then { g with stalls := bumpStall g.stalls wLinkCredit } else g
        | some v =>
          let r := packBody 248 (g.txQ.getD v []) (g.txOff.getD v 0)
          let g := { g with txQ := g.txQ.set v r.2.1, txOff := g.txOff.set v r.2.2,
                            txCredits := modifyNth (· - 1) g.txCredits v }
          Port.pump fuel (g.sendSequenced 2 v r.1)

/-- Flits that one command may send: the window. -/
def pumpFuel : Nat := 600

/-- Queue a message on a port and channel, and send what may go. -/
def State.queueMsg (s : State) (p vc : Nat) (bytes : List Byte) : State :=
  s.modPort p fun g => ({ g with txQ := modifyNth (· ++ [bytes]) g.txQ vc }).pump pumpFuel

/-- The port that a message of a type takes within a direction (R345). -/
def State.pickPort (s : State) (dir mtype addr : Nat) : Option Nat :=
  let ps := s.dirPorts dir
  if ps.isEmpty then none
  else
    let key := match mtype with
      | 1 | 2 | 3 | 4 | 5 | 6 => addr / 4096
      | 7 => addr / 0x10000 / 4096
      | _ => 0
    ps[key % ps.length]?

/-- How a message left, or why it did not. -/
inductive Sent where
  | ok (port : Nat)
  | refused
  | noRoute
  deriving DecidableEq, Repr

/-- Originate a message: the Gatehouse lets it leave only to a module in the job-domain table (R350); it starts in
class 0, or class 1 where its first hop crosses the dateline (R344). No route is open over a fenced port. -/
def State.originate (s : State) (mtype flags len dst addr tag pmap : Nat) (data : List Byte) : Sent × State :=
  if ¬ s.inDomain dst then (.refused, s)
  else match s.nextHop dst with
    | none => (.noRoute, s)
    | some (d, dir) => match s.pickPort dir mtype addr with
      | none => (.noRoute, s)
      | some p =>
        if (s.port p).fenced then (.noRoute, s)
        else
        let vc := vcOf mtype (b2n (s.crossesDateline d dir))
        (.ok p, s.queueMsg p vc (msgHeader mtype flags len dst s.moduleId addr tag pmap ++ data))

/-! ### Lost messages (R352) -/

/-- A mover's LINK_LOST fault: it holds under T3_PEER_FAIL. -/
def State.linkLost (s : State) (m : Nat) (hm : m < 48) : State :=
  let g := s.mover m
  match g.fault with
  | some _ => s
  | none =>
    (s.raiseFault (.mover ⟨m, hm⟩) { newFault fLinkLost with restart := g.restart }).modMover m
      fun g => { g with hold := BitVec.ofNat 8 wT3PeerFail, wait := if g.coll.isSome then .coll else .none }

/-- LINK_LOST for a mover number. -/
def State.linkLostAt (s : State) (m : Nat) : State := if h : m < 48 then s.linkLost m h else s

/-- The directions of a collective's neighbours: downstream and upstream. -/
def State.collDirs (s : State) (c : Coll) : Option (Nat × Nat) :=
  let m := c.group.length
  let down := c.group.getD ((c.pos + 1) % m) 0
  let up := c.group.getD ((c.pos + m - 1) % m) 0
  (List.range 6).findSome? fun d =>
    if s.neighbour d = some down ∧ s.neighbour (opposite d) = some up then some (d, opposite d) else none

/-- The port at which the answer to an operation comes in: the last hop of its dimension-order route from the module asked
(R344, R345). -/
def State.answerPort (s : State) (o : PeerOp) : Option Nat :=
  match [2, 1, 0].find? fun d => s.coordOf o.dst d != s.topoCoord d with
  | none => none
  | some d =>
    let n := s.topoSize d
    let dx := (s.topoCoord d + n - s.coordOf o.dst d) % n
    s.pickPort (if 2 * dx ≤ n then 2 * d + 1 else 2 * d) o.mtype o.addr.toNat

/-- Whether an operation's route, there or back, uses a port. -/
def State.opUses (s : State) (p : Nat) (o : PeerOp) : Bool := o.port == p || s.answerPort o == some p

/-- Every operation whose route uses a port, and every ring step or barrier between neighbours that it serves, is lost
(R352). -/
def State.loseOps (s : State) (p : Nat) : State :=
  let lost := s.fab.ops.filter (s.opUses p)
  let s := { s with fab := { s.fab with ops := s.fab.ops.filter fun o => !s.opUses p o } }
  let ms := (lost.filter fun o => !o.away).filterMap fun o => o.mover.map (·.val)
  let cs := (List.range 48).filter fun m =>
    match (s.mover m).coll with
    | some c => c.started && c.cop != 6 && c.cop != 8 && (match s.collDirs c with
      | some (a, b) => s.portDir p == some a || s.portDir p == some b
      | none => false)
    | none => false
  (ms ++ cs).foldl (fun s m => s.linkLostAt m) s

/-- A message of a channel has been applied, forwarded or dropped: each body buffer that held bytes of no other message
returns its credit (R339). -/
def Port.release (g : Port) (vc id : Nat) : Port :=
  let bs := (g.rxBodies.getD vc []).map fun b => b.filter fun k => k ≠ id
  { g with rxBodies := g.rxBodies.set vc (bs.filter fun b => !b.isEmpty),
           rxOwed := modifyNth (· + (bs.filter (·.isEmpty)).length) g.rxOwed vc }

/-- Queue a sequenced control record; a fenced port sends none (R356). -/
def Port.control (g : Port) (body : List Byte) : Port := if g.fenced then g else { g with ctrlQ := g.ctrlQ ++ [body] }

/-- A message that was passing out through a channel will not be completed: what waits of it goes, and where part of it was
sent VC_RESYNC tells the partner (R355; log entry 94). -/
def Port.cutOpen (g : Port) (vc : Nat) : Port :=
  let q := g.txQ.getD vc []
  let cut := (q.headD []) ≠ [] ∧ msgOpen (q.headD []) ∧ g.txOff.getD vc 0 ≠ 0
  let g := { g with txQ := g.txQ.set vc (q.filter fun m => !msgOpen m) }
  if cut then { g with txOff := g.txOff.set vc 0 }.control ([6] ++ toLe vc 1) else g

/-- Discard the partial message of a channel: its body buffers are returned, and what passed of it ends (R352, R355). -/
def State.dropPart (s : State) (p vc : Nat) : State :=
  let g := s.port p
  let s := match g.passing.getD vc none with
    | some (q, out, _) =>
      if g.rxMsgs.any fun x => x.1 == vc then s
      else (s.modPort q fun g => g.cutOpen out).modPort p fun g => { g with passing := g.passing.set vc none }
    | none => s
  s.modPort p fun g => { (g.release vc (g.rxCount.getD vc 0)) with rxStream := g.rxStream.set vc [] }

/-- Discard the partial messages received from a partner (R352). -/
def State.dropPartial (s : State) (p : Nat) : State :=
  (List.range 8).foldl (fun s v => s.dropPart p v) (s.modPort p fun g => { g with framing := List.replicate 8 false })

/-- What waited to leave by a port is gone: messages passing out there lose their way, and what still arrives of them is
discarded. -/
def State.dropOut (s : State) (p : Nat) : State :=
  let lose := fun (x : Option (Nat × Nat × Nat)) => x.map fun y => if y.1 = p then (8, y.2) else y
  let s := (List.range 8).foldl (fun s q => s.modPort q fun g => { g with passing := g.passing.map lose }) s
  s.modPort p fun g => { g with txQ := List.replicate 8 [], txOff := List.replicate 8 0, ctrlQ := [] }

/-- A flit of the retry buffer of a fenced port: an IDLE in its place, with its credits (R356). -/
def idleFlit (x : Nat × List Byte) : Nat × List Byte := (x.1, flitBytes 1 0 x.1 0 (fCrvc x.2) (fCrcnt x.2) [1])

/-- Fence a port (R356): it stays trained and drops what it has in flight (R352), so that a replay sends IDLE in the place of
each flit; FENCED is posted. -/
def State.fencePort (s : State) (p : Nat) (owner : Owner := .none) : State :=
  let s := ((s.dropPartial p).dropOut p).modPort p fun g => { g with fenced := true, unacked := g.unacked.map idleFlit }
  (s.linkEvent p 8 0 owner).loseOps p

/-- A fence is cleared, with FAB_VIOL_CNT. -/
def Port.unfence (g : Port) : Port :=
  let g := { g with fenced := false, violCnt := 0, seenCodes := g.seenCodes.filter (8 < ·) }
  { g with ctrlQ := g.ctrlQ ++ (List.range 8).map fun vc => [6] ++ toLe vc 1 }.pump pumpFuel

/-! ### Violations (R354, Table 12.7) -/

/-- Count and log a partner's violation, post it where it is the first of its code, and fence the port whose count
reaches the limit (R354, R356). -/
def State.portViolation (s : State) (p code : Nat) : State :=
  let fencing := decide (code ≤ 8)
  let s := s.modPort p fun g =>
    if fencing then { g with violCnt := satAdd g.violCnt 1 } else { g with nakCnt := satAdd g.nakCnt 1 }
  let s := s.arrive (plainError 0 (0x200 + code) (srcPort p) 0 false (srcPort p))
  let s := if (s.port p).seenCodes.contains code then s
    else (s.linkEvent p 7 code).modPort p fun g => { g with seenCodes := insertNat code g.seenCodes }
  let lim := s.fab.violLimit.toNat
  if fencing ∧ lim ≠ 0 ∧ lim ≤ (s.port p).violCnt.toNat ∧ ¬ (s.port p).fenced then
    (s.fencePort p).arrive (plainError 3 ePortFenced (srcPort p) 0 false (srcPort p))
  else s

/-- Answer with a VIOLATION control flit: code, channel, FSEQ or TAG concerned (Table 12.2). -/
def State.answerViolation (s : State) (p code vc ref : Nat) : State :=
  (s.modPort p fun g => g.control ([5] ++ toLe code 1 ++ toLe vc 1 ++ toLe ref 4)).portViolation p code

/-- Answer a message with NAK to its SRC; a NAK is never answered, and the Gatehouse keeps back an answer to a
module outside the job-domain table (R350, R354). -/
def State.answerNak (s : State) (p code : Nat) (h : List Byte) : State :=
  let s := if hType h = 0xD then s
    else (s.originate 0xD code 0 (hSrc h) (hAddr h) (hTag h) 0 []).2
  s.portViolation p code

/-! ### Received messages -/

/-- A complete message of a channel: one that breaks a rule of Table 12.7 is dropped and answered; one that is for
another module waits to be forwarded; else it waits to be applied (R348, R350, R354). -/
def State.acceptMsg (s : State) (p vc : Nat) (m : Msg) : State :=
  let h := m.hdr
  let drop := fun (code : Nat) => (s.modPort p fun g => g.release vc m.id).answerNak p code h
  let me := s.moduleId
  if msgMalformed h vc ∨ (hDst h = me ∧ dataMalformed h m.data) then drop 5
  else if hDst h = me ∧ ¬ s.inDomain (hSrc h) then drop 6
  else if s.topoCount ≤ hDst h then drop 7
  else if neighbourOnly (hType h) ∧ (hDst h ≠ me ∨ hSrc h ≠ (s.port p).peer.toNat) then drop 7
  else s.modPort p fun g => { g with rxMsgs := g.rxMsgs ++ [(vc, m)] }

/-- The message in progress on a channel as its bytes stand: still short, complete, or out of frame (R340, Table
12.7 code 0x04). -/
inductive Frame where
  | short
  | full (h : List Byte) (n : Nat)
  | broken
  deriving DecidableEq, Repr

def frameOf (cur : List Byte) : Frame :=
  if cur.length < 32 then .short
  else
    let h := cur.take 32
    if ¬ crcOk h 0x1C ∨ 4096 < hLen h ∨ hLen h % 64 ≠ 0 then .broken
    else if cur.length < 32 + dataLen h then .short
    else .full h (dataLen h)

/-- Bytes that a message in progress still lacks: up to its header, then up to its end. -/
def frameNeed (cur : List Byte) : Nat :=
  if cur.length < 32 then 32 - cur.length else 32 + dataLen cur - cur.length

/-- Split a body's bytes into messages, numbered from `id` on: `cur` is the message in progress; a zero byte in the place of
a header ends the body. -/
structure Split where
  msgs : List Msg
  cur : List Byte
  broken : Bool
  deriving DecidableEq, Repr

def splitBody : Nat → List Byte → List Byte → Nat → Split
  | 0, cur, _, _ => ⟨[], cur, false⟩
  | fuel + 1, cur, body, id =>
    match body with
    | [] => ⟨[], cur, false⟩
    | b :: _ =>
      if cur.isEmpty ∧ b = 0 then ⟨[], [], false⟩
      else
        let n := min (frameNeed cur) body.length
        let cur := cur ++ body.take n
        match frameOf cur with
        | .short => splitBody fuel cur (body.drop n) id
        | .broken => ⟨[], [], true⟩
        | .full h k =>
          let r := splitBody fuel [] (body.drop n) (id + 1)
          { r with msgs := ⟨h, bytesAt cur 32 k, id⟩ :: r.msgs }

/-- A channel enters framing loss: its partial message goes, with its body buffers (R355). -/
def State.loseFrame (s : State) (p vc : Nat) : State :=
  (s.dropPart p vc).modPort p fun g => { g with framing := g.framing.set vc true }

/-- A body on a virtual channel (R339, R340, R355, R356). -/
def State.receiveBody (s : State) (p vc : Nat) (body : List Byte) (fseq : Nat) : State :=
  let g := s.port p
  if g.rxCredits.getD vc 0 = 0 then
    (s.loseFrame p vc).answerViolation p 2 vc fseq
  else
    let s := s.modPort p fun g => { g with rxCredits := modifyNth (· - 1) g.rxCredits vc }
    if g.fenced ∨ g.framing.getD vc false then
      s.modPort p fun g => { g with rxOwed := modifyNth (· + 1) g.rxOwed vc }
    else
      let first := g.rxCount.getD vc 0
      let r := splitBody 300 (g.rxStream.getD vc []) body first
      let ids := List.range' first (r.msgs.length + b2n (!r.cur.isEmpty))
      let s := s.modPort p fun g =>
        { g with rxStream := g.rxStream.set vc r.cur,
                 rxCount := modifyNth (· + r.msgs.length) g.rxCount vc,
                 rxBodies := modifyNth (· ++ (if ids.isEmpty then [] else [ids])) g.rxBodies vc,
                 rxOwed := if ids.isEmpty then modifyNth (· + 1) g.rxOwed vc else g.rxOwed }
      let s := r.msgs.foldl (fun s m => s.acceptMsg p vc m) s
      if r.broken then (s.loseFrame p vc).answerViolation p 4 vc fseq else s

/-- Begin training (R333); replays are counted anew (R337). -/
def Port.retrain (g : Port) : Port :=
  { g with state := 1, lanes := 0, gotParam := false, gotSeen := false, rejecting := false, replays := 0 }

/-- Ask for a replay from the expected FSEQ, once; a fenced port sends only IDLE and NOP (R337, R356). -/
def Port.askRetry (g : Port) : Port :=
  if g.rejecting ∨ g.fenced then g else { g.sendControl ([2] ++ toLe g.rxNext 2) with rejecting := true }

/-- While part of a message has come and the rest has not, the port counts T3_PEER_LATE (R351). -/
def Port.late (g : Port) : Port :=
  if g.rxStream.any fun b => !b.isEmpty then { g with stalls := bumpStall g.stalls wT3PeerLate } else g

/-- Act on the ACK of a flit: it acknowledges a flit in the retry buffer, or none new; any other names a flit never
sent (R337, Table 12.7 code 0x03). -/
def State.receiveAck (s : State) (p : Nat) (f : List Byte) : State :=
  let g := s.port p
  let n := (fAck f + 1024 - g.acked) % 1024
  if n ≤ g.unacked.length then
    s.modPort p fun g => { g with acked := fAck f, unacked := g.unacked.drop n, replays := if n = 0 then g.replays else 0 }
  else s.answerViolation p 3 0 (fSeq f)

/-- Send flits of the retry buffer again, with the current ACK and a new FCRC (R337). -/
def Port.resend (g : Port) (again : List (Nat × List Byte)) : Port :=
  { g with
      out := g.out ++ again.map fun x =>
        flitBytes (fType x.2) (fBvc x.2) x.1 g.ackNow (fCrvc x.2) (fCrcnt x.2) (fBody x.2)
      replay := satAdd g.replay 1, recReplay := g.recReplay + 1 }

/-- Replay from a flit of the retry buffer on; after FAB_RETRY.LIMIT replays without ACK progress the port retrains instead
and keeps its retry buffer (R337). -/
def State.replay (s : State) (p from' : Nat) : State :=
  let g := s.port p
  if s.fab.retryLimit ≤ g.replays then (s.linkEvent p 3 0).modPort p Port.retrain
  else
    let again := g.unacked.dropWhile fun x => x.1 ≠ from'
    s.modPort p fun g => { g.resend again with replays := g.replays + 1 }

/-- The reserved bits of a flit are clear: an unsequenced flit has FSEQ and CRCNT 0, a control flit BVC 0, and the
bytes that Table 12.2 does not name are zero. -/
def flitClean (f : List Byte) : Bool :=
  let named := match fCtype f with | 1 | 3 => 1 | 2 => 3 | 4 => 26 | 5 => 7 | _ => 2
  (fType f != 0 || (fSeq f == 0 && fCrcnt f == 0)) &&
  (fType f == 2 || (fBvc f == 0 && zeroAt (fBody f) named (248 - named)))

/-- Whether a control flit's CTYPE is one of its FTYPE (Table 12.2). -/
def ctypeOk (f : List Byte) : Bool :=
  match fType f with
  | 0 => fCtype f == 2 || fCtype f == 3 || fCtype f == 4
  | 1 => fCtype f == 1 || fCtype f == 5 || fCtype f == 6
  | _ => true

/-- Act on an accepted sequenced flit: credits, then its control record or body. -/
def State.actSequenced (s : State) (p : Nat) (f : List Byte) : State :=
  let s := s.modPort p fun g =>
    { g with rxNext := (g.rxNext + 1) % 1024, rejecting := false,
             txCredits := modifyNth (· + fCrcnt f) g.txCredits (fCrvc f) }
  if ¬ flitClean f ∨ ¬ ctypeOk f then s.answerViolation p 1 0 (fSeq f)
  else if fType f = 2 then s.receiveBody p (fBvc f) (fBody f) (fSeq f)
  else match fCtype f with
    | 5 =>
      let code := fieldAt f 5 1
      let vc := fieldAt f 6 1 % 8
      s.modPort p fun g =>
        let g := { g with violRx := satAdd g.violRx 1 }
        if code = 2 ∨ code = 4 then { g with txOff := g.txOff.set vc 0 }.control ([6] ++ toLe vc 1) else g
    | 6 =>
      let vc := fieldAt f 5 1 % 8
      (s.dropPart p vc).modPort p fun g => { g with framing := g.framing.set vc false }
    | _ => s

/-- Send what waits; where nothing did, send IDLE, or NOP while the window is full (R338). -/
def Port.reply (g : Port) : Port :=
  let n := g.out.length
  let g := g.pump pumpFuel
  if g.state ≠ 4 ∨ n < g.out.length then g
  else if g.unacked.length < 512 then g.sendSequenced 1 0 [1]
  else g.sendControl [3]

/-- A flit arrives at an ACTIVE port (R337). -/
def State.receiveFlit (s : State) (p : Nat) (f : List Byte) : State :=
  let s :=
    if ¬ crcOk f 252 then s.modPort p Port.askRetry
    else
      let s := s.receiveAck p f
      match fType f with
      | 0 =>
        if ¬ flitClean f ∨ ¬ ctypeOk f then s.answerViolation p 1 0 0
        else if fCtype f = 2 then s.replay p (fieldAt f 5 2)
        else s
      | 3 => s.answerViolation p 1 0 (fSeq f)
      | _ =>
        let d := (fSeq f + 1024 - (s.port p).rxNext) % 1024
        if d = 0 then s.actSequenced p f
        else if d < 512 then s.modPort p Port.askRetry
        else s
  s.modPort p Port.reply

/-- Whether a port takes flits: present, ACTIVE, its I/O die up and the transmitters not off (R475). -/
def State.portActive (s : State) (p : Nat) : Bool := s.regionUp 3 && (s.port p).state == 4

/-- Whether a flit has a correct FCRC and is the control flit of a type. -/
def isControl (f : List Byte) (ftype ctype : Nat) : Bool := crcOk f 252 && fType f == ftype && fCtype f == ctype

/-- SEQUENCED_FLIT (R337, R339, R340): a flit that no other command names, with the codewords that FEC corrected
and could not correct. -/
def execSequencedFlit (p : PortId) (flit : List Byte) (fecCe fecUe : Nat) (s : State) : Out :=
  if ¬ s.variant.hasPort p then .next s
  else if ¬ s.portActive p then .next s
  else
    let s := s.modPort p fun g =>
      { g with fecCe := satAdd g.fecCe fecCe, fecUe := satAdd g.fecUe fecUe, recCe := g.recCe + fecCe,
               recUe := g.recUe + fecUe }
    .next (s.receiveFlit p flit)

/-- RETRY_REQ (R337). -/
def execRetryReq (p : PortId) (flit : List Byte) (s : State) : Out :=
  if ¬ s.variant.hasPort p then .next s
  else if s.portActive p ∧ isControl flit 0 2 then .next (s.receiveFlit p flit) else .next s

/-- IDLE (R338): the partner has nothing to send, and a partial message waits on (R351). -/
def execIdle (p : PortId) (flit : List Byte) (s : State) : Out :=
  if ¬ s.variant.hasPort p then .next s
  else if s.portActive p ∧ isControl flit 1 1 then .next ((s.receiveFlit p flit).modPort p Port.late) else .next s

/-- NOP (R338): as IDLE, while the partner's window is full. -/
def execNop (p : PortId) (flit : List Byte) (s : State) : Out :=
  if ¬ s.variant.hasPort p then .next s
  else if s.portActive p ∧ isControl flit 0 3 then .next ((s.receiveFlit p flit).modPort p Port.late) else .next s

/-- VIOLATION (R355). -/
def execViolation (p : PortId) (flit : List Byte) (s : State) : Out :=
  if ¬ s.variant.hasPort p then .next s
  else if s.portActive p ∧ isControl flit 1 5 then .next (s.receiveFlit p flit) else .next s

/-- VC_RESYNC (R355). -/
def execVcResync (p : PortId) (flit : List Byte) (s : State) : Out :=
  if ¬ s.variant.hasPort p then .next s
  else if s.portActive p ∧ isControl flit 1 6 then .next (s.receiveFlit p flit) else .next s

/-- RETRY_TIMEOUT (R337). -/
def execRetryTimeout (p : PortId) (s : State) : Out :=
  if ¬ s.variant.hasPort p then .next s
  else if ¬ s.portActive p then .next s
  else match (s.port p).unacked with
    | [] => .next s
    | x :: _ => .next (s.replay p x.1)

/-! ### Training (R332 to R334) -/

/-- Credits that this module's receivers advertise (Table 12.3). -/
def advertised : List Nat := [128, 128, 1024, 1024, 2048, 16, 32, 32]

/-- Send a PARAM flit (Table 12.2). -/
def State.sendParam (s : State) (p : Nat) (seen : Bool) : State :=
  s.modPort p fun g => g.sendControl
    ([4] ++ toLe s.moduleId 2 ++ toLe p 1 ++ toLe ((s.portDir p).getD 0) 1 ++ toLe g.lanes 1 ++
     toLe s.mgt.boot.toNat 2 ++ toLe (b2n seen) 1 ++ [1] ++ (advertised.map fun n => toLe n 2).flatten)

/-- Whether the partner that PARAM showed is the neighbour that the port's direction expects, facing this way
(R334). -/
def State.partnerOk (s : State) (p : Nat) : Bool :=
  match s.portDir p with
  | none => false
  | some d => s.neighbour d == some (s.port p).peer.toNat && (s.port p).peerDir == opposite d

/-- Compare the partner shown in PARAM with the link map: a mismatch holds the port and posts MISWIRED; a match goes
ACTIVE once a PARAM with SEEN has come, and replay goes on from the oldest unacknowledged flit (R333, R334, R337). -/
def State.compareParam (s : State) (p : Nat) : State :=
  let g := s.port p
  if ¬ g.gotParam then s
  else if ¬ s.partnerOk p then
    if g.state = 3 then s else (s.modPort p fun g => { g with state := 3 }).linkEvent p 5 0
  else if g.gotSeen then
    ((s.modPort p fun g => { g with state := 4, paired := true }).linkEvent p 1 0).modPort p fun g =>
      (if g.unacked.isEmpty then g else g.resend g.unacked).reply
  else s.modPort p fun g => { g with state := 2 }

/-- The partner's PARAM shows a new boot count (R352): the retry buffer, what waits to be sent and the partial messages go,
sequence numbers and credits start again, and PEER_RESET is posted. -/
def State.peerReset (s : State) (p : Nat) : State :=
  let s := ((s.dropPartial p).dropOut p).modPort p fun g =>
    { g with unacked := [], txNext := 0, rxNext := 0, acked := 1023, replays := 0, rejecting := false,
             rxBodies := List.replicate 8 [], rxOwed := List.replicate 8 0, rxCredits := advertised }
  (s.linkEvent p 6 0).loseOps p

/-- PARAM (R334): a flit with a reserved bit set is dropped as violation FLIT (Table 12.7); the ACK is acted on as in any flit
(R337). -/
def execParam (p : PortId) (flit : List Byte) (s : State) : Out :=
  let g := s.port p
  if ¬ s.variant.hasPort p then .next s
  else if ¬ s.regionUp 3 ∨ (g.state ≠ 2 ∧ g.state ≠ 3) ∨ ¬ isControl flit 0 4 then .next s
  else if ¬ flitClean flit then .next ((s.receiveAck p flit).answerViolation p 1 0 0)
  else
    let b := fBody flit
    let boot := BitVec.ofNat 16 (fieldAt b 6 2)
    let fresh := decide (g.paired = false)
    let s := s.modPort p fun g =>
      { g with peer := BitVec.ofNat 14 (fieldAt b 1 2), peerPort := b.getD 3 0, peerDir := fieldAt b 4 1,
               peerBoot := boot, gotParam := true, gotSeen := g.gotSeen || fieldAt b 8 1 == 1 }
    let s := if ¬ fresh ∧ g.peerBoot ≠ boot then s.peerReset p else s
    let s := if fresh ∨ g.peerBoot ≠ boot then
        s.modPort p fun g => { g with txCredits := (List.range 8).map fun v => fieldAt b (10 + 2 * v) 2 }
      else s
    let s := (s.receiveAck p flit).sendParam p true
    .next (s.compareParam p)

/-- PORT_TRAINING (R332, R333): all lanes lock, or with ALLOW_X4 lanes 0–3 or 4–7 alone, and the PARAM exchange begins. -/
def execPortTraining (p : PortId) (lock : LaneLock) (s : State) : Out :=
  let g := s.port p
  if ¬ s.variant.hasPort p then .next s
  else if ¬ s.regionUp 3 ∨ g.state ≠ 1 ∨ ¬ s.fab.portEn.getLsbD p ∨ g.fenced then .next s
  else
    let lanes := match lock with
      | .all => 8
      | .low | .high => if s.fab.allowX4 then 4 else 0
      | .none => 0
    if lanes = 0 then .next s
    else
      let s := s.modPort p fun g => { g with state := 2, lanes, lockHigh := decide (lock = .high), outFrom := g.out.length }
      let s := if lanes = 4 then s.linkEvent p 10 0 else s
      .next (s.sendParam p false)

/-- TRAIN_TIMEOUT (R333): TRAIN_FAIL, and training starts again; a MISWIRED port stays in its exchange (R334). -/
def execTrainTimeout (p : PortId) (s : State) : Out :=
  let g := s.port p
  if ¬ s.variant.hasPort p then .next s
  else if s.regionUp 3 ∧ (g.state = 1 ∨ g.state = 2) then .next ((s.linkEvent p 4 0).modPort p fun g => g.retrain.late) else .next s

/-- LOCK_LOST (R333). -/
def execLockLost (p : PortId) (s : State) : Out :=
  if ¬ s.variant.hasPort p then .next s
  else if s.portActive p then .next ((s.linkEvent p 2 0).modPort p fun g => g.retrain.late) else .next s

/-- Take the topology, link map and neighbours as the registers hold them, and repeat the comparison of every port in
its PARAM exchange (R493). -/
def State.applyTopo (s : State) : State :=
  let s := { s with fab := { s.fab with topoNow := s.fab.topo, linkmapNow := s.fab.linkmap, nbrNow := s.fab.nbr } }
  (List.range 8).foldl (fun s p =>
    if (s.port p).state = 2 ∨ (s.port p).state = 3 then s.compareParam p else s) s

/-! ### Forwarding (R344) -/

/-- The oldest message of its channel that satisfies a test, with its channel. -/
def firstMsg (ok : Nat → Msg → Bool) : List Nat → List (Nat × Msg) → Option (Nat × Msg)
  | _, [] => none
  | seen, (vc, m) :: rest =>
    if seen.contains vc then firstMsg ok seen rest
    else if ok vc m then some (vc, m)
    else firstMsg ok (vc :: seen) rest

/-- Remove the first message of a channel. -/
def dropMsg (vc : Nat) : List (Nat × Msg) → List (Nat × Msg)
  | [] => []
  | (v, m) :: rest => if v = vc then rest else (v, m) :: dropMsg vc rest

/-- The oldest message of a type for this module at a port. -/
def State.headMsg (s : State) (p mtype : Nat) : Option (Nat × Msg) :=
  firstMsg (fun _ m => hType m.hdr == mtype && hDst m.hdr == s.moduleId) [] (s.port p).rxMsgs

/-- A message is done with: it leaves the port, its bytes return their credits, and what waits is sent. -/
def State.finishMsg (s : State) (p vc : Nat) (m : Msg) : State :=
  s.modPort p fun g => { g.release vc m.id with rxMsgs := dropMsg vc g.rxMsgs }.pump pumpFuel

/-- The port and channel by which a message that came in on a channel goes on: its class turns to 1 on the dateline and
returns to 0 when it turns into the next dimension. None where no port of the direction takes it (R344). -/
def State.wayOut (s : State) (p vc : Nat) (h : List Byte) : Option (Nat × Nat) :=
  match s.nextHop (hDst h) with
  | none => none
  | some (d, dir) => match s.pickPort dir (hType h) (hAddr h) with
    | none => none
    | some q =>
      let inDim := (s.portDir p).map (· / 2)
      let cls := if inDim = some d then (if vcOf (hType h) 0 = vc then 0 else 1) else 0
      let cls := if s.crossesDateline d dir then 1 else cls
      if (s.port q).fenced then none else some (q, vcOf (hType h) cls)

/-- More bytes of the message that passes out through a channel. -/
def State.passOn (s : State) (q out : Nat) (bytes : List Byte) : State :=
  s.modPort q fun g =>
    ({ g with txQ := modifyNth (fun ms => ms.map fun m => if msgOpen m then m ++ bytes else m) g.txQ out }).pump pumpFuel

/-- The message that comes in on a channel for another module, as far as it has come: its header is checked and no other
message of the channel is before it. -/
def State.inTransit (s : State) (p vc : Nat) : Option (List Byte) :=
  let g := s.port p
  let cur := g.rxStream.getD vc []
  if cur.length < 32 ∨ (g.rxMsgs.any fun x => x.1 == vc) ∨ hDst cur = s.moduleId ∨ s.topoCount ≤ hDst cur ∨
      msgMalformed cur vc ∨ neighbourOnly (hType cur) then none
  else some cur

/-- Forward what has come of a message on its way (R344): its flits go on as they come, and the buffers they filled are
free. While a message passes out through a channel, another that is still coming in waits for it. -/
def State.passPart (s : State) (p vc : Nat) (cur : List Byte) : State :=
  let go := fun (s : State) (q out : Nat) =>
    s.modPort p fun g =>
      { g.release vc (g.rxCount.getD vc 0) with passing := g.passing.set vc (some (q, out, cur.length)) }.pump pumpFuel
  match (s.port p).passing.getD vc none with
  | some (q, out, n) => go (s.passOn q out (cur.drop n)) q out
  | none => match s.wayOut p vc cur with
    | none => s
    | some (q, out) =>
      if ((s.port q).txQ.getD out []).any msgOpen then s else go (s.queueMsg q out cur) q out

/-- MESSAGE_FORWARD (R344): the oldest message for another module goes on, whole or what is left of it; where none is
complete, what has come of one does. -/
def execMessageForward (p : PortId) (s : State) : Out :=
  if ¬ s.variant.hasPort p then .next s
  else match firstMsg (fun _ m => hDst m.hdr != s.moduleId) [] (s.port p).rxMsgs with
    | none => match (List.range 8).findSome? fun vc => (s.inTransit p vc).map fun cur => (vc, cur) with
      | none => .next s
      | some (vc, cur) => .next (s.passPart p vc cur)
    | some (vc, m) =>
      let bytes := m.hdr ++ m.data
      match (s.port p).passing.getD vc none with
      | some (q, out, n) =>
        .next (((s.finishMsg p vc m).passOn q out (bytes.drop n)).modPort p fun g =>
          { g with passing := g.passing.set vc none })
      | none => match s.wayOut p vc m.hdr with
        | none => .next s
        | some (q, out) => .next ((s.finishMsg p vc m).queueMsg q out bytes)

/-- Drop the collective, WRITE and atomic messages that wait at this module and satisfy a test; they are counted as
stale (R369). -/
def State.dropWaiting (s : State) (bad : Msg → Bool) : State :=
  let kind := fun (m : Msg) => let t := hType m.hdr; t == 3 || t == 5 || t == 7 || t == 8 || t == 9 || t == 0xA
  let me := s.moduleId
  let hit := fun (m : Msg) => kind m && hDst m.hdr == me && bad m
  let held := s.fab.held.filter fun x => hit x.2
  let s := { s with fab := { s.fab with held := s.fab.held.filter fun x => !hit x.2 } }
  let s := held.foldl (fun s x => s.modPort x.1 fun g =>
    { g.release (vcOf (hType x.2.hdr) 0) x.2.id with stale := satAdd g.stale 1 }) s
  (List.range 8).foldl (fun s p =>
    let lost := (s.port p).rxMsgs.filter fun x => hit x.2
    let s := s.modPort p fun g => { g with rxMsgs := g.rxMsgs.filter fun x => !hit x.2 }
    lost.foldl (fun s x => s.modPort p fun g => { g.release x.1 x.2.id with stale := satAdd g.stale 1 }) s) s

end Sys2Proof.Machine
end

