-- ==== Sys2Proof/Machine/Movers.lean ====
section
/-! DEFINITION. Tile movers: descriptors, COPY and NOISE, host reads, ATS and page requests (11 R300 to R308, R323 to
R325; 10 R267 to R270). -/

namespace Sys2Proof.Machine

/-! ### Tasks (R300, R301, R303) -/

/-- The DMA ring of a host mover. -/
def dmaRing (m : Nat) : Nat := 2 + (m - 32)

/-- A MOVERS-list descriptor is well formed: a MOVE whose SEQ is its index and whose EVQ, PASID, TAG and HTIME are
zero (R303). -/
def MTask.listOk (t : MTask) : Bool :=
  let d := t.bytes
  crcOk d 124 && headerOk d && dOpc d == 1 && dSeqField d == t.dseq && dEvq d == 0 && fieldAt d 0x18 4 == 0 &&
  dTag d == 0 && dHtime d == 0 && moveBodyOk true d

/-- Whether the running job stops: pre-emption signalled, or ending (R313, R288, R422). -/
def State.jobStopping (s : State) : Bool :=
  match s.job.cur with
  | some j => j.signalled || j.ending.isSome
  | none => true

/-- Whether mover `m` may work on its tasks: its die answers, it is not fenced, and, for a half mover, the job runs
on. -/
def State.moverRuns (s : State) (m : Nat) : Bool :=
  if m < 32 then s.regionUp (m / 16) && !s.isFenced (srcMover m) && !s.jobStopping
  else s.regionUp 3 && !s.isFenced (srcMover m)

/-- Whether a list descriptor may start: without FENCE at once, with FENCE once every earlier descriptor of its list
has completed (R301). -/
def State.fenceOpen (s : State) (t : MTask) : Bool :=
  !(dFence t.bytes) ||
  match s.job.lists.find? (fun l => l.id == t.list) with
  | some l => (List.range t.dseq).all fun j => l.doneIdx.contains j
  | none => true

/-- The first posted MOVE of a ring; RESOLVE descriptors are the module manager's (R310). -/
def firstMove : List Posted → Option Posted
  | [] => none
  | p :: ps => if dOpc p.bytes = 1 then some p else firstMove ps

/-- The task that a mover works on next: its current one, or the head of its list queue, or the oldest MOVE of its
ring. -/
def State.nextTask (s : State) (m : Nat) : Option MTask :=
  let g := s.mover m
  match g.cur with
  | some t => some t
  | none =>
    if m < 32 then
      match g.queue with
      | t :: _ => if s.fenceOpen t then some t else none
      | [] => none
    else
      let r := s.ring (dmaRing m)
      match firstMove r.posted with
      | some p =>
        if r.held.isSome || s.completionHeld (dmaRing m) || (dFence p.bytes && (r.inHand != 0 || r.posted.head? != some p)) then none
        else some { ring := some (Fin.ofNat 66 (dmaRing m)), list := 0, dseq := p.idx, bytes := p.bytes }
      | none => none

/-- Restart point at the start of a task. -/
def freshRestart (t : MTask) (kind : Byte) : Restart := { dseq := BitVec.ofNat 32 t.dseq, rkind := kind }

/-- RKIND of a task (Table 11.2). -/
def MTask.rkind (t : MTask) : Byte :=
  match mvKind t.bytes with
  | 1 => 1 | 2 => 2 | 3 => 3 | _ => 8

/-- Take a task up as the mover's current one. -/
def State.startTask (s : State) (m : Nat) (t : MTask) : State :=
  if (s.mover m).cur.isSome then s
  else
    let s := if m < 32 then s else s.modRing (dmaRing m) fun g =>
      { g with posted := g.posted.filter fun p => p.idx ≠ t.dseq, inHand := g.inHand + 1 }
    s.modMover m fun g =>
      { g with cur := some t, queue := if m < 32 then g.queue.drop 1 else g.queue, restart := freshRestart t t.rkind,
               wait := .none, coll := none, prOpen := [], prNext := 0, prSat := 0, prZero := 0, prRect := 0, prOut := 0,
               prFlags := 0, prReturned := 0, poisoned := false }

/-- The owner of the records that a mover's task causes (R292). -/
def MTask.owner (t : MTask) : Owner :=
  match t.ring with
  | some r => .desc r t.bytes
  | none => .job

/-- The reader that a mover is. -/
def moverReader (m : Nat) (t : MTask) : Reader := { kind := 1, id := m, owner := t.owner }

/-- The mover has no task. -/
def Mover.idle (g : Mover) : Mover :=
  { g with cur := none, restart := {}, hold := 0, wait := .none, coll := none, lastRestart := none,
           poisoned := false }

/-- A task ends: a list descriptor is entered as completed, and a list with every descriptor completed is done
(R301); a ring descriptor completes with its status. -/
def State.endTask (s : State) (m : Nat) (t : MTask) (status : Nat) (res0 : Nat := 0) (resExt : List Byte := []) :
    State :=
  let bad := (s.mover m).poisoned
  let s := s.modMover m Mover.idle
  match t.ring with
  | some r => s.complete r t.bytes status 0 res0 resExt
  | none =>
    let s := if bad then s.modJob fun j => { j with poisTiles := j.poisTiles + 1 } else s
    let enter := fun (l : MList) => if l.id = t.list then { l with doneIdx := insertNat t.dseq l.doneIdx } else l
    let lists := (s.job.lists.map enter).filter fun l => decide (l.doneIdx.length < l.total)
    { s with job := { s.job with lists } }

/-- A fault of a mover: outside a job only the host-resolved causes are raised, and any other completes the
descriptor FAILED (R308); `hold` is the stall cause that it then shows. -/
def State.moverFault (s : State) (m : MoverId) (t : MTask) (f : HeldFault) (hold : Nat := wFaultWait)
    (cause : Nat × Word := (0, 0)) : State :=
  let f := { f with restart := if f.restart.rkind = 0 then { (s.mover m).restart with walk := f.restart.walk }
                               else f.restart }
  if t.ring.isSome ∧ ¬ f.host then s.endTask m t stFailed
  else (s.raiseFault (.mover m) f t.owner cause).modMover m fun g => { g with hold := BitVec.ofNat 8 hold }

/-- The fault of a failed translation (R214, R309): the entry read, where, and the level. -/
def xlateFault (ja cause level entry eaddr : Nat) (isWrite : Bool) : HeldFault :=
  { newFault cause with
      access := BitVec.ofNat 8 (b2n isWrite + 2 * b2n (decide (cause = fXlPoison))),
      faddr := BitVec.ofNat 64 ja, space := 0, entry := BitVec.ofNat 64 entry, eaddr := BitVec.ofNat 64 eaddr,
      restart := { walk := BitVec.ofNat 8 level } }

/-- A fault at an address of a space, with nothing read from a table. -/
def addrFault (cause addr space : Nat) (isWrite : Bool) : HeldFault :=
  { newFault cause with access := BitVec.ofNat 8 (b2n isWrite), faddr := BitVec.ofNat 64 addr,
                        space := BitVec.ofNat 8 space }

/-- What came of an access: done, or the mover waits or holds in the state given. -/
inductive Got (α : Type) where
  | ok (a : α) (s : State)
  | stop (s : State)

/-! ### Local, host and peer access -/

/-- A stack in thermal hold grants an access every second cycle: the mover counts the other under T2_LATE (R412). -/
def State.slowStack (s : State) (m a : Nat) : State :=
  if s.stackSlow a then s.modMover m fun g => { g with stalls := bumpStall g.stalls wT2Late } else s

/-- Poison marks of the words of a range. -/
def State.marksOf (s : State) (a len : Nat) : List Bool := (wordsOf a len).map fun w => s.mem.bad w

/-- Read device memory for a mover: outside HBM and the job parts ADDR_UNBACKED (R207, R208); a fenced stack holds
it under T2_FAIL (R233). -/
def State.moverReadLocal (s : State) (m : MoverId) (t : MTask) (a len : Nat)   : Got (List Byte × List Bool) :=
  if ¬ s.rangeAll Region.hostOk a len then .stop (s.moverFault m t (addrFault fAddrUnbacked a 1 false))
  else if s.stackHeld a then .stop (s.stallMover m wT2Fail)
  else
    let s := s.slowStack m a
    let marks := s.marksOf a len
    let (bs, _, s) := s.readMem (moverReader m t) a len
    .ok (bs, marks) s

/-- Write device memory for a mover. -/
def State.moverWriteLocal (s : State) (m : MoverId) (t : MTask) (a : Nat) (bs : List Byte) (marks : List Bool) :
    Got Unit :=
  if ¬ s.rangeAll Region.hostOk a bs.length then .stop (s.moverFault m t (addrFault fAddrUnbacked a 1 true))
  else if s.stackHeld a then .stop (s.stallMover m wT2Fail)
  else .ok () ((s.slowStack m a).writeMarked a bs marks)

/-- The I/O die whose translation cache a mover uses: a host mover's own, die 0 for a half mover. -/
def moverDie (m : Nat) : Nat := if m < 32 then 0 else (m - 32) / 4

/-- PASID of the requests of a job (R270). -/
def State.jobPasid (s : State) : Option (BitVec 20) := dPasid s.jobDesc

/-- Request host bytes of a job's leaf or of a DMA descriptor: a leaf goes through ATS when it is enabled (R268);
then the read is issued and the mover waits under T3_HOST_LATE (R267). -/
def State.requestHost (s : State) (m : MoverId) (t : MTask) (addr len : Nat) (leaf : Bool) : State :=
  if ¬ s.hif.linkUp then s.stallMover m wT3HostFail
  else if ¬ s.mayRead .pf0 then s.stallMover m wT3HostLate
  else
    let pasid := if t.ring.isSome then none else s.jobPasid
    let cached := s.hif.atc.find? fun e =>
      decide (e.die = moverDie m) && decide (e.pasid = pasid) && decide (e.page ≤ addr) &&
      decide (addr < e.page + e.size)
    if leaf ∧ s.hif.atsEn then
      match cached with
      | some e =>
        let tag := s.hif.nextTag
        let n := min len (e.page + e.size - addr)
        (s.issueRead .pf0 (e.base + (addr - e.page)) n (.mover m) pasid).modMover m
          fun g => { g with wait := .hostRead tag, hold := BitVec.ofNat 8 wT3HostLate }
      | none =>
        (s.send (.atsRequest m (addr / 4096 * 4096) pasid)).modMover m
          fun g => { g with wait := .ats addr, hold := BitVec.ofNat 8 wXlateAts }
    else
      let tag := s.hif.nextTag
      (s.issueRead .pf0 addr len (.mover m) pasid).modMover m
        fun g => { g with wait := .hostRead tag, hold := BitVec.ofNat 8 wT3HostLate }

/-- The job that a task works for: none for a task of a DMA ring. -/
def MTask.jobOf (t : MTask) (s : State) : Word := if t.ring.isSome then 0 else BitVec.ofNat 32 s.jobId

/-- Request peer bytes: READ_REQ to the module that a fabric address names; the mover waits under T3_PEER_LATE
(R347, R351). A module outside the job-domain table raises GATEHOUSE (R468). -/
def State.requestPeer (s : State) (m : MoverId) (t : MTask) (addr len : Nat) : State :=
  let dst := bitsOf addr 48 14
  let a := addr % 2 ^ 48
  let tag := s.fab.nextTag
  match s.originate 1 0 len dst a tag.toNat 0 [] with
  | (.ok p, s) =>
    let s := { s with fab := { s.fab with
      nextTag := tag + 1
      ops := s.fab.ops ++ [({ tag, mover := some m, mtype := 1, addr := BitVec.ofNat 64 a, len, dst, port := p,
                              job := t.jobOf s } : PeerOp)] } }
    s.modMover m fun g => { g with wait := .peer tag, hold := BitVec.ofNat 8 wT3PeerLate }
  | (.refused, s) => s.moverFault m t (addrFault fGatehouse addr 3 false)
  | (.noRoute, s) => s.linkLostAt m

/-- Fetch source bytes of a space. -/
def State.fetch (s : State) (m : MoverId) (t : MTask) (space addr len : Nat)   : Got (List Byte × List Bool) :=
  match space with
  | 0 =>
    match s.translate (m / 16) (moverReader m t) addr false false with
    | (.ok 0 a, s) => s.moverReadLocal m t a len
    | (.ok 1 a, s) => .stop (s.requestHost m t a len true)
    | (.ok _ a, s) => .stop (s.requestPeer m t a len)
    | (.held, s) => .stop (s.stallMover m wT2Fail)
    | (.bad c l e ea, s) => .stop (s.moverFault m t (xlateFault addr c l e ea false))
  | 1 => s.moverReadLocal m t addr len
  | 2 => .stop (s.requestHost m t addr len false)
  | _ => .stop (s.requestPeer m t addr len)

/-- Write host bytes, one TLP a 64-byte line with EP where a word is bad (R229, log entry 18); a refusal raises
GATEHOUSE at the first line not sent (R276). The count is that of lines sent. -/
def hostLines (addr : Nat) : Nat → List Byte → List Bool → Nat → State → Nat × Bool × State
  | 0, _, _, k, s => (k, true, s)
  | fuel + 1, bs, marks, k, s =>
    if bs.isEmpty then (k, true, s)
    else match s.hostWrite .pf0 (addr + 64 * k) (bs.take 64) true ((marks.take 16).any id) with
      | (true, s) => hostLines addr fuel (bs.drop 64) (marks.drop 16) (k + 1) s
      | (false, s) => (k, false, s)

/-- Deliver bytes to a destination of a space. -/
def State.deliverTo (s : State) (m : MoverId) (t : MTask) (space addr : Nat) (bs : List Byte) (marks : List Bool) :
    Got Unit :=
  match space with
  | 0 =>
    match s.translate (m / 16) (moverReader m t) addr true false with
    | (.ok _ a, s) => s.moverWriteLocal m t a bs marks
    | (.held, s) => .stop (s.stallMover m wT2Fail)
    | (.bad c l e ea, s) => .stop (s.moverFault m t (xlateFault addr c l e ea true))
  | 1 => s.moverWriteLocal m t addr bs marks
  | _ =>
    if ¬ s.hif.linkUp then .stop (s.stallMover m wT3HostFail)
    else
      let (k, ok, s) := hostLines addr bs.length bs marks 0 s
      if ok then .ok () s
      else
        let s := s.modMover m fun g => { g with restart := { g.restart with off := g.restart.off + BitVec.ofNat 32 (64 * k) } }
        .stop (s.moverFault m t (addrFault fGatehouse (addr + 64 * k) space true))

/-! ### COPY (R302, R305 to R307) -/

/-- Source and destination addresses at the restart point. -/
def MTask.srcAt (t : MTask) (r : Restart) : Nat := mvSrc t.bytes + r.row.toNat * mvSstride t.bytes + r.off.toNat
def MTask.dstAt (t : MTask) (r : Restart) : Nat :=
  mvDst t.bytes + (if mvKind t.bytes = 3 then 0 else r.row.toNat * mvDstride t.bytes) + r.off.toNat

/-- Bytes of the next piece: up to the end of the row, and within 4 KiB of source and of destination (R267). -/
def MTask.pieceLen (t : MTask) (r : Restart) : Nat :=
  min (mvRlen t.bytes - r.off.toNat) (min (4096 - t.srcAt r % 4096) (4096 - t.dstAt r % 4096))

/-- The restart point after a piece. -/
def MTask.advance (t : MTask) (r : Restart) (n : Nat) : Restart :=
  if r.off.toNat + n < mvRlen t.bytes then { r with off := r.off + BitVec.ofNat 32 n }
  else { r with row := r.row + 1, off := 0 }

/-- Whether every row is written. -/
def MTask.finished (t : MTask) (r : Restart) : Bool := decide (mvRows t.bytes ≤ r.row.toNat)

/-- A piece has been written: the restart point moves past it. -/
def State.passPiece (s : State) (m : Nat) (t : MTask) (n : Nat) : State :=
  s.modMover m fun g => { g with restart := t.advance g.restart n, hold := 0, wait := .none, lastRestart := none }

/-- One piece of a COPY. -/
def State.copyPiece (s : State) (m : MoverId) (t : MTask) : Got Unit :=
  let r := (s.mover m).restart
  let n := t.pieceLen r
  let got :=
    if mvZero t.bytes then Got.ok (zeros n, List.replicate (n / 4) false) s
    else s.fetch m t (mvSrcSpace t.bytes) (t.srcAt r) n
  match got with
  | .stop s => .stop s
  | .ok (bs, marks) s =>
    match s.deliverTo m t (mvDstSpace t.bytes) (t.dstAt r) bs marks with
    | .stop s => .stop s
    | .ok _ s => .ok () (s.passPiece m t n)

/-- Copy until every row is written or the mover waits or holds; `fuel` bounds the pieces. -/
def copyLoop (m : MoverId) (t : MTask) : Nat → State → State
  | 0, s => s
  | fuel + 1, s =>
    if t.finished (s.mover m).restart then s.endTask m t stOk
    else match s.copyPiece m t with
      | .stop s => s
      | .ok _ s => copyLoop m t fuel s

/-- Pieces that a task can need. -/
def MTask.fuel (t : MTask) : Nat := mvRows t.bytes * (mvRlen t.bytes / 64) + 1

/-- The cause under which a wait is counted (Table 8.13): data of a peer, a neighbour's message included, under
T3_PEER_LATE (log entry 7). -/
def MWait.cause : MWait → Nat
  | .none => 0
  | .hostRead _ => wT3HostLate
  | .ats _ => wXlateAts
  | .pri _ => wPriWait
  | .peer _ | .coll => wT3PeerLate
  | .praline => wPralineBusy

/-- Start a task, or raise MOVER_MALFORMED for a list descriptor that breaks R303 or R304; go on where the mover
holds nothing and waits for nothing; what it holds or waits for is counted (R235). -/
def State.runTask (s : State) (m : MoverId) (kind : Nat) (go : MTask → State → State) : State :=
  match s.nextTask m with
  | none => s
  | some t =>
    let g := s.mover m
    if g.cur.isNone ∧ t.ring.isNone ∧ ¬ t.listOk then
      (s.startTask m t).moverFault m t (newFault fMoverMalformed)
    else if mvKind t.bytes ≠ kind then s
    else if g.fault.isSome then s.stallFault m
    else if g.wait ≠ .none then s.stallMover m g.wait.cause
    else go t (s.startTask m t)

/-- MOVE_COPY (R302). -/
def execMoveCopy (m : MoverId) (s : State) : Out :=
  if ¬ s.variant.hasMover m then .next s
  else if ¬ s.moverRuns m then .next s
  else .next (s.runTask m 1 fun t s => copyLoop m t t.fuel s)

/-! ### Noise (R323 to R325) -/

/-- One round of the block function on words 0 to 3. -/
def noiseRound (k : List Word) (x : Word × Word × Word × Word) (r : Nat) : Word × Word × Word × Word :=
  let (x0, x1, x2, x3) := x
  let x0 := x0 + x1
  let x3 := (x3 ^^^ x0).rotateLeft 16
  let x2 := x2 + x3
  let x1 := (x1 ^^^ x2).rotateLeft 12
  let x0 := x0 + x1
  let x3 := (x3 ^^^ x0).rotateLeft 8
  let x2 := x2 + x3
  let x1 := (x1 ^^^ x2).rotateLeft 7
  if r % 4 = 3 then
    let q := r / 4
    (x0 + k.getD (q % 4) 0 + BitVec.ofNat 32 (q + 1), x1 + k.getD ((1 + q) % 4) 0, x2 + k.getD ((2 + q) % 4) 0,
     x3 + k.getD ((3 + q) % 4) 0)
  else (x0, x1, x2, x3)

/-- block(k, c) of R323. -/
def noiseBlock (k c : List Word) : List Word :=
  let x := fun i => c.getD i 0 ^^^ k.getD i 0
  let (a, b, d, e) := (List.range 12).foldl (noiseRound k) (x 0, x 1, x 2, x 3)
  [a + c.getD 0 0, b + c.getD 1 0, d + c.getD 2 0, e + c.getD 3 0]

/-- k0 to k3 of a key (R323). -/
def noiseKey (key : List Byte) : List Word := (List.range 4).map fun i => BitVec.ofNat 32 (fieldAt key (4 * i) 4)

/-- Draw `n` of a sequence and stream (R324). -/
def noiseDraw (key : List Byte) (nseq stream n : Nat) : Word :=
  (noiseBlock (noiseKey key)
    [BitVec.ofNat 32 (bitsOf n 2 32), BitVec.ofNat 32 (bitsOf n 34 30), BitVec.ofNat 32 stream,
     BitVec.ofNat 32 nseq]).getD (n % 4) 0

/-- A draw as NFMT 1 writes it: (2 (w >> 9) + 1) × 2^−24, exact in FP32 (R324). -/
def noiseUniform (w : Word) : Word := fpRound (.fin false (2 * (w.toNat / 512) + 1) (-24))

/-- Bytes `off` to `off + len − 1` of a NOISE descriptor's output. -/
def State.noiseBytes (s : State) (t : MTask) (off len : Nat) : List Byte :=
  let d := t.bytes
  let cur := match s.job.cur with | some j => (j.cursors.getD (mvNseqi d) 0).toNat | none => 0
  ((List.range (len / 4)).map fun i =>
    let n := (cur + mvNoff d + off / 4 + i) % 2 ^ 64
    let w := noiseDraw (jKey s.jobDesc) (mvNseqi d) (mvStream d) n
    toLe (if mvNfmt d = 1 then noiseUniform w else w).toNat 4).flatten

/-- Write noise until RLEN bytes are written. -/
def noiseLoop (m : MoverId) (t : MTask) : Nat → State → State
  | 0, s => s
  | fuel + 1, s =>
    let r := (s.mover m).restart
    if t.finished r then s.endTask m t stOk
    else
      let n := min (mvRlen t.bytes - r.off.toNat) (4096 - t.dstAt r % 4096)
      match s.deliverTo m t (mvDstSpace t.bytes) (t.dstAt r) (s.noiseBytes t r.off.toNat n)
          (List.replicate (n / 4) false) with
      | .stop s => s
      | .ok _ s => noiseLoop m t fuel (s.passPiece m t n)

/-- MOVE_NOISE (R324). -/
def execMoveNoise (m : MoverId) (s : State) : Out :=
  if ¬ s.variant.hasMover m then .next s
  else if ¬ s.moverRuns m then .next s
  else .next (s.runTask m 3 fun t s => noiseLoop m t t.fuel s)

/-! ### Completions of host reads (R267) -/

/-- The bytes of a piece have come from outside: write them, and go on with the next MOVE_COPY. -/
def State.arriveAt (s : State) (m : MoverId) (bs : List Byte) (marks : List Bool) : State :=
  match (s.mover m).cur with
  | none => s
  | some t =>
    let r := (s.mover m).restart
    let s := s.modMover m fun g => { g with wait := .none, hold := 0 }
    if (s.mover m).fault.isSome ∨ ¬ s.moverRuns m then s
    else match s.deliverTo m t (mvDstSpace t.bytes) (t.dstAt r) bs marks with
      | .stop s => s
      | .ok _ s =>
        let s := s.passPiece m t bs.length
        if t.finished (s.mover m).restart then s.endTask m t stOk else s

/-- A host read of a mover failed: T3_TIMEOUT, and it holds under T3_HOST_FAIL (R235, R267). -/
def State.hostReadFailed (s : State) (m : MoverId) (addr : Nat) : State :=
  let s := s.modMover m fun g => { g with wait := .none }
  match (s.mover m).cur with
  | none => s
  | some t => if (s.mover m).fault.isSome then s
    else s.moverFault m t (addrFault fT3Timeout addr 2 false) wT3HostFail

/-- Halt cause of a descriptor read that failed (R291). -/
def readHaltCause : RdStatus → Nat
  | .ok => 0
  | .ur | .ca => 3
  | .timeout => 4
  | .ep => 5

/-- A read has ended: deliver its bytes, or fault the mover or halt the ring that asked (R267). -/
def State.endRead (s : State) (rd : OutRead) (status : RdStatus) (data : List Byte) : State :=
  let s := { s with hif := { s.hif with reads := s.hif.reads.filter fun x => x.tag ≠ rd.tag } }
  match rd.who with
  | .ring r first n =>
    let s := s.modRing r fun g => { g with reading := false }
    if status = .ok then
      s.modRing r fun g => { g with fetched := (chunksOf (slotSize r) n data).zipIdx.map fun (b, i) =>
        { idx := (first + i) % 2 ^ 24, bytes := b } }
    else s.haltRing r (readHaltCause status) first 0
  | .mover m =>
    if status = .ok then s.arriveAt m data (List.replicate (data.length / 4) false)
    else s.hostReadFailed m rd.addr

/-- READ_COMPLETION (R267): all bytes of a read arrive together (log entry 5). -/
def execReadCompletion (tag : Nat) (status : RdStatus) (data : List Byte) (s : State) : Out :=
  match s.hif.reads.find? fun x => x.tag = tag with
  | none => .next s
  | some rd =>
    if ¬ s.hostUp ∨ status = .timeout ∨ (status = .ok ∧ data.length ≠ rd.len) then .next s
    else .next (s.endRead rd status data)

/-- COMPLETION_TIMEOUT (R267). -/
def execCompletionTimeout (tag : Nat) (s : State) : Out :=
  match s.hif.reads.find? fun x => x.tag = tag with
  | none => .next s
  | some rd => if ¬ s.regionUp 2 ∨ ¬ s.pwr.refclk then .next s else .next (s.endRead rd .timeout [])

/-! ### ATS and page requests (R268, R269) -/

/-- A translation that failed: with JFLAGS.PRI the mover asks for the page, unless PRI is off or stopped; without, it
raises XL_NOT_PRESENT (R269). -/
def State.atsFailed (s : State) (m : MoverId) (addr : Nat) : State :=
  match (s.mover m).cur with
  | none => s
  | some t =>
    if jPri s.jobDesc ∧ s.hif.priEn ∧ ¬ s.hif.priStopped ∧ s.hif.pageReqs.length < 512 then
      let s := s.send (.pageRequest m (addr / 4096 * 4096) s.jobPasid)
      { s with hif := { s.hif with pageReqs := s.hif.pageReqs ++ [m] } }.modMover m
        fun g => { g with wait := .pri addr, hold := BitVec.ofNat 8 wPriWait }
    else
      (s.modMover m fun g => { g with wait := .none }).moverFault m t (addrFault fXlNotPresent addr 2 false)

/-- Keep a translation in the I/O die's cache of 1,024 entries; the entry that a full cache replaces is free. -/
def State.cacheAts (s : State) (e : AtcEntry) : State :=
  let mine := s.hif.atc.filter fun x => x.die = e.die
  if mine.length < 1024 then { s with hif := { s.hif with atc := s.hif.atc ++ [e] } }
  else
    let v := mine.getD (Config.freeIndex s.free 1024 % 1024) e
    { s with hif := { s.hif with atc := (s.hif.atc.filter fun x => x ≠ v) ++ [e] } }.drawn

/-- ATS_TRANSLATION_COMPLETION (R268). -/
def execAtsTranslationCompletion (m : MoverId) (res : Option AtsResult) (s : State) : Out :=
  match (s.mover m).wait with
  | .ats addr =>
    if ¬ s.hostUp then .next s
    else match res with
      | none => .next (s.atsFailed m addr)
      | some r =>
        let page := addr / r.size * r.size
        .next ((s.cacheAts { die := moverDie m, pasid := s.jobPasid, page, base := r.base.toNat, size := r.size }).modMover
          m fun g => { g with wait := .none, hold := 0 })
  | _ => .next s

/-- The page request of a mover failed: XL_NOT_PRESENT for the host target, with the PRI bit of ACCESS (R269). -/
def State.priFailed (s : State) (m : MoverId) (addr : Nat) : State :=
  let s := s.modMover m fun g => { g with wait := .none }
  match (s.mover m).cur with
  | none => s
  | some t => s.moverFault m t { addrFault fXlNotPresent addr 2 false with access := 4 }

/-- PAGE_REQUEST_RESPONSE (R269). -/
def execPageRequestResponse (m : MoverId) (code : PriCode) (s : State) : Out :=
  match (s.mover m).wait with
  | .pri addr =>
    if ¬ s.hostUp then .next s
    else
      let s := { s with hif := { s.hif with pageReqs := s.hif.pageReqs.filter fun x => x ≠ m } }
      match code with
      | .success =>
        .next ((s.send (.atsRequest m (addr / 4096 * 4096) s.jobPasid)).modMover m
          fun g => { g with wait := .ats addr, hold := BitVec.ofNat 8 wXlateAts })
      | .invalidRequest => .next (s.priFailed m addr)
      | .responseFailure =>
        let s := { s with hif := { s.hif with priStopped := true, pageReqs := [] } }
        .next ((List.range 48).foldl (fun s i =>
          match (s.mover i).wait with
          | .pri a => s.priFailed (Fin.ofNat 48 i) a
          | _ => s) s)
  | _ => .next s

/-- A mover that waits for a translation or a page loses it with the link: it holds like one that waits for host data. -/
def State.xlateLost (s : State) (m : MoverId) : State :=
  match (s.mover m).wait with
  | .ats addr | .pri addr => s.hostReadFailed m addr
  | _ => s

/-- The host link goes down (R297): what waits for host data, a translation or a page raises T3_TIMEOUT and holds under
T3_HOST_FAIL (R235); records and descriptor reads wait. -/
def State.hostLinkLost (s : State) : State :=
  let lost := s.hif.reads
  let s := { s with hif := { s.hif with linkUp := false, width := 0, rate := 0, flit := false, reads := [], pageReqs := [] } }
  let s := lost.foldl (fun s rd => match rd.who with
    | .ring r _ _ => s.modRing r fun g => { g with reading := false }
    | .mover m => s.hostReadFailed m rd.addr) s
  (List.range 48).foldl (fun s m => s.xlateLost (Fin.ofNat 48 m)) s

/-- LINK_DOWN (R297). -/
def execLinkDown (s : State) : Out := if s.hif.linkUp then .next s.hostLinkLost else .next s

/-- Whether a memory read of BAR2 is one of offset 0 of a populated doorbell page, which returns zero and breaks no rule
(Table 10.3, log entry 87). -/
def State.doorbellRead (s : State) (fn : PFn) (fmtType : Byte) (addr : Nat) : Bool :=
  fmtType &&& 0xDF == 0 &&
  (List.range 66).any fun r => s.variant.hasRing r && fnOfRing r == fn && s.doorbellPage r == addr

/-- HOST_PROTOCOL_VIOLATION (R272): requests that are not posted are answered with Unsupported Request; a mover that
waits for a malformed translation takes it as failed. -/
def execHostProtocolViolation (v : HostViol) (fn : PFn) (rid : BitVec 16) (fmtType : Byte) (addr : DWord) (s : State) :
    Out :=
  let row := match v with
    | .malformedTlp => 1 | .noBar => 2 | .bar0Access => 3 | .bar2Access => 4 | .bar4Refused => 5 | .atomicOp => 6
    | .poisonedWrite => 7 | .unexpectedCompletion => 8 | .badTranslation _ => 9
  if ¬ s.hostUp then .next s
  else if v = .bar2Access ∧ s.doorbellRead fn fmtType addr.toNat then .next (s.send (.completion rid .sc (zeros 8) false))
  else
    let s := s.violation fn row rid fmtType addr.toNat
    let posted := fmtType &&& 0x5F == 0x40
    match v with
    | .noBar | .bar0Access | .bar2Access | .bar4Refused | .atomicOp =>
      .next (if posted then s else s.send (.completion rid .ur [] false))
    | .badTranslation m =>
      (match (s.mover m).wait with
       | .ats a => .next (s.atsFailed m a)
       | .pri a => .next (s.priFailed m a)
       | _ => .next s)
    | _ => .next s

end Sys2Proof.Machine
end

