-- ==== Sys2Proof/Machine/Fabric.lean ====
section
/-! DEFINITION. The bricks: firing, routes, narrow runs, promotion (03 R60 to R67, R94, R518, R519; 04 R90 to R108). -/

namespace Sys2Proof.Machine

/-! ### Weights and activations (Table 4.1, R91) -/

/-- Container bits of a format code of Table 3.2. -/
def containerBits (f : Nat) : Nat :=
  match f with
  | 1 => 1 | 2 | 9 => 2 | 3 | 4 | 0xC => 4 | 0xD => 16 | _ => 8

/-- The value of an integer weight or activation. -/
def intValue (f n : Nat) : Int :=
  match f with
  | 1 => if n = 0 then -1 else 1
  | 9 => if n = 1 then 1 else if n = 3 then -1 else 0
  | w => signedOf w n

/-- The value of a floating weight or activation. -/
def floatValue (f n : Nat) : FVal :=
  match f with
  | 0xA => elemVal 6 n | 0xB => elemVal 7 n | 0xC => elemVal 8 n | _ => elemVal 1 n

/-- Weight (column, position) of a register-file entry. -/
def weightAt (f k : Nat) (entry : PortBits) (col pos : Nat) : Nat :=
  bitsOf entry.toNat ((col * k + pos) * containerBits f) (containerBits f)

/-- Activation at a position of a fragment. -/
def activationAt (f : Nat) (frag : PortBits) (pos : Nat) : Nat :=
  bitsOf frag.toNat (pos * containerBits f) (containerBits f)

/-- Ternary weights of a block with code 0b10 (Table 4.1). -/
def ternBad (f k : Nat) (entry : PortBits) : Nat :=
  if f = 9 then ((List.range (16 * k)).filter fun i => weightAt f k entry (i / k) (i % k) == 2).length else 0

/-! ### Runs (R96, R97, R101, R107) -/

/-- A run's reset value for a slot: −2^19 for EMAX, else 0 (R96). -/
def resetVal (op : Nat) : Word := if op = opEmax then BitVec.ofInt 32 (-(2 ^ 19)) else 0

/-- A run at a slot's reset value, with count 0 and side sum 0. -/
def resetRun (op : Nat) : Run := { val := resetVal op, count := 0, side := 0, ovf := false }

/-- A sum wrapped modulo 2^20, sign-extended (R96). -/
def wrap20 (i : Int) : Word := BitVec.ofInt 32 (signedOf 20 (wrapTo 20 i))

/-- The side-path products of a column: for each valid outlier whose position this firing covers (R107). -/
def sideSum (wf k : Nat) (entry frag : PortBits) (col first : Nat) : Int :=
  ((List.range 4).map fun q =>
    let w := bitsOf frag.toNat (256 + 32 * q) 32
    let pos := bitsOf w 24 7
    if bitOf w 31 ∧ first ≤ pos ∧ pos < first + k then
      signedOf 16 w * intValue wf (weightAt wf k entry col (pos - first))
    else 0).sum

/-- Integer MAC of one column. -/
def macInt (wf af k fired : Nat) (entry frag : PortBits) (col : Nat) (r : Run) : Run :=
  let sum := ((List.range k).map fun i =>
    intValue wf (weightAt wf k entry col i) * intValue af (activationAt af frag i)).sum
  let side := sideSum wf k entry frag col (fired * k % 128)
  { r with val := wrap20 (r.val.toInt + sum), count := r.count + k, side := r.side + BitVec.ofInt 40 side }

/-- The exponent by which a microscaling firing scales a column's products; none when a code is 0xFF (R95). -/
def mxScale (b : Brick) (c : DWord) (k : Nat) (frag : PortBits) (col : Nat) : Option Int :=
  let w := bitsOf (b.scale.getD ((cScale c + b.fired * k / 32) % 8) 0).toNat (8 * col) 8
  let a := bitsOf frag.toNat 384 8
  if w = 0xFF ∨ a = 0xFF then none else some ((w : Int) + a - 254)

/-- Floating MAC of one column: the exact scaled sum and the run, rounded once (R101). -/
def macFloat (b : Brick) (c : DWord) (k : Nat) (entry frag : PortBits) (col : Nat) (r : Run) : Run :=
  let prods := (List.range k).map fun i =>
    (floatValue (cWfmt c) (weightAt (cWfmt c) k entry col i)).mul (floatValue (cAfmt c) (activationAt (cAfmt c) frag i))
  let sum :=
    if mxW (cWfmt c) then
      (match mxScale b c k frag col with
       | some sc => exactSum (prods.map fun p => p.scale sc)
       | none => FVal.nan)
    else exactSum prods
  { r with val := fpRound ((fpVal r.val).add sum), count := r.count + k }

/-- Element of a column of an EMAX or EADD fragment (R100). -/
def elemAt (fmt : Nat) (frag : PortBits) (col : Nat) : Int :=
  if fmt = 3 then signedOf 16 (bitsOf frag.toNat (16 * col) 16) else signedOf 8 (bitsOf frag.toNat (8 * col) 8)

/-- EMAX of one column. -/
def emaxRun (fmt : Nat) (frag : PortBits) (col : Nat) (r : Run) : Run :=
  { r with val := BitVec.ofInt 32 (max r.val.toInt (elemAt fmt frag col)), count := r.count + 1 }

/-- EADD of one column. -/
def eaddRun (fmt : Nat) (frag : PortBits) (col : Nat) (r : Run) : Run :=
  { r with val := wrap20 (r.val.toInt + elemAt fmt frag col), count := r.count + 1 }

/-! ### Promotion (R69, R104) -/

/-- Clamp to 40 bits. -/
def clamp40 (i : Int) : Int := clampInt (-(2 ^ 39)) (2 ^ 39 - 1) i

/-- The entry that a promotion leaves, and whether it was clamped. -/
def promoted (op : Nat) (floating : Bool) (old : Option Acc) (r : Run) : Acc × Bool :=
  let put := fun (base : Int) (st po : Bool) =>
    let v := base + r.val.toInt + r.side.toInt
    let c := clamp40 v
    (({ val := BitVec.ofInt 40 c, sticky := st || c != v, poison := po } : Acc), c != v)
  match old with
  | none => if floating then ({ val := r.val.setWidth 40 }, false) else put 0 false false
  | some a =>
    if floating then
      ({ a with val := (fpRound ((fpVal (a.val.setWidth 32)).add (fpVal r.val))).setWidth 40 }, false)
    else if op = opEmax then ({ a with val := BitVec.ofInt 40 (max a.val.toInt r.val.toInt) }, false)
    else put a.val.toInt a.sticky a.poison

/-- The accumulator entry of a brick, accumulator row and column (R69). -/
def accEntry (row col accRow j : Nat) : Nat := 512 * (16 * row + col) + 16 * accRow + j

/-- Promote column `j` of a brick into the active set. -/
def Engine.promote (x : Engine) (op row col accRow j : Nat) (r : Run) : Engine :=
  let k := accEntry row col accRow j
  let p := promoted op x.plane.floating (accGet x.activeSet k) r
  (x.setActive (accPut x.activeSet k p.1)).count nAccSat (b2n p.2)

/-- Promote the runs of a brick whose count has reached RUN_LEN, or is not zero after the last firing; a promoted run
takes the slot's reset value (R97). -/
def Engine.promoteRuns (x : Engine) (op row col accRow : Nat) (isLast : Bool) (rs : List Run) : Engine × List Run :=
  let rl := phRunLen x.block
  rs.zipIdx.foldl
    (fun (acc : Engine × List Run) rj =>
      if decide (rl ≤ rj.1.count) || (isLast && rj.1.count != 0) then
        (acc.1.promote op row col accRow rj.2 rj.1, acc.2 ++ [resetRun op])
      else (acc.1, acc.2 ++ [rj.1]))
    (x, [])

/-! ### Ports (R63, R66, R518, R519) -/

/-- Words that wait at an input: 0 N, 1 E, 2 S, 3 W. -/
def Brick.input (b : Brick) (side : Nat) : List PortWord :=
  match side with
  | 0 => b.inN | 1 => b.inE | 2 => b.inS | _ => b.inW
def Brick.setInput (b : Brick) (side : Nat) (l : List PortWord) : Brick :=
  match side with
  | 0 => { b with inN := l } | 1 => { b with inE := l } | 2 => { b with inS := l } | _ => { b with inW := l }

/-- What an output of a brick is joined to. -/
inductive Link where
  | brick (row col side : Nat)
  | lane (row : Nat)
  | south (col : Nat)
  | nothing
  deriving DecidableEq, Repr

def linkOf (row col side : Nat) : Link :=
  match side with
  | 0 => if row = 0 then .nothing else .brick (row - 1) col 2
  | 1 => if col = 15 then .lane row else .brick row (col + 1) 3
  | 2 => if row = 15 then .south col else .brick (row + 1) col 0
  | _ => if col = 0 then .nothing else .brick row (col - 1) 1

/-- Whether program C takes words of the S ports: it writes from them and has beats left (R132). -/
def Engine.southOpen (x : Engine) : Bool :=
  match phProg x.block .c with
  | some p => agDir p == 1 && !x.agDone .c
  | none => false

/-- Whether an output can accept one more word: a link holds one word and as many more as its delay has stages
(R66). -/
def Engine.accepts (x : Engine) (row col side dly : Nat) : Bool :=
  match linkOf row col side with
  | .brick r c d => decide (((x.brick r c).input d).length < 1 + dly)
  | .lane r => decide ((x.laneE.getD r []).length < 1 + dly)
  | .south c => !x.southOpen || decide ((x.sWord.getD c []).length < 1 + dly)
  | .nothing => true

/-- The port word of a run transfer that leaves at the E port (R518). -/
def eastWord (floating : Bool) (rs : List Run) : PortBits :=
  portOf ((rs.map fun r =>
    toLe (if floating then r.val.toNat else (fpOfInt (r.val.toInt + r.side.toInt)).toNat) 4).flatten)

/-- The port word of a run transfer that leaves at an S port, and the values clamped. -/
def southWord (floating : Bool) (rs : List Run) : PortBits × Nat :=
  let vals := rs.map fun r =>
    let v := r.val.toInt + r.side.toInt
    let c := clampInt (-(2 ^ 31)) (2 ^ 31 - 1) v
    if floating then (r.val.toNat, 0) else (wrapTo 32 c, b2n (c != v))
  (portOf ((vals.map fun v => toLe v.1 4).flatten), (vals.map (·.2)).sum)

/-- Send a word through an output. -/
def Engine.sendOut (x : Engine) (row col side : Nat) (w : PortWord) : Engine :=
  match linkOf row col side with
  | .brick r c d =>
    { x with bricks := modifyNth (fun b => b.setInput d (b.input d ++ [w])) x.bricks (16 * r + c) }
  | .lane r =>
    let w' := match w with
      | .act _ => w
      | .runs rs => .act (eastWord x.plane.floating rs)
    { x with laneE := modifyNth (fun l => l ++ [w']) x.laneE r }
  | .south c =>
    if ¬ x.southOpen then x
    else
      let p := match w with
        | .act b => (b, 0)
        | .runs rs => southWord x.plane.floating rs
      ({ x with sWord := modifyNth (fun l => l ++ [p.1]) x.sWord c }).count nSat p.2
  | .nothing => x

/-! ### Firing (R67) -/

/-- Whether an operation takes a fragment, and whether it works on runs. -/
def takesAct (op : Nat) : Bool := decide (1 ≤ op)
def worksRuns (op : Nat) : Bool := op == opMac || op == opEmax || op == opEadd

/-- The inputs that a slot reads. -/
def inputsOf (c r : DWord) : List Nat :=
  (List.range 4).filter fun d =>
    (takesAct (cOpc c) && cAsrc c == d) || (worksRuns (cOpc c) && cPsrc c == d + 1) ||
    (List.range 4).any fun o => rSel r o == d + 1

/-- The outputs that a route word enables. -/
def outputsOf (r : DWord) : List Nat := (List.range 4).filter fun o => rSel r o != 0

/-- The runs that a word taken through PSRC stands for (R519). -/
def wordRuns (op : Nat) : PortWord → List Run
  | .runs rs => rs
  | .act _ => List.replicate 16 (resetRun op)

/-- The bits that a word taken through ASRC stands for (R519). -/
def wordBits : PortWord → PortBits
  | .act b => b
  | .runs _ => 0

/-- The current register-file entry of a slot (R67). -/
def currentEntry (b : Brick) (c : DWord) : Nat := (cRfw c + b.fired * cRfInc c) % 64

/-- The fragment of a firing: the word at ASRC, or the current entry. -/
def fragOf (b : Brick) (c : DWord) : PortBits :=
  if cAsrc c = 4 then look 0 b.rf (currentEntry b c)
  else match b.input (cAsrc c) with
    | w :: _ => wordBits w
    | [] => 0

/-- Whether a firing takes a word of the wrong kind (R519). -/
def kindMismatch (b : Brick) (c : DWord) : Bool :=
  let isRuns := fun (side : Nat) => match b.input side with
    | .runs _ :: _ => true
    | _ => false
  (takesAct (cOpc c) && decide (cAsrc c < 4) && isRuns (cAsrc c)) ||
  (worksRuns (cOpc c) && cPsrc c != 0 && !isRuns (cPsrc c - 1))

/-- The runs that a firing starts from: its own, or those taken through PSRC (R96). -/
def runsIn (b : Brick) (c : DWord) : List Run :=
  if cPsrc c = 0 then b.runs
  else match b.input (cPsrc c - 1) with
    | w :: _ => wordRuns (cOpc c) w
    | [] => b.runs

/-- The runs after the arithmetic of a firing. -/
def runsAfter (fmt : Nat) (b : Brick) (c : DWord) (frag : PortBits) : List Run :=
  let entry := look 0 b.rf (currentEntry b c)
  let k := (pairK (cWfmt c) (cAfmt c)).getD 0
  (runsIn b c).zipIdx.map fun rj =>
    if cOpc c = opMac then
      (if floatW (cWfmt c) then macFloat b c k entry frag rj.2 rj.1
       else macInt (cWfmt c) (cAfmt c) k b.fired entry frag rj.2 rj.1)
    else if cOpc c = opEmax then emaxRun fmt frag rj.2 rj.1
    else eaddRun fmt frag rj.2 rj.1

/-- Mark the runs whose count is past RUN_LEN (R99). -/
def markOver (rl : Nat) (rs : List Run) : List Run :=
  rs.map fun r => if rl < r.count then { r with ovf := true } else r

/-- Scale register `s` takes bytes 16 s to 16 s + 15 of a word (R94). -/
def scaleOf (w : PortBits) : List (BitVec 128) := (List.range 8).map fun i => w.extractLsb' (128 * i) 128

/-- The brick moves on after a firing: to the next firing, the slot NEXT, or the end of its program (R67). -/
def Brick.step (b : Brick) (c : DWord) : Brick :=
  if b.fired < cRep c then { b with fired := b.fired + 1 }
  else if cLast c then { b with fired := 0, done := true }
  else { b with fired := 0, slot := cNext c }

/-- What a firing leaves of the engine: the runs promoted or kept, counted; and the brick with its runs and register
file, and the runs it offers. -/
def Engine.fireRuns (x : Engine) (row col : Nat) (b : Brick) (c r : DWord) (frag : PortBits) :
    Engine × Brick × List Run :=
  let op := cOpc c
  let rl := phRunLen x.block
  let rs := runsAfter (phElem x.block) b c frag
  let k := (pairK (cWfmt c) (cAfmt c)).getD 0
  let x := if op = opMac then x.count nTernBad (ternBad (cWfmt c) k (look 0 b.rf (currentEntry b c))) else x
  if cDst c = 1 then
    let p := x.promoteRuns op row col (cAccRow c) (b.fired == cRep c) rs
    (p.1, { b with runs := p.2 }, [])
  else
    let x := x.count nRunOver (b2n (rs.any fun r => decide (rl < r.count)))
    let rs := markOver rl rs
    if cDst c = 2 ∧ (List.range 4).any (fun o => rSel r o == 5) then
      (x, { b with runs := List.replicate 16 (resetRun op) }, rs)
    else (x, { b with runs := rs }, rs)

/-- One firing of the brick at a place. -/
def Engine.fire (x : Engine) (row col : Nat) : Engine :=
  let b := x.brick row col
  let (c, r) := x.plane.slot (16 * row + col) b.slot
  let op := cOpc c
  let frag := if takesAct op then fragOf b c else 0
  let taken := (inputsOf c r).map fun d => (d, (b.input d).headD (.act 0))
  let x := x.count nKind (b2n (kindMismatch b c))
  let (x, b', offer) :=
    if worksRuns op then x.fireRuns row col b c r frag
    else if op = opLdw then
      let k := currentEntry b c
      let b' := { b with rf := store 0 b.rf k frag }
      (x, if k = 63 then { b' with scale := scaleOf frag } else b', [])
    else (x, b, [])
  let b' := (inputsOf c r).foldl (fun b d => b.setInput d ((b.input d).drop 1)) b'
  let x := { x with bricks := x.bricks.set (16 * row + col) (b'.step c) }
  (outputsOf r).foldl
    (fun x o =>
      let code := rSel r o
      let w := if code ≤ 4 then look (.act 0) taken (code - 1) else if code = 5 then .runs offer else .act frag
      x.sendOut row col o w) x

/-- The engine no longer waits; a held fault still shows (R235). -/
def Engine.moving (x : Engine) : Engine := { x with hold := if x.fault.isSome then 7 else 0 }

/-- Whether the brick at a place stands before a slot of an operation. -/
def Engine.atSlot (x : Engine) (op row col : Nat) : Bool :=
  let b := x.brick row col
  !b.done && cOpc (x.plane.slot (16 * row + col) b.slot).1 == op

/-- Whether the brick at a place can fire a slot of an operation: its program stands there, every source it reads
offers a word, and every output can accept (R67). -/
def Engine.canFire (x : Engine) (op row col : Nat) : Bool :=
  let b := x.brick row col
  let (c, r) := x.plane.slot (16 * row + col) b.slot
  x.atSlot op row col && (inputsOf c r).all (fun d => !(b.input d).isEmpty) &&
  (outputsOf r).all fun o => x.accepts row col o (rDly r o)

/-- The brick at a place fires when it can, and otherwise waits under FABRIC_STARVE. -/
def State.fireBrick (s : State) (op : Nat) (e : EngineId) (row col : Fin 16) : State :=
  let x := s.engine e
  if ¬ s.engineRuns e ∨ ¬ x.atSlot op row col then s
  else if x.canFire op row col then s.modEngine e fun x => (x.fire row col).moving
  else s.stallEngine e wFabricStarve

/-- NOP (R65). -/
def execBrickNop (e : EngineId) (row col : Fin 16) (s : State) : Out := .next (s.fireBrick opNop e row col)
/-- MAC (R96). -/
def execMac (e : EngineId) (row col : Fin 16) (s : State) : Out := .next (s.fireBrick opMac e row col)
/-- PASS (R65). -/
def execPass (e : EngineId) (row col : Fin 16) (s : State) : Out := .next (s.fireBrick opPass e row col)
/-- LDW (R94). -/
def execLdw (e : EngineId) (row col : Fin 16) (s : State) : Out := .next (s.fireBrick opLdw e row col)
/-- EMAX (R96). -/
def execEmax (e : EngineId) (row col : Fin 16) (s : State) : Out := .next (s.fireBrick opEmax e row col)
/-- EADD (R96). -/
def execEadd (e : EngineId) (row col : Fin 16) (s : State) : Out := .next (s.fireBrick opEadd e row col)

end Sys2Proof.Machine
end

