-- ==== Sys2Proof/Machine/Sfu.lean ====
section
/-! DEFINITION. The special-function tables and their evaluation, and the statistics records (06 R166 to R178). -/

namespace Sys2Proof.Machine

/-! ### Table sets (Table 6.4, Table 6.5) -/

/-- NAT_MAP and M7_MAP of a table set. -/
def tsNatMap (d : List Byte) : Nat := fieldAt d 0x0C 4
def tsM7Map (d : List Byte) : Nat := fieldAt d 0x10 4

/-- The number of bits of a map that are set below slot `n`. -/
def bitsBelow (map n : Nat) : Nat := ((List.range n).filter fun i => bitOf map i).length

/-- Bytes of a native and of an M7 table. -/
def nativeSize : Nat := 4160
def m7Size : Nat := 1088

/-- Offset of a slot's table in the set. -/
def tableOff (d : List Byte) (m7 : Bool) (slot : Nat) : Nat :=
  if m7 then 64 + nativeSize * bitsBelow (tsNatMap d) 32 + m7Size * bitsBelow (tsM7Map d) slot
  else 64 + nativeSize * bitsBelow (tsNatMap d) slot

/-- The bytes of a slot's table, where the set fills the slot. -/
def tableOf (d : List Byte) (m7 : Bool) (slot : Nat) : Option (List Byte) :=
  if slot < 32 ∧ bitOf (if m7 then tsM7Map d else tsNatMap d) slot then
    some (bytesAt d (tableOff d m7 slot) (if m7 then m7Size else nativeSize))
  else none

/-- Fields of a function header. -/
def tfReduce (t : List Byte) : Nat := fieldAt t 0 1
def tfFlags (t : List Byte) : Nat := fieldAt t 1 1
def tfSigned (t : List Byte) : Bool := bitOf (tfFlags t) 0
def tfE0 (t : List Byte) : Int := signedOf 8 (fieldAt t 2 1)
def tfNe (t : List Byte) : Nat := fieldAt t 3 1
def tfMb (t : List Byte) : Nat := fieldAt t 4 1
def tfHipMode (t : List Byte) : Nat := fieldAt t 5 1
def tfHinMode (t : List Byte) : Nat := fieldAt t 6 1
/-- An FP32 field. -/
def tfWord (t : List Byte) (off : Nat) : Word := BitVec.ofNat 32 (fieldAt t off 4)

/-- Segments of a table. -/
def tfSegs (t : List Byte) : Nat := (b2n (tfSigned t) + 1) * (tfNe t + 1) * 2 ^ tfMb t

/-- Coefficients of a segment. -/
structure Coeffs where
  c0 : Word
  c1 : Word
  c2 : Word
  deriving DecidableEq, Repr

/-- Entry of a segment. -/
def tfEntry (m7 : Bool) (t : List Byte) (seg : Nat) : Coeffs :=
  if m7 then ⟨tfWord t (64 + 8 * seg), tfWord t (68 + 8 * seg), 0⟩
  else ⟨tfWord t (64 + 16 * seg), tfWord t (68 + 16 * seg), tfWord t (72 + 16 * seg)⟩

/-- Coefficients of the low region. -/
def tfLow (t : List Byte) : Coeffs := ⟨tfWord t 8, tfWord t 0xC, tfWord t 0x10⟩

/-! ### Evaluation (R171, R172, R175) -/

/-- What turns g into the result. -/
inductive SfuPost where
  | scale (neg : Bool) (k : Int)
  | addInt (n : Int)
  deriving DecidableEq, Repr

/-- The result from g: a power of two is exact unless the result is subnormal, where it rounds once. -/
def applyPost (p : SfuPost) (g : Word) : Word :=
  match p with
  | .scale neg k =>
    let v := (fpVal g).scale k
    fpRound (if neg then v.neg else v)
  | .addInt n => fpRound ((FVal.ofInt n).add (fpVal g))

/-- Reduction: a final result, or u and what follows. -/
inductive Reduced where
  | done (r : Word)
  | go (u : Word) (p : SfuPost)
  deriving DecidableEq, Repr

/-- u of the codes that take out a power of two: |x| / 2^k − 1, exact. -/
def mantU (v : FVal) (k : Int) : Word := fpRound ((v.abs.scale (-k)).add (.fin true 1 0))

/-- EXPE's special limits as FP32 values in decimal hundredths: x at least 88.73, x below −103.98. -/
def expeHigh : FVal := .fin false 8873 0
def expeLow : FVal := .fin true 10398 0
/-- floor(log2 e × 2^200). -/
def log2eScaled : Nat := 2318321547468254865173387471183990171487108758923299108729110
/-- x × log2 e at 48-bit precision: one of the two neighbours of the exact product that have 48 significant bits, which
of the two being free (R172; log entry 14). -/
def expeProduct (x : Word) : FVal :=
  match fpVal x with
  | .fin neg m e =>
    let p := m * log2eScaled
    let cut := Nat.log2 p + 1 - 48
    .fin neg ((p >>> cut) + b2n (Config.expeUp x)) (e - 200 + cut)
  | v => v
/-- A value times 100. -/
def times100 (v : FVal) : FVal := v.mul (.fin false 100 0)

/-- Split a value into f = y − floor(y), rounded once to FP32, and 2^floor(y) (codes EXP2 and EXPE). -/
def splitExp (y : FVal) : Reduced :=
  let n := y.floorInt
  .go (fpRound (y.add (FVal.ofInt (-n)))) (.scale false n)

/-- Table 6.6. -/
def reduceArg (code : Nat) (x : Word) : Reduced :=
  let v := fpVal x
  let neg := v.sign
  let lg := v.log2Floor
  match code with
  | 0 => .go x (.scale false 0)
  | 1 =>
    if ¬ v.lt (.fin false 128 0) then .done (fpInf false)
    else if v.lt (.fin true 150 0) then .done 0
    else splitExp v
  | 2 =>
    if ¬ (times100 v).lt expeHigh then .done (fpInf false)
    else if (times100 v).lt expeLow then .done 0
    else if v.isZero then splitExp (.fin false 0 0)
    else splitExp (expeProduct x)
  | 3 =>
    if v.isZero then .done (fpInf true)
    else if neg then .done fpNaN
    else if ¬ v.isFin then .done x
    else .go (mantU v lg) (.addInt lg)
  | 4 =>
    if v.isZero then .done (fpInf neg)
    else if ¬ v.isFin then .done (if neg then 0x80000000#32 else 0)
    else .go (mantU v lg) (.scale neg (-lg))
  | 5 =>
    if v.isZero then .done (fpInf neg)
    else if neg then .done fpNaN
    else if ¬ v.isFin then .done 0
    else
      let k := Int.fdiv lg 2
      .go (mantU v (2 * k)) (.scale false (-k))
  | 6 =>
    if v.isZero then .done x
    else if neg then .done fpNaN
    else if ¬ v.isFin then .done x
    else
      let k := Int.fdiv lg 2
      .go (mantU v (2 * k)) (.scale false k)
  | 7 => .go (x &&& 0x7FFFFFFF#32) (.scale neg 0)
  | _ =>
    if ¬ v.isFin then .done fpNaN
    else .go (fpRound (v.add (FVal.ofInt (-2 * (v.scale (-1)).toInt)))) (.scale false 0)

/-- Whether an FP32 word is subnormal. -/
def isSubnormal (x : Word) : Bool := x &&& 0x7F800000#32 == 0 && x &&& 0x7FFFFF#32 != 0

/-- A subnormal becomes zero of its sign (Table 6.8). -/
def flush (x : Word) : Word := if isSubnormal x then x &&& 0x80000000#32 else x

/-- g of a segment: four FP32 operations, or in M7 mode one exact sum rounded once, ties away from zero. -/
def interpolate (m7 : Bool) (c : Coeffs) (dx : Word) : Word :=
  if m7 then fpRoundBy rnaShift (((fpVal c.c1).mul (fpVal dx)).add (fpVal c.c0))
  else fpAdd c.c0 (fpMul (fpAdd c.c1 (fpMul c.c2 dx)) dx)

/-- Clear every mantissa bit below the top `mb`. -/
def seamOf (u : Word) (mb : Nat) : Word := (u >>> (23 - mb)) <<< (23 - mb)

/-- g for a reduced argument u: low region, high region or segment (R171). -/
def segmentG (m7 : Bool) (t : List Byte) (u : Word) : Word :=
  let v := fpVal u
  let neg := v.lt (.fin false 0 0)
  let e0 := tfE0 t
  if v.abs.lt (.fin false 1 e0) then interpolate m7 (tfLow t) u
  else if ¬ v.abs.lt (.fin false 1 (e0 + tfNe t + 1)) then
    let k := tfWord t (if neg then 0x18 else 0x14)
    if (if neg then tfHinMode t else tfHipMode t) = 0 then k else fpMul k u
  else
    let e : Int := (bitsOf u.toNat 23 8 : Int) - 127
    let top := bitsOf u.toNat (23 - tfMb t) (tfMb t)
    let base := if tfSigned t && neg then 2 ^ tfMb t * (tfNe t + 1) else 0
    let seg := base + (e - e0).toNat * 2 ^ tfMb t + top
    interpolate m7 (tfEntry m7 t seg) (fpSub u (seamOf u (tfMb t)))

/-- Evaluate a table at an argument. -/
def evalTable (m7 : Bool) (t : List Byte) (x : Word) : Word :=
  if fpIsNaN x then fpNaN
  else
    let r := match reduceArg (tfReduce t) (if m7 then flush x else x) with
      | .done r => r
      | .go u p =>
        if (fpVal u).lt (.fin false 0 0) ∧ ¬ tfSigned t then fpNaN else applyPost p (segmentG m7 t u)
    if m7 then flush r else r

/-- Evaluate a slot of a table set; an empty slot gives the canonical NaN (R167, R175). -/
def sfuEval (set : List Byte) (m7 : Bool) (slot : Nat) (x : Word) : Word :=
  match tableOf set m7 slot with
  | none => fpNaN
  | some t => evalTable m7 t x

/-- rcp: native slot 0x03. -/
def sfuRcp (set : List Byte) (x : Word) : Word := sfuEval set false 3 x

/-! ### Table-set checks 3 to 6 (R168, R170, R173) -/

/-- Reserved fields of a table are zero, and so are its entries beyond the segment count. -/
def tableClean (m7 : Bool) (t : List Byte) : Bool :=
  let esz := if m7 then 8 else 16
  let cap := if m7 then 128 else 256
  let n := min (tfSegs t) cap
  decide (tfFlags t < 16) && zeroAt t 7 1 && zeroAt t 0x1C 36 && zeroAt t (64 + esz * n) (esz * (cap - n)) &&
  (m7 || (List.range n).all fun i => zeroAt t (64 + 16 * i + 12) 4)

/-- The limits of Table 6.5. -/
def tableLimits (m7 : Bool) (t : List Byte) : Bool :=
  let zero := fun off => fpIsZero (tfWord t off)
  decide (tfReduce t ≤ 8) && decide (-126 ≤ tfE0 t) && decide (tfE0 t + tfNe t + 1 ≤ 128) &&
  decide (tfMb t ≤ (if m7 then 6 else 7)) && decide (tfHipMode t ≤ 1) && decide (tfHinMode t ≤ 1) &&
  (tfHipMode t == 0 || !zero 0x14) && (tfHinMode t == 0 || !zero 0x18) &&
  (tfSigned t || (tfHinMode t == 0 && zero 0x18)) && decide (tfSegs t ≤ (if m7 then 128 else 256)) &&
  (!m7 || zero 0x10)

/-- The two sides of a seam differ by at most 1 ulp of the larger magnitude. DESIGN CHOICE: where a side is a NaN or an
infinity an ulp has no meaning, and the two sides meet only as the same bits (log entry 92). -/
def within1ulp (a b : Word) : Bool :=
  match fpVal a, fpVal b with
  | .fin _ _ _, .fin _ _ _ =>
    let big := if (fpVal a).abs.lt (fpVal b).abs then b else a
    let ulp : FVal := .fin false 1 ((max (bitsOf big.toNat 23 8) 1 : Nat) - 150)
    !(ulp.lt ((fpVal a).add (fpVal b).neg).abs)
  | _, _ => a == b

/-- Magnitude at which segment `i` of one sign starts. -/
def seamAt (t : List Byte) (i : Nat) : Word :=
  fpRound (.fin false (2 ^ tfMb t + i % 2 ^ tfMb t) (tfE0 t + (i / 2 ^ tfMb t : Nat) - tfMb t))

/-- Numeric order of words, false on a NaN. -/
def fpLe (a b : Word) : Bool := !fpIsNaN a && !fpIsNaN b && !((fpVal b).lt (fpVal a))

/-- The seam at the start of segment `i` of a sign meets R173. DESIGN CHOICE: an M7 table's left side is g as an M7
evaluation returns it, subnormals flushed, and the right side is C0 as stored (R175; log entry 92). -/
def seamOk (m7 : Bool) (t : List Byte) (neg : Bool) (i : Nat) : Bool :=
  let n := (tfNe t + 1) * 2 ^ tfMb t
  let base := if neg then n else 0
  let below := seamAt t i - 1
  let sgn : Word := if neg then 0x80000000#32 else 0
  let left :=
    if i = 0 then interpolate m7 (tfLow t) ((if m7 then flush below else below) ||| sgn)
    else interpolate m7 (tfEntry m7 t (base + i - 1)) (fpSub below (seamOf below (tfMb t)) ||| sgn)
  let left := if m7 then flush left else left
  let right := (tfEntry m7 t (base + i)).c0
  let (x, y) := if neg then (right, left) else (left, right)
  let fl := tfFlags t
  (bitOf fl 3 || within1ulp left right) &&
  (m7 || ((!bitOf fl 1 || fpLe x y) && (!bitOf fl 2 || fpLe y x)))

/-- The slope C1 + 2 × C2 × dx, in the device's FP32 with 2 × C2 formed first, has the sign that MONO_INC or MONO_DEC
asks for (R173; the order of the products is log entry 92's). -/
def slopeOk (t : List Byte) (c : Coeffs) (dx : Word) : Bool :=
  let d := fpVal (fpAdd c.c1 (fpMul (fpMul 0x40000000#32 c.c2) dx))
  (!bitOf (tfFlags t) 1 || !(d.isNaN || d.lt (.fin false 0 0))) &&
  (!bitOf (tfFlags t) 2 || !(d.isNaN || FVal.lt (.fin false 0 0) d))

/-- Slopes at both ends of a segment of width 2^w. DESIGN CHOICE: the far end is at dx = 2^w, where the next segment
starts (log entry 92). -/
def slopesOk (t : List Byte) (c : Coeffs) (neg : Bool) (w : Int) : Bool :=
  slopeOk t c fpZero && slopeOk t c (fpRound (.fin neg 1 w))

/-- Check 6 of R168 for one table: every seam, that at 2^E0 with the low region to its left among them, and the slopes
of every segment; an M7 table has the seam check alone, with DISC clear (R173, Table 6.8). -/
def tableSeams (m7 : Bool) (t : List Byte) : Bool :=
  let n := (tfNe t + 1) * 2 ^ tfMb t
  (m7 && bitOf (tfFlags t) 3) ||
  ((List.range (b2n (tfSigned t) + 1)).all fun s =>
    let neg := s == 1
    (List.range n).all (fun i => seamOk m7 t neg i) &&
    (m7 || (List.range n).all fun i =>
      slopesOk t (tfEntry m7 t ((if neg then n else 0) + i)) neg
        (tfE0 t + (i / 2 ^ tfMb t : Nat) - tfMb t)))

/-- The tables of a set: M7 or not, with their bytes. -/
def allTables (d : List Byte) : List (Bool × List Byte) :=
  ((List.range 32).filterMap fun i => (tableOf d false i).map fun t => (false, t)) ++
  ((List.range 32).filterMap fun i => (tableOf d true i).map fun t => (true, t))

/-! ### Statistics records (R176, R178) -/

/-- A statistics record. -/
structure StatRec where
  count : Nat
  mean : Word
  m2 : Word
  deriving DecidableEq, Repr

def StatRec.ofBytes (b : List Byte) : StatRec :=
  ⟨fieldAt b 0 8, BitVec.ofNat 32 (fieldAt b 8 4), BitVec.ofNat 32 (fieldAt b 12 4)⟩

/-- A count beyond 64 bits is written as a free value: no rule states one. -/
def StatRec.bytes (r : StatRec) : List Byte :=
  toLe (if r.count < 2 ^ 64 then r.count else Config.wideCount r.count) 8 ++ toLe r.mean.toNat 4 ++ toLe r.m2.toNat 4

/-- smerge of R178, with rcp as given. -/
def smerge (rcp : Word → Word) (a b : StatRec) : StatRec :=
  if a.count = 0 then b
  else if b.count = 0 then a
  else
    let n := a.count + b.count
    let delta := fpSub b.mean a.mean
    let w := fpMul (fpOfInt b.count) (rcp (fpOfInt n))
    let mean := fpAdd a.mean (fpMul delta w)
    let cw := fpMul (fpOfInt a.count) w
    let m2 := fpAdd (fpAdd a.m2 b.m2) (fpMul (fpMul delta delta) cw)
    let anyNaN := fpIsNaN a.mean || fpIsNaN b.mean || fpIsNaN a.m2 || fpIsNaN b.m2
    let bad := (fpVal m2).lt (.fin false 0 0) || m2 == 0x80000000#32 || (fpIsNaN m2 && !anyNaN)
    ⟨n, mean, if bad then 0 else m2⟩

end Sys2Proof.Machine
end

