-- ==== Sys2Proof/Machine/Vector.lean ====
section
/-! DEFINITION. The vector lanes and the special-function pipes (03 R70, R71; 04 R112, R120, R121; 06 R166 to R175). -/

namespace Sys2Proof.Machine

/-! ### Registers and sequencing (R70) -/

/-- A vector register of a lane. -/
def Engine.vreg (x : Engine) (lane reg : Nat) : List Word :=
  (x.vregs.getD lane []).getD reg (List.replicate 32 0)

/-- Write a vector register of a lane. -/
def Engine.setVreg (x : Engine) (lane reg : Nat) (v : List Word) : Engine :=
  { x with vregs := modifyNth (fun l => l.set reg v) x.vregs lane }

/-- Write a register of every lane. -/
def Engine.setAll (x : Engine) (reg : Nat) (f : Nat → List Word) : Engine :=
  (List.range 16).foldl (fun x r => x.setVreg r reg (f r)) x

/-- The instruction that the lanes stand before; END past the last one (R70). -/
def Engine.vinstr (x : Engine) : Word :=
  if x.vpc < phVecLen x.block then phVec x.block x.vpc else 0x3C000000#32

/-- The lanes go on: at the end of a loop's body back to its start while passes are left; `fuel` bounds the loops. -/
def loopBack : Nat → Nat → List VLoop → Nat × List VLoop
  | 0, pc, ls => (pc, ls)
  | fuel + 1, pc, ls =>
    match ls with
    | [] => (pc, [])
    | l :: rest =>
      if pc ≠ l.last then (pc, ls)
      else if 0 < l.left then (l.first, { l with left := l.left - 1 } :: rest)
      else loopBack fuel pc rest

/-- The next instruction. -/
def Engine.vnext (x : Engine) : Engine :=
  let r := loopBack (x.loops.length + 1) (x.vpc + 1) x.loops
  { x with vpc := r.1, loops := r.2, vgot := 0 }

/-- Whether results of an SFU instruction for a register are outstanding (R166). -/
def Engine.awaits (x : Engine) (reg : Nat) : Bool := x.sfuQ.any fun q => q.vd == reg

/-- Whether the lanes stand before an instruction of an operation, with none of the registers it uses outstanding. -/
def State.vecReady (s : State) (e op : Nat) (regs : Word → List Nat) : Bool :=
  let x := s.engine e
  s.engineRuns e && !x.vdone && viOp x.vinstr == op && (regs x.vinstr).all fun r => !x.awaits r

/-- One instruction that works within the lanes. -/
def State.vecDo (s : State) (e op : Nat) (regs : Word → List Nat) (go : Engine → Word → Engine) : State :=
  if s.vecReady e op regs then s.modEngine e fun x => ((go x x.vinstr).vnext).moving else s

def usesD (w : Word) : List Nat := [viVd w]
def usesA (w : Word) : List Nat := [viVd w, viVa w]
def usesAB (w : Word) : List Nat := [viVd w, viVa w, viVb w]

/-- An element-wise operation of two registers. -/
def Engine.pointwise (f : Word → Word → Word) (x : Engine) (w : Word) : Engine :=
  x.setAll (viVd w) fun r => List.zipWith f (x.vreg r (viVa w)) (x.vreg r (viVb w))

/-- A reduction of one register, in every element. -/
def Engine.reduce (f : List Word → Word) (x : Engine) (w : Word) : Engine :=
  x.setAll (viVd w) fun r => List.replicate 32 (f (x.vreg r (viVa w)))

/-! ### Instructions -/

/-- NOP (R70). -/
def execVecNop (e : EngineId) (s : State) : Out := .next (s.vecDo e 0 (fun _ => []) fun x _ => x)

/-- ADD, SUB, MUL, MAX, MIN (R120). -/
def execVecAdd (e : EngineId) (s : State) : Out := .next (s.vecDo e 3 usesAB (Engine.pointwise fpAdd))
def execVecSub (e : EngineId) (s : State) : Out := .next (s.vecDo e 4 usesAB (Engine.pointwise fpSub))
def execVecMul (e : EngineId) (s : State) : Out := .next (s.vecDo e 5 usesAB (Engine.pointwise fpMul))
def execVecMax (e : EngineId) (s : State) : Out := .next (s.vecDo e 6 usesAB (Engine.pointwise fpMax))
def execVecMin (e : EngineId) (s : State) : Out := .next (s.vecDo e 7 usesAB (Engine.pointwise fpMin))

/-- RMAX and RSUM (R71). -/
def execVecRmax (e : EngineId) (s : State) : Out := .next (s.vecDo e 9 usesA (Engine.reduce rmax))
def execVecRsum (e : EngineId) (s : State) : Out := .next (s.vecDo e 0xA usesA (Engine.reduce rsum))

/-- CONST (R70). -/
def execVecConst (e : EngineId) (s : State) : Out :=
  .next (s.vecDo e 0xB usesD fun x w =>
    x.setAll (viVd w) fun _ => List.replicate 32 (phConst x.block (viImm w % 64)))

/-- SEL (R70). -/
def execVecSel (e : EngineId) (s : State) : Out :=
  .next (s.vecDo e 0xD usesAB fun x w =>
    x.setAll (viVd w) fun r =>
      ((x.vreg r (viVa w)).zip ((x.vreg r (viVb w)).zip (x.vreg r (viVd w)))).map fun t =>
        if fpIsZero t.2.1 then t.2.2 else t.1)

/-- LOOP: a body that reaches past the last instruction ends there (R70). -/
def execVecLoop (e : EngineId) (s : State) : Out :=
  .next (s.vecDo e 0xE (fun _ => []) fun x w =>
    { x with loops := { first := x.vpc + 1, last := min (x.vpc + 2 + viImm w % 64) (phVecLen x.block),
                        left := viVa w } :: x.loops })

/-- END (R70). -/
def execVecEnd (e : EngineId) (s : State) : Out :=
  .next (if s.vecReady e 0xF (fun _ => []) then
    s.modEngine e fun x => { x with vdone := true, loops := [] } else s)

/-- What CVT makes of one element: its FP32 value, and whether it was saturated, zeroed, or a NaN (R121). -/
def cvtPlain (code : Nat) (v : Word) : Word × Conv :=
  let c := convert code v
  (if code = 0 then BitVec.ofNat 32 c.bits else fpRound (elemVal code c.bits), c)

/-- What CVT makes of a lane's 32 elements. -/
def cvtLane (code : Nat) (vs : List Word) : List (Word × Conv) :=
  if isMx code then
    let b := mxConvert code vs
    b.elems.map fun c => (mxValue code c.bits b.scale, c)
  else vs.map (cvtPlain code)

/-- Count the values that conversions saturated, zeroed, or met as NaN (Table 4.8). -/
def Engine.countConv (x : Engine) (cs : List Conv) : Engine :=
  ((x.count nSat (cs.filter Conv.sat).length).count nZero (cs.filter Conv.zeroed).length).count nNan
    (cs.filter Conv.nan).length

/-- CVT (R121). -/
def execVecCvt (e : EngineId) (s : State) : Out :=
  .next (s.vecDo e 0xC usesA fun x w =>
    let out := (List.range 16).map fun r => cvtLane (viImm w % 16) (x.vreg r (viVa w))
    (x.setAll (viVd w) fun r => (out.getD r []).map (·.1)).countConv ((out.flatten).map (·.2)))

/-! ### IN (R70, R518) -/

/-- The 32 words of a port word. -/
def portWords (p : PortBits) : List Word := (List.range 32).map fun i => p.extractLsb' (32 * i) 32

/-- A port word of 32 words. -/
def wordsPort (ws : List Word) : PortBits := portOf ((ws.map fun w => toLe w.toNat 4).flatten)

/-- The word that a lane's source offers: its E port, or the stream of program C. -/
def Engine.laneOffer (x : Engine) (src lane : Nat) : Option PortBits :=
  if src = 0 then
    (match x.laneE.getD lane [] with
     | w :: _ => some (wordBits w)
     | [] => none)
  else (x.laneC.getD lane []).head?

/-- A lane takes the word its source offers, unless it has taken one for this instruction. -/
def Engine.laneTake (x : Engine) (src vd lane : Nat) : Engine :=
  if x.vgot.getLsbD lane then x
  else match x.laneOffer src lane with
    | none => x
    | some w =>
      let x := x.setVreg lane vd (portWords w)
      let x := { x with vgot := x.vgot ||| (1#16 <<< lane) }
      if src = 0 then { x with laneE := modifyNth (List.drop 1) x.laneE lane }
      else { x with laneC := modifyNth (List.drop 1) x.laneC lane }

/-- IN (R70): a lane whose input is not yet offered holds; the lanes go on together. -/
def execVecIn (e : EngineId) (s : State) : Out :=
  .next (if ¬ s.vecReady e 1 usesD then s
    else
      let s := s.modEngine e fun x =>
        (List.range 16).foldl (fun x r => x.laneTake (viImm x.vinstr % 4) (viVd x.vinstr) r) x
      if (s.engine e).vgot = 0xFFFF#16 then s.modEngine e fun x => x.vnext.moving else s.stallEngine e wFabricStarve)

/-! ### OUT (R70, R112) -/

/-- Whether a lane's destination can take a word. -/
def Engine.laneRoom (x : Engine) (dst lane : Nat) : Bool :=
  match dst with
  | 0 => phWest x.block != 1 || (x.brick lane 0).inW.isEmpty
  | 1 => x.agDone .c || (x.vecOut.getD lane []).isEmpty
  | _ => true

/-- A lane sends a register to the W input of its row, or to program C; a word that nothing takes is discarded. -/
def Engine.laneSend (x : Engine) (dst va lane : Nat) : Engine :=
  if x.vgot.getLsbD lane ∨ ¬ x.laneRoom dst lane then x
  else
    let w := wordsPort (x.vreg lane va)
    let x := { x with vgot := x.vgot ||| (1#16 <<< lane) }
    if dst = 0 then (if phWest x.block = 1 then x.offerWest lane (.act w) else x)
    else if x.agDone .c then x
    else { x with vecOut := modifyNth (fun l => l ++ [w]) x.vecOut lane }

/-- Drain parameters of the active image's last phase. -/
def Engine.lastBlock (x : Engine) : List Byte := x.plane.block (x.plane.phases - 1)

/-- Bytes of packed elements: 4-bit elements two to a byte, the first in the low half (Table 4.5). -/
def packElems (code : Nat) (es : List Nat) : List Byte :=
  if elemBits code = 4 then (chunksOf 2 es.length es).map fun p => BitVec.ofNat 8 (p.getD 0 0 + 16 * p.getD 1 0)
  else (es.map fun v => toLe v (elemBits code / 8)).flatten

/-- Byte offset of element `e` at a format. -/
def elemOff (code e : Nat) : Nat := e * elemBits code / 8

/-- Write local bytes for a writer of the running tile; Table 5.8 does not count a wrap of OUT 2. -/
def State.runWrite (s : State) (e w a : Nat) (bs : List Byte) : State :=
  let s := s.modEngine e fun x =>
    (x.modRun fun t => { t with ext := addExtent t.ext w (piecesOf a bs.length) }).countWrite x.debug a bs.length
  s.localWrite e a bs (cleanMarks a bs.length)

/-- OUT 2 of one lane: its 32 elements become the next 32 entries of the fused operand, and under a microscaling code
one scale (R112). -/
def State.fusedLane (s : State) (e va lane : Nat) : State :=
  let x := s.engine e
  let code := phFmt x.lastBlock % 16
  let e0 := x.fusedElem + 32 * lane
  let base := tdFused x.desc
  let vs := x.vreg lane va
  if isMx code then
    let b := mxConvert code vs
    (s.runWrite e wFused (base + elemOff code e0) (packElems code (b.elems.map (·.bits)))).runWrite e wFused
      (base + elemOff code (tdDrainN x.desc) + e0 / 32) (toLe b.scale 1)
  else s.runWrite e wFused (base + elemOff code e0) (packElems code (vs.map fun v => (convert code v).bits))

/-- OUT 3 of one lane: channel 16 r + k is marked where element k is not zero. -/
def Engine.maskLane (x : Engine) (va lane : Nat) : Engine :=
  let ms := ((x.vreg lane va).take 16).zipIdx.foldl
    (fun m v => if fpIsZero v.1 then m else m ||| (1#256 <<< (16 * lane + v.2))) x.marks
  { x with marks := ms }

/-- OUT (R70). -/
def execVecOut (e : EngineId) (s : State) : Out :=
  .next (if ¬ s.vecReady e 2 (fun w => [viVa w]) then s
    else
      let x := s.engine e
      let dst := viImm x.vinstr % 4
      let va := viVa x.vinstr
      if dst = 2 then
        ((List.range 16).foldl (fun s r => s.fusedLane e va r) s).modEngine e fun x =>
          ({ x with fusedElem := x.fusedElem + 512 }.vnext).moving
      else if dst = 3 then
        s.modEngine e fun x => (((List.range 16).foldl (fun x r => x.maskLane va r) x).vnext).moving
      else
        let s := s.modEngine e fun x => (List.range 16).foldl (fun x r => x.laneSend dst va r) x
        if (s.engine e).vgot = 0xFFFF#16 then s.modEngine e fun x => x.vnext.moving
        else s.stallEngine e wFabricStarve)

/-! ### SFU (R166, R167) -/

/-- SFU (R166): the arguments of the sixteen lanes enter the pipes, four lanes a stage, from the lane after the last
one served. -/
def execVecSfu (e : EngineId) (s : State) : Out :=
  .next (s.vecDo e 8 usesA fun x w =>
    let reqs := ((List.range 16).map fun i =>
      let lane := (x.sfuNext + i) % 16
      (x.vreg lane (viVa w)).zipIdx.map fun v =>
        ({ slot := viImm w, vd := viVd w, lane, elem := v.2, arg := v.1 } : SfuReq)).flatten
    { x with sfuQ := x.sfuQ ++ reqs })

/-- SFU_EVALUATION (R171): the oldest argument in the pipes gives its result. -/
def execSfuEvaluation (e : EngineId) (s : State) : Out :=
  let x := s.engine e
  if ¬ s.engineRuns e then .next s
  else match x.sfuQ with
    | [] => .next s
    | q :: rest =>
      let m7 := flagM7 x.plane.flags.toNat
      let r := sfuEval x.tables m7 q.slot q.arg
      let empty := (tableOf x.tables m7 q.slot).isNone
      .next (s.modEngine e fun x =>
        { x.setVreg q.lane q.vd ((x.vreg q.lane q.vd).set q.elem r) with
          sfuQ := rest, sfuEmpty := if empty then satAdd x.sfuEmpty 1 else x.sfuEmpty })

end Sys2Proof.Machine
end

