-- ==== Sys2Proof/Machine/Courses.lean ====
section
/-! DEFINITION. The work counter and the energy-credit gate: ranges, claims, commits, retirement, reload of a steward
(05 R139 to R146; 14 R409, R410). -/

namespace Sys2Proof.Machine

/-! ### Ranges (R139, R140, R144) -/

/-- Value of an offset of a range. -/
def Range.value (r : Range) (k : Nat) : Word := r.first + BitVec.ofNat 32 k

/-- Whether a value lies in a range; a range never wraps (R139). -/
def Range.holds (r : Range) (v : Word) : Bool :=
  decide (r.first.toNat ≤ v.toNat) && decide (v.toNat < r.first.toNat + r.count)

/-- Offset of a value in its range. -/
def Range.offset (r : Range) (v : Word) : Nat := v.toNat - r.first.toNat

/-- Whether an offset is neither issued nor committed. -/
def Range.free (r : Range) (k : Nat) : Bool := !(r.issued.any fun p => p.1 == k) && !r.committed.contains k

/-- The lowest free offset of which `ok` holds. -/
def Range.lowest (r : Range) (ok : Nat → Bool) : Option Nat :=
  (List.range r.count).find? fun k => r.free k && ok k

/-- The offset that the counter issues to engine `e` of the course (R140). -/
def Range.pick (r : Range) (e : Nat) : Option Nat :=
  match r.affinity with
  | 0 => r.lowest fun _ => true
  | 1 =>
    match r.lowest fun k => k % 8 == e with
    | some k => some k
    | none => r.lowest fun _ => true
  | _ => r.lowest fun k => k % 8 == e

/-- The oldest live range that serves engine `e`, with the offset; its position counts from `i`. -/
def pickRange (e : Nat) : Nat → List Range → Option (Nat × Range × Nat)
  | _, [] => none
  | i, r :: rs =>
    match r.pick e with
    | some k => some (i, r, k)
    | none => pickRange e (i + 1) rs

/-- Values of tiles that an engine holds: claimed, running, draining or awaiting commit. -/
def Engine.holding (x : Engine) : List Word :=
  (x.claim.map (·.value)).toList ++ (x.run.map (·.value)).toList ++ (x.drain.map (·.tile.value)).toList ++
  x.wbQ.map (·.tile.value)

/-- Whether a range has retired: every value committed, and no engine of the course that is not fenced holds one of its
values that it has not committed (R144). -/
def State.rangeRetired (s : State) (c : Nat) (r : Range) : Bool :=
  decide (r.count ≤ r.committed.length) &&
  (List.range 8).all fun i =>
    let e := 8 * c + i
    s.isFenced (srcEngine e) || (s.engine e).holding.all fun v => !r.holds v

/-- Drop the retired ranges of a course. -/
def State.retireRanges (s : State) (c : Nat) : State :=
  s.modCourse c fun x => { x with ranges := x.ranges.filter fun r => !s.rangeRetired c r }

/-! ### The gate (R409, R410) -/

/-- Whether a course's gate is frozen, by the limiter or by a thermal hold. -/
def State.gateFrozen (s : State) (c : Nat) : Bool := s.pwr.freeze || s.pwr.thermalHold.getD c false

/-- Cost of a class at a course. -/
def Course.costOf (c : Course) (cls : Nat) : Nat := (c.cost.getD cls 0).toNat

/-- Whether the gate serves a claim of a class. -/
def State.gateOpen (s : State) (c cls : Nat) : Bool :=
  !s.gateFrozen c && (s.course c).mask.getLsbD cls && decide ((s.course c).costOf cls ≤ (s.course c).bucket.toNat)

/-- Credits return to the bucket. -/
def State.refund (s : State) (c n : Nat) : State := s.modCourse c fun x => { x with bucket := satAdd x.bucket n }

/-- The gate debits a claim. -/
def State.debit (s : State) (c n : Nat) : State :=
  s.modCourse c fun x => { x with bucket := x.bucket - BitVec.ofNat 24 n }

/-! ### Claims -/

/-- Whether a course's control works: its die is up and it is not fenced (Table 15.3). -/
def State.courseUp (s : State) (c : Nat) : Bool := s.regionUp (c / 4) && !s.isFenced (srcSteward c)

/-- Whether an engine answers: its die is up, and neither it nor its course is fenced. -/
def State.engineUp (s : State) (e : Nat) : Bool := s.courseUp (e / 8) && !s.isFenced (srcEngine e)

/-- Whether a job is running on the engines: its plan runs and no pre-emption or end stops it. -/
def State.jobClaims (s : State) : Bool :=
  match s.job.cur with
  | some j => decide (j.phase = .running) && !s.jobStopping
  | none => false

/-- Issue an offset of the range at a position to an engine. -/
def State.issue (s : State) (c i e k : Nat) : State :=
  s.modCourse c fun x => { x with ranges := modifyNth (fun r => { r with issued := r.issued ++ [(k, e)] }) x.ranges i }

/-- The tile of an issued offset. -/
def claimTile (c : Nat) (r : Range) (k cost : Nat) : Tile :=
  { value := r.value k, epoch := r.epoch, eclass := r.eclass, cost,
    descAddr := courseBase c + (r.descBase + k * 2 ^ r.slotShift) % 0x4000000 }

/-- TILE_CLAIM (R140, R141): no claim while the table set is not loaded (Table 6.9), while the active image of a resumed
job is not reloaded (R78), or while a resumed tile still has to commit (R318); the lowest cause counts (R235). An EMPTY answer returns its credits in full, so nothing is debited for it. -/
def execTileClaim (e : EngineId) (s : State) : Out :=
  let x := s.engine e
  let c := e.val / 8
  let i := e.val % 8
  if ¬ s.engineUp e ∨ ¬ s.jobClaims ∨ x.claim.isSome ∨ x.drainFirst then .next s
  else if ¬ x.tsetLoaded ∨ x.reloadActive.isSome then .next (s.stallEngine e wImageWait)
  else if x.fault.isSome then .next (s.stallEngine e wFaultWait)
  else match pickRange i 0 (s.course c).ranges with
    | none =>
      let left := (s.course c).ranges.any fun r => (r.lowest fun _ => true).isSome
      .next (s.stallEngine e (if left then wWorkPinned else wWorkEmpty))
    | some (n, r, k) =>
      if ¬ s.gateOpen c r.eclass then .next (s.stallEngine e wCreditWait)
      else
        let cost := (s.course c).costOf r.eclass
        .next (((s.debit c cost).issue c n e k).modEngine e fun x =>
          { x.moving with claim := some (claimTile c r k cost) })

/-- A claimed, undispatched value returns to its counter unissued, and its credits to the gate (R145). -/
def State.returnClaim (s : State) (e : Nat) : State :=
  match (s.engine e).claim with
  | none => s
  | some t =>
    let c := e / 8
    let s := s.refund c t.cost
    (s.modCourse c fun x =>
      { x with
        wcReturned := satAdd x.wcReturned 1
        ranges := x.ranges.map fun r =>
          if r.holds t.value then { r with issued := r.issued.filter fun p => p.1 != r.offset t.value } else r }).modEngine
      e fun x => { x with claim := none }

/-! ### Commits (R142, R230) -/

/-- A commit at the work counter. -/
def Course.commit (c : Course) (v : Word) (epoch : BitVec 16) (poison : Bool) : Course :=
  match c.ranges.find? fun r => r.holds v with
  | none => { c with wcStray := satAdd c.wcStray 1 }
  | some r =>
    let k := r.offset v
    if r.committed.contains k then { c with wcDup := satAdd c.wcDup 1 }
    else
      let r' := { r with committed := insertNat k r.committed, poison := r.poison + b2n poison }
      { c with
        ranges := c.ranges.map fun q => if q.first = r.first then r' else q
        wcOldEpoch := if epoch ≠ r.epoch then satAdd c.wcOldEpoch 1 else c.wcOldEpoch
        wcPoison := if poison then satAdd c.wcPoison 1 else c.wcPoison }

/-- Whether a commit is one that the counter accepts. -/
def Course.accepts (c : Course) (v : Word) : Bool :=
  match c.ranges.find? fun r => r.holds v with
  | none => false
  | some r => !r.committed.contains (r.offset v)

/-! ### Reload of a steward (R143, Table 7.3) -/

/-- A reloaded steward appends its ranges again under a higher epoch: commit bits stay, and every uncommitted value
becomes unissued; a sort issued under the old epoch runs again. -/
def State.reloadSteward (s : State) (c : Nat) : State :=
  s.modCourse c fun x =>
    { x with
      epoch := x.epoch + 1
      ranges := x.ranges.map fun r => { r with epoch := x.epoch + 1, issued := [] }
      sort := x.sort.map fun q => { q with ranked := none } }

/-- STEWARD_RELOAD (R143). -/
def execStewardReload (c : CourseId) (s : State) : Out :=
  if ¬ s.regionUp (c / 4) then .next s else .next (s.reloadSteward c)

end Sys2Proof.Machine
end

