-- ==== Sys2Proof/Machine/Sequencer.lean ====
section
/-! DEFINITION. The engine sequencer: dispatch, staging fills, planes, table sets, phases and the swap (03 R70, R72 to
R78, R81; 04 R96, R103, R109; 05 R135 to R138; 06 R167, R180). -/

namespace Sys2Proof.Machine

/-! ### Faults of an engine -/

/-- An engine's fault about a tile. -/
def tileFault (f : HeldFault) (t : Tile) : HeldFault := { f with tile := t.value, epoch := t.epoch }

/-- The verified image or table set of a handle. -/
def State.storedOf (s : State) (handle kind : Nat) : Option Stored :=
  s.mgt.images.find? fun x => x.handle.toNat == handle && x.kind == kind

/-- Whether a handle names a debug image. -/
def State.imageDebug (s : State) (handle : Nat) : Bool :=
  match s.storedOf handle 1 with
  | some f => flagDebug (imgFlags f.bytes)
  | none => false

/-! ### Reading the descriptor (R134 to R136, R138) -/

/-- Read and check the descriptor and the staging entries of the claimed tile. -/
def State.readTile (s : State) (e : EngineId) (t : Tile) : State :=
  let r := s.readMem (engReader e t) t.descAddr 64
  match tileDescFault r.1 t.eclass with
  | some c => r.2.2.raiseFault (.engine e) (tileFault (newFault c) t)
  | none =>
    let n := tdStages r.1
    let r2 := r.2.2.readMem (engReader e t) (t.descAddr + 64) (32 * n)
    let entries := chunksOf 32 n r2.1
    match entries.filterMap stageFault with
    | c :: _ => r2.2.2.raiseFault (.engine e) (tileFault (newFault c) t)
    | [] =>
      r2.2.2.modEngine e fun x =>
        { x with claim := some { t with read := true, desc := r.1, stage := entries, fills := 0, off := 0 }
                 lastRestart := none }

/-- Whether every fill of a tile is done. -/
def Tile.filled (t : Tile) : Bool := (t.stage.drop t.fills).all seWrite

/-! ### Starting tiles and phases (R67, R70, R72, R96, R103) -/

/-- A brick at the start of a phase: at ENTRY_SLOT, its runs at that slot's reset value, nothing offered to it. DESIGN
CHOICE: port words of the phase before that still wait between bricks, in delay registers, at a lane's E input or in
program C's DIR 0 stream are dropped here and counted nowhere (R72 names streams A and B alone; log entry 39). -/
def startBrick (p : Plane) (entry : Nat) (bi : Brick × Nat) : Brick :=
  { bi.1 with slot := entry, fired := 0, done := false,
              runs := List.replicate 16 (resetRun (cOpc (p.slot bi.2 entry).1)),
              inN := [], inE := [], inS := [], inW := [] }

/-- The engine at the start of the running tile's phase. -/
def Engine.startPhase (x : Engine) : Engine :=
  let b := x.block
  let x := if phAccMode b = 1 then x.setActive [] else x
  { x with
    bricks := x.bricks.zipIdx.map (startBrick x.plane (phEntry b))
    laneE := List.replicate 16 [], laneC := List.replicate 16 [], sWord := List.replicate 16 []
    vecOut := List.replicate 16 [], beatA := 0, beatB := 0, beatC := 0
    vpc := 0, vdone := phVecOff b == 0, vgot := 0, loops := [] }

/-- The engine at dispatch of a tile: vector registers and channel marks clear. -/
def Engine.startTile (x : Engine) (t : Tile) : Engine :=
  let x := { x with
    run := some { t with phase := 0 }, claim := none, marks := 0, fusedElem := 0, sfuQ := []
    vregs := List.replicate 16 (List.replicate 32 (List.replicate 32 0)) }
  x.startPhase.moving

/-- Whether a plane holds an image that may run under a handle. -/
def Plane.serves (p : Plane) (h : Nat) : Bool := p.valid && !p.poisoned && p.handle.toNat == h

/-- Ask the course steward for an image (R74). -/
def State.requestImage (s : State) (e h : Nat) : State :=
  s.modCourse (e / 8) fun c =>
    if c.imageReq.any fun q => q.1 == e then c
    else { c with imageReq := c.imageReq ++ [(e, BitVec.ofNat 32 h)] }

/-- Resolve the handle of a tile that is ready, and dispatch it (R74). -/
def State.resolveHandle (s : State) (e : EngineId) (t : Tile) : State :=
  let x := s.engine e
  let c := e.val / 8
  let h := tdHandle t.desc
  if x.plane.serves h then s.modEngine e fun x => x.startTile t
  else if x.loading.isSome then s.stallEngine e wImageWait
  else if x.idlePlane.serves h then s
  else if (s.storedOf h 1).isSome then (s.requestImage e h).stallEngine e wImageWait
  else
    let s := s.stallEngine e wFaultWait
    if (s.course c).stewardFault.isSome then s
    else s.raiseFault (.steward (Fin.ofNat 8 c)) (tileFault (newFault fImageMissing) t)

/-- While another tile runs, the sequencer already asks for the image of the next one, so that its load can hide behind the
running tile (R15, R74). -/
def State.askImage (s : State) (e : EngineId) (t : Tile) : State :=
  let x := s.engine e
  let h := tdHandle t.desc
  if x.plane.serves h ∨ x.idlePlane.serves h ∨ x.loading.isSome ∨ (s.storedOf h 1).isNone then s else s.requestImage e h

/-- The tier that an engine waits for in its next fill: HBM or a course buffer (R138). -/
def State.fillCause (s : State) (e : EngineId) (t : Tile) : Nat :=
  match (t.stage.drop t.fills).find? fun b => !seWrite b with
  | some b => (match (s.translate (e / 32) (engReader e t) (seJaddr b + t.off) false true).1 with
    | .ok _ a => if (s.region a).isHbm then wT2Late else wT1Late
    | _ => wT2Late)
  | none => wT2Late

/-- DISPATCH (R74). A tile waits for its fills, counted under the tier they come from, and for the running tile's swap;
where the idle plane holds its image, PLANE_SWITCH comes first. -/
def execDispatch (e : EngineId) (s : State) : Out :=
  match (s.engine e).claim with
  | none => .next s
  | some t =>
    if ¬ s.engineUp e ∨ s.jobStopping then .next s
    else if (s.engine e).fault.isSome then .next (s.stallEngine e wFaultWait)
    else
      let s := if t.read then s else s.readTile e t
      match (s.engine e).claim with
      | none => .next s
      | some t =>
        if ¬ t.read then .next s
        else if (s.engine e).run.isSome then .next (s.askImage e t)
        else if ¬ t.filled then .next ((s.askImage e t).stallEngine e (s.fillCause e t))
        else .next (s.resolveHandle e t)

/-! ### Staging (R137, R138, R306) -/

/-- Restart point of a staging entry. -/
def stageRestart (t : Tile) (row level : Nat) : Restart :=
  { dseq := t.value, row := BitVec.ofNat 32 row, off := BitVec.ofNat 32 t.off, rkind := 4,
    walk := BitVec.ofNat 8 level }

/-- A stack in thermal hold makes an engine wait for HBM data (R412). -/
def State.slowFill (s : State) (e a : Nat) : State :=
  if s.stackSlow a then s.modEngine e fun x => { x with stalls := bumpStall x.stalls wT2Late } else s

/-- One piece of a staging entry, up to the end of its 64 KiB page: the device address, or the state in which the engine
holds (R137; R233). -/
def State.stageAddr (s : State) (e : EngineId) (t : Tile) (row ja : Nat) (isWrite : Bool) : Got Nat :=
  match s.translate (e / 32) (engReader e t) ja isWrite true with
  | (.ok _ a, s) => if s.stackHeld a then .stop (s.stallEngine e wT2Fail) else .ok a (s.slowFill e a)
  | (.held, s) => .stop (s.stallEngine e wT2Fail)
  | (.bad c l en ea, s) =>
    .stop (s.raiseFault (.engine e)
      (tileFault { xlateFault ja c l en ea isWrite with restart := stageRestart t row l } t))

/-- Bytes of the next piece of a staging entry. -/
def stagePiece (b : List Byte) (off : Nat) : Nat := min (seLen b - off) (0x10000 - (seJaddr b + off) % 0x10000)

/-- Progress of the claimed tile's fills after a piece. -/
def Tile.filledBy (t : Tile) (b : List Byte) (n : Nat) (bad : Bool) : Tile :=
  let t := { t with poison := t.poison || bad }
  if t.off + n < seLen b then { t with off := t.off + n } else { t with off := 0, fills := t.fills + 1 }

/-- Fill until the entry is done or the engine holds; `fuel` bounds the pieces. -/
def fillLoop (e : EngineId) (b : List Byte) : Nat → State → State
  | 0, s => s
  | fuel + 1, s =>
    match (s.engine e).claim with
    | none => s
    | some t =>
      let ja := seJaddr b + t.off
      let n := stagePiece b t.off
      match s.stageAddr e t t.fills ja false with
      | .stop s => s
      | .ok a s =>
        let marks := s.marksOf a n
        let r := s.readMem (engReader e t) a n
        let la := seLaddr b + t.off
        let t' := t.filledBy b n r.2.1
        let debug := s.imageDebug (tdHandle t.desc)
        let s := r.2.2.localWrite e la r.1 marks
        let s := s.modEngine e fun x =>
          let x := if t.off = 0 then (x.countWrite debug (seLaddr b) (seLen b)).countWrap (seLaddr b) (seLen b) else x
          { x with claim := some { t' with ext := addExtent t'.ext wFill (piecesOf la n) }, lastRestart := none }
        if t.off + n < seLen b then fillLoop e b fuel s else s.modEngine e Engine.moving

/-- STAGING_FILL (R138): the next fill of the claimed tile, in entry order. -/
def execStagingFill (e : EngineId) (s : State) : Out :=
  match (s.engine e).claim with
  | none => .next s
  | some t =>
    if ¬ s.engineUp e ∨ s.jobStopping ∨ ¬ t.read then .next s
    else if (s.engine e).fault.isSome then .next (s.stallEngine e wFaultWait)
    else
      let skip := ((t.stage.drop t.fills).takeWhile seWrite).length
      let s := s.modEngine e fun x => { x with claim := some { t with fills := t.fills + skip } }
      match t.stage[t.fills + skip]? with
      | none => .next s
      | some b => .next (fillLoop e b (seLen b / 64 + 1) s)

/-! ### Planes (R75 to R78, R81) -/

/-- Device address at which a steward stages an image or table set (log entry 60). -/
def stageBase (c h : Nat) : Nat := courseBase c + 0x3800000 + Config.stageAt c h % 0x7C0000 / 64 * 64

/-- Read a staged file: whether a word of it is bad, with every error counted and reported. -/
def State.readStaged (s : State) (e h len : Nat) : Bool × State :=
  let r := s.readMem { kind := 0, id := e, owner := .job } (stageBase (e / 8) h) len
  (r.2.1, r.2.2)

/-- A steward stages a file anew from its verified copy: the words are written with correct check bits. -/
def State.restage (s : State) (c h len : Nat) : State :=
  let a := stageBase c h
  { s with mem := { s.mem with synd := s.mem.synd.filter fun x =>
      !(decide (a / 4 ≤ x.1) && decide (x.1 < (a + len + 3) / 4)) } }

/-- The end of a plane load: valid, or poisoned with PLANE_POISON raised (Table 3.6). -/
def State.endLoad (s : State) (e : EngineId) (f : Stored) : State :=
  let r := s.readStaged e f.handle.toNat (imgLen f.bytes)
  let p := imgPlane f.bytes f.handle
  let s := r.2.modEngine e fun x =>
    { x.setIdle { p with valid := !r.1, poisoned := r.1 } with loading := none }
  if r.1 then s.raiseFault (.engine e) (newFault fPlanePoison) else s

/-- The steward drops an engine's image request. -/
def State.dropRequest (s : State) (e : Nat) : State :=
  s.modCourse (e / 8) fun c => { c with imageReq := c.imageReq.filter fun q => q.1 != e }

/-- The image that the steward loads next into an engine: after a resume the saved active image, then the saved idle one
(R78), else the one that the engine has asked for. -/
def State.nextImage (s : State) (e : Nat) : Option Word :=
  let x := s.engine e
  match x.reloadActive with
  | some h => if x.idlePlane.serves h.toNat then none else some h
  | none => match x.reloadIdle with
    | some h => some h
    | none => ((s.course (e / 8)).imageReq.find? fun q => q.1 == e).map (·.2)

/-- An image is in the idle plane: what was to be reloaded there is done. -/
def Engine.reloaded (x : Engine) : Engine :=
  match x.reloadActive, x.reloadIdle with
  | none, some h => if x.idlePlane.serves h.toNat then { x with reloadIdle := none } else x
  | _, _ => x

/-- PLANE_LOAD (R75): the load command clears the idle plane; the load then runs and ends. A debug image is refused
unless debugging is enabled (R81), and a handle that no longer names an image raises IMAGE_MISSING (R74). -/
def execPlaneLoad (e : EngineId) (s : State) : Out :=
  let x := s.engine e
  let c := e.val / 8
  if ¬ s.engineUp e then .next s
  else match x.loading with
    | some h =>
      (match s.storedOf h.toNat 1 with
       | some f => .next ((s.endLoad e f).modEngine e Engine.reloaded)
       | none => .next (s.modEngine e fun x => { x with loading := none }))
    | none =>
      match s.nextImage e with
      | none => .next s
      | some h =>
        if x.reloadActive.isSome ∧ x.fault.isSome then .next (s.stallEngine e wFaultWait)
        else
        let s := if x.reloadActive.isSome ∨ x.reloadIdle.isSome then s else s.dropRequest e
        match s.storedOf h.toNat 1 with
        | none =>
          if (s.course c).stewardFault.isSome then .next s
          else .next (s.raiseFault (.steward (Fin.ofNat 8 c)) (newFault fImageMissing))
        | some f =>
          if flagDebug (imgFlags f.bytes) ∧ ¬ s.regs.debugEn then
            .next (s.raiseFault (.engine e) (newFault fImageDebug))
          else .next ((s.restage c h.toNat (imgLen f.bytes)).modEngine e fun x =>
            { x.setIdle {} with loading := some h })

/-- Whether the engine stands at a tile boundary with an image in its idle plane that its next tile names (R74), or that was
active when the job was saved (R78). -/
def Engine.wantsSwitch (x : Engine) : Bool :=
  x.run.isNone && x.loading.isNone &&
  match x.reloadActive, x.claim with
  | some h, _ => x.idlePlane.serves h.toNat
  | none, some t => t.read && x.idlePlane.serves (tdHandle t.desc) && !x.plane.serves (tdHandle t.desc)
  | none, none => false

/-- PLANE_SWITCH (R76). -/
def execPlaneSwitch (e : EngineId) (s : State) : Out :=
  if ¬ s.engineUp e ∨ ¬ (s.engine e).wantsSwitch then .next s
  else .next (s.modEngine e fun x => { x with active := 1 - x.active, reloadActive := none })

/-! ### Table sets (R167, R180) -/

/-- TABLE_SET_LOAD (R167): the running job's set goes into the engine's pipes; a bad word raises SFU_TAB_POISON. -/
def execTableSetLoad (e : EngineId) (s : State) : Out :=
  let x := s.engine e
  let h := jTset s.jobDesc
  if ¬ s.engineUp e ∨ s.jobStopping ∨ x.tsetLoaded ∨ x.fault.isSome then .next s
  else match s.storedOf h 2 with
    | none => .next s
    | some f =>
      let r := s.readStaged e h (fieldAt f.bytes 8 4)
      if r.1 then
        .next ((r.2.modEngine e fun x => { x with tset := 0, tsetPoison := true, tables := [] }).raiseFault (.engine e)
          (newFault fSfuTabPoison))
      else .next (r.2.modEngine e fun x =>
        { x.moving with tset := BitVec.ofNat 32 h, tsetLoaded := true, tsetPoison := false, tables := f.bytes })

/-! ### Phases and the swap (R72, R109) -/

/-- Elements of a beat. -/
def beatElems (p : List Byte) : Nat := agBytes p * 2 / 2 ^ agElem p

/-- Elements of streams A and B that wait at the array's edge and that no brick took. -/
def Engine.residue (x : Engine) : Nat :=
  let west := ((List.range 16).map fun r => (x.brick r 0).inW.length).sum
  let north := ((List.range 16).map fun c => (x.brick 0 c).inN.length).sum
  let a := match phProg x.block .a with
    | some p => if phWest x.block = 1 then 0 else west * beatElems p
    | none => 0
  let b := match phProg x.block .b with
    | some p => north * beatElems p
    | none => 0
  a + b

/-- Words that left the array or the lanes for program C before the phase ended still reach the scratchpad; `fuel`
bounds them. -/
def settleLoop (e : EngineId) : Nat → State → State
  | 0, s => s
  | fuel + 1, s =>
    let x := s.engine e
    match x.run, phProg x.block .c with
    | some t, some p =>
      let n := x.beatC
      if agDir p = 0 ∨ x.agDone .c then s
      else match (x.writeQ (agDir p)).getD (n % 16) [] with
        | [] => s
        | w :: _ =>
          settleLoop e fuel ((s.writeBeat e t p n w).modEngine e fun x => (x.popWrite (agDir p) (n % 16)).bumpBeat .c)
    | _, _ => s

/-- Whether the running phase has ended: every brick done, the vector program at its end, streams A and B delivered. -/
def Engine.phaseOver (x : Engine) : Bool :=
  decide (x.phase < x.plane.phases) && x.bricks.all (·.done) && x.vdone && x.agDone .a && x.agDone .b

/-- PHASE_END (R72). -/
def execPhaseEnd (e : EngineId) (s : State) : Out :=
  let x := s.engine e
  if ¬ s.engineRuns e ∨ ¬ x.phaseOver then .next s
  else
    let s := settleLoop e ((x.sWord.map List.length).sum + (x.vecOut.map List.length).sum + 1) s
    .next (s.modEngine e fun x =>
      let x := x.count nResidue x.residue
      let x := x.modRun fun t => { t with phase := t.phase + 1 }
      if x.phase < x.plane.phases then x.startPhase.moving else x)

/-- The drain parameters that the swap latches (Table 4.4). -/
def Engine.latch (x : Engine) (t : Tile) (afterSignal : Bool) : Drain :=
  let b := x.lastBlock
  { tile := t, fmt := phFmt b, fuse := phFuse b, pol := phPol b, floating := x.plane.floating, debug := x.debug,
    masks := x.marks, afterSignal }

/-- SET_SWAP (R109): the sets change places when the earlier drain has left the path. -/
def execSetSwap (e : EngineId) (s : State) : Out :=
  let x := s.engine e
  if ¬ s.engineRuns e ∨ x.phase < x.plane.phases then .next s
  else match x.run with
    | none => .next s
    | some t =>
      if x.drain.isSome then .next (s.stallEngine e wDrainWait)
      else .next (s.modEngine e fun x =>
        { x.moving with accActive := 1 - x.accActive, drain := some (x.latch t s.jobStopping), run := none })

end Sys2Proof.Machine
end

