-- ==== Sys2Proof/Machine/Drain.lean ====
section
/-! DEFINITION. The drain, write-back and commit of a tile (04 R109 to R118; 05 R127, R138, R142, R149). -/

namespace Sys2Proof.Machine

/-! ### Step 1 to 3 (R112) -/

/-- Channel of an entry (R111). -/
def chanOf (e : Nat) : Nat := 16 * (e / 512 % 16) + e % 16

/-- What reaches step 4 for one entry: an FP32 value, or an INT32 written as it is with its saturation. -/
inductive DVal where
  | fp (x : Word) (sticky : Bool)
  | int (bits : Nat) (sat : Bool)
  deriving DecidableEq, Repr

/-- Step 1: an entry as the working value; an integer entry drained as INT32 is clamped and done. -/
def drainEntry (floating : Bool) (code : Nat) (a : Option Acc) : DVal :=
  match a with
  | none => .fp 0 false
  | some a =>
    if floating then .fp (a.val.setWidth 32) a.sticky
    else if code = 2 then
      let c := clampInt (-(2 ^ 31)) (2 ^ 31 - 1) a.val.toInt
      .int (wrapTo 32 c) (c != a.val.toInt || a.sticky)
    else .fp (fpOfInt a.val.toInt) a.sticky

/-- Steps 2 and 3: channel scale and fusion. -/
def drainScaled (scale : Option Word) (fuse : Nat) (y : Word) (v : DVal) : DVal :=
  match v with
  | .int b st => .int b st
  | .fp x st =>
    let x := match scale with
      | some k => fpMul x k
      | none => x
    .fp (if fuse = 1 then fpAdd x y else if fuse = 2 then fpMul x y else x) st

/-! ### Step 4 (R113 to R117) -/

/-- A drained block: 128 elements with their flags, scales, outliers by position, candidates beyond four, NaNs. -/
structure DBlock where
  elems : List Nat
  sat : List Bool
  zero : List Bool
  scales : List Nat
  outl : List (Nat × Int)
  ovf : Nat
  nans : Nat
  deriving DecidableEq, Repr

/-- The FP32 word of a value at step 4. -/
def DVal.word : DVal → Word
  | .fp x _ => x
  | .int _ _ => 0

/-- Plain conversion (R113). -/
def blockPlain (code : Nat) (vs : List DVal) : DBlock :=
  let cs := vs.map fun v =>
    match v with
    | .int b st => (⟨b, st, false, false⟩ : Conv)
    | .fp x st =>
      let c := convert code x
      { c with sat := c.sat || st }
  ⟨cs.map (·.bits), cs.map (·.sat), cs.map (·.zeroed), [], [], 0, (cs.filter (·.nan)).length⟩

/-- Microscaling conversion in blocks of 32 (R114): under scale 0xFF only a NaN whose entry was STICKY counts as saturated. -/
def blockMx (code : Nat) (vs : List DVal) : DBlock :=
  let gs := (chunksOf 32 4 vs).map fun g => (g, mxConvert code (g.map DVal.word))
  let st := fun (g : List DVal × MxBlock) => (g.1.zip g.2.elems).map fun p =>
    match p.1 with
    | .fp x st => p.2.sat || (st && (g.2.scale != 0xFF || fpIsNaN x))
    | .int _ st => st
  ⟨(gs.map fun g => g.2.elems.map (·.bits)).flatten, (gs.map st).flatten,
   (gs.map fun g => g.2.elems.map (·.zeroed)).flatten, gs.map (·.2.scale), [], 0,
   (vs.filter fun v => fpIsNaN v.word).length⟩

/-- The integer nearest to a value, and whether it is an outlier candidate for a range. -/
def candidate (lo hi : Int) (x : Word) : Option Int :=
  match fpVal x with
  | .nan => none
  | .inf n => some (if n then -(2 ^ 40) else 2 ^ 40)
  | v => if v.toInt < lo ∨ hi < v.toInt then some v.toInt else none

/-- One element under outlier extraction (R117): the first four candidates of the block leave a zero and go into the
record, clamped to INT16; later ones are clamped into the range. -/
def outxStep (code : Nat) (b : DBlock) (pv : DVal × Nat) : DBlock :=
  let w := elemBits code
  let lo : Int := -(2 ^ (w - 1))
  let hi : Int := 2 ^ (w - 1) - 1
  let st := match pv.1 with
    | .fp _ st => st
    | .int _ st => st
  let x := pv.1.word
  match candidate lo hi x with
  | none =>
    let c := convert code x
    { b with elems := b.elems ++ [c.bits], sat := b.sat ++ [st], zero := b.zero ++ [c.zeroed],
             nans := b.nans + b2n c.nan }
  | some q =>
    if b.outl.length < 4 then
      let k := clampInt (-32768) 32767 q
      { b with elems := b.elems ++ [0], sat := b.sat ++ [st || k != q], zero := b.zero ++ [false],
               outl := b.outl ++ [(pv.2, k)] }
    else
      { b with elems := b.elems ++ [wrapTo w (clampInt lo hi q)], sat := b.sat ++ [true], zero := b.zero ++ [false],
               ovf := b.ovf + 1 }

/-- Conversion with outlier extraction. -/
def blockOutx (code : Nat) (vs : List DVal) : DBlock := vs.zipIdx.foldl (outxStep code) ⟨[], [], [], [], [], 0, 0⟩

/-- Step 4 under DRAIN_FMT. -/
def blockOf (fmt : Nat) (vs : List DVal) : DBlock :=
  let code := fmt % 16
  if isMx code then blockMx code vs else if bitOf fmt 4 then blockOutx code vs else blockPlain code vs

/-- Bits of an element below its sign; integer formats have no sign apart. -/
def magBits (code : Nat) : Nat :=
  match code with
  | 2 | 3 | 4 | 5 => elemBits code
  | _ => elemBits code - 1

/-- Whether all written values of a block are zero (R116). -/
def DBlock.allz (b : DBlock) (code : Nat) : Bool :=
  b.elems.all (fun v => v % 2 ^ magBits code == 0) && !b.scales.contains 0xFF

/-- A block all of whose values are zero is written as +0 with scales 0x00 (R116). -/
def DBlock.settled (b : DBlock) (code : Nat) : DBlock :=
  if b.allz code then { b with elems := b.elems.map fun _ => 0, scales := b.scales.map fun _ => 0 } else b

/-- Whether all values of a block are saturated, and not all zero. -/
def DBlock.alls (b : DBlock) (code : Nat) : Bool := !b.allz code && b.sat.all id

/-- The outlier record of a block (R106). -/
def DBlock.outRecord (b : DBlock) : List Byte :=
  padTo ((b.outl.map fun o => toLe (2 ^ 31 + o.1 * 2 ^ 24 + wrapTo 16 o.2) 4).flatten) 16

/-- The side record of block `n` (R115). -/
def DBlock.sideRecord (b : DBlock) (code n : Nat) (masked poison : Bool) : List Byte :=
  toLe ((b.sat.filter id).length + (b.zero.filter id).length * 2 ^ 8 + b.ovf * 2 ^ 16 + b.outl.length * 2 ^ 24 +
    b2n (b.allz code) * 2 ^ 27 + b2n (b.alls code) * 2 ^ 28 + b2n (b.nans != 0) * 2 ^ 29 + b2n poison * 2 ^ 30 +
    b2n masked * 2 ^ 31 + n * 2 ^ 32) 8

/-- The counters that a block advances (Table 4.8). -/
def Engine.countBlock (x : Engine) (b : DBlock) (code : Nat) : Engine :=
  (((((x.count nSat (b.sat.filter id).length).count nZero (b.zero.filter id).length).count nNan b.nans).count nAllz
    (b2n (b.allz code))).count nAlls (b2n (b.alls code))).count nClip b.ovf

/-! ### The blocks (R111, R127) -/

/-- Read local bytes for the drain: bytes, and whether a word was bad, which poisons the tile. -/
def State.drainRead (s : State) (e : Nat) (d : Drain) (a len : Nat) : List Byte × Bool × State :=
  let r := s.localRead e d.tile d.debug a len
  (r.1.bytes, r.1.bad, r.2.modEngine e fun x => x.count nAddrWrap (b2n r.1.wrap))

/-- The tile in the drain path. -/
def Engine.modDrain (x : Engine) (f : Tile → Tile) : Engine :=
  { x with drain := x.drain.map fun d => { d with tile := f d.tile } }

/-- Write local bytes for a writer of the drain. -/
def State.drainWrite (s : State) (e : Nat) (d : Drain) (w a : Nat) (bs : List Byte) : State :=
  let s := s.modEngine e fun x =>
    ((x.modDrain fun t => { t with ext := addExtent t.ext w (piecesOf a bs.length) }).countWrite d.debug a bs.length).countWrap
      a bs.length
  s.localWrite e a bs (cleanMarks a bs.length)

/-- The 256 channel scales by groups of 16, with a mark for a bad word in the group, read before the first write
(R127); none where CSCALE is zero. -/
def State.readScales (s : State) (e : Nat) (d : Drain) : List (List Word × Bool) × State :=
  if tdCscale d.tile.desc = 0 then ([], s)
  else (List.range 16).foldl
    (fun (acc : List (List Word × Bool) × State) g =>
      let r := acc.2.drainRead e d (tdCscale d.tile.desc + 64 * g) 64
      (acc.1 ++ [((List.range 16).map fun i => BitVec.ofNat 32 (fieldAt r.1 (4 * i) 4), r.2.1)], r.2.2))
    ([], s)

/-- The 128 fused-operand values of a block as FP32 (R112), and whether a word was bad. -/
def State.readFused (s : State) (e : Nat) (d : Drain) (n b : Nat) : List Word × Bool × State :=
  let code := d.fmt % 16
  let base := tdFused d.tile.desc
  let r := s.drainRead e d (base + elemOff code (128 * b)) (elemOff code 128)
  let w := elemBits code
  let raw := (List.range 128).map fun i => bitsOf (fieldAt r.1 (i * w / 8) ((w + 7) / 8)) (i * w % 8) w
  if isMx code then
    let q := r.2.2.drainRead e d (base + elemOff code n + 4 * b) 4
    (raw.zipIdx.map fun v => mxValue code v.1 (fieldAt q.1 (v.2 / 32) 1), r.2.1 || q.2.1, q.2.2)
  else (raw.map fun v => fpRound (elemVal code v), r.2.1, r.2.2)

/-- One block of the drain; the Boolean carries whether a candidate met the fault policy. `hit` are the entries that were
read with an uncorrectable error. -/
def State.drainBlock (e : Nat) (d : Drain) (n : Nat) (scales : List (List Word × Bool)) (set : List (Nat × Acc))
    (hit : List Nat) (acc : Bool × State) (b : Nat) : Bool × State :=
  let code := d.fmt % 16
  let t := d.tile.desc
  let s := acc.2
  let (ys, fbad, s) := if d.fuse = 0 then (List.replicate 128 0, false, s) else s.readFused e d n b
  let g := b / 4 % 16
  let sc := scales[g]?
  let vals := (List.range 128).map fun i =>
    let k := 128 * b + i
    drainScaled (sc.map fun x => x.1.getD (k % 16) 0) d.fuse (ys.getD i 0)
      (drainEntry d.floating code (accGet set k))
  let blk := (blockOf d.fmt vals).settled code
  let poison := fbad || ((List.range 128).any fun i =>
      match accGet set (128 * b + i) with
      | some a => a.poison
      | none => false) || hit.any (fun k => k / 128 == b) ||
    (match sc with
     | some x => x.2
     | none => false)
  let masked := (List.range 16).all fun i => d.masks.getLsbD (16 * g + i)
  let s := s.modEngine e fun x =>
    (x.countBlock blk code).modDrain fun t => { t with poison := t.poison || poison }
  let s := s.drainWrite e d wDrainEl (tdDest t + elemOff code (128 * b)) (packElems code blk.elems)
  let s := if isMx code then
      s.drainWrite e d wDrainEl (tdDest t + elemOff code n + 4 * b) ((blk.scales.map fun c => toLe c 1).flatten)
    else s
  let s := if bitOf d.fmt 4 then s.drainWrite e d wDrainRec (tdOutrec t + 16 * b) blk.outRecord else s
  let s := if tdSiderec t = 0 then s
    else s.drainWrite e d wDrainRec (tdSiderec t + 8 * b) (blk.sideRecord code b masked poison)
  (acc.1 || (blk.ovf != 0 && d.pol == 1), s)

/-- An outlier overflow under the fault policy (R117): the step is marked failed and the FAULT record posted; the
engine holds it, behind one that it holds already (R118). -/
def State.outlierFault (s : State) (e : EngineId) (t : Tile) : State :=
  let s := s.modJob fun j => { j with outlier := true }
  let held := (s.engine e).fault
  let s := s.raiseFault (.engine e) (tileFault (newFault fOutlierOvf) t)
  if held.isSome then s.modEngine e fun x => { x with fault := held, fault2 := x.fault } else s

/-- Entries that the drain reads with an uncorrectable error mark the tile (R118). -/
def drainHits (upsets : List (Fin 131072 × Bool)) : List Nat := (upsets.filter (·.2)).map (·.1.val)

/-- The errors that the drain meets in the entries it reads are counted and reported (R224, R228). -/
def State.noteEntries (s : State) (e : Nat) (d : Drain) (upsets : List (Fin 131072 × Bool)) : State :=
  let base := 131072 * (1 - (s.engine e).accActive)
  upsets.foldl (fun s u => s.noteArray (engReader e d.tile) (base + u.1.val) u.2) s

/-- DRAIN (R111): the whole shadow set leaves the path; every entry is empty afterwards. A tile whose swap followed a
pre-emption signal drains after the resume (R118). -/
def execDrain (op : DrainOp) (s : State) : Out :=
  let e := op.e
  let x := s.engine e
  if ¬ s.engineUp e then .next s
  else match x.drain with
    | none => .next s
    | some d =>
      if d.afterSignal ∧ s.jobStopping then .next s
      else
        let n := tdDrainN d.tile.desc
        let set := x.shadowSet
        let hit := drainHits op.upsets
        let s := s.noteEntries e d op.upsets
        let (ovf, s) :=
          if n = 0 then (false, s)
          else
            let r := s.readScales e d
            let bad := r.1.any (·.2)
            let s := r.2.modEngine e fun x => x.modDrain fun t => { t with poison := t.poison || bad }
            (List.range (n / 128)).foldl (State.drainBlock e d n r.1 set hit) (false, s)
        let tile := match (s.engine e).drain with
          | some d => d.tile
          | none => d.tile
        let s := if ovf then s.outlierFault e tile else s
        .next (s.modEngine e fun x =>
          { x.setShadow [] with
            wbQ := x.wbQ ++ [{ d with tile := { tile with poison := tile.poison || !hit.isEmpty } }], drain := none })

/-! ### Write-back and commit (R138, R142, R149) -/

/-- Change the oldest tile that awaits its commit. -/
def Engine.modWb (x : Engine) (f : Tile → Tile) : Engine :=
  match x.wbQ with
  | [] => x
  | d :: rest => { x with wbQ := { d with tile := f d.tile } :: rest }

/-- Progress of a write-back. -/
def Tile.wroteBack (t : Tile) (b : List Byte) (n : Nat) (bad : Bool) : Tile :=
  let t := { t with poison := t.poison || bad }
  if t.off + n < seLen b then { t with off := t.off + n } else { t with off := 0, wbs := t.wbs + 1 }

/-- Poison marks of local bytes: those of the scratchpad words; bytes beyond it have none. -/
def State.localMarks (s : State) (e a len : Nat) : List Bool :=
  ((piecesOf a len).map fun p =>
    if p.1 < spEnd then s.marksOf (scratchBase e + p.1) p.2 else cleanMarks p.1 p.2).flatten

/-- Write back until the entry is done or the engine holds. -/
def writeBackLoop (e : EngineId) (b : List Byte) : Nat → State → State
  | 0, s => s
  | fuel + 1, s =>
    match (s.engine e).wbQ with
    | [] => s
    | d :: _ =>
      let t := d.tile
      let n := stagePiece b t.off
      match s.stageAddr e t t.wbs (seJaddr b + t.off) true with
      | .stop s => s
      | .ok a s =>
        let la := seLaddr b + t.off
        let marks := s.localMarks e la n
        let r := s.localRead e t d.debug la n
        let s := (r.2.writeMarked a r.1.bytes marks).modEngine e fun x =>
          let x := if t.off = 0 then x.countWrap (seLaddr b) (seLen b) else x
          (x.modWb fun t => t.wroteBack b n r.1.bad).moving
        let s := s.modEngine e fun x => { x with lastRestart := none }
        if t.off + n < seLen b then writeBackLoop e b fuel s else s

/-- WRITE_BACK (R138): the next write-back of the oldest drained tile, in entry order. -/
def execWriteBack (e : EngineId) (s : State) : Out :=
  let x := s.engine e
  match x.wbQ with
  | [] => .next s
  | d :: _ =>
    if ¬ s.engineUp e ∨ (x.drainFirst ∧ s.jobStopping) then .next s
    else if x.fault.isSome then .next (s.stallEngine e wFaultWait)
    else
      let t := d.tile
      let skip := ((t.stage.drop t.wbs).takeWhile fun b => !seWrite b).length
      let s := s.modEngine e fun x => x.modWb fun t => { t with wbs := t.wbs + skip }
      match t.stage[t.wbs + skip]? with
      | none => .next s
      | some b => .next (writeBackLoop e b (seLen b / 64 + 1) s)

/-- Whether every write-back of a tile has landed. -/
def Tile.landed (t : Tile) : Bool := (t.stage.drop t.wbs).all fun b => !seWrite b

/-- The extent registers show a committed tile (R149), one whose commit the counter discards too: the spec does not say
whether that is a committed tile (DESIGN CHOICE, log entry 89). -/
def Engine.showExtents (x : Engine) (t : Tile) : Engine :=
  { x with wextLo := t.ext.map fun p => BitVec.ofNat 24 p.1, wextHi := t.ext.map fun p => BitVec.ofNat 24 p.2,
           wextTile := t.value }

/-- COMMIT (R142): the tile's commit reaches the counter; a range whose values are all committed and not held retires
(R144), and the progress watchdog starts again (R58). -/
def execCommit (e : EngineId) (s : State) : Out :=
  match (s.engine e).wbQ with
  | [] => .next s
  | d :: rest =>
    let t := d.tile
    let c := e.val / 8
    if ¬ s.engineUp e ∨ ¬ t.landed then .next s
    else
      let accepted := (s.course c).accepts t.value
      let s := s.modCourse c fun x => x.commit t.value t.epoch t.poison
      let s := s.modEngine e fun x =>
        let x := x.showExtents t
        { x with wbQ := rest, drainFirst := x.drainFirst && (!rest.isEmpty || x.drain.isSome) }
      let s := if accepted ∧ t.poison then s.modJob fun j => { j with poisTiles := j.poisTiles + 1 } else s
      .next (s.restartWatch.retireRanges c)

end Sys2Proof.Machine
end

