-- ==== Sys2Proof/Machine/Collectives.lean ====
section
/-! DEFINITION. Collectives and the Fondant permute (12 R358 to R369). -/

namespace Sys2Proof.Machine

/-! ### Job memory in pieces -/

/-- Marks of the words of a range from marks of its bytes. -/
def wordFlags : Nat → Nat → List Bool → List Bool
  | 0, _, _ => []
  | fuel + 1, a, fl =>
    if fl.isEmpty then []
    else
      let n := 4 - a % 4
      (fl.take n).any id :: wordFlags fuel (a + n) (fl.drop n)

/-- Marks of 64-byte data lines from marks of bytes (R349). -/
def lineMarks (fl : List Bool) : List Bool := (chunksOf 64 fl.length fl).map fun l => l.any id

/-- Marks of bytes from those of data lines. -/
def byteMarks (lines : List Bool) : List Bool := (lines.map fun b => List.replicate 64 b).flatten

/-- PMAP of line marks. -/
def pmapOf (lines : List Bool) : Nat := lines.zipIdx.foldl (fun acc x => acc + b2n x.1 * 2 ^ x.2) 0

/-- Line marks of a received message. -/
def marksOfPmap (h : List Byte) (len : Nat) : List Bool := (List.range (len / 64)).map fun i => bitOf (hPmap h) i

/-- Read job memory for a collective: bytes, and a mark for each that lies in a bad word. Pieces end at 4 KiB
boundaries. A leaf that does not name local memory is a field out of range. -/
def jobGet (m : MoverId) (t : MTask) : Nat → State → Nat → Nat → Got (List Byte × List Bool)
  | 0, s, _, _ => .ok ([], []) s
  | fuel + 1, s, ja, len =>
    if len = 0 then .ok ([], []) s
    else
      let n := min len (4096 - ja % 4096)
      match s.translate (m / 16) (moverReader m t) ja false false with
      | (.held, s) => .stop (s.stallMover m wT2Fail)
      | (.bad c l e ea, s) => .stop (s.moverFault m t (xlateFault ja c l e ea false))
      | (.ok 0 a, s) =>
        match s.moverReadLocal m t a n with
        | .stop s => .stop s
        | .ok (bs, _) s =>
          let fl := (List.range n).map fun i => s.mem.bad ((a + i) / 4)
          match jobGet m t fuel s (ja + n) (len - n) with
          | .stop s => .stop s
          | .ok (bs', fl') s => .ok (bs ++ bs', fl ++ fl') s
      | (.ok _ _, s) => .stop (s.moverFault m t { newFault fMoverMalformed with faddr := BitVec.ofNat 64 ja })

/-- Pieces of a range. -/
def pieces (len : Nat) : Nat := len / 4096 + 2

/-- Write job memory for a collective, bytes with their marks. -/
def jobPut (m : MoverId) (t : MTask) : Nat → State → Nat → List Byte → List Bool → Got Unit
  | 0, s, _, _, _ => .ok () s
  | fuel + 1, s, ja, bs, fl =>
    if bs.isEmpty then .ok () s
    else
      let n := min bs.length (4096 - ja % 4096)
      match s.translate (m / 16) (moverReader m t) ja true false with
      | (.held, s) => .stop (s.stallMover m wT2Fail)
      | (.bad c l e ea, s) => .stop (s.moverFault m t (xlateFault ja c l e ea true))
      | (.ok _ a, s) =>
        match s.moverWriteLocal m t a (bs.take n) (wordFlags (n + 1) a (fl.take n)) with
        | .stop s => .stop s
        | .ok _ s => jobPut m t fuel s (ja + n) (bs.drop n) (fl.drop n)

def State.jobGet (s : State) (m : MoverId) (t : MTask) (ja len : Nat) : Got (List Byte × List Bool) :=
  Machine.jobGet m t (pieces len) s ja len

def State.jobPut (s : State) (m : MoverId) (t : MTask) (ja : Nat) (bs : List Byte) (fl : List Bool) : Got Unit :=
  Machine.jobPut m t (pieces bs.length) s ja bs fl

/-- Copy job memory to job memory. -/
def State.jobCopy (s : State) (m : MoverId) (t : MTask) (src dst len : Nat) : Got Unit :=
  match s.jobGet m t src len with
  | .stop s => .stop s
  | .ok (bs, fl) s => s.jobPut m t dst bs fl

/-! ### Shards (R360) -/

/-- Units of position `s` when `u` units go to `m` positions, and its first unit. -/
def shardUnits (u m s : Nat) : Nat := u / m + (if s < u % m then 1 else 0)
def shardFirst (u m s : Nat) : Nat := s * (u / m) + min s (u % m)

/-- Members of the group. -/
def Coll.size (c : Coll) : Nat := c.group.length
/-- A position counted from this member's, plus `m` times enough to stay positive. -/
def Coll.rel (c : Coll) (back : Nat) : Nat := (c.pos + 2 * c.size - back % c.size) % c.size
/-- Offset and bytes of a shard on the wire. -/
def Coll.shardOff (c : Coll) (r : Nat) : Nat := shardFirst c.units c.size r * c.grain
def Coll.shardLen (c : Coll) (r : Nat) : Nat := shardUnits c.units c.size r * c.grain
/-- The downstream and upstream members. -/
def Coll.down (c : Coll) : Nat := c.group.getD ((c.pos + 1) % c.size) 0
def Coll.up (c : Coll) : Nat := c.group.getD ((c.pos + c.size - 1) % c.size) 0
/-- Whether an all-gather widens. -/
def Coll.widens (c : Coll) : Bool := c.cop == 4 && c.wfmt != 0xFF

/-- Ring steps of an operation. -/
def Coll.steps (c : Coll) : Nat :=
  match c.cop with
  | 1 => 1
  | 2 | 5 => 2 * (c.size - 1)
  | 3 | 4 => c.size - 1
  | _ => 0

/-- Whether a step belongs to the reduce-scatter part. -/
def Coll.reducing (c : Coll) (t : Nat) : Bool :=
  match c.cop with
  | 3 => true
  | 2 | 5 => decide (t < c.size - 1)
  | _ => false

/-- Step number within the all-gather part. -/
def Coll.gatherStep (c : Coll) (t : Nat) : Nat := if c.cop = 4 then t else t - (c.size - 1)

/-- What a step sends: the buffer, offset and length, and the shard (R362, R363, R365). -/
def Coll.sends (c : Coll) (t : Nat) : Nat × Nat × Nat × Nat :=
  if c.cop = 1 then (c.src, 0, c.arg.toNat, 0)
  else if c.reducing t then
    let r := c.rel (1 + t)
    (if t = 0 then c.src else c.aux, c.shardOff r, c.shardLen r, r)
  else
    let r := c.rel (c.gatherStep t)
    (if c.widens then c.aux else c.dst, c.shardOff r, c.shardLen r, r)

/-- What a step receives: the buffer it writes, offset and length, the shard. -/
def Coll.receives (c : Coll) (t : Nat) : Nat × Nat × Nat × Nat :=
  if c.cop = 1 then (c.dst, 0, c.arg.toNat, 0)
  else if c.reducing t then
    let r := c.rel (2 + t)
    (if t + 2 = c.size then c.dst else c.aux, c.shardOff r, c.shardLen r, r)
  else
    let r := c.rel (1 + c.gatherStep t)
    (if c.widens then c.aux else c.dst, c.shardOff r, c.shardLen r, r)

/-! ### Widening (R363) -/

/-- Elements of a unit. -/
def Coll.unitElems (c : Coll) : Nat :=
  match c.efmt with
  | 9 | 10 => 2048
  | 11 => 4096
  | _ => c.grain / 2

/-- Bytes of a widened element. -/
def Coll.wideSize (c : Coll) : Nat := if c.wfmt = 0 then 4 else 2

/-- Element `i` of a unit's bytes. -/
def unitElem (efmt : Nat) (b : List Byte) (i : Nat) : Nat :=
  match efmt with
  | 9 | 10 => fieldAt b i 1
  | 11 => bitsOf (fieldAt b (i / 2) 1) (4 * (i % 2)) 4
  | _ => fieldAt b (2 * i) 2

/-- A unit widened: each element x × 2^(c − 127), exact, converted by Table 4.6. -/
def widenUnit (efmt wfmt elems : Nat) (b : List Byte) : List Byte :=
  ((List.range elems).map fun i =>
    let n := unitElem efmt b i
    let c := if isMx efmt then fieldAt b (b.length - elems / 32 + i / 32) 1 else 127
    let v := if isMx efmt ∧ c = 0xFF then FVal.nan else (elemVal efmt n).scale (e8m0Exp c)
    if wfmt = 0 then toLe (fpRound v).toNat 4
    else toLe (convFloat fmtBf16 (.pass 0x7F80) 0x7FC0 v).bits 2).flatten

/-- Widen units of AUX into DST, one at a time; a bad word in a unit marks the operation poisoned. -/
def widenLoop (m : MoverId) (t : MTask) (c : Coll) : Nat → Nat → State → Got Unit
  | 0, _, s => .ok () s
  | n + 1, u, s =>
    match s.jobGet m t (c.aux + u * c.grain) c.grain with
    | .stop s => .stop s
    | .ok (bs, fl) s =>
      let out := widenUnit c.efmt c.wfmt c.unitElems bs
      let s := if fl.any id then s.modMover m fun g => { g with poisoned := true } else s
      match s.jobPut m t (c.dst + u * c.unitElems * c.wideSize) out (List.replicate out.length false) with
      | .stop s => .stop s
      | .ok _ s => widenLoop m t c n (u + 1) s

/-- Widen a shard. -/
def State.widenShard (s : State) (m : MoverId) (t : MTask) (c : Coll) (r : Nat) : Got Unit :=
  widenLoop m t c (shardUnits c.units c.size r) (shardFirst c.units c.size r) s

/-! ### Sending -/

/-- Send a message to a neighbour in a direction, on the port of the given index; the Gatehouse refuses a member
outside the job-domain table (R350). -/
def State.sendNear (s : State) (dir key mtype addr tag len pmap dst : Nat) (data : List Byte) : Sent × State :=
  let ps := s.dirPorts dir
  if ¬ s.inDomain dst then (.refused, s)
  else match ps[key % ps.length]? with
    | none => (.noRoute, s)
    | some p =>
      if (s.port p).fenced then (.noRoute, s)
      else (.ok p, s.queueMsg p (vcOf mtype 0) (msgHeader mtype 0 len dst s.moduleId addr tag pmap ++ data))

/-- What an unsent message does to its mover: GATEHOUSE, or LINK_LOST on a fenced port. -/
def State.sendFailed (s : State) (m : MoverId) (t : MTask) (r : Sent) (addr : Nat) : State :=
  match r with
  | .refused => s.moverFault m t (addrFault fGatehouse addr 3 true)
  | _ => s.linkLostAt m

/-- Change a mover's collective. -/
def State.modColl (s : State) (m : Nat) (f : Coll → Coll) : State :=
  s.modMover m fun g => { g with coll := g.coll.map f, restart := match g.coll.map f with
    | some c => { g.restart with row := BitVec.ofNat 32 c.sendStep, off := BitVec.ofNat 32 c.recvStep, rkind := 8 }
    | none => g.restart }

/-- Whether the port of an offset within a direction still has messages of a type to send. -/
def State.portBusy (s : State) (dir key mtype : Nat) : Bool :=
  let ps := s.dirPorts dir
  match ps[key % ps.length]? with
  | some p => s.port p |>.txQ.getD (vcOf mtype 0) [] |>.isEmpty |> not
  | none => false

/-- Bytes of the next chunk: whole units as far as they fit before the next 4 KiB boundary of the offset, else up to
that boundary (R346, R361). -/
def chunkLen (grain off left : Nat) : Nat :=
  let n := min left (4096 - off % 4096)
  if n = left then n
  else
    let w := (off + n) / grain * grain
    if off < w then w - off else n

/-- Send the chunks of a step in ascending offset, each once the port has taken the one before: a mover that waits for
credits holds under LINK_CREDIT at that message boundary (R351, R361, R369). -/
def chunkLoop (m : MoverId) (t : MTask) (c : Coll) (dir step shard base : Nat) : Nat → Nat → Nat → State → Got Unit
  | 0, _, _, s => .ok () s
  | fuel + 1, off, left, s =>
    if left = 0 then .ok () s
    else if s.portBusy dir (off / 4096) 7 then .stop (s.stallMover m wLinkCredit)
    else
      let n := chunkLen c.grain off left
      match s.jobGet m t (base + off) n with
      | .stop s => .stop s
      | .ok (bs, fl) s =>
        let addr := c.cid + off * 0x10000
        match s.sendNear dir (off / 4096) 7 addr (step * 0x10000 + shard) n (pmapOf (lineMarks fl)) c.down bs with
        | (.ok _, s) =>
          chunkLoop m t c dir step shard base fuel (off + n) (left - n)
            (s.modColl m fun c => { c with sendOff := c.sendOff + n })
        | (r, s) => .stop (s.sendFailed m t r addr)

/-- Send SENT on every port of the downstream direction. -/
def State.sendSent (s : State) (m : MoverId) (t : MTask) (c : Coll) (dir step : Nat) : Got Unit :=
  (List.range (s.dirPorts dir).length).foldl (fun g k =>
    match g with
    | .stop s => .stop s
    | .ok _ s => match s.sendNear dir k 8 c.cid (step * 0x10000) 0 0 c.down [] with
      | (.ok _, s) => .ok () s
      | (r, s) => .stop (s.sendFailed m t r c.cid)) (.ok () s)

/-! ### Start (R358, R359) -/

/-- Two ranges share a byte. -/
def overlap (a la b lb : Nat) : Bool := decide (a < b + lb) && decide (b < a + la)

/-- SRC, DST and AUX of an operation do not overlap, except that a plain ALLGATHER may read its own part of DST. Those of a
FONDANT are known once its map is read (`fondantApart`). -/
def Coll.rangesOk (c : Coll) : Bool :=
  let whole := c.units * c.grain
  match c.cop with
  | 1 => !overlap c.src c.arg.toNat c.dst c.arg.toNat
  | 2 | 3 | 5 =>
    !overlap c.src whole c.dst whole && !overlap c.src whole c.aux whole && !overlap c.dst whole c.aux whole
  | 4 =>
    let own := c.shardLen c.pos
    if c.widens then
      let wide := c.units * c.unitElems * c.wideSize
      !overlap c.src own c.dst wide && !overlap c.src own c.aux whole && !overlap c.dst wide c.aux whole
    else c.src == c.dst + c.shardOff c.pos || !overlap c.src own c.dst whole
  | _ => true

/-- Whether a group table is right, apart from the neighbours (R359). -/
def groupOk (me : Nat) (b : List Byte) : Bool :=
  let n := fieldAt b 0 2
  let pos := fieldAt b 2 2
  decide (1 ≤ n) && decide (n ≤ 1024) && decide (pos < n) && zeroAt b 4 8 &&
  fieldAt b 0xC 4 == (crc32c (b.take 12 ++ bytesAt b 16 (4 * n))).toNat &&
  ((List.range n).all fun i => decide (fieldAt b (16 + 4 * i) 4 < 2 ^ 14)) &&
  fieldAt b (16 + 4 * pos) 4 == me

/-- The collective of a descriptor with its group table. -/
def collOfTask (d b : List Byte) : Coll :=
  { cop := coCop d, rop := coRop d, efmt := coEfmt d, wfmt := coWfmt d, cid := coCid d,
    group := (List.range (fieldAt b 0 2)).map fun i => fieldAt b (16 + 4 * i) 4, pos := fieldAt b 2 2,
    src := coSrc d, dst := coDst d, aux := coAux d, grain := coGrain d, units := coUnits d,
    arg := BitVec.ofNat 64 (coArg d) }

/-- The mover, other than a given one, that runs a collective of a CID. -/
def State.otherColl (s : State) (me cid : Nat) : Option MoverId :=
  (List.range 48).findSome? fun m => match (s.mover m).coll with
    | some c => if c.cid = cid ∧ m ≠ me then some (Fin.ofNat 48 m) else none
    | none => none

/-- The mover that runs a collective of a CID. -/
def State.collOf (s : State) (cid : Nat) : Option MoverId := s.otherColl 48 cid

/-- MOVER_MALFORMED of a task. -/
def State.malformedTask (s : State) (m : MoverId) (t : MTask) : State := s.moverFault m t (newFault fMoverMalformed)

/-- A collective is complete: its CID is done, and its descriptor completes. -/
def State.endColl (s : State) (m : MoverId) (t : MTask) (c : Coll) : State :=
  { s with fab := { s.fab with doneCids := insertNat c.cid s.fab.doneCids } }.endTask m t stOk

/-- Whether a mover waits for an answer of a peer. -/
def State.opsOf (s : State) (m : MoverId) : Bool := s.fab.ops.any fun o => o.mover == some m

/-- Whether a started collective is complete: every step received, and the last one sent answered with DONE; every
BARRIER counted; every WRITE or atomic answered (R361, R366, R367). -/
def State.collDone (s : State) (m : MoverId) (c : Coll) : Bool :=
  c.started &&
  match c.cop with
  | 6 => c.finished && !s.opsOf m
  | 7 => decide (c.size ≤ c.barriers + 1)
  | 8 => c.finished && !s.opsOf m
  | _ => c.sendStep == c.nsteps && c.recvStep == c.nsteps && (c.nsteps == 0 || c.doneSeen.contains (c.nsteps - 1))

/-- Complete a mover's collective where it is complete. -/
def State.collCheck (s : State) (m : MoverId) : State :=
  match (s.mover m).cur, (s.mover m).coll with
  | some t, some c => if s.collDone m c then s.endColl m t c else s
  | _, _ => s

/-- Send DONE upstream. -/
def State.sendDone (s : State) (dir cid step dst : Nat) : State :=
  (s.sendNear dir 0 9 cid (step * 0x10000) 0 0 dst []).2

/-- The current receive step is complete: widen what it brought, send DONE upstream, and go to the next. -/
def State.closeStep (s : State) (m : MoverId) (t : MTask) (c : Coll) (up : Nat) : State :=
  let r := if c.widens then s.widenShard m t c (c.receives c.recvStep).2.2.2 else .ok () s
  match r with
  | .stop s => s
  | .ok _ s =>
    let s := s.modColl m fun c =>
      { c with recvStep := c.recvStep + 1, sentSeen := c.sentSeen.filter fun x => x.1 ≠ c.recvStep }
    (s.sendDone up c.cid c.recvStep c.up).collCheck m

/-- A collective that starts again after a fault or a resume re-sends its current ring step from the first chunk (R352, R369).
An operation without ring steps starts again, FONDANT from its first entry, since resending a WRITE rewrites the same bytes
(R367). What acts once is not repeated: a BARRIER sent stands unless its link was lost, and so does an ADD64 that is
outstanding (R371; log entry 30). -/
def Coll.rewind (c : Coll) (lost asked : Bool) : Coll :=
  let again := { c with started := false, finished := false, entry := 0 }
  if c.nsteps ≠ 0 then
    let back := decide (0 < c.sendStep) && !c.doneSeen.contains (c.sendStep - 1)
    { c with sendStep := if back then c.sendStep - 1 else c.sendStep, sendOff := 0 }
  else match c.cop with
    | 7 => if lost then again else c
    | 8 => if asked then c else again
    | _ => again

/-- After a mover's fault ends or its job resumes: the collective starts its current send step again, answers to WRITEs that
will be sent again are no longer awaited, and a receive step whose SENTs are all in is closed. -/
def State.retryColl (s : State) (m : MoverId) (lost : Bool) : State :=
  let mine := fun (o : PeerOp) (mtype : Nat) => decide (o.mover = some m) && !o.away && o.mtype == mtype
  let asked := s.fab.ops.any fun o => mine o 5
  let s := { s with fab := { s.fab with ops := s.fab.ops.map fun o => if mine o 3 then { o with mover := none } else o } }
  let s := s.modColl m fun c => c.rewind lost asked
  match (s.mover m).cur, (s.mover m).coll with
  | some t, some c => match s.collDirs c with
    | some (_, up) =>
      if c.started ∧ c.recvStep < c.nsteps ∧ (s.dirPorts up).all (fun q => c.sentSeen.contains (c.recvStep, q)) then
        s.closeStep m t c up
      else s
    | none => s
  | _, _ => s

/-- An answer that came for an ADD64 while its job was away is taken: the old value is written to SRC (R366, R371). -/
def State.takeAnswer (s : State) (m : MoverId) (t : MTask) : State :=
  match (s.mover m).coll, s.fab.ops.find? fun o => decide (o.mover = some m) && o.answer.isSome with
  | some c, some o => match o.answer with
    | none => s
    | some (old, bad) => match s.jobPut m t c.src old (List.replicate 8 bad) with
      | .stop s => s
      | .ok _ s =>
        let s := if bad then s.modMover m fun g => { g with poisoned := true } else s
        ({ s with fab := { s.fab with ops := s.fab.ops.filter fun x => x.tag ≠ o.tag } } : State).collCheck m
  | _, _ => s

/-- Read and check the group table, and take up the collective. One that a resume brought back takes the group table as it now
stands (R370) and goes on from its restart point (R369). -/
def State.openColl (s : State) (m : MoverId) (t : MTask) : State :=
  let d := t.bytes
  if ¬ collBodyOk d then s.malformedTask m t
  else match s.jobGet m t (coGroup d) 16 with
    | .stop s => s
    | .ok (hd, _) s =>
      let n := fieldAt hd 0 2
      if n = 0 ∨ 1024 < n then s.malformedTask m t
      else match s.jobGet m t (coGroup d + 16) (4 * n) with
        | .stop s => s
        | .ok (es, _) s =>
          let b := hd ++ es
          let c := collOfTask d b
          if ¬ groupOk s.moduleId b ∨ (s.collDirs c).isNone ∨ (s.otherColl m c.cid).isSome ∨ ¬ c.rangesOk ∨
              (c.cop = 8 ∧ c.size ≤ c.units) then s.malformedTask m t
          else
            let s := { s with fab := { s.fab with doneCids := s.fab.doneCids.filter fun x => x ≠ c.cid } }
            match (s.mover m).coll with
            | none => s.modMover m fun g => { g with coll := some { c with nsteps := c.steps }, wait := .coll, hold := 0 }
            | some c0 =>
              ((s.modMover m fun g => { g with coll := some { c0 with group := c.group, pos := c.pos }, wait := .coll, hold := 0 }).retryColl
                m false).takeAnswer m t

/-- MOVE_COLL (R358, R359). -/
def execMoveColl (m : MoverId) (s : State) : Out :=
  if ¬ s.variant.hasMover m then .next s
  else if ¬ s.moverRuns m then .next s
  else .next (s.runTask m 4 fun t s => s.openColl m t)

/-- CID of a collective message. -/
def hCid (h : List Byte) : Nat := hAddr h % 0x10000

/-- Messages held for a CID return to the heads of their ports' queues. -/
def State.unhold (s : State) (cid : Nat) : State :=
  let mine := s.fab.held.filter fun x => hCid x.2.hdr == cid
  let s := { s with fab := { s.fab with held := s.fab.held.filter fun x => hCid x.2.hdr != cid } }
  (List.range 8).foldl (fun s p =>
    let back := (mine.filter fun x => x.1 == p).map fun x => (vcOf (hType x.2.hdr) 0, x.2)
    if back.isEmpty then s else s.modPort p fun g => { g with rxMsgs := back ++ g.rxMsgs }) s

/-- Start a mover's collective of an operation: `go` does what the operation does at its start; then the mover waits for the
other members under T3_PEER_LATE (R351). -/
def State.startColl (s : State) (m : MoverId) (cop : Nat) (go : MTask → Coll → State → Got Unit) : Out :=
  let g := s.mover m
  match g.cur, g.coll with
  | some t, some c =>
    if c.cop ≠ cop ∨ c.started ∨ g.wait ≠ .coll ∨ ¬ s.moverRuns m then .next s
    else if g.fault.isSome then .next (s.stallFault m)
    else match go t c s with
      | .stop s => .next s
      | .ok _ s =>
        let s := (s.modColl m fun c => { c with started := true }).modMover m fun g => { g with hold := BitVec.ofNat 8 wT3PeerLate }
        .next ((s.unhold c.cid).collCheck m)
  | _, _ => .next s

/-- Nothing to do at the start. -/
def startNone (_ : MTask) (_ : Coll) (s : State) : Got Unit := .ok () s

/-- SHIFT (R365). -/
def execShift (m : MoverId) (s : State) : Out :=
  if ¬ s.variant.hasMover m then .next s else s.startColl m 1 startNone
/-- ALLREDUCE (R364). -/
def execAllreduce (m : MoverId) (s : State) : Out :=
  if ¬ s.variant.hasMover m then .next s else s.startColl m 2 startNone
/-- REDUCE_SCATTER (R362). -/
def execReduceScatter (m : MoverId) (s : State) : Out :=
  if ¬ s.variant.hasMover m then .next s else s.startColl m 3 startNone
/-- STATS_COMBINE (R364). -/
def execStatsCombine (m : MoverId) (s : State) : Out :=
  if ¬ s.variant.hasMover m then .next s else s.startColl m 5 startNone

/-- ALLGATHER copies its own shard into DST, or, when it widens, into AUX and widened into DST. -/
def startGather (m : MoverId) (t : MTask) (c : Coll) (s : State) : Got Unit :=
  let own := c.shardLen c.pos
  if c.widens then
    match s.jobCopy m t c.src (c.aux + c.shardOff c.pos) own with
    | .stop s => .stop s
    | .ok _ s => s.widenShard m t c c.pos
  else s.jobCopy m t c.src (c.dst + c.shardOff c.pos) own

/-- ALLGATHER (R363). -/
def execAllgather (m : MoverId) (s : State) : Out :=
  if ¬ s.variant.hasMover m then .next s else s.startColl m 4 (startGather m)

/-- BARRIER sends BARRIER(CID, POS) downstream. -/
def startBarrier (m : MoverId) (t : MTask) (c : Coll) (s : State) : Got Unit :=
  match s.collDirs c with
  | none => .ok () s
  | some (down, _) => match s.sendNear down 0 0xA c.cid c.pos 0 0 c.down [] with
    | (.ok _, s) => .ok () s
    | (r, s) => .stop (s.sendFailed m t r c.cid)

/-- COLL_BARRIER (R366). -/
def execCollBarrier (m : MoverId) (s : State) : Out :=
  if ¬ s.variant.hasMover m then .next s else s.startColl m 7 (startBarrier m)

/-- Originate a message that is answered, and enter it as outstanding. -/
def State.sendOp (s : State) (m : MoverId) (t : MTask) (mtype dst addr pmap : Nat) (data : List Byte) : Got Unit :=
  let tag := s.fab.nextTag
  match s.originate mtype 0 data.length dst addr tag.toNat pmap data with
  | (.ok p, s) =>
    .ok () { s with fab := { s.fab with
      nextTag := tag + 1
      ops := s.fab.ops ++ [({ tag, mover := some m, mtype, addr := BitVec.ofNat 64 addr, len := data.length, dst, port := p,
                              job := t.jobOf s } : PeerOp)] } }
  | (r, s) => .stop (s.sendFailed m t r addr)

/-- Add to job memory, modulo 2^64: the old value is written at `out`, before the sum so that a stop between the two adds
nothing, and after it so that it stands where both are one place (R348, R366). -/
def State.addLocal (s : State) (m : MoverId) (t : MTask) (at_ : Nat) (addend : DWord) (out : Nat) : Got Unit :=
  match s.jobGet m t at_ 8 with
  | .stop s => .stop s
  | .ok (old, fl) s =>
    let s := if fl.any id then s.modMover m fun g => { g with poisoned := true } else s
    match s.jobPut m t out old (List.replicate 8 false) with
    | .stop s => .stop s
    | .ok _ s => match s.jobPut m t at_ (toLe ((leNat old + addend.toNat) % 2 ^ 64) 8) (List.replicate 8 false) with
      | .stop s => .stop s
      | .ok _ s => s.jobPut m t out old (List.replicate 8 false)

/-- ADD64 sends one ATOMIC_ADD to the member at position UNITS; this member's own add is local. -/
def startAdd (m : MoverId) (t : MTask) (c : Coll) (s : State) : Got Unit :=
  let r :=
    if c.units = c.pos then s.addLocal m t c.dst c.arg c.src
    else s.sendOp m t 5 (c.group.getD c.units 0) c.dst 0 (padTo (toLe c.arg.toNat 8) 64)
  match r with
  | .stop s => .stop s
  | .ok _ s => .ok () (s.modColl m fun c => { c with finished := true })

/-- ADD64 (R366). -/
def execAdd64 (m : MoverId) (s : State) : Out :=
  if ¬ s.variant.hasMover m then .next s else s.startColl m 8 (startAdd m)

/-! ### FONDANT (R367) -/

/-- Whether a map is right: NENT is UNITS, MCRC, and the fields of each entry. DESIGN CHOICE: a destination that is not 64-byte
aligned is out of range, since no WRITE that keeps the 4 KiB boundaries carries it (R346; log entry 30). -/
def fondantOk (c : Coll) (b : List Byte) : Bool :=
  fieldAt b 0 4 == c.units && zeroAt b 4 8 &&
  fieldAt b 0xC 4 == (crc32c (b.take 12 ++ b.drop 16)).toNat &&
  (List.range c.units).all fun i =>
    let e := bytesAt b (16 + 32 * i) 32
    decide (fieldAt e 0 2 < c.size) && decide (fieldAt e 2 2 < c.size) && zeroAt e 4 4 && fieldAt e 0x18 8 % 64 == 0 &&
    (c.dst + fieldAt e 0x10 8) % 64 == 0

/-- Bytes from the start of a buffer that the entries of a map reach, of those with POS at offset `who`, their offset at
`off`. -/
def fondantSpan (c : Coll) (b : List Byte) (who off : Nat) : Nat :=
  (List.range c.units).foldl (fun top i =>
    let e := bytesAt b (16 + 32 * i) 32
    if fieldAt e who 2 = c.pos then max top (fieldAt e off 8 + fieldAt e 0x18 8) else top) 0

/-- What this member sends of SRC, what it receives into DST and the map at AUX do not overlap (R359). -/
def fondantApart (c : Coll) (b : List Byte) : Bool :=
  let src := fondantSpan c b 0 8
  let dst := fondantSpan c b 2 0x10
  let map := 16 + 32 * c.units
  !overlap c.src src c.dst dst && !overlap c.src src c.aux map && !overlap c.dst dst c.aux map

/-- Copy one entry to another member in WRITE messages of up to 4,096 bytes that cross no 4 KiB boundary of the
destination. -/
def writeLoop (m : MoverId) (t : MTask) (dst : Nat) : Nat → Nat → Nat → Nat → State → Got Unit
  | 0, _, _, _, s => .ok () s
  | fuel + 1, src, tgt, left, s =>
    if left = 0 then .ok () s
    else
      let n := min left (4096 - tgt % 4096)
      match s.jobGet m t src n with
      | .stop s => .stop s
      | .ok (bs, fl) s => match s.sendOp m t 3 dst tgt (pmapOf (lineMarks fl)) bs with
        | .stop s => .stop s
        | .ok _ s => writeLoop m t dst fuel (src + n) (tgt + n) (left - n) s

/-- Copy the entries from `i` on that this member sends. -/
def entryLoop (m : MoverId) (t : MTask) (c : Coll) (b : List Byte) : Nat → Nat → State → Got Unit
  | 0, _, s => .ok () s
  | fuel + 1, i, s =>
    let e := bytesAt b (16 + 32 * i) 32
    let from' := c.src + fieldAt e 8 8
    let tgt := c.dst + fieldAt e 0x10 8
    let n := fieldAt e 0x18 8
    let r :=
      if fieldAt e 0 2 ≠ c.pos then Got.ok () s
      else if fieldAt e 2 2 = c.pos then s.jobCopy m t from' tgt n
      else writeLoop m t (c.group.getD (fieldAt e 2 2) 0) (n / 64 + 1) from' tgt n s
    match r with
    | .stop s => .stop s
    | .ok _ s => entryLoop m t c b fuel (i + 1) (s.modColl m fun c => { c with entry := i + 1 })

/-- FONDANT reads its map and copies this member's entries. -/
def startFondant (m : MoverId) (t : MTask) (c : Coll) (s : State) : Got Unit :=
  match s.jobGet m t c.aux (16 + 32 * c.units) with
  | .stop s => .stop s
  | .ok (b, _) s =>
    if ¬ fondantOk c b ∨ ¬ fondantApart c b then .stop (s.malformedTask m t)
    else match entryLoop m t c b (c.units - c.entry) c.entry s with
      | .stop s => .stop s
      | .ok _ s => .ok () (s.modColl m fun c => { c with finished := true })

/-- FONDANT (R367). -/
def execFondant (m : MoverId) (s : State) : Out :=
  if ¬ s.variant.hasMover m then .next s else s.startColl m 6 (startFondant m)

/-! ### Ring steps (R361) -/

/-- Whether the next send step may start. -/
def Coll.maySend (c : Coll) : Bool :=
  c.started && decide (c.sendStep < c.nsteps) &&
  (c.sendStep == 0 || (decide (c.sendStep ≤ c.recvStep) && c.doneSeen.contains (c.sendStep - 1)))

/-- RING_STEP_SEND (R361): a mover whose next step may not start yet waits for its neighbour's messages under T3_PEER_LATE
(R351). -/
def execRingStepSend (m : MoverId) (s : State) : Out :=
  let g := s.mover m
  if ¬ s.variant.hasMover m then .next s
  else match g.cur, g.coll with
    | some t, some c =>
      if ¬ s.moverRuns m ∨ ¬ c.started ∨ c.nsteps = 0 ∨ g.wait ≠ .coll then .next s
      else if g.fault.isSome then .next (s.stallFault m)
      else if ¬ c.maySend then .next (s.stallMover m wT3PeerLate)
      else match s.collDirs c with
        | none => .next s
        | some (down, _) =>
          let (base, off, len, shard) := c.sends c.sendStep
          match chunkLoop m t c down c.sendStep shard base (len / 64 + 1) (off + c.sendOff) (len - c.sendOff) s with
          | .stop s => .next s
          | .ok _ s => match s.sendSent m t c down c.sendStep with
            | .stop s => .next s
            | .ok _ s =>
              let s := s.modMover m fun g => { g with hold := BitVec.ofNat 8 wT3PeerLate }
              .next ((s.modColl m fun c => { c with sendStep := c.sendStep + 1, sendOff := 0 }).collCheck m)
    | _, _ => .next s

/-! ### Received collective messages (R361 to R366, R369) -/

/-- Whether the running job is pre-empted, or a pre-empted job's save is held and no job runs (R369). -/
def State.jobAway (s : State) : Bool :=
  match s.job.cur with
  | some j => j.signalled
  | none => s.job.areas.any fun a => match a with
    | some x => x.st == 1 || x.st == 2
    | none => false

/-- Count a message of a port as stale and drop it. -/
def State.staleMsg (s : State) (p vc : Nat) (m : Msg) : State :=
  (s.modPort p fun g => { g with stale := satAdd g.stale 1 }).finishMsg p vc m

/-- Hold a message, with its credits, until its collective starts. -/
def State.holdMsg (s : State) (p vc : Nat) (m : Msg) : State :=
  { s.modPort p fun g => { g with rxMsgs := dropMsg vc g.rxMsgs } with
    fab := { (s.modPort p fun g => { g with rxMsgs := dropMsg vc g.rxMsgs }).fab with
             held := s.fab.held ++ [(p, m)] } }

/-- ADD_I32: the sum modulo 2^32, and whether it wrapped. -/
def addI32 (a b : Nat) : Nat × Bool :=
  let v := signedOf 32 a + signedOf 32 b
  ((a + b) % 2 ^ 32, decide (v < -(2 ^ 31 : Int)) || decide ((2 ^ 31 : Int) ≤ v))

/-- op(in, local) over a chunk, with the wraps of ADD_I32 (R362). -/
def reduceBytes (rop : Nat) (set : List Byte) (a b : List Byte) : List Byte × Nat :=
  let words := (List.range (a.length / 4)).map fun i => (fieldAt a (4 * i) 4, fieldAt b (4 * i) 4)
  match rop with
  | 1 => ((words.map fun x => toLe (fpAdd (BitVec.ofNat 32 x.1) (BitVec.ofNat 32 x.2)).toNat 4).flatten, 0)
  | 2 => ((words.map fun x => toLe (addI32 x.1 x.2).1 4).flatten, (words.filter fun x => (addI32 x.1 x.2).2).length)
  | 3 => ((words.map fun x => toLe (fpMax (BitVec.ofNat 32 x.1) (BitVec.ofNat 32 x.2)).toNat 4).flatten, 0)
  | _ =>
    (((List.range (a.length / 16)).map fun i =>
      (smerge (sfuRcp set) (StatRec.ofBytes (bytesAt a (16 * i) 16)) (StatRec.ofBytes (bytesAt b (16 * i) 16))).bytes).flatten,
     0)

/-- The job's table set in the image store. -/
def State.jobTables (s : State) : List Byte :=
  match s.mgt.images.find? fun x => x.handle.toNat = jTset s.jobDesc ∧ x.kind = 2 with
  | some x => x.bytes
  | none => []

/-- Apply a chunk of the current receive step. -/
def State.applyChunk (s : State) (m : MoverId) (t : MTask) (c : Coll) (off : Nat) (data : List Byte)
    (lines : List Bool) : Got Unit :=
  let base := (c.receives c.recvStep).1
  if ¬ c.reducing c.recvStep then s.jobPut m t (base + off) data (byteMarks lines)
  else match s.jobGet m t (c.src + off) data.length with
    | .stop s => .stop s
    | .ok (loc, fl) s =>
      let (out, wraps) := reduceBytes c.rop s.jobTables data loc
      match s.jobPut m t (base + off) out (List.replicate out.length false) with
      | .stop s => .stop s
      | .ok _ s =>
        let s := { s with fab := { s.fab with collOvf := satAdd s.fab.collOvf wraps } }
        .ok () (if fl.any id || lines.any id then s.modMover m fun g => { g with poisoned := true } else s)

/-- What becomes of a collective message, by its CID and step. -/
inductive CollFate where
  | wait
  | hold
  | stale
  | take (m : MoverId) (t : MTask) (c : Coll)
  deriving DecidableEq, Repr

/-- The fate of a message of a CID: held while the job is pre-empted or the collective has not started, stale when
the collective is complete, else taken by its mover once that is free of faults. -/
def State.collFate (s : State) (cid : Nat) : CollFate :=
  if s.jobAway then .wait
  else match s.collOf cid with
    | none => if s.fab.doneCids.contains cid then .stale else .hold
    | some m => match (s.mover m).cur, (s.mover m).coll with
      | some t, some c =>
        if (s.mover m).fault.isSome ∨ ¬ s.moverRuns m ∨ (s.mover m).wait ≠ .coll then .wait
        else if ¬ c.started then .hold
        else .take m t c
      | _, _ => .wait

/-- Step of a CHUNK, SENT or DONE message. -/
def hStep (h : List Byte) : Nat := hTag h / 0x10000

/-- CHUNK (R361, R362). A chunk outside what its step receives is answered with NAK ADDR (R365). -/
def execChunk (p : PortId) (s : State) : Out :=
  if ¬ s.variant.hasPort p then .next s
  else match s.headMsg p 7 with
    | none => .next s
    | some (vc, x) =>
      if ¬ s.regionUp 3 then .next s
      else match s.collFate (hCid x.hdr) with
        | .wait => .next s
        | .hold => .next (s.holdMsg p vc x)
        | .stale => .next (s.staleMsg p vc x)
        | .take m t c =>
          let step := hStep x.hdr
          let off := hAddr x.hdr / 0x10000
          let (_, first, len, _) := c.receives c.recvStep
          if step < c.recvStep ∨ c.nsteps ≤ c.recvStep then .next (s.staleMsg p vc x)
          else if c.recvStep < step then .next s
          else if off < first ∨ first + len < off + x.data.length then
            .next ((s.finishMsg p vc x).answerNak p 9 x.hdr)
          else match s.applyChunk m t c off x.data (marksOfPmap x.hdr x.data.length) with
            | .stop s => .next s
            | .ok _ s => .next (s.finishMsg p vc x)

/-- SENT (R361): one that was answered already is answered with DONE again. -/
def execSent (p : PortId) (s : State) : Out :=
  if ¬ s.variant.hasPort p then .next s
  else match s.headMsg p 8 with
    | none => .next s
    | some (vc, x) =>
      let step := hStep x.hdr
      let cid := hCid x.hdr
      let again := fun (s : State) =>
        (s.staleMsg p vc x).sendDone ((s.portDir p).getD 0) cid step (hSrc x.hdr)
      if ¬ s.regionUp 3 then .next s
      else match s.collFate cid with
        | .wait => .next s
        | .hold => .next (s.holdMsg p vc x)
        | .stale => .next (again s)
        | .take m t c =>
          if step < c.recvStep then .next (again s)
          else if c.recvStep < step then .next s
          else match s.collDirs c with
            | none => .next s
            | some (_, up) =>
              let s := (s.finishMsg p vc x).modColl m fun c => { c with sentSeen := c.sentSeen ++ [(step, p.val)] }
              let seen := match (s.mover m).coll with | some c => c.sentSeen | none => []
              if (s.dirPorts up).all fun q => seen.contains (step, q) then .next (s.closeStep m t c up)
              else .next s

/-- DONE (R361). One of a collective that is complete has nothing left to release. -/
def execDone (p : PortId) (s : State) : Out :=
  if ¬ s.variant.hasPort p then .next s
  else match s.headMsg p 9 with
    | none => .next s
    | some (vc, x) =>
      if ¬ s.regionUp 3 ∨ s.jobAway then .next s
      else match s.collOf (hCid x.hdr) with
        | none => .next (s.finishMsg p vc x)
        | some m =>
          .next (((s.finishMsg p vc x).modColl m fun c =>
            { c with doneSeen := insertNat (hStep x.hdr) c.doneSeen }).collCheck m)

/-- MSG_BARRIER (R366): counted, and forwarded downstream unless the origin is the next position. -/
def execMsgBarrier (p : PortId) (s : State) : Out :=
  if ¬ s.variant.hasPort p then .next s
  else match s.headMsg p 0xA with
    | none => .next s
    | some (vc, x) =>
      if ¬ s.regionUp 3 then .next s
      else match s.collFate (hCid x.hdr) with
        | .wait => .next s
        | .hold => .next (s.holdMsg p vc x)
        | .stale => .next (s.staleMsg p vc x)
        | .take m t c =>
          let origin := hTag x.hdr % 0x10000
          let count := fun (s : State) =>
            ((s.finishMsg p vc x).modColl m fun c => { c with barriers := c.barriers + 1 }).collCheck m
          match s.collDirs c with
          | none => .next s
          | some (down, _) =>
            if origin = (c.pos + 1) % c.size then .next (count s)
            else match s.sendNear down 0 0xA c.cid origin 0 0 c.down [] with
              | (.ok _, s) => .next (count s)
              | (r, s) => .next (s.sendFailed m t r c.cid)

end Sys2Proof.Machine
end

