-- ==== Sys2Proof/Machine/Compress.lean ====
section
/-! DEFINITION. Feature-map compression: Crumb, Glaze and Crumb-Glaze streams (07 R192 to R201). -/

namespace Sys2Proof.Machine

/-! ### The format word (Table 7.4, Table 7.5) -/

def cfMode (w : Nat) : Nat := bitsOf w 0 2
def cfRatio (w : Nat) : Nat := bitsOf w 2 2
def cfSrc (w : Nat) : Nat := bitsOf w 4 4
def cfRect (w : Nat) : Bool := bitOf w 8

/-- Element bytes of a source format (R194); 0 for formats that no stream accepts. -/
def cfSize (fmt : Nat) : Nat :=
  match fmt with
  | 4 | 6 | 7 => 1
  | 1 | 3 => 2
  | 0 | 2 => 4
  | _ => 0

/-- Glaze block bytes B (Table 7.5); 0 for a combination outside it. -/
def glazeB (fmt ratio : Nat) : Nat :=
  match fmt, ratio with
  | 0, 1 => 128
  | 0, 2 => 64
  | 1, 1 | 3, 1 => 64
  | 1, 2 | 3, 2 => 32
  | 4, 1 => 32
  | _, _ => 0

/-- Code bits w = B/8 − 1. -/
def glazeW (b : Nat) : Nat := b / 8 - 1

/-- Whether a format word is one of R192. -/
def cfwOk (w : Nat) : Bool :=
  decide (w < 2 ^ 9) && cfSize (cfSrc w) != 0 &&
  (if cfMode w ≤ 1 then cfRatio w == 0 else glazeB (cfSrc w) (cfRatio w) != 0)

/-! ### Elements -/

/-- Elements of `es` bytes, as numbers. -/
def elemsOf (es : Nat) (bs : List Byte) : List Nat := (chunksOf es bs.length bs).map leNat

/-- Elements back to bytes. -/
def elemBytes (es : Nat) (xs : List Nat) : List Byte := (xs.map fun n => toLe n es).flatten

/-- RECT: an element whose top bit is set becomes zero; with the count of those it changed. -/
def rectify (es : Nat) (xs : List Nat) : List Nat × Nat :=
  (xs.map fun n => if bitOf n (8 * es - 1) then 0 else n, (xs.filter fun n => bitOf n (8 * es - 1)).length)

/-! ### Crumb (R194 to R196) -/

/-- Maximal runs of equal flags. -/
def runsOf : List Bool → List (Bool × Nat)
  | [] => []
  | b :: bs => match runsOf bs with
    | (c, n) :: r => if b = c then (c, n + 1) :: r else (b, 1) :: (c, n) :: r
    | [] => [(b, 1)]

/-- Join neighbouring runs of one kind. -/
def joinRuns : List (Bool × Nat) → List (Bool × Nat)
  | [] => []
  | (b, n) :: rs => match joinRuns rs with
    | (c, k) :: r => if b = c then (c, n + k) :: r else (b, n) :: (c, k) :: r
    | [] => [(b, n)]

/-- Zero runs of two or more elements; every other element goes into literal runs. -/
def crumbRuns (xs : List Nat) : List (Bool × Nat) :=
  joinRuns ((runsOf (xs.map (· == 0))).map fun r => if r.1 && decide (2 ≤ r.2) then r else (false, r.2))

/-- Pieces of 128, the remainder last. -/
def pieces128 : Nat → Nat → List Nat
  | 0, _ => []
  | fuel + 1, n => if n = 0 then [] else if n ≤ 128 then [n] else 128 :: pieces128 fuel (n - 128)

/-- Token bytes of one run's pieces over its elements. -/
def crumbPieces (es : Nat) (zero : Bool) : List Nat → List Nat → List Byte
  | [], _ => []
  | k :: ks, xs =>
    (if zero then [BitVec.ofNat 8 (0x80 + (k - 1))] else BitVec.ofNat 8 (k - 1) :: elemBytes es (xs.take k)) ++
      crumbPieces es zero ks (xs.drop k)

/-- The token-coded payload of runs over elements. -/
def crumbTokens (es : Nat) : List (Bool × Nat) → List Nat → List Byte
  | [], _ => []
  | (z, n) :: rs, xs => crumbPieces es z (pieces128 n n) (xs.take n) ++ crumbTokens es rs (xs.drop n)

/-- ESC of an element size. -/
def escOf (es : Nat) : Nat := if es = 1 then 0 else if es = 2 then 1 else 2

/-- One chunk: header and payload. -/
def crumbChunk (es : Nat) (xs : List Nat) : List Byte :=
  let tok := crumbTokens es (crumbRuns xs) xs
  let raw := decide (xs.length * es < tok.length)
  let pay := if raw then elemBytes es xs else tok
  toLe (pay.length + b2n raw * 2 ^ 13 + (xs.length - 1) * 2 ^ 14 + escOf es * 2 ^ 26) 4 ++ pay

/-- What a decoder made of a chunk: elements, and whether the chunk was malformed. -/
structure Decoded where
  elems : List Nat
  malf : Bool
  deriving DecidableEq, Repr

/-- Decode tokens into at most `left` elements; `fuel` bounds the tokens. -/
def crumbDecode (es : Nat) : Nat → List Byte → Nat → Decoded
  | 0, _, left => ⟨[], decide (left ≠ 0)⟩
  | fuel + 1, bs, left =>
    match bs with
    | [] => ⟨[], decide (left ≠ 0)⟩
    | t :: rest =>
      let n := t.toNat % 128 + 1
      let k := min n left
      let ovf := decide (left < n)
      if t.toNat ≥ 128 then
        let r := crumbDecode es fuel rest (left - k)
        ⟨List.replicate k 0 ++ r.elems, ovf || r.malf⟩
      else
        let have' := min k (rest.length / es)
        let r := crumbDecode es fuel (rest.drop (es * n)) (left - k)
        if have' < k then ⟨elemsOf es (rest.take (es * have')), true⟩
        else ⟨elemsOf es (rest.take (es * k)) ++ r.elems, ovf || r.malf⟩

/-- Decode a chunk's slot bytes (R201). -/
def crumbDecodeChunk (es : Nat) (slot : List Byte) : Decoded :=
  let h := fieldAt slot 0 4
  let len := bitsOf h 0 13
  let nel := bitsOf h 14 12 + 1
  let raw := bitOf h 13
  if bitsOf h 26 2 ≠ escOf es ∨ bitsOf h 28 4 ≠ 0 ∨ 4100 < len then ⟨[], true⟩
  else
    let pay := bytesAt slot 4 len
    if raw then ⟨(elemsOf es (pay.take (len / es * es))).take nel, decide (len ≠ nel * es)⟩
    else crumbDecode es (len + 1) pay nel

/-- Bytes of a chunk's slot that hold header and payload. -/
def crumbUsed (slot : List Byte) : Nat := 4 + min 4100 (bitsOf (fieldAt slot 0 4) 0 13)

/-! ### Glaze (R197 to R199) -/

/-- Largest finite code of a source format, for an infinity of a sign. -/
def glazeInf (fmt : Nat) (neg : Bool) : FVal :=
  if fmt = 1 then (let v := fmtBf16.decodeFin fmtBf16.maxCode; if neg then v.neg else v)
  else (let v := fmtFp32.decodeFin fmtFp32.maxCode; if neg then v.neg else v)

/-- One sub-block of 8: scale, codes, and the elements saturated. -/
def glazeSub (fmt w : Nat) (xs : List Nat) : Nat × List Int × Nat :=
  let raw := xs.map (elemVal fmt)
  let infs := raw.filter fun v => !v.isFin && !v.isNaN
  let vs := raw.map fun v => match v with | .inf n => glazeInf fmt n | v => v
  let m := maxMag vs
  if vs.any FVal.isNaN then (0xFF, vs.map fun _ => 0, infs.length)
  else if m.isZero then (0, vs.map fun _ => 0, infs.length)
  else
    let c := (clampInt 0 254 (m.log2Floor - w + 129)).toNat
    let lim : Int := 2 ^ (w - 1) - 1
    (c, vs.map fun v => clampInt (-lim) lim (v.scale (127 - (c : Int))).toInt, infs.length)

/-- Codes packed from bit 0 upward, `w` bits each. -/
def packCodes (w : Nat) : List Int → Nat
  | [] => 0
  | q :: qs => wrapTo w q + 2 ^ w * packCodes w qs

/-- One block of 64 elements, with the elements saturated. -/
def glazeBlock (fmt b : Nat) (xs : List Nat) : List Byte × Nat :=
  let w := glazeW b
  let subs := (chunksOf 8 8 (xs ++ List.replicate (64 - xs.length) 0)).map (glazeSub fmt w)
  ((subs.map fun s => BitVec.ofNat 8 s.1) ++ toLe (packCodes w (subs.map (·.2.1)).flatten) (b - 8),
   (subs.map (·.2.2)).sum)

/-- The elements of a block, with what their conversion to the source format did. -/
def glazeDecode (fmt b : Nat) (blk : List Byte) : List Conv :=
  let w := glazeW b
  let codes := leNat (blk.drop 8)
  (List.range 64).map fun i =>
    let c := fieldAt blk (i / 8) 1
    let q := signedOf w (bitsOf codes (w * i) w)
    if c = 0xFF then convert fmt fpNaN
    else convert fmt (fpRound ((FVal.ofInt q).scale ((c : Int) - 127)))

/-! ### Streams -/

/-- An encoded stream: pieces to write by offset, the lines they hold in bytes, and counts. -/
structure Encoded where
  parts : List (Nat × List Byte)
  outBytes : Nat
  sat : Nat
  rect : Nat
  nan : Bool
  deriving DecidableEq, Repr

/-- Whole 64-byte lines that hold `n` bytes. -/
def linesFor (n : Nat) : Nat := roundUp n 64

/-- One group of a Crumb-Glaze stream: its blocks of elements (R200). -/
def crumbGlazeGroup (fmt b : Nat) (blocks : List (List Nat)) : List Byte × Nat :=
  let coded := blocks.filter fun x => x.any (· ≠ 0)
  let bitmap := blocks.zipIdx.foldl (fun acc x => acc + b2n (x.1.any (· ≠ 0)) * 2 ^ x.2) 0
  let enc := coded.map (glazeBlock fmt b)
  (toLe bitmap 8 ++ (enc.map (·.1)).flatten, (enc.map (·.2)).sum)

/-- Whether an element is a NaN. -/
def anyNan (fmt : Nat) (xs : List Nat) : Bool := xs.any fun n => decide (elemVal fmt n = .nan)

/-- Encode source bytes under a format word. -/
def encodeStream (w : Nat) (src : List Byte) : Encoded :=
  let fmt := cfSrc w
  let es := cfSize fmt
  let (xs, rect) := if cfRect w then rectify es (elemsOf es src) else (elemsOf es src, 0)
  let b := glazeB fmt (cfRatio w)
  let nan := anyNan fmt xs
  match cfMode w with
  | 0 => ⟨[(0, elemBytes es xs)], linesFor src.length, 0, rect, nan⟩
  | 1 =>
    let ch := (chunksOf (4096 / es) xs.length xs).map (crumbChunk es)
    ⟨ch.zipIdx.map fun x => (4160 * x.2, x.1), (ch.map fun c => linesFor c.length).sum, 0, rect, nan⟩
  | 2 =>
    let bl := (chunksOf 64 xs.length xs).map (glazeBlock fmt b)
    ⟨[(0, (bl.map (·.1)).flatten)], linesFor (b * bl.length), (bl.map (·.2)).sum, rect, nan⟩
  | _ =>
    let blocks := chunksOf 64 xs.length xs
    let gs := (chunksOf 64 blocks.length blocks).map (crumbGlazeGroup fmt b)
    ⟨gs.zipIdx.map fun x => (x.2 * (64 * b + 64), x.1.1), (gs.map fun g => linesFor g.1.length).sum,
     (gs.map (·.2)).sum, rect, nan⟩

/-- Chunks, blocks or groups of a stream of `n` elements, each with its slot offset, slot bytes and elements. -/
def streamSlots (w n : Nat) : List (Nat × Nat × Nat) :=
  let es := cfSize (cfSrc w)
  let b := glazeB (cfSrc w) (cfRatio w)
  let slots := fun (per size : Nat) => (List.range (ceilDiv n per)).map fun i => (i * size, size, min per (n - i * per))
  match cfMode w with
  | 0 => [(0, n * es, n)]
  | 1 => slots (4096 / es) 4160
  | 2 => slots 64 b
  | _ => slots 4096 (64 * b + 64)

/-- Bytes from the start of a stream to its end, the last slot whole. -/
def streamExtent (w n : Nat) : Nat :=
  match (streamSlots w n).getLast? with
  | some (o, size, _) => o + size
  | none => 0

/-- What a decoder makes of one slot: element bytes, whether the slot was malformed, saturated and zeroed values,
and whether a NaN came out. -/
structure SlotOut where
  bytes : List Byte
  malf : Bool
  sat : Nat
  zero : Nat
  nan : Bool
  deriving DecidableEq, Repr

/-- Converted elements as bytes, with counts. -/
def convOut (es : Nat) (cs : List Conv) (malf : Bool) : SlotOut :=
  ⟨elemBytes es (cs.map (·.bits)), malf, (cs.filter (·.sat)).length, (cs.filter (·.zeroed)).length, cs.any (·.nan)⟩

/-- Blocks of a Crumb-Glaze group: coded ones in order, the others zero. -/
def groupBlocks (fmt b bitmap : Nat) : Nat → Nat → List Byte → List Conv
  | 0, _, _ => []
  | fuel + 1, i, bs =>
    if bitOf bitmap i then glazeDecode fmt b (bs.take b) ++ groupBlocks fmt b bitmap fuel (i + 1) (bs.drop b)
    else List.replicate 64 ⟨0, false, false, false⟩ ++ groupBlocks fmt b bitmap fuel (i + 1) bs

/-- Decode one slot to `n` elements. -/
def decodeSlot (w : Nat) (slot : List Byte) (n : Nat) : SlotOut :=
  let fmt := cfSrc w
  let es := cfSize fmt
  let b := glazeB fmt (cfRatio w)
  match cfMode w with
  | 0 => ⟨slot, false, 0, 0, anyNan fmt (elemsOf es slot)⟩
  | 1 =>
    let r := crumbDecodeChunk es slot
    ⟨padTo (elemBytes es (r.elems.take n)) (n * es), r.malf, 0, 0, anyNan fmt (r.elems.take n)⟩
  | 2 => convOut es ((glazeDecode fmt b slot).take n) false
  | _ =>
    let bitmap := fieldAt slot 0 8
    let blocks := ceilDiv n 64
    convOut es ((groupBlocks fmt b bitmap blocks 0 (slot.drop 8)).take n) (bitsOf bitmap blocks (64 - blocks) != 0)

/-- Bytes of a slot that a decoder reads. -/
def slotUsed (w : Nat) (slot : List Byte) (n : Nat) : Nat :=
  let b := glazeB (cfSrc w) (cfRatio w)
  match cfMode w with
  | 1 => crumbUsed slot
  | 3 => 8 + b * ((List.range (ceilDiv n 64)).filter fun i => bitOf (fieldAt slot 0 8) i).length
  | _ => slot.length

end Sys2Proof.Machine
end

