-- ==== Sys2Proof/Machine/Praline.lean ====
section
/-! DEFINITION. Praline commands: what a tile mover translates, expands and sends, the units' operations, and their
status (08 R217 to R220; 09 R237 to R260). -/

namespace Sys2Proof.Machine

/-! ### The command (Table 9.2, Table 9.3) -/

/-- The 64 bytes of the command in a mover descriptor. -/
def praCmd (d : List Byte) : List Byte := bytesAt d 0x38 64

def pcOpc (c : List Byte) : Nat := fieldAt c 0 1
def pcMode (c : List Byte) : Nat := fieldAt c 1 1
def pcFmt (c : List Byte) : Nat := fieldAt c 2 1
def pcOfmt (c : List Byte) : Nat := fieldAt c 3 1
def pcFlags (c : List Byte) : Nat := fieldAt c 4 4
def pcBcast (c : List Byte) : Bool := bitOf (pcFlags c) 0
def pcSrc0 (c : List Byte) : Nat := fieldAt c 8 8
def pcSrc1 (c : List Byte) : Nat := fieldAt c 0x10 8
def pcSrc2 (c : List Byte) : Nat := fieldAt c 0x18 8
def pcDst (c : List Byte) : Nat := fieldAt c 0x20 8
def pcMf (c : List Byte) : Nat := fieldAt c 0x28 8
/-- ROWS, of which 0 means 65,536. -/
def pcRows (c : List Byte) : Nat := if fieldAt c 0x30 4 = 0 then 65536 else fieldAt c 0x30 4
def pcLayer (c : List Byte) : Nat := fieldAt c 0x30 2
def pcHead (c : List Byte) : Nat := fieldAt c 0x32 2
def pcCols (c : List Byte) : Nat := fieldAt c 0x34 4
def pcTok0 (c : List Byte) : Nat := fieldAt c 0x34 4
def pcNtok (c : List Byte) : Nat := fieldAt c 0x38 4

/-- Key-value operations, whose SRC0 is a page list. -/
def pcIsKv (c : List Byte) : Bool := (pcOpc c == 1 && pcMode c != 0) || pcOpc c == 5 || pcOpc c == 6

/-- Rows and columns of a dense operation are in range. -/
def pcDenseOk (c : List Byte) : Bool :=
  decide (fieldAt c 0x30 4 ≤ 65536) && decide (1 ≤ pcCols c) && decide (pcCols c ≤ 65536) && pcNtok c == 0

/-- The fields of a command are those that Table 9.3 names for its operation, in range; a field that the table does
not name is reserved. -/
def pcFieldsOk (c : List Byte) : Bool :=
  let noFmt := pcFmt c == 0 && pcOfmt c == 0
  let noFlags := pcFlags c == 0
  match pcOpc c with
  | 1 =>
    pcFmt c == 4 && pcOfmt c == 0 && noFlags &&
    (match pcMode c with
     | 0 => pcDenseOk c
     | 1 | 2 => pcMf c == 0 && pcTok0 c % 256 == 0 && pcNtok c % 256 == 0 && decide (256 ≤ pcNtok c)
     | _ => false)
  | 2 =>
    pcOfmt c == 0 && noFlags && pcSrc1 c == 0 && pcSrc2 c == 0 && pcDenseOk c &&
    (match pcMode c with
     | 0 => pcFmt c == 0 || pcFmt c == 1 || pcFmt c == 4
     | 1 => pcFmt c == 0 && pcMf c == 0
     | _ => false)
  | 3 | 4 =>
    pcMode c == 0 && decide (pcFmt c ≤ 1) && (decide (pcOfmt c ≤ 1) || pcOfmt c == 6 || pcOfmt c == 7) &&
    decide (pcFlags c ≤ 1) && pcSrc2 c == 0 && pcDenseOk c
  | 5 =>
    pcMode c == 0 && decide (pcFmt c ≤ 1) && pcOfmt c == 0 && noFlags && pcSrc2 c == 0 && pcDst c == 0 &&
    pcMf c == 0 && decide (1 ≤ pcNtok c)
  | 6 =>
    pcMode c == 0 && noFmt && noFlags && pcSrc1 c == 0 && pcSrc2 c == 0 && pcMf c == 0 && pcTok0 c % 256 == 0 &&
    pcNtok c % 16 == 0 && decide (16 ≤ pcNtok c) && decide (pcNtok c ≤ 4096)
  | 7 | 8 =>
    pcMode c == 0 && noFmt && noFlags && pcSrc1 c == 0 && pcSrc2 c == 0 && pcMf c == 0 && zeroAt c 0x30 4 &&
    cfwOk (pcNtok c) && decide (1 ≤ pcCols c) && (decide (cfMode (pcNtok c) ≤ 1) || pcCols c % 64 == 0)
  | _ => false

/-- CMD_CRC and fields (R242), and the alignment of a Millefeuille descriptor (R244). -/
def pcOk (c : List Byte) : Bool := crcOk c 0x3C && pcFieldsOk c && pcMf c % 64 == 0

/-! ### Millefeuille descriptors (R244, R245) -/

def mfT (b : List Byte) (l : Nat) : Nat × Nat := (fieldAt b (4 + 4 * l) 2, fieldAt b (6 + 4 * l) 2)
def mfIrs (b : List Byte) : Nat := fieldAt b 0x10 4
def mfStride (b : List Byte) (l : Nat) : Nat × Nat := (fieldAt b (0x14 + 8 * l) 4, fieldAt b (0x18 + 8 * l) 4)
def mfColOuter (b : List Byte) (l : Nat) : Bool := bitOf (fieldAt b 1 1) l

/-- `a` divides `b`, both at least 1. -/
def dividesPos (a b : Nat) : Bool := decide (0 < a) && decide (0 < b) && b % a == 0

/-- The rules of R244 for an operand of `rows` × `cols` elements of `es` bytes. -/
def mfOk (b : List Byte) (rows cols es : Nat) : Bool :=
  let (r0, c0) := mfT b 0
  let (r1, c1) := mfT b 1
  let (r2, c2) := mfT b 2
  crcOk b 0x3C && decide (fieldAt b 0 1 < 3) && 2 ^ fieldAt b 0 1 == es && decide (fieldAt b 1 1 < 8) &&
  zeroAt b 2 2 && zeroAt b 0x2C 16 &&
  dividesPos r0 r1 && dividesPos r1 r2 && dividesPos r2 rows && dividesPos c0 c1 && dividesPos c1 c2 &&
  dividesPos c2 cols && c0 * es % 64 == 0

/-- Offset of element (r, c) from SRC0 (R245). -/
def mfOffset (b : List Byte) (es r c : Nat) : Nat :=
  let (r0, c0) := mfT b 0
  let (r1, c1) := mfT b 1
  let (r2, c2) := mfT b 2
  (r / r2) * (mfStride b 2).1 + (c / c2) * (mfStride b 2).2 + (r % r2 / r1) * (mfStride b 1).1 +
  (c % c2 / c1) * (mfStride b 1).2 + (r % r1 / r0) * (mfStride b 0).1 + (c % c1 / c0) * (mfStride b 0).2 +
  (r % r0) * mfIrs b + (c % c0) * es

/-- Tiles of a level in walking order. -/
def tileOrder (nr nc : Nat) (colOuter : Bool) : List (Nat × Nat) :=
  if colOuter then (List.range nc).flatMap fun j => (List.range nr).map fun i => (i, j)
  else (List.range nr).flatMap fun i => (List.range nc).map fun j => (i, j)

/-- Row pieces of an operand in the order the unit walks them: row and first column (R245). -/
def mfWalk (b : List Byte) (rows cols : Nat) : List (Nat × Nat) :=
  let (r0, c0) := mfT b 0
  let (r1, c1) := mfT b 1
  let (r2, c2) := mfT b 2
  (tileOrder (rows / r2) (cols / c2) (mfColOuter b 2)).flatMap fun t2 =>
    (tileOrder (r2 / r1) (c2 / c1) (mfColOuter b 1)).flatMap fun t1 =>
      (tileOrder (r1 / r0) (c1 / c0) (mfColOuter b 0)).flatMap fun t0 =>
        (List.range r0).map fun i =>
          (t2.1 * r2 + t1.1 * r1 + t0.1 * r0 + i, t2.2 * c2 + t1.2 * c1 + t0.2 * c0)

/-! ### Page lists (R217, R218) -/

def plPool (h : List Byte) : Nat := fieldAt h 0 8
def plScale (h : List Byte) : Nat := fieldAt h 8 8
def plCap (h : List Byte) : Nat := fieldAt h 0x14 4
def plHeads (h : List Byte) : Nat := fieldAt h 0x18 2
def plLayers (h : List Byte) : Nat := fieldAt h 0x1A 2
def plD (h : List Byte) : Nat := 2 ^ fieldAt h 0x1C 1
def plHeadroom (h : List Byte) : Nat := fieldAt h 0x1D 1

/-- A page-list header is in range, for a layer, head and pages below `top`. -/
def plOk (h : List Byte) (layer head top : Nat) : Bool :=
  plPool h % 0x10000 == 0 && plScale h % 64 == 0 && decide (1 ≤ plHeads h) && decide (plHeads h ≤ 256) &&
  decide (1 ≤ plLayers h) && decide (plLayers h ≤ 1024) && decide (6 ≤ fieldAt h 0x1C 1) &&
  decide (fieldAt h 0x1C 1 ≤ 8) && decide (plHeadroom h ≤ 3) && decide (fieldAt h 0x1E 1 ≤ 3) && zeroAt h 0x1F 33 &&
  decide (layer < plLayers h) && decide (head < plHeads h) && decide (top ≤ plCap h)

/-- Frame number ((n × L + l) × H + h). -/
def plFrame (h : List Byte) (n layer head : Nat) : Nat := (n * plLayers h + layer) * plHeads h + head

/-! ### The tile mover's part (R239, R241, R248, R253, R254) -/

/-- Whether a range lies in the leaf that maps its first byte: the leaf stands in the half's cache after its
translation. -/
def State.inLeaf (s : State) (h ja len : Nat) : Bool :=
  match (s.half h).tcache.find? fun t => t.hits ja with
  | some t =>
    let span := if t.big then 0x2000000 else 0x10000
    ja / span == (ja + (len - 1)) / span
  | none => false

/-- Translate an operand: a leaf of local memory that holds all of it, or PRALINE_SPAN. -/
def State.operand (s : State) (m : MoverId) (t : MTask) (ja len : Nat) (isWrite : Bool) : Got Nat :=
  let span := fun (s : State) =>
    s.moverFault m t { newFault fPralineSpan with faddr := BitVec.ofNat 64 ja, access := BitVec.ofNat 8 (b2n isWrite) }
  match s.translate (m / 16) (moverReader m t) ja isWrite false with
  | (.held, s) => .stop (s.stallMover m wT2Fail)
  | (.bad c l e ea, s) => .stop (s.moverFault m t (xlateFault ja c l e ea isWrite))
  | (.ok 0 a, s) => if s.inLeaf (m / 16) ja len then .ok a s else .stop (span s)
  | (.ok _ _, s) => .stop (span s)

/-- Translate an operand that an operation may lack. -/
def State.operandIf (s : State) (m : MoverId) (t : MTask) (on : Bool) (ja len : Nat) (isWrite : Bool) : Got Nat :=
  if on then s.operand m t ja len isWrite else .ok 0 s

/-- The stack of a bulk operand; one in a course buffer has no unit and raises PRALINE_SPAN. -/
def State.bulkStack (s : State) (m : MoverId) (t : MTask) (a : Nat) : Got Nat :=
  if (s.region a).isHbm then .ok (a / 0x1000000000) s
  else .stop (s.moverFault m t { newFault fPralineSpan with faddr := BitVec.ofNat 64 (pcSrc0 (praCmd t.bytes)) })

/-- A command with its operands not yet known. -/
def blankCmd (m : MoverId) (i : Nat) (c : List Byte) : PCmd :=
  { mover := m, idx := i, opc := pcOpc c, mode := pcMode c, fmt := pcFmt c, ofmt := pcOfmt c, bcast := pcBcast c,
    src0 := 0, src1 := 0, src2 := 0, dst := 0, mf := none, rows := pcRows c, cols := pcCols c, cfw := 0 }

/-- An address in each operand that there is: lengths and addresses. -/
def homesOf (xs : List (Nat × Nat)) : List Nat := (xs.filter fun x => x.1 != 0).map (·.2)

/-- Bytes of an element that a dense operation reads. -/
def pcElem (c : List Byte) : Nat := if pcOpc c = 2 ∧ pcMode c = 1 then 16 else elemBits (pcFmt c) / 8

/-- Bytes of the operands SRC0, SRC1, SRC2 and DST of a dense operation; 0 where there is none. -/
def denseLens (c : List Byte) : Nat × Nat × Nat × Nat :=
  let r := pcRows c
  let n := pcCols c
  let es := pcElem c
  match pcOpc c with
  | 1 => (r * n, n, 4 * (r + 1), 4 * r)
  | 2 => (r * n * es, 0, 0, 16 * r)
  | 3 | 4 => (r * n * es, if pcBcast c then n * es else r * n * es, 0, r * n * (elemBits (pcOfmt c) / 8))
  | 7 =>
    let w := pcNtok c
    (n * cfSize (cfSrc w), 0, 0, streamExtent w n)
  | _ =>
    let w := pcNtok c
    (streamExtent w n, 0, 0, n * cfSize (cfSrc w))

/-- A dense or coding command with device addresses, and its stack. -/
def State.denseCmd (s : State) (m : MoverId) (t : MTask) (c : List Byte) : Got (Nat × PCmd) :=
  let (n0, l1, l2, ld) := denseLens c
  let coding := pcOpc c == 7 || pcOpc c == 8
  let mfRead := if pcMf c = 0 then Got.ok ([], []) s else s.jobGet m t (pcMf c) 64
  match mfRead with
  | .stop s => .stop s
  | .ok (mb, _) s =>
    let es := pcElem c
    let mfBad := pcMf c != 0 && !mfOk mb (pcRows c) (pcCols c) es
    let l0 := if pcMf c = 0 then n0 else if mfBad then 1
      else mfOffset mb es (pcRows c - 1) (pcCols c - 1) + es
    match s.operand m t (pcSrc0 c) l0 false with
    | .stop s => .stop s
    | .ok a0 s => match s.bulkStack m t a0 with
      | .stop s => .stop s
      | .ok st s => match s.operandIf m t (l1 != 0) (pcSrc1 c) l1 false with
        | .stop s => .stop s
        | .ok a1 s => match s.operandIf m t (l2 != 0) (pcSrc2 c) l2 false with
          | .stop s => .stop s
          | .ok a2 s => match s.operandIf m t (pcMf c != 0) (pcMf c) 64 false with
            | .stop s => .stop s
            | .ok am s => match s.operand m t (pcDst c) ld true with
              | .stop s => .stop s
              | .ok ad s =>
                let bulk1 := (pcOpc c == 3 || pcOpc c == 4) && !pcBcast c
                let side := (if bulk1 then 0 else l1) + l2
                let bulk := n0 + if bulk1 then l1 else 0
                let bad := mfBad || decide (0x80000 < side) || decide (0x2000000 < bulk) ||
                  (bulk1 && a1 / 0x1000000000 != st)
                let homes := homesOf [(l0, a0), (l1, a1), (l2, a2), (pcMf c, am), (ld, ad)]
                let x : PCmd := { blankCmd m 0 c with src0 := a0, src1 := a1, src2 := a2, dst := ad, bad, homes }
                let mf := if pcMf c = 0 then none else some am
                let cfw : Word := if coding then BitVec.ofNat 32 (pcNtok c) else 0
                .ok (st, { x with mf := mf, cfw := cfw }) s

/-- Pages that a key-value command touches: the first and how many. -/
def kvPages (c : List Byte) : Nat × Nat :=
  let first := pcTok0 c / 256
  (first, (pcTok0 c + pcNtok c - 1) / 256 + 1 - first)

/-- The commands that a descriptor expands into: one per page, or one per frame part for APPEND and GATHER. -/
def pcCount (c : List Byte) : Nat :=
  if ¬ pcOk c then 1
  else match pcOpc c with
    | 1 => if pcMode c = 0 then 1 else (kvPages c).2
    | 5 | 6 => 2 * (kvPages c).2
    | _ => 1

/-- The frame of a page: its list entry is read, and an unassigned one raises KV_UNASSIGNED for the host (R219). -/
def State.kvFrame (s : State) (m : MoverId) (t : MTask) (c hd : List Byte) (page : Nat) : Got Nat :=
  let ea := pcSrc0 c + 64 + 4 * page
  match s.jobGet m t ea 4 with
  | .stop s => .stop s
  | .ok (e, fl) s =>
    if fl.any id then .stop (s.moverFault m t (addrFault fXlPoison ea 0 false))
    else if leNat e = 0xFFFFFFFF then .stop (s.moverFault m t (addrFault fKvUnassigned ea 0 false))
    else .ok (plFrame hd (leNat e) (pcLayer c) (pcHead c)) s

/-- What the whole of a key-value command's own operands must hold to: SRC1, SRC2 and DST each in one leaf. -/
def kvLens (c hd : List Byte) : Nat × Nat × Nat :=
  let d := plD hd
  let n := (kvPages c).2
  match pcOpc c, pcMode c with
  | 1, 1 => (d, 4, 1024 * n)
  | 1, _ => (256 * n, 4 * n, 4 * d * n)
  | 5, _ => (2 * pcNtok c * d * (elemBits (pcFmt c) / 8), 0, 0)
  | _, _ => (0, 0, 2 * pcNtok c * d + 8 * n)

/-- Command `i` of a key-value descriptor. -/
def State.kvCmd (s : State) (m : MoverId) (t : MTask) (c hd : List Byte) (i : Nat) : Got (Nat × PCmd) :=
  let d := plD hd
  let parts := if pcOpc c = 1 then 1 else 2
  let j := i / parts
  let part := if pcOpc c = 1 then pcMode c - 1 else i % 2
  let page := (kvPages c).1 + j
  let (l1, l2, ld) := kvLens c hd
  match s.kvFrame m t c hd page with
  | .stop s => .stop s
  | .ok f s =>
    let app := pcOpc c == 5
    let sja := plScale hd + 16 * f
    match s.operand m t (plPool hd + f * (512 * d) + part * (256 * d)) (256 * d) app with
    | .stop s => .stop s
    | .ok a0 s => match s.bulkStack m t a0 with
      | .stop s => .stop s
      | .ok st s => match s.jobGet m t sja 16 with
        | .stop s => .stop s
        | .ok (rec', fl) s => match s.operand m t sja 16 app with
          | .stop s => .stop s
          | .ok sa s => match s.operandIf m t (l1 != 0) (pcSrc1 c) l1 false with
            | .stop s => .stop s
            | .ok a1 s => match s.operandIf m t (l2 != 0) (pcSrc2 c) l2 false with
              | .stop s => .stop s
              | .ok a2 s => match s.operandIf m t (ld != 0) (pcDst c) ld true with
                | .stop s => .stop s
                | .ok ad s =>
                  let s := if fl.any id then s.modMover m fun g => { g with poisoned := true } else s
                  let ks : Word := BitVec.ofNat 32 (fieldAt rec' (4 * part) 4)
                  let nanIn := bitOf (leNat rec') (96 + part)
                  let base := { blankCmd m i c with src0 := a0, scale := sa, part := part, d := d, ks := ks }
                  let homes := homesOf [(1, a0), (if app then 1 else 0, sa), (l1, a1), (l2, a2), (ld, ad)]
                  let base := { base with headroom := plHeadroom hd, nanIn := nanIn, homes := homes }
                  match pcOpc c, pcMode c with
                  | 1, 1 => .ok (st, { base with src1 := a1, src2 := a2, dst := ad + 1024 * j }) s
                  | 1, _ => .ok (st, { base with src1 := a1 + 256 * j, src2 := a2 + 4 * j, dst := ad + 4 * d * j }) s
                  | 5, _ =>
                    let es := elemBits (pcFmt c) / 8
                    let lo := max (pcTok0 c) (256 * page)
                    let hi := min (pcTok0 c + pcNtok c) (256 * (page + 1))
                    let off := (part * pcNtok c + (lo - pcTok0 c)) * d * es
                    .ok (st, { base with src1 := a1 + off, dst := a0, tok := lo - 256 * page, ntok := hi - lo }) s
                  | _, _ =>
                    let nk := min 256 (pcNtok c - 256 * j)
                    let dst := if part = 0 then ad + 256 * j * d else ad + pcNtok c * d + 256 * j
                    let np := ceilDiv (pcNtok c) 256
                    let sc := ad + 2 * pcNtok c * d + 4 * j
                    -- the mover writes this page's KS with the K part, its VS with the V part
                    let s := s.writeMarked (sc + part * (4 * np)) (bytesAt rec' (4 * part) 4)
                      (wordFlags 5 (sc + part * (4 * np)) (List.replicate 4 (((fl.drop (4 * part)).take 4).any id)))
                    .ok (st, { base with dst, ntok := nk, tok := pcNtok c }) s

/-- A malformed command goes to the stack that holds its SRC0 page or operand, or to stack 0, whose unit refuses
it. -/
def State.badCmd (s : State) (m : MoverId) (t : MTask) (c : List Byte) (i : Nat) : Got (Nat × PCmd) :=
  match s.translate (m / 16) (moverReader m t) (pcSrc0 c) false false with
  | (.held, s) => .stop (s.stallMover m wT2Fail)
  | (.bad e l x ea, s) => .stop (s.moverFault m t (xlateFault (pcSrc0 c) e l x ea false))
  | (.ok tgt a, s) =>
    let st := if tgt = 0 ∧ (s.region a).isHbm then a / 0x1000000000 else 0
    .ok (st, { blankCmd m i c with bad := true }) s

/-- Expanded command `i` of a descriptor, with its stack. -/
def State.expand (s : State) (m : MoverId) (t : MTask) (i : Nat) : Got (Nat × PCmd) :=
  let c := praCmd t.bytes
  if ¬ pcOk c then s.badCmd m t c i
  else if ¬ pcIsKv c then s.denseCmd m t c
  else match s.jobGet m t (pcSrc0 c) 64 with
    | .stop s => .stop s
    | .ok (hd, fl) s =>
      let (first, n) := kvPages c
      if fl.any id then .stop (s.moverFault m t (addrFault fXlPoison (pcSrc0 c) 0 false))
      else if ¬ plOk hd (pcLayer c) (pcHead c) (first + n) then s.badCmd m t c i
      else s.kvCmd m t c hd i

/-- A status not yet done keeps the restart point at its command: that of a Praline descriptor (RKIND 2) names the lowest
command not done (R306, R307). -/
def Mover.atOldest (g : Mover) : Mover :=
  if g.restart.rkind = 2 then { g with restart := { g.restart with off := BitVec.ofNat 32 (g.prOpen.foldl min g.prNext) } }
  else g

/-- Send the commands that remain, while the units' queues of 32 have room; then wait for their status. -/
def issueLoop (m : MoverId) (t : MTask) : Nat → State → State
  | 0, s => s
  | fuel + 1, s =>
    let i := (s.mover m).prNext
    if pcCount (praCmd t.bytes) ≤ i then
      if (s.mover m).prOpen = [] then s.endTask m t stOk
      else s.modMover m fun g => { g with wait := .praline, hold := 0 }
    else match s.expand m t i with
      | .stop s => s
      | .ok (st, c) s =>
        if (s.stack st).prFenced then s.moverFault m t (newFault fMoverMalformed)
        else if 32 ≤ (s.stack st).queue.length then s.stallMover m wPralineBusy
        else
          let s := s.modStack st fun x => { x with queue := x.queue ++ [c] }
          issueLoop m t fuel (s.modMover m fun g =>
            ({ g with prOpen := g.prOpen ++ [i], prNext := i + 1, hold := 0 } : Mover).atOldest)

/-- MOVE_PRALINE (R239). -/
def execMovePraline (m : MoverId) (s : State) : Out :=
  if ¬ s.variant.hasMover m then .next s
  else if ¬ s.moverRuns m then .next s
  else .next (s.runTask m 2 fun t s => issueLoop m t (pcCount (praCmd t.bytes) + 1) s)

/-! ### The unit (R242, R243, R257) -/

/-- Memory that a unit reads, with every error reported (READER 2). -/
def State.unitRead (s : State) (st a len : Nat) : List Byte × Bool × State :=
  s.readMem { kind := 2, id := st, owner := .job } a len

/-- Report the bad words of a range as they are read. -/
def State.unitNote (s : State) (st a len : Nat) : State := (s.unitRead st a len).2.2

/-- A bulk operand by logical rows of bytes, walked in the order of its Millefeuille descriptor; no rows where the
descriptor breaks R244. A bad word of the descriptor counts as one of the operand. -/
def State.unitMatrix (s : State) (st : Nat) (c : PCmd) (es : Nat) : Option (List (List Byte)) × Bool × State :=
  match c.mf with
  | none =>
    let n := c.rows * c.cols * es
    let (bs, bad, s) := s.unitRead st c.src0 n
    (some (chunksOf (c.cols * es) c.rows bs), bad, s)
  | some am =>
    let (mb, mfBad, s) := s.unitRead st am 64
    if ¬ mfOk mb c.rows c.cols es then (none, mfBad, s)
    else
      let w := (mfT mb 0).2
      let at_ := fun r k => c.src0 + mfOffset mb es r k
      let walk := mfWalk mb c.rows c.cols
      let rows := (List.range c.rows).map fun r =>
        ((List.range (c.cols / w)).map fun k => s.peek (at_ r (k * w)) (w * es)).flatten
      let bad := walk.any fun x => s.mem.anyBad (at_ x.1 x.2) (w * es)
      (some rows, mfBad || bad, walk.foldl (fun s x => s.unitNote st (at_ x.1 x.2) (w * es)) s)

/-- A unit's status from counts, each saturating at 2^24 − 1 (R256). -/
def praStat (c : PCmd) (sat zeroed : Nat) (nan poison : Bool) : PStat :=
  { mover := c.mover, idx := c.idx, sat := min sat (2 ^ 24 - 1), zero := min zeroed (2 ^ 24 - 1), nan, poison }

/-- The status of a command of which nothing runs; its fault names it later (R242). -/
def malformedStat (c : PCmd) (poison : Bool) : PStat := { mover := c.mover, idx := c.idx, status := 1, poison }

/-- Bytes of FP32 words. -/
def wordsBytes (ws : List Word) : List Byte := (ws.map fun w => toLe w.toNat 4).flatten

/-- The exact dot product of two rows of INT8 bytes. -/
def dotInt8 (a b : List Byte) : Int := ((a.zip b).map fun x => signedOf 8 x.1.toNat * signedOf 8 x.2.toNat).sum

/-- Scale an exact integer: fp32(fp32(fp32(s) × a) × b). -/
def scaleTwice (i : Int) (a b : Word) : Word := fpMul (fpMul (fpOfInt i) a) b

/-- An FP32 word of bytes. -/
def wordAt (b : List Byte) (i : Nat) : Word := BitVec.ofNat 32 (fieldAt b (4 * i) 4)

/-- MV mode 0 (R247). -/
def runMvDense (st : Nat) (c : PCmd) (s : State) : PStat × State :=
  match s.unitMatrix st c 1 with
  | (none, b, s) => (malformedStat c b, s)
  | (some rows, b0, s) =>
    let (x, b1, s) := s.unitRead st c.src1 c.cols
    let (sc, b2, s) := s.unitRead st c.src2 (4 * (c.rows + 1))
    let y := rows.zipIdx.map fun r => scaleTwice (dotInt8 r.1 x) (wordAt sc 0) (wordAt sc (r.2 + 1))
    (praStat c 0 0 (y.any fpIsNaN) (b0 || b1 || b2), s.writeMem c.dst (wordsBytes y))

/-- MV modes 1 and 2 on one frame part: `n` rows of `w` bytes against one vector (R248). -/
def runMvFrame (n w : Nat) (st : Nat) (c : PCmd) (s : State) : PStat × State :=
  let (bs, b0, s) := s.unitRead st c.src0 (n * w)
  let (x, b1, s) := s.unitRead st c.src1 w
  let (sc, b2, s) := s.unitRead st c.src2 4
  let y := (chunksOf w n bs).map fun r => scaleTwice (dotInt8 r x) (wordAt sc 0) c.ks
  (praStat c 0 0 (c.nanIn || y.any fpIsNaN) (b0 || b1 || b2), s.writeMem c.dst (wordsBytes y))

/-! ### Statistics (R177, R251) -/

/-- The record of a chunk of up to 32 elements (R177). -/
def chunkStat (rcp : Word → Word) (xs : List Word) : StatRec :=
  let n := xs.length
  let x0 := xs.headD 0
  let pad := List.replicate (32 - n) fpZero
  let mean := fpAdd x0 (fpMul (rsum ((xs.map fun x => fpSub x x0) ++ pad)) (rcp (fpOfInt n)))
  let m2 := rsum ((xs.map fun x => let e := fpSub x mean; fpMul e e) ++ pad)
  ⟨n, mean, m2⟩

/-- One level of the merge tree: (2j, 2j + 1) merge, an odd record rises unchanged. -/
def mergeLevel (rcp : Word → Word) : List StatRec → List StatRec
  | a :: b :: rest => smerge rcp a b :: mergeLevel rcp rest
  | l => l

/-- The binary tree over records; `fuel` bounds its levels. -/
def mergeTree (rcp : Word → Word) : Nat → List StatRec → StatRec
  | 0, l => l.headD ⟨0, 0, 0⟩
  | fuel + 1, l => if l.length ≤ 1 then l.headD ⟨0, 0, 0⟩ else mergeTree rcp fuel (mergeLevel rcp l)

/-- The record of a row (R177). -/
def rowStat (rcp : Word → Word) (xs : List Word) : StatRec :=
  mergeTree rcp xs.length ((chunksOf 32 xs.length xs).map (chunkStat rcp))

/-- Elements of a row as FP32 words, exactly. -/
def rowWords (fmt es : Nat) (bs : List Byte) : List Word := (elemsOf es bs).map fun n => fpRound (elemVal fmt n)

/-- Write records and report (R251). -/
def statsOut (c : PCmd) (recs : List StatRec) (bad : Bool) (s : State) : PStat × State :=
  (praStat c 0 0 (recs.any fun r => fpIsNaN r.mean || fpIsNaN r.m2) bad,
   s.writeMem c.dst (recs.map StatRec.bytes).flatten)

/-- STATS mode 0. -/
def runStatsRows (st : Nat) (c : PCmd) (s : State) : PStat × State :=
  let es := elemBits c.fmt / 8
  match s.unitMatrix st c es with
  | (none, b, s) => (malformedStat c b, s)
  | (some rows, bad, s) => statsOut c (rows.map fun r => rowStat (sfuRcp s.jobTables) (rowWords c.fmt es r)) bad s

/-- STATS mode 1. -/
def runStatsMerge (st : Nat) (c : PCmd) (s : State) : PStat × State :=
  match s.unitMatrix st c 16 with
  | (none, b, s) => (malformedStat c b, s)
  | (some rows, bad, s) =>
    let tree := fun (r : List Byte) => mergeTree (sfuRcp s.jobTables) c.cols ((chunksOf 16 c.cols r).map StatRec.ofBytes)
    statsOut c (rows.map tree) bad s

/-! ### Element-wise (R252) -/

/-- EADD and EMUL. -/
def runElementwise (op : Word → Word → Word) (st : Nat) (c : PCmd) (s : State) : PStat × State :=
  let es := elemBits c.fmt / 8
  match s.unitMatrix st c es with
  | (none, b, s) => (malformedStat c b, s)
  | (some rows, b0, s) =>
    let (ys, b1, s) := s.unitRead st c.src1 (if c.bcast then c.cols * es else c.rows * c.cols * es)
    let row := fun i => rowWords c.fmt es (if c.bcast then ys else bytesAt ys (i * c.cols * es) (c.cols * es))
    let z := rows.zipIdx.flatMap fun r => List.zipWith (fun a b => convert c.ofmt (op a b)) (rowWords c.fmt es r.1) (row r.2)
    let out := (z.map fun v => toLe v.bits (elemBits c.ofmt / 8)).flatten
    (praStat c (z.filter (·.sat)).length (z.filter (·.zeroed)).length (z.any (·.nan)) (b0 || b1),
          s.writeMem c.dst out)

/-! ### APPEND (R220, R253) -/

/-- The scale of a fresh part: 1.0, or m × 2^h / 127 rounded once. -/
def appendScale (h : Nat) (vs : List FVal) : Word :=
  match maxMag vs with
  | .fin _ m e =>
    if m = 0 then fpOne
    else
      -- 64 more bits of quotient and a sticky bit keep the rounding exact
      let n := m <<< 72
      let q := 2 * (n / 127) + (if n % 127 = 0 then 0 else 1)
      fpRound (.fin false q (e + h - 73))
  | _ => fpOne

/-- The nearest integer to x / s, ties to even, for finite values and s not zero. -/
def quotInt (x s : FVal) : Int :=
  match x, s with
  | .fin xn xm xe, .fin sn sm se =>
    if sm = 0 then 0
    else
      let d := xe - se
      let num := if 0 ≤ d then xm <<< d.toNat else xm
      let den := if 0 ≤ d then sm else sm <<< (-d).toNat
      let q := num / den
      let r := num % den
      let k := if 2 * r > den ∨ (2 * r = den ∧ q % 2 = 1) then q + 1 else q
      if xn != sn then -(k : Int) else (k : Int)
  | _, _ => 0

/-- Whether a stored scale is positive and finite, as Table 8.8 requires. -/
def scaleOk (scale : Word) : Bool := (fpVal scale).isFin && FVal.lt (.fin false 0 0) (fpVal scale)

/-- One appended element: its code, whether it was clamped, whether it was a NaN. The quotient by a stored scale that
is not positive and finite is a free value. -/
def appendElem (scale : Word) (x : Word) : Int × Bool × Bool :=
  match fpVal x with
  | .nan => (0, false, true)
  | .inf n => (if n then -127 else 127, true, false)
  | v =>
    let q := if scaleOk scale then quotInt v (fpVal scale) else Config.oddQuotient x scale
    (clampInt (-127) 127 q, decide (q < -127) || decide (127 < q), false)

/-- The scale record after an append of tokens `tok` to `tok + n − 1` into a part (Table 8.8). -/
def newScaleRec (old : List Byte) (part tok n : Nat) (scale : Word) (sats : Nat) (nan : Bool) : List Byte :=
  let o := leNat old
  let sat := min 255 (bitsOf o (80 + 8 * part) 8 + sats)
  let fill := max (bitsOf o 64 9) (tok + n)
  let b := putAt old (4 * part) (toLe scale.toNat 4)
  let b := putAt b 8 (toLe (bitsOf o 64 16 / 2 ^ 9 * 2 ^ 9 + fill) 2)
  let b := putAt b (10 + part) (toLe sat 1)
  putAt b 12 (toLe (bitsOf o 96 32 ||| (b2n nan * 2 ^ part)) 4)

/-- APPEND of one frame part. -/
def runAppend (st : Nat) (c : PCmd) (s : State) : PStat × State :=
  let es := elemBits c.fmt / 8
  let (src, b0, s) := s.unitRead st c.src1 (c.ntok * c.d * es)
  let (old, b1, s) := s.unitRead st c.scale 16
  let vs := rowWords c.fmt es src
  let fresh := c.tok = 0
  let scale := if fresh then appendScale c.headroom (vs.map fpVal) else c.ks
  let out := vs.map (appendElem scale)
  let code := fun i => BitVec.ofNat 8 (wrapTo 8 (out.getD i (0, false, false)).1)
  let s :=
    if c.part = 0 then
      -- K rows, token-major
      s.writeMem (c.dst + c.tok * c.d)
        ((List.range (c.ntok * c.d)).map code ++ (if fresh then zeros ((256 - c.ntok) * c.d) else []))
    else
      -- V transposed: row e holds the keys
      (List.range c.d).foldl (fun s e =>
        s.writeMem (c.dst + 256 * e + c.tok)
          ((List.range c.ntok).map (fun k => code (k * c.d + e)) ++ (if fresh then zeros (256 - c.ntok) else []))) s
  let sats := (out.filter (·.2.1)).length
  let nan := out.any (·.2.2)
  let s := s.writeMem c.scale (newScaleRec old c.part c.tok c.ntok scale sats nan)
  (praStat c sats 0 (nan || c.nanIn) (b0 || b1), s)

/-! ### GATHER (R254) -/

/-- Copy bytes with their bad words. -/
def State.unitCopy (s : State) (st src dst len : Nat) : Bool × State :=
  let fl := (List.range len).map fun i => s.mem.bad ((src + i) / 4)
  let (bs, bad, s) := s.unitRead st src len
  (bad, s.writeMarked dst bs (wordFlags (len + 1) dst fl))

/-- GATHER of one frame part: `tok` holds NTOK, the row length of V. -/
def runGather (st : Nat) (c : PCmd) (s : State) : PStat × State :=
  if c.part = 0 then
    let (bad, s) := s.unitCopy st c.src0 c.dst (c.ntok * c.d)
    (praStat c 0 0 c.nanIn bad, s)
  else
    let r := (List.range c.d).foldl (fun (acc : Bool × State) e =>
      let (bad, s) := acc.2.unitCopy st (c.src0 + 256 * e) (c.dst + c.tok * e) c.ntok
      (acc.1 || bad, s)) (false, s)
    (praStat c 0 0 c.nanIn r.1, r.2)

/-! ### Coding (R255) -/

/-- ENCODE. -/
def runEncode (st : Nat) (c : PCmd) (s : State) : PStat × State :=
  let w := c.cfw.toNat
  let (src, bad, s) := s.unitRead st c.src0 (c.cols * cfSize (cfSrc w))
  let e := encodeStream w src
  let s := e.parts.foldl (fun s p => s.writeMem (c.dst + p.1) p.2) s
  ({ praStat c e.sat 0 e.nan bad with out := e.outBytes, rect := min e.rect (2 ^ 24 - 1) }, s)

/-- DECODE: a malformed stream marks the output poisoned (R201). -/
def runDecode (st : Nat) (c : PCmd) (s : State) : PStat × State :=
  let w := c.cfw.toNat
  let es := cfSize (cfSrc w)
  let r := (streamSlots w c.cols).foldl (fun (acc : List SlotOut × Bool × State) x =>
    let slot := acc.2.2.peek (c.src0 + x.1) x.2.1
    let used := slotUsed w slot x.2.2
    let bad := acc.2.2.mem.anyBad (c.src0 + x.1) used
    (acc.1 ++ [decodeSlot w slot x.2.2], acc.2.1 || bad, acc.2.2.unitNote st (c.src0 + x.1) used)) ([], false, s)
  let outs := r.1
  let bytes := (outs.map (·.bytes)).flatten
  let malf := outs.any (·.malf)
  ({ praStat c (outs.map (·.sat)).sum (outs.map (·.zero)).sum (outs.any (·.nan)) (r.2.1 || malf) with malf },
        r.2.2.writeMem c.dst (bytes.take (c.cols * es)))

/-! ### Execution -/

/-- The oldest command leaves the queue, and its status is returned. -/
def State.endCmd (s : State) (st : Nat) (x : PStat) : State :=
  s.modStack st fun k => { k with queue := k.queue.drop 1, status := k.status ++ [x] }

/-- A malformed command: none of it runs, and the unit raises PRALINE_CMD (R242). -/
def State.refuseCmd (s : State) (st : StackId) (x : PStat) : State :=
  let seq := s.seqOf (srcPraline st)
  (s.raiseFault (.praline st) (newFault fPralineCmd)).endCmd st { x with recSeq := seq }

/-- A unit counts a stall. -/
def State.stallUnit (s : State) (st cause : Nat) : State :=
  s.modStack st fun x => { x with stalls := bumpStall x.stalls cause }

/-- Whether an operand of a command lies in a fenced stack (R233, R260). -/
def State.cmdHeld (s : State) (c : PCmd) : Bool := c.homes.any s.stackHeld

/-- A unit that works on a stack in thermal hold counts T2_LATE (R412). -/
def State.slowUnit (s : State) (st : Nat) (c : PCmd) : State :=
  if c.homes.any s.stackSlow then s.stallUnit st wT2Late else s

/-- Run the oldest command of a unit where it is of the operation named; a fenced stack, its own or that of an operand,
holds it under T2_FAIL, and a held fault under FAULT_WAIT (R243, R260). -/
def State.runUnit (s : State) (st : StackId) (opc mode : Nat) (go : Nat → PCmd → State → PStat × State) : Out :=
  let k := s.stack st
  if ¬ s.variant.hasStack st then .next s
  else match k.queue with
    | [] => .next s
    | c :: _ =>
      if ¬ (c.bad ∨ (c.opc = opc ∧ c.mode = mode)) ∨ ¬ s.regionUp (st / 8) ∨ k.selfRefresh then .next s
      else if k.fault.isSome then .next (s.stallUnit st wFaultWait)
      else if s.isFenced (srcPraline st) ∨ s.cmdHeld c then .next (s.stallUnit st wT2Fail)
      else if c.bad then .next (s.refuseCmd st (malformedStat c false))
      else
        let r := go st c (s.slowUnit st c)
        .next (if r.1.status = 1 then r.2.refuseCmd st r.1 else r.2.endCmd st r.1)

/-- MV_DENSE (R247). -/
def execMvDense (st : StackId) (s : State) : Out := s.runUnit st 1 0 runMvDense
/-- MV_K_FRAME (R248). -/
def execMvKFrame (st : StackId) (s : State) : Out := s.runUnit st 1 1 fun n c s => runMvFrame 256 c.d n c s
/-- MV_V_FRAME (R248). -/
def execMvVFrame (st : StackId) (s : State) : Out := s.runUnit st 1 2 fun n c s => runMvFrame c.d 256 n c s
/-- STATS_ROWS (R251). -/
def execStatsRows (st : StackId) (s : State) : Out := s.runUnit st 2 0 runStatsRows
/-- STATS_MERGE (R251). -/
def execStatsMerge (st : StackId) (s : State) : Out := s.runUnit st 2 1 runStatsMerge
/-- PRALINE_EADD (R252). -/
def execPralineEadd (st : StackId) (s : State) : Out := s.runUnit st 3 0 (runElementwise fpAdd)
/-- EMUL (R252). -/
def execEmul (st : StackId) (s : State) : Out := s.runUnit st 4 0 (runElementwise fpMul)
/-- APPEND (R220, R253). -/
def execAppend (st : StackId) (s : State) : Out := s.runUnit st 5 0 runAppend
/-- GATHER (R254). -/
def execGather (st : StackId) (s : State) : Out := s.runUnit st 6 0 runGather
/-- ENCODE (R255). -/
def execEncode (st : StackId) (s : State) : Out := s.runUnit st 7 0 runEncode
/-- DECODE (R255). -/
def execDecode (st : StackId) (s : State) : Out := s.runUnit st 8 0 runDecode

/-! ### Status (R256) -/

/-- Fold a status into the mover that sent the command; one that is not done leaves the command open, so that the restart
point keeps it. -/
def Mover.foldStat (g : Mover) (x : PStat) : Mover :=
  let cap := 2 ^ 24 - 1
  { g with prOpen := if x.status = 0 then g.prOpen.erase x.idx else g.prOpen,
           prReturned := g.prReturned + b2n (x.status == 0),
           prSat := min cap (g.prSat + x.sat), prZero := min cap (g.prZero + x.zero),
           prRect := min cap (g.prRect + x.rect), prOut := g.prOut + x.out,
           prFlags := g.prFlags ||| BitVec.ofNat 8 (b2n x.poison + 2 * b2n x.nan + 4 * b2n x.malf),
           poisoned := g.poisoned || x.poison }

/-- A status reaches its mover: MALFORMED raises the mover's own fault, which names the unit's record and the command; the
last status completes the descriptor. -/
def State.returnStat (s : State) (st : Nat) (x : PStat) : State :=
  let m := x.mover
  let s := s.modMover m fun g => (g.foldStat x).atOldest
  match (s.mover m).cur with
  | none => s
  | some t =>
    if x.status = 1 then
      if (s.mover m).fault.isSome then s
      else
        let at_ : Restart := { (s.mover m).restart with off := BitVec.ofNat 32 x.idx }
        s.moverFault m t { newFault fPralineCmd with restart := at_ } wFaultWait (srcPraline st, x.recSeq)
    else if (s.mover m).wait = .praline ∧ (s.mover m).prOpen = [] then
      if (s.mover m).fault.isNone ∧ s.moverRuns m then s.endTask m t stOk
      else s.modMover m fun g => { g with wait := .none }
    else s

/-- PRALINE_STATUS (R256). -/
def execPralineStatus (st : StackId) (s : State) : Out :=
  if ¬ s.variant.hasStack st then .next s
  else match (s.stack st).status with
    | [] => .next s
    | x :: rest => .next ((s.modStack st fun k => { k with status := rest }).returnStat st x)

/-- The status of a command returned unrun. -/
def abandonedStat (c : PCmd) : PStat := { mover := c.mover, idx := c.idx, status := 2 }

/-- A mover that has its statuses at a pre-emption: it sends again from the first command that is not done. -/
def Mover.rewindPra (g : Mover) : Mover := { g.atOldest with prNext := g.prOpen.foldl min g.prNext, prOpen := [] }

/-- Pre-emption: the commands of every unit return unrun with ABANDONED after the statuses that wait, and each mover's
restart point names the first of its commands that is not done (R260). -/
def State.abandonCommands (s : State) : State :=
  let s := (List.range 16).foldl (fun s st =>
    let k := s.stack st
    let s := s.modStack st fun k => { k with queue := [], status := [] }
    (k.status ++ k.queue.map abandonedStat).foldl (fun s x => s.modMover x.mover fun g => g.foldStat x) s) s
  (List.range 32).foldl (fun s m => s.modMover m Mover.rewindPra) s

end Sys2Proof.Machine
end

