-- ==== Sys2Proof/Machine/Finish.lean ====
section
/-! DEFINITION. Stopping the units of a job and ending it: held faults, claims, movers and commands at a pre-emption or
an end (11 R313 to R315; 05 R145; 06 R180; 07 R191; 09 R260; 15 R422, R427; 08 R232). -/

namespace Sys2Proof.Machine

/-! ### Stopping -/

/-- The units that can hold a fault of a job: engines, half movers, stewards, work counters, sort units, Praline
units. -/
def jobUnits : List FaultUnit :=
  (List.range 64).map (fun n => .engine (Fin.ofNat 64 n)) ++ (List.range 32).map (fun n => .mover (Fin.ofNat 48 n)) ++
  (List.range 8).map (fun n => .steward (Fin.ofNat 8 n)) ++ (List.range 8).map (fun n => .counter (Fin.ofNat 8 n)) ++
  (List.range 8).map (fun n => .sorter (Fin.ofNat 8 n)) ++ (List.range 16).map (fun n => .praline (Fin.ofNat 16 n))

/-- End every held fault of the job with an outcome, the second one of an engine after its first; a host's CANCEL answers
the host-resolved ones (R310, R312). -/
def State.stopFaults (s : State) (out : FaultEnd) (byHost : Bool) : State :=
  (jobUnits ++ jobUnits.take 64).foldl (fun s u => match s.faultOf u with
    | some f =>
      if ¬ f.ofJob then s
      else if f.escalated then s.setFault u none
      else (s.settleFault u out (byHost && f.host)).setLastRestart u none
    | none => s) s

/-- Causes under which a hold cannot end by itself (Table 8.13, R314). -/
def failHold (h : Byte) : Bool := decide (0x07 ≤ h.toNat) && decide (h.toNat ≤ 0x0D)

/-- A tile held under FABRIC_STARVE is abandoned: its value becomes unissued and its active set is discarded; its debit
stands (R314, R410). -/
def State.abandonTile (s : State) (e : Nat) : State :=
  match (s.engine e).run with
  | none => s
  | some t =>
    let back := fun (r : Range) =>
      if r.holds t.value then { r with issued := r.issued.filter fun p => p.1 != r.offset t.value } else r
    (s.modCourse (e / 8) fun c => { c with ranges := c.ranges.map back }).modEngine e fun x =>
      { x.setActive [] with run := none }

/-- An engine whose job stops: a load stops, a starved tile is abandoned, and a write-back held under a failure stops until
the resume (R314, Table 3.6). A pre-emption returns the claimed value and its credits (R145); any other end drops it and
returns no credits (R410). -/
def State.stopEngine (pre : Bool) (s : State) (e : Nat) : State :=
  let x := s.engine e
  let s := if x.hold.toNat = wFabricStarve then s.abandonTile e else s
  let s := if pre then s.returnClaim e else s
  s.modEngine e fun x =>
    { x with claim := none, loading := none, hold := 0, drainFirst := x.drainFirst || (failHold x.hold && !x.wbQ.isEmpty) }

/-- A half mover at the signal: it waits for nothing; its restart point stands (R307, R314). -/
def Mover.stop (g : Mover) : Mover := { g with wait := .none, hold := 0 }

/-- Whether a mover is a half mover. -/
def isHalfMover (m : MoverId) : Bool := decide (m.val < 32)

/-- Requests that half movers have outstanding lose their mover; what still arrives for them is discarded. An atomic of a
pre-empted job stays with its mover, since it acts once: its answer waits for the resume (R369, R371; log entry 55). -/
def State.dropRequests (pre : Bool) (s : State) : State :=
  let reads := s.hif.reads.filter fun r => match r.who with
    | .mover m => !isHalfMover m
    | .ring .. => true
  let ops := s.fab.ops.map fun o => match o.mover with
    | some m =>
      if ¬ isHalfMover m ∨ o.away then o
      else if pre ∧ o.mtype = 5 then { o with away := true }
      else { o with mover := none }
    | none => o
  { s with
    hif := { s.hif with reads := reads, pageReqs := s.hif.pageReqs.filter fun m => !isHalfMover m }
    fab := { s.fab with ops } }

/-- A course whose job stops: image requests lapse, and a sort stops; a pre-emption returns its credits (R410, Table 7.3). -/
def Course.stop (pre : Bool) (c : Course) : Course :=
  match c.sort with
  | none => { c with imageReq := [] }
  | some q =>
    { c with imageReq := [], bucket := if pre then satAdd c.bucket q.cost else c.bucket, sort := some { q with cost := 0, ranked := none } }

/-- Every unit of the job stops: held faults end with an outcome, claims return, movers and Praline units stop. -/
def State.stopUnits (s : State) (out : FaultEnd) (byHost : Bool) : State :=
  let pre := decide (out = .abandoned)
  let s := (List.range 64).foldl (State.stopEngine pre) s
  let s := (s.stopFaults out byHost).abandonCommands
  let s := (List.range 32).foldl (fun s m => s.modMover m Mover.stop) s
  let s := { s with courses := s.courses.map (Course.stop pre) }.dropRequests pre
  (List.range 8).foldl (fun s c => s.retireRanges c) s

/-- Whether an engine stands at its tile boundary: no tile runs, earlier drains have left the path, and its write-backs
and commits are done or held (R314). -/
def Engine.stopped (x : Engine) : Bool :=
  x.run.isNone && (x.wbQ.isEmpty || x.drainFirst) &&
  match x.drain with
  | some d => d.afterSignal
  | none => true

/-- Whether every engine that is not fenced has stopped. -/
def State.allStopped (s : State) : Bool :=
  (List.range 64).all fun e => s.isFenced (srcEngine e) || s.isFenced (srcSteward (e / 8)) || (s.engine e).stopped

/-! ### Pages and stacks at the end of a job (R232, R427) -/

/-- Every pending page becomes retired. -/
def State.retirePending (s : State) : State :=
  { s with rel := { s.rel with pages := s.rel.pages.map fun p => if p.2 = 1 then (p.1, 2) else p } }

/-- Whether a source ID names a stack. -/
def isStackId (u : BitVec 16) : Bool := u.toNat / 0x1000 == 8

/-- Every fenced stack becomes withdrawn, and serves the BAR4 accesses that held; where it holds the firmware region, that is
module-fatal. -/
def State.withdrawStacks (s : State) : State :=
  let ws := s.rel.fenced.filter isStackId
  let s := { s with rel := { s.rel with fenced := s.rel.fenced.filter (fun u => !isStackId u),
                                        withdrawn := s.rel.withdrawn ++ ws } }
  let s := s.retryBar
  let fw := srcPraline s.variant.fwStack
  if ws.contains (BitVec.ofNat 16 fw) then s.arrive (plainError 4 eFwRegionLost fw) else s

/-! ### The end (R284, R288, R291, R422) -/

/-- The running job will end: the first end stands (R288, R432). Its units stop. -/
def State.endJob (s : State) (e : JobEnd) (byHost : Bool := false) : State :=
  match s.job.cur with
  | none => s
  | some j =>
    if j.ending.isSome then s
    else (s.modJob fun j => { j with ending := some e }).stopUnits .cancelled byHost

/-- RES_EXT of a job that an error ended: CODE at byte 16, LSEQ at byte 18 (R422). -/
def errorExt (code : BitVec 16) (lseq : Word) : List Byte := zeros 16 ++ toLe code.toNat 2 ++ toLe lseq.toNat 4

/-- Contained-to-job. -/
def State.containJob (s : State) (code : BitVec 16) (lseq : Word) (status : Nat := stFailed) : State :=
  s.endJob { status := BitVec.ofNat 16 status, resExt := errorExt code lseq }

/-- An engine once no job holds it: nothing claimed, running or drained. -/
def Engine.clear (x : Engine) : Engine :=
  { x with claim := none, run := none, drain := none, wbQ := [], drainFirst := false, acc0 := [], acc1 := [],
           loading := none, fault := none, fault2 := none, reloadActive := none, reloadIdle := none, hold := 0, lastRestart := none, bricks := x.bricks.map fun b => { b with done := true },
           vdone := true, sfuQ := [] }

/-- A half mover once no job holds it. -/
def Mover.clear (g : Mover) : Mover := { g.idle with queue := [], fault := none, prOpen := [], prNext := 0 }

/-- A course once no job holds it. -/
def Course.clear (c : Course) : Course :=
  { c with ranges := [], sort := none, imageReq := [], stewardFault := none, counterFault := none, sortFault := none,
           lastRestart := none }

/-- Every unit of the job is free. -/
def State.clearUnits (s : State) : State :=
  let engines := s.engines.map Engine.clear
  let movers := (s.movers.take 32).map Mover.clear ++ s.movers.drop 32
  let courses := s.courses.map Course.clear
  let hbm := s.hbm.map fun k => { k with queue := [], status := [], fault := none }
  { s with engines, movers, courses, hbm, job := { s.job with lists := [] } }.dropRequests false

/-- RES0 of a job: steps completed, poisoned steps (R291). -/
def Job.res0 (j : Job) : Nat := j.step + j.poisSteps * 2 ^ 32

/-- The waiting PREEMPT command completes with a status. -/
def State.endPreempt (s : State) (status : Nat) : State :=
  match s.job.waitPre with
  | none => s
  | some w =>
    { s with job := { s.job with waitPre := none } }.respond w.via w.posted.bytes status (mArg w.posted.bytes 0 % 2 ^ 32)

/-- A disable of the job ring that waited for the running job takes effect (R276). -/
def State.settleDisable (s : State) : State :=
  s.modRing 0 fun g => if g.disabling then { g with en := false, disabling := false } else g

/-- The job leaves the module: its record is written, a save of it that was not complete is none, its units are free,
pending pages become retired and fenced stacks withdrawn (R284, R232, R427). The messages that wait for a cancelled job are
discarded (R369). -/
def State.leaveJob (s : State) (j : Job) (status res0 : Nat) (resExt : List Byte) : State :=
  let d := j.posted.bytes
  let s := s.complete 0 d status (jId d) res0 resExt
  let kept := s.job.areas.map fun a => a.bind fun (x : SaveArea) => if x.st = 2 then some x else none
  let s := { s with job := { s.job with cur := none, areas := kept }, mgt := { s.mgt with wdogCount := 0 } }
  let s := if status = stCancelled then s.dropWaiting fun _ => true else s
  s.clearUnits.retirePending.withdrawStacks.settleDisable

/-- The step is done: STEP_DONE follows the trailer (R321), and the next segment may start. -/
def State.finishStep (s : State) (handover : Bool) : State :=
  match s.job.cur with
  | none => s
  | some j =>
    let d := j.posted.bytes
    let s := s.post { kind := kStepDone, src := s.ringSource 0, owner := .desc 0 d,
                      body := toLe (jId d) 4 ++ toLe j.step 4 ++ toLe j.ckptOff.toNat 8 ++ toLe j.ckptTotal.toNat 8 ++
                        toLe (b2n j.ckptPois + 2 * b2n handover) 1 }
    let last := decide (j.segs.length ≤ j.nextSeg + 1)
    s.modJob fun j =>
      { j with inStep := false, handover := false, nextSeg := j.nextSeg + 1, poisTiles := 0, firstMem := none,
               ckptPois := false,
               phase := if ¬ last then j.phase else if jEncode d then .encoding else .lastStep }

end Sys2Proof.Machine
end

