-- ==== Sys2Proof/Machine/Keccak.lean ====
section
/-! DEFINITION. SHAKE256 with 64 bytes of output, as FIPS 202 defines it (16, introduction; 16 R456). -/

namespace Sys2Proof.Keccak

/-- One lane of the state, by x + 5 y. -/
def lane (a : List DWord) (i : Nat) : DWord := a.getD i 0

/-- Rotation offsets of step rho, by x + 5 y (FIPS 202, Table 2, modulo 64). -/
def rho : List Nat :=
  [0, 1, 62, 28, 27, 36, 44, 6, 55, 20, 3, 10, 43, 25, 39, 41, 45, 15, 21, 8, 18, 2, 61, 56, 14]

/-- The output bit of the round-constant register after `n` steps (FIPS 202, rc(t)). -/
def lfsr : Nat → Nat
  | 0 => 1
  | n + 1 => let r := 2 * lfsr n; if r ≥ 256 then (r - 256) ^^^ 0x71 else r

/-- The constant of round `r` (FIPS 202, step iota). -/
def roundConst (r : Nat) : DWord :=
  (List.range 7).foldl (fun c j =>
    if (lfsr (j + 7 * r)).testBit 0 then c ^^^ (1#64 <<< (2 ^ j - 1)) else c) 0

/-- One round: theta, rho, pi, chi, iota. -/
def round (a : List DWord) (r : Nat) : List DWord :=
  let c := (List.range 5).map fun x =>
    lane a x ^^^ lane a (x + 5) ^^^ lane a (x + 10) ^^^ lane a (x + 15) ^^^ lane a (x + 20)
  let d := (List.range 5).map fun x => lane c ((x + 4) % 5) ^^^ (lane c ((x + 1) % 5)).rotateLeft 1
  let t := (List.range 25).map fun i => (lane a i ^^^ lane d (i % 5)).rotateLeft (rho.getD i 0)
  let b := (List.range 25).map fun i =>
    let x := i % 5
    let y := i / 5
    lane t ((x + 3 * y) % 5 + 5 * x)
  let e := (List.range 25).map fun i =>
    let x := i % 5
    let y := i / 5
    lane b i ^^^ (~~~ lane b ((x + 1) % 5 + 5 * y) &&& lane b ((x + 2) % 5 + 5 * y))
  e.set 0 (lane e 0 ^^^ roundConst r)

/-- Keccak-f[1600]. -/
def permute (a : List DWord) : List DWord := (List.range 24).foldl round a

/-- Rate of SHAKE256 in bytes. -/
def rate : Nat := 136

/-- Message padding of SHAKE256: 1111, then 10*1, in byte form. -/
def pad (m : List Byte) : List Byte :=
  let k := rate - m.length % rate
  if k = 1 then m ++ [0x9F] else m ++ [0x1F] ++ zeros (k - 2) ++ [0x80]

/-- Absorb one block of `rate` bytes. -/
def absorb (a : List DWord) (blk : List Byte) : List DWord :=
  permute ((List.range 25).map fun i =>
    if i < 17 then lane a i ^^^ BitVec.ofNat 64 (fieldAt blk (8 * i) 8) else lane a i)

end Sys2Proof.Keccak

namespace Sys2Proof

/-- SHAKE256 with 64 bytes of output (16: every measurement is this digest). -/
def shake256 (m : List Byte) : List Byte :=
  let p := Keccak.pad m
  let a := (chunksOf Keccak.rate (p.length / Keccak.rate) p).foldl Keccak.absorb (List.replicate 25 0)
  (List.range 8).flatMap fun i => toLe (Keccak.lane a i).toNat 8

end Sys2Proof
end

