-- ==== Sys2Proof/Machine/Measure.lean ====
section
/-! DEFINITION. Golaimin packages, key slots and measurements: the operations of the Gatehouse key engine (16 R451 to
R460, R462, R466). -/

namespace Sys2Proof.Machine

/-! ### Golaimin packages (Table 16.2) -/

def pkgLen (b : List Byte) : Nat := fieldAt b 8 4
def pkgVersion (b : List Byte) : Nat := fieldAt b 0xC 4
def pkgSvn (b : List Byte) : Nat := fieldAt b 0x10 4
/-- Component `i`: LOADER, MGR, SUP, STW. -/
def pkgComp (b : List Byte) (i : Nat) : List Byte := bytesAt b (fieldAt b (0x40 + 16 * i) 4) (fieldAt b (0x44 + 16 * i) 4)
/-- Public key of image slot `i`; empty when all its bytes are zero. -/
def pkgKey (b : List Byte) (i : Nat) : List Byte :=
  let k := bytesAt b (0x80 + 1952 * i) 1952
  if k.all (· == 0) then [] else k

/-- The digest of a package: of the bytes that its signature covers. -/
def pkgDigest (b : List Byte) : List Byte := shake256 (b.take (pkgLen b))

/-- The fields of a package are in range and its reserved fields zero (R453, R7). -/
def pkgFormOk (b : List Byte) : Bool :=
  fieldAt b 0 4 == 0x4D394657 && fieldAt b 4 1 == 1 && zeroAt b 5 3 && pkgLen b % 64 == 0 &&
  decide (0x1F00 ≤ pkgLen b) && b.length == pkgLen b + 3312 && decide (pkgSvn b ≤ 64) && fieldAt b 0x14 4 == 4 &&
  zeroAt b 0x18 40 && zeroAt b (pkgLen b + 3309) 3 &&
  (List.range 4).all fun i =>
    fieldAt b (0x40 + 16 * i) 4 % 64 == 0 && decide (0x1F00 ≤ fieldAt b (0x40 + 16 * i) 4) &&
    decide (fieldAt b (0x40 + 16 * i) 4 + fieldAt b (0x44 + 16 * i) 4 ≤ pkgLen b) && zeroAt b (0x4C + 16 * i) 4

/-- The checks of R452 step 2: signature under the root key, and SVN not below FUSE_SVN. -/
def pkgVerify (b : List Byte) (fuse : Nat) : Bool :=
  pkgFormOk b && Config.mldsaVerify Config.rootKey (b.take (pkgLen b)) (bytesAt b (pkgLen b) 3309) &&
  decide (fuse ≤ pkgSvn b)

/-- Every component's CRC is right (R453). -/
def pkgCrcs (b : List Byte) : Bool :=
  (List.range 4).all fun i => fieldAt b (0x48 + 16 * i) 4 == (crc32c (pkgComp b i)).toNat

/-! ### Measurement registers and log (R456, R457) -/

/-- Extend a measurement register, with its log entry; a full log drops the entry and counts it. -/
def State.extendMr (s : State) (r ekind : Nat) (arg : Word) (digest : List Byte) : State :=
  let mr := s.sec.mr.set r (shake256 (s.sec.mr.getD r [] ++ digest))
  let x : MLog := { index := s.sec.logCount, mr := r, ekind, boot := s.mgt.boot, arg, digest }
  let mlog := if s.sec.mlog.length < 4096 then s.sec.mlog ++ [x] else s.sec.mlog
  { s with sec := { s.sec with mr, mlog, logCount := s.sec.logCount + 1 } }

/-- The 128 bytes of a log entry. -/
def MLog.bytes (x : MLog) : List Byte :=
  withCrc (padTo (toLe x.index 4 ++ toLe x.mr 1 ++ toLe x.ekind 1 ++ toLe x.boot.toNat 2 ++ toLe x.arg.toNat 4 ++
    zeros 4 ++ padTo x.digest 64) 124)

/-- GH_DIGEST (R462). -/
def State.ghDigest (s : State) : List Byte :=
  shake256 (Config.gatehouseBytes
    (s.sec.windows.map fun w => (w.base, w.len, w.pasid.toNat, w.pv, w.at', w.en)) s.sec.jobdom s.pwr.ceil
    s.pwr.throttleCeil)

/-- Extend MR5 with the Gatehouse state (Table 16.3). -/
def State.measureGatehouse (s : State) : State := s.extendMr 5 9 0 s.ghDigest

/-- The digest of a key slot: 64 zero bytes when it is empty (R452, R460). -/
def keyDigest (k : List Byte) : List Byte := if k.isEmpty then zeros 64 else shake256 k

/-- Load image key slots 0 to 3 from a package. -/
def State.loadKeys (s : State) (pkg : List Byte) : State :=
  let slots := s.sec.slots.zipIdx.map fun x => if x.2 < 4 then { x.1 with key := pkgKey pkg x.2 } else x.1
  { s with sec := { s.sec with slots } }

/-- A completed hand-over loads the keys of the package, and measures each slot that changes (R460). -/
def State.changeKeys (s : State) (pkg : List Byte) : State :=
  (List.range 4).foldl (fun s i =>
    let new := pkgKey pkg i
    if (s.sec.slots.getD i {}).key = new then s
    else
      let s := { s with sec := { s.sec with slots := modifyNth (fun k => { k with key := new }) s.sec.slots i } }
      s.extendMr 2 6 (BitVec.ofNat 32 i) (keyDigest new)) s

/-! ### Boot (R452, R455, R459) -/

/-- The fuse state as MR0 is extended with it. -/
def State.fuseBytes (s : State) : List Byte := toLe s.sec.fuseSvn 4 ++ s.sec.ownerDigest ++ Config.debugFuses

/-- The firmware slot that the boot ROM starts: the active one if its package verifies, else the other. -/
def State.bootSlot (s : State) : Option Nat :=
  let ok := fun (i : Nat) => match s.mgt.fwImages.getD i none with
    | some b => pkgVerify b s.sec.fuseSvn
    | none => false
  if ok s.mgt.fwSlot then some s.mgt.fwSlot else if ok (1 - s.mgt.fwSlot) then some (1 - s.mgt.fwSlot) else none

/-- The package in a firmware slot. -/
def State.pkgIn (s : State) (i : Nat) : List Byte := (s.mgt.fwImages.getD i none).getD []

/-- "M9-ALIAS". -/
def aliasTag : List Byte := [0x4D, 0x39, 0x2D, 0x41, 0x4C, 0x49, 0x41, 0x53]

/-- The alias seed from the measurement registers as they stand (R459). -/
def State.aliasOf (s : State) : List Byte :=
  let m := fun i => s.sec.mr.getD i []
  (shake256 (aliasTag ++ Config.identitySeed ++ m 0 ++ m 1 ++ m 2)).take 32

/-- The boot ROM and loader: measurements, key slots, alias seed; recovery where no slot verifies, with the alias seed of
registers MR1 and MR2 that stayed zero (R455; log entry 48). -/
def State.bootChain (s : State) : State :=
  let s := { s with sec := { s.sec with mr := List.replicate 8 (zeros 64), mlog := [], logCount := 0, debugSeen := false } }
  let s := (s.extendMr 0 1 0 (shake256 Config.romVersion)).extendMr 0 11 (BitVec.ofNat 32 s.sec.fuseSvn)
    (shake256 s.fuseBytes)
  match s.bootSlot with
  | none =>
    { s with mgt := { s.mgt with recovery := true }, sec := { s.sec with aliasSeed := s.aliasOf, fwSvn := 0 } }
  | some i =>
    let b := s.pkgIn i
    let svn := BitVec.ofNat 32 (pkgSvn b)
    let s := { s with mgt := { s.mgt with fwSlot := i, recovery := false } }.loadKeys b
    let s := s.extendMr 0 2 svn (shake256 (pkgComp b 0))
    let s := (List.range 3).foldl (fun s k => s.extendMr 1 (3 + k) svn (shake256 (pkgComp b (k + 1)))) s
    let s := (List.range 8).foldl (fun s k =>
      s.extendMr 2 6 (BitVec.ofNat 32 k) (keyDigest (s.sec.slots.getD k {}).key)) s
    { s with sec := { s.sec with aliasSeed := s.aliasOf, fwSvn := pkgSvn b } }

end Sys2Proof.Machine
end

