-- ==== Sys2Proof/Machine/Reliability.lean ====
section
/-! DEFINITION. The severity ladder, fences, reloads, firmware hand-over and the lease (15 R420 to R444, R450). -/

namespace Sys2Proof.Machine

/-! ### The lease cell (R440 to R443) -/

/-- Grant the lease to a half under a new epoch; the half takes itself for the lead. -/
def State.grant (s : State) (h : Nat) : State :=
  let l := s.rel.lease
  let e := l.epoch + 1
  let lease := { l with holder := h, epoch := e, age := 0, vacant := 0,
                        lastA := if h = 0 then e else l.lastA, lastB := if h = 0 then l.lastB else e }
  { s with rel := { s.rel with lease }, mgt := { s.mgt with vaultEpoch := e } }.modHalf h
    fun x => { x with leads := some e, newestEpoch := e }

/-- Release the lease: nobody holds it. -/
def State.release (s : State) (h : Nat) : State :=
  { s with rel := { s.rel with lease := { s.rel.lease with holder := 3, vacant := 0 } } }.modHalf h
    fun x => { x with leads := none }

/-- Whether the cell holds the lease for half `h` under epoch `e`. -/
def Lease.heldBy (l : Lease) (h : Nat) (e : Word) : Bool := l.holder == h && l.epoch == e

/-- RENEW (R440, R441): refused, the half drops to follower and logs LEASE_LOST. -/
def execRenew (h : HalfId) (epoch : Word) (s : State) : Out :=
  if ¬ s.ioUp ∨ ¬ s.halfUp h then .next s
  else if s.rel.lease.heldBy h epoch then
    .next { s with rel := { s.rel with lease := { s.rel.lease with age := 0, granted := none } } }
  else if (s.half h).leads.isNone then .next s
  else .next ((s.modHalf h fun x => { x with leads := none }).arrive
    (plainError 0 eLeaseLost (srcHalf h) epoch.toNat false (srcHalf h)))

/-- ACQUIRE (R440): granted when nobody holds the lease; else the half stays follower. -/
def execAcquire (h : HalfId) (s : State) : Out :=
  if ¬ s.ioUp ∨ ¬ s.halfUp h ∨ s.rel.lease.holder ≠ 3 then .next s else .next (s.grant h)

/-- LEASE_RELEASE (R440): accepted as RENEW; a hand-over grant follows in the same request. -/
def execLeaseRelease (h : HalfId) (epoch : Word) (s : State) : Out :=
  if ¬ s.ioUp ∨ ¬ s.halfUp h ∨ ¬ s.rel.lease.heldBy h epoch then .next s
  else
    let s := s.release h
    if s.rel.handover.isSome ∧ s.halfUp (1 - h.val) then .next (s.grant (1 - h.val)) else .next s

/-- LEASE_EXPIRY (R441). The half that held it does not know yet. -/
def execLeaseExpiry (s : State) : Out :=
  let l := s.rel.lease
  if ¬ s.ioUp ∨ l.holder = 3 ∨ l.age < s.mgt.leaseTerm then .next s
  else .next { s with rel := { s.rel with lease := { l with holder := 3, vacant := 0 } } }

/-! ### Fences (Table 15.3) -/

/-- Change a source ID's standing to fenced. -/
def State.setFenced (s : State) (u : Nat) : State :=
  { s with rel := { s.rel with fenced := s.rel.fenced ++ [BitVec.ofNat 16 u] } }

/-- A fence that a reload may lift (R444). -/
def State.startReload (s : State) (u : Nat) : State :=
  { s with rel := { s.rel with reloading := s.rel.reloading ++ [BitVec.ofNat 16 u] } }

/-- A half is fenced: a lead releases the lease, which the other half is granted; both halves fenced is module-fatal
(R443, R421). -/
def State.fenceHalf (s : State) (h : Nat) : State :=
  let s := (s.setFenced (srcHalf h)).startReload (srcHalf h)
  let other := srcHalf (1 - h)
  let s := if s.rel.lease.holder = h then
      (let s := s.release h
       if s.isFenced other then s else s.grant (1 - h))
    else s.modHalf h fun x => { x with leads := none }
  if s.isFenced other then s.arrive (plainError 4 eMgrFault (srcHalf h)) else s

/-- Uncommitted values of a pinned range lie in an engine's stripe (R425). -/
def Range.pinnedTo (r : Range) (i : Nat) : Bool :=
  r.affinity == 2 && (List.range r.count).any fun k => k % 8 == i && !r.committed.contains k

/-- An engine is fenced: what it holds returns unissued (R144). -/
def State.fenceEngine (s : State) (e : Nat) : State :=
  let vs := (s.engine e).holding
  let back := fun (r : Range) =>
    { r with issued := r.issued.filter fun p => !(vs.contains (r.value p.1)) }
  let s := (s.setFenced (srcEngine e)).modCourse (e / 8) fun c => { c with ranges := c.ranges.map back }
  (s.modEngine e Engine.clear).retireRanges (e / 8)

/-- The steward appends the pinned ranges of a fenced stripe again, striped and under a higher epoch (R425). -/
def State.remapPinned (s : State) (e : Nat) : State :=
  s.modCourse (e / 8) fun c =>
    { c with
      epoch := c.epoch + 1
      ranges := c.ranges.map fun r =>
        if r.pinnedTo (e % 8) then { r with affinity := 1, epoch := c.epoch + 1, issued := [] } else r }

/-- The next mover of the half that is not fenced, in ascending number, wrapping (Table 15.3). -/
def State.nextFreeMover (s : State) (m : Nat) : Option Nat :=
  ((List.range 15).map fun i => 16 * (m / 16) + (m + 1 + i) % 16).find? fun n => !s.isFenced (srcMover n)

/-- Put a list descriptor into a mover's queue, in order of list and index. -/
def insertTask (t : MTask) : List MTask → List MTask
  | [] => [t]
  | u :: us => if t.list < u.list ∨ (t.list = u.list ∧ t.dseq < u.dseq) then t :: u :: us else u :: insertTask t us

/-- The outstanding operations of a mover become another's, or nobody's where there is none. -/
def State.moveOps (s : State) (m n : Nat) : State :=
  let heir : Option MoverId := if n < 48 then some (Fin.ofNat 48 n) else none
  let move := fun (o : PeerOp) => if o.mover.map (·.val) == some m && !o.away then { o with mover := heir } else o
  { s with fab := { s.fab with ops := s.fab.ops.map move } }

/-- A half mover is fenced: its descriptors run on the next mover of the half; its current one goes on there from its
restart point where that mover is idle, and starts again otherwise. -/
def State.fenceHalfMover (s : State) (m : Nat) : State :=
  let s := s.setFenced (srcMover m)
  let g := s.mover m
  match s.nextFreeMover m with
  | none => s
  | some n =>
    let s := s.modMover m Mover.clear
    let s := match g.cur with
      | none => s
      | some t =>
        if (s.mover n).cur.isNone then
          (s.modMover n fun x => { x with cur := some t, restart := g.restart, coll := g.coll }).moveOps m n
        else (s.modMover n fun x => { x with queue := insertTask t x.queue }).moveOps m 48
    s.modMover n fun x => { x with queue := g.queue.foldl (fun q t => insertTask t q) x.queue }

/-- Every posted descriptor of a ring that satisfies a test completes FAILED. -/
def State.failPosted (s : State) (r : Nat) (ok : List Byte → Bool) : State :=
  let lost := (s.ring r).posted.filter fun p => ok p.bytes
  let s := s.modRing r fun g => { g with posted := g.posted.filter fun p => !ok p.bytes }
  lost.foldl (fun s p => s.completeNow r p.bytes stFailed) s

/-- The MOVE that a host mover works on ends FAILED. -/
def State.failMove (s : State) (m : Nat) : State :=
  match (s.mover m).cur with
  | some t => if t.ring.isSome then (s.modMover m fun g => { g with fault := none }).endTask m t stFailed else s
  | none => s

/-- A host mover is fenced: its ring completes each MOVE with FAILED. -/
def State.fenceHostMover (s : State) (m : Nat) : State :=
  ((s.setFenced (srcMover m)).failMove m).failPosted (dmaRing m) fun d => dOpc d == 1

/-- The two rings of a codec engine: encode and decode. -/
def codecRings (c : Nat) : List Nat := [18 + 2 * c, 19 + 2 * c]

/-- A codec engine is fenced: its descriptors complete FAILED. -/
def State.fenceCodec (s : State) (c : Nat) : State :=
  (codecRings c).foldl (fun s r => s.failPosted r fun _ => true) (s.setFenced (srcCodec c))

/-- The action of a fence: the log's ACTION, whether the rung was raised, and the state. -/
structure Fenced where
  action : Byte
  raised : Bool
  state : State
  deriving DecidableEq, Repr

/-- Fence an engine, and act on its pinned stripes (R425). -/
def State.actEngine (s : State) (e : Nat) (code : BitVec 16) (lseq : Word) : Fenced :=
  let pinned := (s.course (e / 8)).ranges.any fun r => r.pinnedTo (e % 8)
  let s := s.fenceEngine e
  if ¬ pinned then ⟨aFenced, false, s⟩
  else if s.rel.pinnedRemap then ⟨aRemapped, false, s.remapPinned e⟩
  else ⟨aJobEnded, true, s.containJob code lseq⟩

/-- Fence a stack (R426, R427): withdrawn at once where no job runs; the stack of the save areas ends the job. -/
def State.actStack (s : State) (n : Nat) (code : BitVec 16) (lseq : Word) : Fenced :=
  let s := s.setFenced (srcPraline n)
  if s.job.cur.isNone then ⟨aWithdrawn, false, s.withdrawStacks⟩
  else if n = s.variant.fwStack then ⟨aJobEnded, true, s.containJob code lseq⟩
  else ⟨aFenced, false, s⟩

/-- Fence a unit by its source ID; a work counter or sort unit counts as its course, and CTRL_UE of a Praline unit as
the unit apart from its stack. -/
def State.actUnit (s : State) (u : Nat) (code : BitVec 16) (lseq : Word) : Fenced :=
  let n := u % 0x1000
  let plain := fun (s : State) => (⟨aFenced, false, s⟩ : Fenced)
  match u / 0x1000 with
  | 2 => if s.isFenced u then ⟨aAbsorbed, false, s⟩ else plain (s.fenceHalf n)
  | 3 | 9 | 10 =>
    if s.isFenced (srcSteward n) then ⟨aAbsorbed, false, s⟩
    else plain ((s.setFenced (srcSteward n)).startReload (srcSteward n))
  | 4 => if s.isFenced u then ⟨aAbsorbed, false, s⟩ else s.actEngine n code lseq
  | 5 =>
    if s.isFenced u then ⟨aAbsorbed, false, s⟩
    else plain (if n < 32 then s.fenceHalfMover n else s.fenceHostMover n)
  | 6 => plain (if (s.port n).fenced then s else s.fencePort n)
  | 7 =>
    if s.isFenced u then ⟨aAbsorbed, false, s⟩
    else
      let listed := (s.codec n).list.isSome
      let s := s.fenceCodec n
      if listed then ⟨aJobEnded, true, s.containJob code lseq⟩ else plain s
  | 8 =>
    if code.toNat = eCtrlUe then
      (if (s.stack n).prFenced then ⟨aAbsorbed, false, s⟩ else plain (s.modStack n fun k => { k with prFenced := true }))
    else if s.isFenced u then ⟨aAbsorbed, false, s⟩
    else s.actStack n code lseq
  | _ => ⟨aAbsorbed, false, s⟩

/-! ### The handler (R429 to R434) -/

/-- Contained-to-job (R422, R432): absorbed where the job has ended. Under OUTLIER_OVF the step completes first, and the
job ends at its boundary (R117). -/
def State.actJob (s : State) (job : Word) (code : BitVec 16) (lseq : Word) : Fenced :=
  match s.job.cur with
  | none => ⟨aAbsorbed, false, s⟩
  | some j =>
    if job = 0 ∨ job.toNat ≠ jId j.posted.bytes ∨ j.ending.isSome then ⟨aAbsorbed, false, s⟩
    else if code.toNat = fOutlierOvf then
      ⟨aJobEnded, false, s.modJob fun j =>
        { j with outlier := true, outlierExt := if j.outlierExt.isEmpty then errorExt code lseq else j.outlierExt }⟩
    else ⟨aJobEnded, false, s.containJob code lseq⟩

/-- Module-fatal (R423): the job ends, every DMA and codec descriptor completes FAILED, FATAL is set. -/
def State.actFatal (s : State) (code : BitVec 16) (lseq : Word) : Fenced :=
  if s.mgt.fatal then ⟨aAbsorbed, false, s⟩
  else
    let s := { s with mgt := { s.mgt with fatal := true }, side := { s.side with modFault := true } }.containJob code lseq
    let s := (List.range 16).foldl (fun s i => s.failMove (32 + i)) s
    let s := (List.range 16).foldl (fun s i => s.failPosted (2 + i) fun _ => true) s
    ⟨aFatal, false, (List.range 4).foldl (fun s i => s.failPosted (18 + i) fun _ => true) s⟩

/-- The action of a rung on a scope. -/
def State.actOn (s : State) (rung : Nat) (unit : Nat) (job : Word) (code : BitVec 16) (lseq : Word) : Fenced :=
  match rung with
  | 0 => ⟨aCounted, false, s⟩
  | 1 =>
    let gone := decide (job ≠ 0) && (match s.job.cur with
      | none => true
      | some j => decide (job.toNat ≠ jId j.posted.bytes) || j.ending.isSome)
    ⟨if gone then aAbsorbed else aNone, false, s⟩
  | 2 => s.actJob job code lseq
  | 3 => if unit = 0 then s.actJob job code lseq else s.actUnit unit code lseq
  | _ => s.actFatal code lseq

/-- The log entry of an LSEQ takes its ACTION and ESCALATED, and its ERROR record is posted (R434). A deferred error
that retired a page keeps ACTION retirement. -/
def State.conclude (s : State) (lseq : Word) (act : Byte) (raised : Bool) : State :=
  let f := fun (e : LogEntry) =>
    if e.lseq = lseq then
      { e with action := if e.action = aRetirement ∧ act = aNone then aRetirement else act
               lflags := e.lflags ||| (if raised then 2 else 0) }
    else e
  let s := { s with rel := { s.rel with log := s.rel.log.map f, pinned := s.rel.pinned.map f } }
  match s.rel.log.find? fun e => e.lseq = lseq with
  | some e => s.postError e
  | none => s

/-- The highest rung in the queue. -/
def topRung (q : List QErr) : Nat := q.foldl (fun m x => max m x.a.rung.val) 0

/-- Handle the summary: a new entry with code QUEUE_OVF, LFLAGS.SUMMARY and the count (R431). -/
def State.handleSummary (s : State) (m : Summary) : State :=
  let s := { s with rel := { s.rel with summary := none } }
  let a : ErrArrival :=
    { rung := Fin.ofNat 5 m.rung, src := BitVec.ofNat 16 srcMgr, code := BitVec.ofNat 16 eQueueOvf, unit := m.first.unit,
      forJob := decide (m.job ≠ 0), kind := 0, seq := 0, data := m.count }
  let e := s.entryOf a m.job 4 aNone
  let s := s.logAdd e
  let r := s.actOn m.rung m.first.unit.toNat m.job a.code e.lseq
  r.state.conclude e.lseq r.action r.raised

/-- Handle a queued error. -/
def State.handleError (s : State) (q : QErr) : State :=
  let s := { s with rel := { s.rel with queue := s.rel.queue.filter fun x => x.lseq ≠ q.lseq } }
  let r := s.actOn q.a.rung q.a.unit.toNat q.job q.a.code q.lseq
  r.state.conclude q.lseq r.action r.raised

/-- ERROR_HANDLE (R430): the errors that units report now arrive, and the handler takes the one of the highest rung,
the first among equals; a summary goes before a queued error of its rung. -/
def execErrorHandle (arrivals : List ErrArrival) (s : State) : Out :=
  if ¬ s.mgrUp then .next s
  else
    let s := arrivals.foldl (fun s a => s.arrive a) s
    let top := topRung s.rel.queue
    match s.rel.summary, s.rel.queue.find? fun x => x.a.rung.val = top with
    | some m, none => .next (s.handleSummary m)
    | some m, some q => .next (if top ≤ m.rung then s.handleSummary m else s.handleError q)
    | none, some q => .next (s.handleError q)
    | none, none => .next s

/-- LEASE_VACANT (R443): the half whose LAST value is older, B on a tie, is fenced and the lease granted to the other;
a half that was granted it so and does not hold it is fenced too. -/
def execLeaseVacant (s : State) : Out :=
  let l := s.rel.lease
  if ¬ s.mgrUp ∨ l.holder ≠ 3 ∨ (l.vacant < s.mgt.leaseTerm ∧ l.granted.isNone) then .next s
  else
    let h := match l.granted with
      | some g => g
      | none => if l.lastA.toNat < l.lastB.toNat then 0 else 1
    let s := { s with rel := { s.rel with lease := { l with granted := none } } }
    let e := s.entryOf (plainError 3 eLeaseVacant (srcHalf h) l.epoch.toNat) 0 0 aNone
    let s := s.logAdd e
    if s.isFenced (srcHalf h) then .next (s.conclude e.lseq aAbsorbed false)
    else
      let s := s.fenceHalf h
      let s := if s.isFenced (srcHalf (1 - h)) then s
        else
          let s := s.grant (1 - h)
          { s with rel := { s.rel with lease := { s.rel.lease with granted := some (1 - h) } } }
      .next (s.conclude e.lseq aFenced false)

/-! ### Reload (R444) -/

/-- The end of a reload: its unit is no longer reloading. -/
def State.endReload (s : State) (u : BitVec 16) : State :=
  { s with rel := { s.rel with reloading := s.rel.reloading.filter fun v => v ≠ u } }

/-- The fence of a unit lifts. -/
def State.unfence (s : State) (u : BitVec 16) : State :=
  { s with rel := { s.rel with fenced := s.rel.fenced.filter fun v => v ≠ u } }

/-- Ask for the pre-emption of the running job (R313). -/
def State.askPreempt (s : State) (by' : PreBy) : State :=
  s.modJob fun j => if j.preempt.isSome ∨ j.ending.isSome then j else { j with preempt := some by' }

/-- RELOAD (R444): the stewards re-append the live ranges under a higher epoch and the unit rejoins; a failed self-check
leaves it fenced, and pre-empts the job (a course with a live range) or contains it (a half). -/
def execReload (u : BitVec 16) (ok : Bool) (s : State) : Out :=
  if ¬ s.mgrUp ∨ ¬ s.rel.reloading.contains u then .next s
  else
    let s := s.endReload u
    let n := u.toNat % 0x1000
    if u.toNat / 0x1000 = 3 then
      if ok then .next ((s.unfence u).reloadSteward n)
      else .next (if (s.course n).ranges.isEmpty then s else s.askPreempt .fence)
    else if ok then
      .next ((List.range 4).foldl (fun s c => s.reloadSteward (4 * n + c)) (s.unfence u))
    else .next (s.arrive (plainError 2 eCoreHang u.toNat 0 true))

/-- HEARTBEAT_CHECK (R444): a core whose heartbeat has not advanced over two consecutive windows hangs. The windows run
from the reference clock. -/
def execHeartbeatCheck (u : BitVec 16) (advanced : Bool) (s : State) : Out :=
  let k := u.toNat / 0x1000
  let n := u.toNat % 0x1000
  let core := (k = 2 ∧ n < 2) ∨ (k = 3 ∧ n < 8)
  if ¬ s.mgrUp ∨ ¬ s.pwr.refclk ∨ ¬ core ∨ s.isFenced u.toNat then .next s
  else
    let c := if advanced then 0 else look 0 s.rel.beats u.toNat + 1
    let hung := decide (2 ≤ c)
    let s := { s with rel := { s.rel with beats := store 0 s.rel.beats u.toNat (if hung then 0 else c) } }
    .next (if hung then s.arrive (plainError 3 eCoreHang u.toNat) else s)

/-! ### Firmware hand-over (R437 to R439, R460) -/

/-- Whether a hand-over can take place: no job runs, or the job waits at a step boundary behind its trailer. -/
def State.atBoundary (s : State) : Bool :=
  match s.job.cur with
  | none => true
  | some j => j.handover

/-- The boundary's step ends (R321): STEP_DONE carries HANDOVER where the hand-over took place. -/
def State.passBoundary (s : State) (done : Bool) : State :=
  match s.job.cur with
  | some j => if j.handover then s.finishStep done else s
  | none => s

/-- A hand-over fails: the cores already switched are reloaded into the old image, in the same order, and the lease
goes back where it had moved; FW_HANDOVER_FAIL is logged (R438). -/
def State.rollBack (s : State) (ho : Handover) (h : Nat) (u : BitVec 16) : State :=
  -- a core of the follower half fails before the lease moves; a later one after it
  let follower := decide (u.toNat = srcHalf (1 - h)) ||
    (decide (u.toNat / 0x1000 = 3) && decide (u.toNat % 0x1000 / 4 = 1 - h))
  let s := if follower then s else ((((s.release h).grant (1 - h)).release (1 - h)).grant h)
  let e := s.entryOf (plainError 0 eHandoverFail u.toNat) 0 0 aRolledBack
  let s := (s.logAdd e).postError e
  let s := { s with rel := { s.rel with handover := none } }
  (s.respond ho.via ho.posted.bytes stFailed 0 u.toNat).passBoundary false

/-- A hand-over completes: the lead changes halves, MR1 and the changed keys are measured, the active slot is written. -/
def State.handOver (s : State) (ho : Handover) (h : Nat) : State :=
  let s := (s.release h).grant (1 - h)
  let b := s.pkgIn ho.slot
  let s := (s.extendMr 1 12 (BitVec.ofNat 32 (pkgSvn b)) (pkgDigest b)).changeKeys b
  let s := { s with mgt := { s.mgt with fwSlot := ho.slot }, sec := { s.sec with fwSvn := pkgSvn b },
                    rel := { s.rel with handover := none } }
  (s.respond ho.via ho.posted.bytes stOk).passBoundary true

/-- FW_HANDOVER (R437): the hand-over at a boundary, or its failure at the core named. -/
def execFwHandover (failing : Option (BitVec 16)) (s : State) : Out :=
  match s.rel.handover, s.lead with
  | some ho, some h =>
    if ¬ s.mgrUp ∨ ¬ s.atBoundary ∨ ¬ s.halfUp 0 ∨ ¬ s.halfUp 1 then .next s
    else match failing with
      | some u => .next (s.rollBack ho h u)
      | none => .next (s.handOver ho h)
  | _, _ => .next s

/-- HANDOVER_TIMEOUT (R438): the windows that the lease cell counts have passed. -/
def execHandoverTimeout (u : BitVec 16) (s : State) : Out :=
  match s.rel.handover, s.lead with
  | some ho, some h =>
    if ¬ s.mgrUp ∨ ¬ s.atBoundary ∨ ho.windows < s.mgt.handoverWindows then .next s else .next (s.rollBack ho h u)
  | _, _ => .next s

end Sys2Proof.Machine
end

