-- ==== Sys2Proof/Machine/Control.lean ====
section
/-! DEFINITION. Control reads of job memory: what supervisors and stewards read and copy through the half's tile movers
(01 R20; 08 R229; 11 R308, R316). Bytes of a host or peer leaf come with the command (log entry 5). -/

namespace Sys2Proof.Machine

/-- The bytes of the host that a command carries, from a host address on. -/
def hostBytes (h : HostData) (a len : Nat) : List Byte := (List.range len).map fun i => look 0 h.cells (a + i)

/-- Bytes behind a peer leaf stand at their fabric address above bit 63. -/
def peerKey : Nat := 2 ^ 63

/-- What came of a control read: bytes with whether a word was bad, a fault, or a wait for a fenced stack. -/
inductive Ctl where
  | ok (bs : List Byte) (bad : Bool) (s : State)
  | fault (f : HeldFault) (s : State)
  | wait (s : State)

/-- Read bytes that one leaf covers. -/
def State.ctlPiece (s : State) (h : Nat) (rd : Reader) (host : HostData) (ja n : Nat) : Ctl :=
  match s.translate h rd ja false false with
  | (.ok 0 a, s) =>
    if ¬ s.rangeAll Region.hostOk a n then .fault (addrFault fAddrUnbacked a 1 false) s
    else if s.stackHeld a then .wait s
    else
      let r := s.readMem rd a n
      .ok r.1 r.2.1 r.2.2
  | (.ok 1 a, s) =>
    if ¬ s.hif.linkUp ∨ host.status ≠ .ok then .fault (addrFault fT3Timeout a 2 false) s else .ok (hostBytes host a n) false s
  | (.ok _ a, s) =>
    if host.status ≠ .ok then .fault (addrFault fT3Timeout a 3 false) s else .ok (hostBytes host (peerKey + a) n) false s
  | (.held, s) => .wait s
  | (.bad c l e ea, s) => .fault (xlateFault ja c l e ea false) s

/-- The restart point of a copy that faults at a byte: the line that is not yet read (R306, R307). -/
def copyRestart (f : HeldFault) (off : Nat) : HeldFault :=
  { f with restart := { f.restart with off := BitVec.ofNat 32 (off / 64 * 64), rkind := 1 } }

/-- Read bytes piece by piece from `off` on; pieces end at 64 KiB boundaries, and `fuel` bounds them. -/
def ctlFuel (h : Nat) (rd : Reader) (host : HostData) (off : Nat) : Nat → State → Nat → Nat → Ctl
  | 0, s, _, _ => .ok [] false s
  | fuel + 1, s, ja, len =>
    if len = 0 then .ok [] false s
    else
      let n := min len (0x10000 - ja % 0x10000)
      match s.ctlPiece h rd host ja n with
      | .ok bs bad s =>
        (match ctlFuel h rd host (off + n) fuel s (ja + n) (len - n) with
         | .ok bs' bad' s => .ok (bs ++ bs') (bad || bad') s
         | r => r)
      | .fault f s => .fault (copyRestart f off) s
      | r => r

/-- Read job memory for control. -/
def State.ctlRead (s : State) (h : Nat) (rd : Reader) (host : HostData) (ja len : Nat) : Ctl :=
  ctlFuel h rd host 0 (len / 0x10000 + 2) s ja len

/-- Whether a job range leads to local memory of a kind and may be written, piece by piece. -/
def writableFuel (h : Nat) (rd : Reader) (kind : Region → Bool) : Nat → Nat → Nat → State → Option Bool × State
  | 0, _, _, s => (some true, s)
  | fuel + 1, a, len, s =>
    if len = 0 then (some true, s)
    else
      let n := min len (0x10000 - a % 0x10000)
      match s.translate h rd a true false with
      | (.ok 0 p, s) => if s.rangeAll kind p n then writableFuel h rd kind fuel (a + n) (len - n) s else (some false, s)
      | (.held, s) => (none, s)
      | (_, s) => (some false, s)

/-- Whether a job range leads to local memory of a kind and may be written: none where a table lies in a fenced stack. -/
def State.writable (s : State) (h : Nat) (rd : Reader) (kind : Region → Bool) (a len : Nat) : Option Bool × State :=
  writableFuel h rd kind (len / 0x10000 + 2) a len s

/-- The reader that a control core is. -/
def coreReader (src : Nat) : Reader := { kind := 6, id := src, owner := .job }

/-- The half mover to which a supervisor or steward hands a copy: the first of the half that works on nothing. -/
def State.copyMover (s : State) (h : Nat) : Option MoverId :=
  (((List.range 16).map fun i => 16 * h + i).find? fun m =>
    (s.mover m).cur.isNone && (s.mover m).fault.isNone && !s.isFenced (srcMover m)).map (Fin.ofNat 48)

/-- Whether a copy of the half is held on a fault. -/
def State.copyHeld (s : State) (h : Nat) : Bool :=
  (List.range 16).any fun i => (s.mover (16 * h + i)).cur.isNone && (s.mover (16 * h + i)).fault.isSome

/-- The mover of a copy raises a fault and holds (Table 11.3). -/
def State.copyFault (s : State) (h : Nat) (f : HeldFault) : State :=
  match s.copyMover h with
  | none => s
  | some m =>
    let s := s.raiseFault (.mover m) f
    if f.cause.toNat = fT3Timeout then s.modMover m fun g => { g with hold := BitVec.ofNat 8 wT3HostFail } else s

/-- Whether the lead role is held and known by its half; else what a former lead tries is discarded (R442). -/
def State.ifLead (s : State) (go : State → Out) : Out :=
  if s.leadOk then go s else .next (if s.staleLead then s.stale else s)

/-- The half that leads. -/
def State.leadHalf (s : State) : Nat := s.lead.getD 0

end Sys2Proof.Machine
end

