-- ==== Sys2Proof/Machine/Sort.lean ====
section
/-! DEFINITION. The top-k sort unit (07 R188 to R191). -/

namespace Sys2Proof.Machine

/-! ### Sort descriptors (Table 7.2) -/

def sdSrc (d : List Byte) : Nat := fieldAt d 0 4
def sdDst (d : List Byte) : Nat := fieldAt d 4 4
def sdPairs (d : List Byte) : Nat := fieldAt d 8 2 + 1
def sdSegLen (d : List Byte) : Nat := fieldAt d 0xA 2 + 1
def sdK (d : List Byte) : Nat := fieldAt d 0xC 2 + 1
def sdFmt (d : List Byte) : Nat := fieldAt d 0xE 1
def sdAsc (d : List Byte) : Bool := bitOf (fieldAt d 0xF 1) 0
def sdIdxGen (d : List Byte) : Bool := bitOf (fieldAt d 0xF 1) 1
def sdEclass (d : List Byte) : Nat := fieldAt d 0x10 1
def sdIdxBase (d : List Byte) : Nat := fieldAt d 0x14 4
/-- Segments of a sort. -/
def sdSegs (d : List Byte) : Nat := sdPairs d / sdSegLen d

/-- A sort descriptor is well formed (R188, R191): its CRC is right, its fields are in range, and source and output lie
in the course buffer. -/
def sortDescOk (d : List Byte) : Bool :=
  d.length == 64 && crcOk d 0x3C && sdSrc d % 64 == 0 && sdDst d % 64 == 0 && sdPairs d % sdSegLen d == 0 &&
  decide (sdK d ≤ 4096) && decide (sdSegs d * sdK d ≤ 65536) && decide (sdFmt d ≤ 3) && decide (fieldAt d 0xF 1 < 4) &&
  decide (sdEclass d < 8) && zeroAt d 0x11 3 && zeroAt d 0x18 36 &&
  decide (sdSrc d + 8 * sdPairs d ≤ 0x4000000) && decide (sdDst d + 8 * (sdSegs d * sdK d) ≤ 0x4000000)

/-! ### Ranking (R189) -/

/-- A pair with its position within its segment. -/
structure Ranked where
  score : Nat
  index : Nat
  pos : Nat
  deriving DecidableEq, Repr

/-- A sign and magnitude as an integer; both zeros are 0. -/
def signMag (w n : Nat) : Int :=
  let m := n % 2 ^ (w - 1)
  if bitOf n (w - 1) then -(m : Int) else m

/-- The key of a score word: none for a NaN. Key formats 0 FP32, 1 BF16, 2 INT32, 3 INT16. -/
def sortKey (fmt score : Nat) : Option Int :=
  match fmt with
  | 0 => if 0x7F800000 < score % 2 ^ 31 then none else some (signMag 32 score)
  | 1 => if 0x7F80 < score % 2 ^ 15 then none else some (signMag 16 (score % 2 ^ 16))
  | 2 => some (signedOf 32 score)
  | _ => some (signedOf 16 score)

/-- Ties rank by index, then by input position. -/
def tieBefore (p q : Ranked) : Bool := decide (p.index < q.index) || (p.index == q.index && decide (p.pos < q.pos))

/-- Whether a pair ranks before another: numbers before NaN, by key, then the tie rule. -/
def ranksBefore (fmt : Nat) (asc : Bool) (p q : Ranked) : Bool :=
  match sortKey fmt p.score, sortKey fmt q.score with
  | some a, some b => if a = b then tieBefore p q else if asc then decide (a < b) else decide (b < a)
  | some _, none => true
  | none, some _ => false
  | none, none => tieBefore p q

/-- Put a pair into its place. -/
def rankInsert (fmt : Nat) (asc : Bool) (p : Ranked) : List Ranked → List Ranked
  | [] => [p]
  | q :: qs => if ranksBefore fmt asc p q then p :: q :: qs else q :: rankInsert fmt asc p qs

/-- Rank the pairs of a segment. -/
def rankAll (fmt : Nat) (asc : Bool) : List Ranked → List Ranked
  | [] => []
  | p :: ps => rankInsert fmt asc p (rankAll fmt asc ps)

/-- The pairs of a segment from its bytes, with generated indices where the descriptor asks for them. -/
def segPairs (d seg : List Byte) : List Ranked :=
  (List.range (sdSegLen d)).map fun i =>
    { score := fieldAt seg (8 * i) 4
      index := if sdIdxGen d then (sdIdxBase d + i) % 2 ^ 32 else fieldAt seg (8 * i + 4) 4
      pos := i }

/-- The filler pair. -/
def fillerPair : List Byte := toLe 0x7FC00000 4 ++ toLe 0xFFFFFFFF 4

/-- The output of a segment: its best pairs in rank order, with fillers up to k (R190). -/
def segOut (d seg : List Byte) : List Byte :=
  let best := (rankAll (sdFmt d) (sdAsc d) (segPairs d seg)).take (sdK d)
  (best.map fun p => toLe p.score 4 ++ toLe p.index 4).flatten ++
    (List.replicate (sdK d - best.length) fillerPair).flatten

/-- NaN keys of the source bytes. -/
def nanKeys (d src : List Byte) : Nat :=
  ((List.range (sdPairs d)).filter fun i => (sortKey (sdFmt d) (fieldAt src (8 * i) 4)).isNone).length

/-! ### The unit -/

/-- Change the sort in a course's unit. -/
def State.modSort (s : State) (c : Nat) (f : SortRun → SortRun) : State :=
  s.modCourse c fun x => { x with sort := x.sort.map f }

/-- The sort of a course runs, if it can: a faulty descriptor raises SORT_DESC; the gate must serve its class; then the
pairs are read and ranked (R188, R189). -/
def State.rankSort (s : State) (c : CourseId) : State :=
  match (s.course c).sort with
  | none => s
  | some q =>
    let d := q.desc
    if q.ranked.isSome ∨ (s.course c).sortFault.isSome then s
    else if ¬ sortDescOk d then s.raiseFault (.sorter c) (newFault fSortDesc)
    else if q.cost = 0 ∧ ¬ s.gateOpen c (sdEclass d) then
      s.modCourse c fun x => { x with stalls := bumpStall x.stalls wCreditWait }
    else
      let cost := if q.cost = 0 then (s.course c).costOf (sdEclass d) else q.cost
      let s := if q.cost = 0 then s.debit c cost else s
      let r := s.readMem { kind := 9, id := c, owner := .job } (courseBase c + sdSrc d) (8 * sdPairs d)
      let outs := (chunksOf (8 * sdSegLen d) (sdSegs d) r.1).map (segOut d)
      let nans := nanKeys d r.1
      (r.2.2.modCourse c fun x => { x with sortNan := satAdd x.sortNan nans, lastRestart := none }).modSort c fun q =>
        { q with cost, ranked := some (outs, r.2.1) }

/-- SORT_COMPLETE (R190): the ranked pairs go to their places, poisoned where a source word was bad, and the unit
reports completion. -/
def execSortComplete (c : CourseId) (s : State) : Out :=
  if ¬ s.courseUp c ∨ s.jobStopping then .next s
  else match (s.course c).sort with
    | none => .next s
    | some q => match q.ranked with
      | none => .next s
      | some (outs, bad) =>
        .next ((s.writeMem (courseBase c + sdDst q.desc) outs.flatten bad).modCourse c fun x => { x with sort := none })

end Sys2Proof.Machine
end

