-- ==== Sys2Proof/Machine/Plan.lean ====
section
/-! DEFINITION. Work plans: checking a plan, and executing its segments and step ends (10 R284 to R286; 11 R300, R301,
R319 to R322; 05 R139; 01 R19, R31; 15 R424, R441, R442). -/

namespace Sys2Proof.Machine

/-! ### Manifests (R319) -/

/-- Advance of cursor `i`. -/
def manAdv (m : List Byte) (i : Nat) : DWord := BitVec.ofNat 64 (fieldAt m (8 * i) 8)
def manCount (m : List Byte) : Nat := (m.length - 64) / 32
def manAddr (m : List Byte) (i : Nat) : Nat := fieldAt m (64 + 32 * i) 8
def manBytes (m : List Byte) (i : Nat) : Nat := fieldAt m (72 + 32 * i) 8
def manKind (m : List Byte) (i : Nat) : Nat := fieldAt m (80 + 32 * i) 1

/-- Bytes of all regions. -/
def manData (m : List Byte) : Nat := ((List.range (manCount m)).map (manBytes m)).sum

/-- Length of the stream of a manifest, trailer included. -/
def streamLen (m : List Byte) : Nat := 0x100 + 64 * manCount m + manData m + 64

/-- A manifest is good, and its stream fits in half the checkpoint buffer. -/
def manOk (m : List Byte) (ckptLen : Nat) : Bool :=
  zeroAt m 0x20 28 && fieldAt m 0x3C 4 == (crc32c (m.take 0x3C ++ m.drop 64)).toNat &&
  (List.range (manCount m)).all (fun i =>
    manAddr m i % 64 == 0 && manBytes m i % 64 == 0 && decide (1 ≤ manKind m i) && decide (manKind m i ≤ 4) &&
    zeroAt m (81 + 32 * i) 15) &&
  decide (streamLen m ≤ ckptLen / 2)

/-! ### Encode lists (R397) -/

def elEngine (l : List Byte) : Nat := fieldAt l 4 1
def elCount (l : List Byte) : Nat := fieldAt l 8 4
/-- Descriptor `i` of a list. -/
def elDesc (l : List Byte) (i : Nat) : List Byte := bytesAt l (64 + 128 * i) 128

/-- The header of a list is good. -/
def elHeadOk (l : List Byte) : Bool :=
  fieldAt l 0 4 == 0x4D39454C && zeroAt l 5 3 && decide (3 ≤ elCount l) && decide (elCount l ≤ 65536) &&
  zeroAt l 0xC 48 && crcOk l 0x3C

/-- A descriptor of a list is good at its place. -/
def elDescOk (l : List Byte) (i : Nat) : Bool :=
  let d := elDesc l i
  let want := if i = 0 then 2 else if i + 1 = elCount l then 7 else 3
  crcOk d 124 && headerOk d && dSeqField d == i && dEvq d == 0 && fieldAt d 0x18 4 == 0 && dTag d == 0 && dHtime d == 0 &&
  dOpc d == want && codecBodyOk true true d && cCtx d == cCtx (elDesc l 0)

/-! ### Checking a plan (R284, R424) -/

/-- What came of the checks of a plan. -/
inductive Checked where
  | ok (segs : List Seg) (s : State)
  | bad (index : Nat) (s : State)
  | fenced (unit : Nat) (s : State)
  | wait

/-- The fenced unit that a segment names, half before course. -/
def State.fencedIn (s : State) (g : Seg) : Option Nat :=
  if (g.kind = 1 ∨ g.kind = 2 ∨ g.kind = 3) ∧ s.isFenced (srcHalf g.half) then some (srcHalf g.half)
  else if (g.kind = 1 ∨ g.kind = 3) ∧ s.isFenced (srcSteward g.course) then some (srcSteward g.course)
  else none

/-- Whether a read failed because the host or a peer did not answer: the command waits. -/
def lateRead (f : HeldFault) : Bool := f.cause.toNat == fT3Timeout

/-- What came of the checks of one segment. -/
inductive SegCheck where
  | ok (g : Seg) (s : State)
  | bad (s : State)
  | fenced (u : Nat) (s : State)
  | wait

/-- Read and check the manifest of a step end. -/
def State.checkManifest (s : State) (h : Nat) (rd : Reader) (host : HostData) (ckptLen : Nat) (g : Seg) : SegCheck :=
  match s.ctlRead h rd host g.src.toNat (64 + 32 * g.len) with
  | .wait _ => .wait
  | .fault f s => if lateRead f then .wait else .bad s
  | .ok m _ s => if manOk m ckptLen then .ok { g with man := m } s else .bad s

/-- Check a segment; the last one of a plan is a step end, and the manifest of a step end is read with it. -/
def State.checkSeg (s : State) (h : Nat) (rd : Reader) (host : HostData) (ckptLen : Nat) (last : Bool) (b : List Byte) :
    SegCheck :=
  match parseSeg b with
  | none => .bad s
  | some g =>
    match s.fencedIn g with
    | some u => .fenced u s
    | none =>
      if g.kind = 5 then s.checkManifest h rd host ckptLen g
      else if last then .bad s
      else .ok g s

/-- Check segments `i` to `n - 1`, the plan's bytes given. -/
def checkSegs (h : Nat) (rd : Reader) (host : HostData) (ckptLen n : Nat) (plan : List Byte) :
    Nat → Nat → List Seg → State → Checked
  | 0, _, acc, s => .ok acc.reverse s
  | fuel + 1, i, acc, s =>
    match s.checkSeg h rd host ckptLen (i + 1 == n) (bytesAt plan (32 * i) 32) with
    | .bad s => .bad i s
    | .fenced u s => .fenced u s
    | .wait => .wait
    | .ok g s => checkSegs h rd host ckptLen n plan fuel (i + 1) (g :: acc) s

/-- Read and check the plan of the running job. -/
def State.checkPlan (s : State) (host : HostData) : Checked :=
  let d := s.jobDesc
  let h := s.leadHalf
  let rd := coreReader (srcHalf h)
  match s.ctlRead h rd host (jPlan d) (32 * jNseg d) with
  | .wait _ => .wait
  | .fault f s => if lateRead f then .wait else .bad 0 s
  | .ok plan _ s => checkSegs h rd host (jCkptLen d) (jNseg d) plan (jNseg d) 0 [] s

/-- What came of the checks of an encode list: its engine and descriptors. -/
inductive ListRead where
  | ok (engine : Nat) (descs : List (List Byte)) (s : State)
  | bad (s : State)
  | wait

/-- Whether the bitstream destinations of a list are writable: a job range by its leaves, a host range by one Gatehouse window under
the job's PASID (R397). -/
def State.listDsts (h : Nat) (rd : Reader) : List (List Byte) → State → Option Bool × State
  | [], s => (some true, s)
  | d :: ds, s =>
    if dOpc d ≠ 3 then State.listDsts h rd ds s
    else if eDstSpace d = 2 then
      (if s.ghPass (eDst d) (eCap d) s.jobPasid false then State.listDsts h rd ds s else (some false, s))
    else match s.writable h rd Region.hostOk (eDst d) (eCap d) with
      | (some true, s) => State.listDsts h rd ds s
      | r => r

/-- Read and check the encode list of the running job (R397). -/
def State.readEncList (s : State) (host : HostData) : ListRead :=
  let h := s.leadHalf
  let rd := coreReader (srcHalf h)
  let a := jEncDesc s.jobDesc
  match s.ctlRead h rd host a 64 with
  | .wait _ => .wait
  | .fault f s => if lateRead f then .wait else .bad s
  | .ok head _ s =>
    if ¬ elHeadOk head ∨ ¬ s.variant.hasCodec (elEngine head) then .bad s
    else match s.ctlRead h rd host (a + 64) (128 * elCount head) with
      | .wait _ => .wait
      | .fault f s => if lateRead f then .wait else .bad s
      | .ok body _ s =>
        let l := head ++ body
        let ds := (List.range (elCount head)).map (elDesc l)
        if ¬ (List.range (elCount head)).all (elDescOk l) then .bad s
        else match State.listDsts h rd ds s with
          | (none, _) => .wait
          | (some false, s) => .bad s
          | (some true, s) => .ok (elEngine head) ds s

/-! ### Segments (R286) -/

/-- The segment that the supervisors may start next: the plan runs, a step is open, nothing stops the job. -/
def State.nextSeg (s : State) : Option (Job × Seg) :=
  match s.job.cur with
  | none => none
  | some j =>
    if j.phase = .running ∧ j.inStep ∧ ¬ s.jobStopping ∧ ¬ j.ckptPending ∧ ¬ j.handover then
      (j.segs[j.nextSeg]?).map fun g => (j, g)
    else none

/-- The next segment starts. -/
def State.passSeg (s : State) : State := s.modJob fun j => { j with nextSeg := j.nextSeg + 1 }

/-- Bytes of a course buffer's job part. -/
def State.splitBytes (s : State) : Nat := s.regs.splitNow * 0x100000

/-- A range's fields are such that the counter takes it: its values do not wrap or overlap a live range's, its slots lie
in the steward area (R139). -/
def Course.rangeOk (c : Course) (r : Range) : Bool :=
  decide (6 ≤ r.slotShift) && decide (r.slotShift ≤ 10) && decide (r.affinity ≤ 2) && decide (r.descBase % 64 = 0) &&
  decide (r.descBase + r.count * 2 ^ r.slotShift ≤ 0x4000000) && decide (r.first.toNat + r.count ≤ 2 ^ 32) &&
  c.ranges.all fun q => decide (r.first.toNat + r.count ≤ q.first.toNat) || decide (q.first.toNat + q.count ≤ r.first.toNat)

/-- RANGE (R286): a fifth live range waits; a refused range raises RANGE_BAD; else the steward copies the descriptors
and appends the range. -/
def execRange (host : HostData) (s : State) : Out :=
  match s.nextSeg with
  | none => .next s
  | some (_, g) =>
    let c := g.course
    let x := s.course c
    let h := c / 4
    if g.kind ≠ 1 ∨ ¬ s.courseUp c ∨ ¬ s.halfUp h ∨ x.counterFault.isSome ∨ 4 ≤ x.ranges.length ∨ s.copyHeld h then .next s
    else
      let r : Range := { first := g.first, count := g.len + 1, epoch := x.epoch, descBase := s.splitBytes + g.descBase,
                         slotShift := g.slotShift, eclass := g.eclass, affinity := g.affinity, src := g.src }
      if ¬ x.rangeOk r then .next (s.raiseFault (.counter (Fin.ofNat 8 c)) (newFault fRangeBad))
      else match s.ctlRead h (coreReader (srcSteward c)) host g.src.toNat (r.count * 2 ^ r.slotShift) with
        | .wait s => .next s
        | .fault f s => .next (s.copyFault h f)
        | .ok bs _ s =>
          .next ((s.writeMem (courseBase c + r.descBase) bs).passSeg.modCourse c fun x => { x with ranges := x.ranges ++ [r] })

/-- Give descriptor `t` of a list to the mover of its place, or the next that is not fenced (R301, Table 15.3). -/
def State.giveTask (s : State) (h : Nat) (t : MTask) : State :=
  let m := 16 * h + t.dseq % 16
  let m := if s.isFenced (srcMover m) then (s.nextFreeMover m).getD m else m
  s.modMover m fun g => { g with queue := insertTask t g.queue }

/-- MOVERS (R301): the half's movers take the descriptors of the list. -/
def execMovers (host : HostData) (s : State) : Out :=
  match s.nextSeg with
  | none => .next s
  | some (j, g) =>
    let h := g.half
    if g.kind ≠ 2 ∨ ¬ s.halfUp h ∨ s.copyHeld h then .next s
    else match s.ctlRead h (coreReader (srcHalf h)) host g.src.toNat (128 * g.len) with
      | .wait s => .next s
      | .fault f s => .next (s.copyFault h f)
      | .ok bs _ s =>
        let tasks := (chunksOf 128 g.len bs).zipIdx.map fun x => (MTask.mk none j.nextSeg x.2 x.1)
        let s := tasks.foldl (fun s t => s.giveTask h t) s
        let l : MList := { id := j.nextSeg, half := h, total := g.len, doneIdx := [] }
        .next { s with job := { s.job with lists := s.job.lists ++ [l] } }.passSeg

/-- The first course whose sort waits to be ranked. -/
def State.waitingSort (s : State) : Option CourseId :=
  ((List.range 8).find? fun c =>
    s.courseUp c && (s.course c).sortFault.isNone &&
    match (s.course c).sort with
    | some q => q.ranked.isNone
    | none => false).map (Fin.ofNat 8)

/-- SORT (R188, R286): a sort that waits runs first; else the steward copies the next SORT segment's descriptor and
issues it. -/
def execSort (host : HostData) (s : State) : Out :=
  if s.jobStopping then .next s
  else match s.waitingSort with
    | some c => .next (s.rankSort c)
    | none =>
      match s.nextSeg with
      | none => .next s
      | some (_, g) =>
        let c := g.course
        let h := c / 4
        let x := s.course c
        if g.kind ≠ 3 ∨ ¬ s.courseUp c ∨ ¬ s.halfUp h ∨ x.sort.isSome ∨ x.sortFault.isSome ∨ s.copyHeld h then .next s
        else match s.ctlRead h (coreReader (srcSteward c)) host g.src.toNat 64 with
          | .wait s => .next s
          | .fault f s => .next (s.copyFault h f)
          | .ok bs _ s =>
            let base := s.splitBytes + g.descBase
            let s := if base + 64 ≤ 0x4000000 then s.writeMem (courseBase c + base) bs else s
            let q : SortRun := { desc := if base + 64 ≤ 0x4000000 then bs else [], src := g.src, descBase := base }
            .next (((s.modCourse c fun x => { x with sort := some q }).passSeg).rankSort (Fin.ofNat 8 c))

/-- Whether every earlier segment of the step has retired or completed. -/
def State.stepQuiet (s : State) : Bool := s.courses.all (fun c => c.ranges.isEmpty && c.sort.isNone) && s.job.lists.isEmpty

/-- BARRIER (R286). -/
def execBarrier (s : State) : Out :=
  match s.nextSeg with
  | none => .next s
  | some (_, g) => if g.kind ≠ 4 ∨ ¬ s.stepQuiet then .next s else .next s.passSeg

/-! ### Length buckets (R222) -/

/-- Tokens committed to a page list (Table 8.7). -/
def plTokens (h : List Byte) : Nat := fieldAt h 0x10 4

/-- The length bucket of a page count: 0 holds P ≤ 1, b ≥ 1 holds 2^(b−1) < P ≤ 2^b. -/
def lengthBucket (p : Nat) : Nat := if p ≤ 1 then 0 else (p - 1).log2 + 1

/-- Sequences in ascending order of bucket, and of index within a bucket, their page counts given. -/
def bucketOrder (ps : List Nat) : List Nat :=
  ((List.range 33).map fun b => (List.range ps.length).filter fun i => lengthBucket (ps.getD i 0) == b).flatten

/-- The page counts of the first `n` sequences of the job, as a supervisor reads their lists; none where a read holds. A
list that does not translate to local memory has no pages (log entry 37). -/
def pageCounts (h : Nat) : Nat → State → Option (List Nat) × State
  | 0, s => (some [], s)
  | n + 1, s =>
    match pageCounts h n s with
    | (none, s) => (none, s)
    | (some ps, s) => match s.readJob h (coreReader (srcHalf h)) false (jPlist s.jobDesc n) 64 with
      | (.error .held, s) => (none, s)
      | (.error _, s) => (some (ps ++ [0]), s)
      | (.ok (hd, _), s) => (some (ps ++ [(plTokens hd + 255) / 256]), s)

/-- The step starts: the supervisors take its sequences in the order of their buckets (R222). -/
def State.openStep (s : State) (h : Nat) : State :=
  match pageCounts h (jNseq s.jobDesc) s with
  | (none, _) => s
  | (some ps, s) => s.modJob fun j => { j with inStep := true, order := bucketOrder ps }

/-- STEP_COMMAND (R19, R222, R441, R442): the half that takes itself for the lead writes its state into the lead record under
its epoch and issues the step's commands; a supervisor that has seen a newer epoch discards them. -/
def execStepCommand (h : HalfId) (epoch : Word) (s : State) : Out :=
  match s.job.cur with
  | none => .next s
  | some j =>
    if ¬ s.ioUp ∨ ¬ s.halfUp h ∨ (s.half h).leads ≠ some epoch ∨ j.phase ≠ .running ∨ j.inStep ∨ s.jobStopping ∨
        s.rel.handover.isSome ∧ j.handover then .next s
    else if ¬ s.rel.lease.heldBy h epoch then .next s.stale
    else
      let record := some (BitVec.ofNat 32 (jId j.posted.bytes), j.step, j.nextSeg)
      let s := { s with rel := { s.rel with lease := { s.rel.lease with record := record } } }
      let seen := fun (x : Half) => ({ x with newestEpoch := epoch } : Half)
      let s := (s.modHalf 0 seen).modHalf 1 seen
      .next (s.openStep h)

/-! ### Step ends (R31, R319 to R322) -/

/-- A line of a stream: host address, bytes, Relaxed Ordering, EP. -/
structure Line where
  addr : Nat
  bytes : List Byte
  ro : Bool
  ep : Bool
  deriving DecidableEq, Repr

/-- What came of reading region data: lines of 64 bytes with whether a word of them is bad. -/
inductive Gathered where
  | ok (ls : List (List Byte × Bool)) (s : State)
  | fault (f : HeldFault) (s : State)
  | wait (s : State)

/-- Read `n` lines of a region. -/
def gather (h : Nat) (rd : Reader) (host : HostData) : Nat → Nat → State → Gathered
  | 0, _, s => .ok [] s
  | n + 1, ja, s =>
    match s.ctlPiece h rd host ja 64 with
    | .wait s => .wait s
    | .fault f s => .fault f s
    | .ok bs bad s => match gather h rd host n (ja + 64) s with
      | .ok ls s => .ok ((bs, bad) :: ls) s
      | r => r

/-- Read the lines of regions `i` on, region by region. -/
def gatherAll (h : Nat) (rd : Reader) (host : HostData) (m : List Byte) : Nat → Nat → State →
    Option HeldFault × Bool × List (List (List Byte × Bool)) × State
  | 0, _, s => (none, true, [], s)
  | fuel + 1, i, s =>
    match gather h rd host (manBytes m i / 64) (manAddr m i) s with
    | .wait s => (none, false, [], s)
    | .fault f s => (some f, false, [], s)
    | .ok ls s =>
      let r := gatherAll h rd host m fuel (i + 1) s
      (r.1, r.2.1, ls :: r.2.2.1, r.2.2.2)

/-- Header of a stream (Table 11.8). -/
def streamHeader (skind : Nat) (boot jobId step total nreg : Nat) (pois : Bool) (cursors : List DWord)
    (keyDig tsetDig : List Byte) : List Byte :=
  withCrc (padTo (toLe 0x4D39434B 4 ++ [1] ++ toLe skind 1 ++ toLe boot 2 ++ toLe jobId 4 ++ toLe step 4 ++
    toLe total 8 ++ toLe nreg 4 ++ toLe (b2n pois) 1 ++ zeros 3 ++ (cursors.map fun c => toLe c.toNat 8).flatten ++
    padTo keyDig 64 ++ padTo tsetDig 64) 0xFC)

/-- A region header (Table 11.8). -/
def regionHeader (i kind : Nat) (pois : Bool) (ja len doff : Nat) : List Byte :=
  withCrc (padTo (toLe i 4 ++ toLe kind 1 ++ toLe (b2n pois) 1 ++ zeros 2 ++ toLe ja 8 ++ toLe len 8 ++ toLe doff 8) 60)

/-- Trailer of a stream (Table 11.8). -/
def streamTrailer (jobId step : Nat) : List Byte :=
  withCrc (padTo (toLe 0x4D394B43 4 ++ toLe jobId 4 ++ toLe step 4 ++ toLe 1 4) 60)

/-- Offset of the data of region `i`, after regions of the lengths given. -/
def dataOff (nreg : Nat) (lens : List Nat) (i : Nat) : Nat := 0x100 + 64 * nreg + (lens.take i).sum

/-- Cut bytes into lines from a host address on. -/
def cutLines (addr : Nat) (bs : List Byte) (ro : Bool) : List Line :=
  (chunksOf 64 (bs.length / 64) bs).zipIdx.map fun x => (Line.mk (addr + 64 * x.2) x.1 ro false)

/-- Send lines, under the job's PASID where they are the job's (R270), until one is refused: how many passed, whether all
did. -/
def sendLines (pasid : Option (BitVec 20)) : List Line → Nat → State → Nat × Bool × State
  | [], k, s => (k, true, s)
  | l :: ls, k, s =>
    match s.hostWrite .pf0 l.addr l.bytes l.ro l.ep pasid with
    | (true, s) => sendLines pasid ls (k + 1) s
    | (false, s) => (k, false, s)

/-- Digest of the job's table set, or zero. -/
def State.tsetDigest (s : State) (d : List Byte) : List Byte :=
  match s.mgt.images.find? fun x => x.kind == 2 && x.handle.toNat == jTset d with
  | some x => x.digest
  | none => zeros 64

/-- The lines of the step checkpoint of a job whose region data is read. -/
def State.checkpointLines (s : State) (j : Job) (m : List Byte) (rs : List (List (List Byte × Bool))) : List Line :=
  let d := j.posted.bytes
  let base := jCkptAddr d + (j.step % 2) * (jCkptLen d / 2)
  let bad := fun (r : List (List Byte × Bool)) => r.any (·.2)
  let n := manCount m
  let lens := (List.range n).map (manBytes m)
  let total := streamLen m
  let head := streamHeader 1 s.mgt.boot.toNat (jId d) j.step total n (j.ckptPois || rs.any bad) j.cursors
    (shake256 (jKey d)) (s.tsetDigest d)
  let heads := (rs.zipIdx.map fun x =>
    regionHeader x.2 (manKind m x.2) (bad x.1) (manAddr m x.2) (manBytes m x.2) (dataOff n lens x.2)).flatten
  let data := rs.flatten.zipIdx.map fun x => (Line.mk (base + 0x100 + 64 * n + 64 * x.2) x.1.1 true x.1.2)
  cutLines base (head ++ heads) true ++ data ++ cutLines (base + total - 64) (streamTrailer (jId d) j.step) false

/-- POISON_SUMMARY (R230). -/
def State.postPoison (s : State) (j : Job) : State :=
  s.post { kind := kPoisonSummary, src := s.ringSource 0, owner := .job,
           body := toLe (jId j.posted.bytes) 4 ++ toLe (j.step + 1) 4 ++ toLe (min j.poisTiles (2 ^ 32 - 1)) 4 ++
             toLe (j.firstMem.getD 0).toNat 4 ++ toLe (b2n j.firstMem.isSome) 1 }

/-- The leaf of a sequence's TOKENS field, translated for a write of its supervisor. -/
def State.tokensAt (s : State) (h i : Nat) : Xlate × State :=
  s.translate h (coreReader (srcHalf h)) (jPlist s.jobDesc i + 0x10) true false

/-- Whether the count of a sequence holds for a fenced stack. -/
def State.tokensHeld (s : State) (h i : Nat) : Bool :=
  match (s.tokensAt h i).1 with
  | .held => true
  | .ok 0 a => s.stackHeld a
  | _ => false

/-- The supervisor advances TOKENS of a sequence by the count that the step declares (R221). A list that cannot be written
is left as it is (log entry 37). -/
def State.advanceTokens (s : State) (h : Nat) (m : List Byte) (i : Nat) : State :=
  let n := Config.stepTokens m i
  match s.tokensAt h i with
  | (.ok 0 a, t) =>
    if n = 0 ∨ ¬ t.rangeAll Region.hostOk a 4 then s
    else
      let r := t.readMem (coreReader (srcHalf h)) a 4
      r.2.2.writeMem a (toLe ((leNat r.1 + n) % 2 ^ 32) 4)
  | _ => s

/-- The step's work is done: token counts and cursors advance, the step counts, a poisoned step is summed up (R221, R230,
R320). -/
def State.closeStepEnd (s : State) (j : Job) (m : List Byte) : State :=
  let pois := decide (j.poisTiles ≠ 0)
  let s := if pois then s.postPoison j else s
  let s := (List.range (jNseq s.jobDesc)).foldl (fun s i => s.advanceTokens s.leadHalf m i) s
  let cursors := j.cursors.zipIdx.map fun x => x.1 + manAdv m x.2
  s.modJob fun j =>
    { j with cursors, step := j.step + 1, poisSteps := j.poisSteps + b2n pois, ckptPois := pois, ckptPending := true,
             ckptLine := 0 }

/-- The trailer is written: STEP_DONE follows, after a hand-over where one is asked for (R321, R437). -/
def State.closeStream (s : State) (j : Job) (m : List Byte) (pois : Bool) : State :=
  let off := (j.step % 2) * (jCkptLen j.posted.bytes / 2)
  let s := s.modJob fun j =>
    { j with ckptPending := false, ckptLine := 0, ckptOff := BitVec.ofNat 64 off, ckptTotal := BitVec.ofNat 64 (streamLen m),
             ckptPois := j.ckptPois || pois }
  if s.rel.handover.isSome then s.modJob fun j => { j with handover := true } else s.finishStep false

/-- A fault of the checkpoint stream names its first unwritten line (R306). -/
def streamFault (f : HeldFault) (line : Nat) : HeldFault :=
  { f with restart := { f.restart with row := 0, off := BitVec.ofNat 32 (64 * line), rkind := 7 } }

/-- Write the checkpoint stream from its restart point on; a lost link or a refusal holds it (R322). -/
def State.stream (s : State) (host : HostData) (j : Job) (m : List Byte) : State :=
  let h := s.leadHalf
  match s.copyMover h with
  | none => s
  | some mv =>
    match gatherAll h { kind := 1, id := mv, owner := .job } host m (manCount m) 0 s with
    | (some f, _, _, s) => s.copyFault h (streamFault f j.ckptLine)
    | (none, false, _, s) => s
    | (none, true, rs, s) =>
      let ls := s.checkpointLines j m rs
      let lineAt := fun (n : Nat) => ((ls[n]?).map (·.addr)).getD 0
      if ¬ s.hif.linkUp then s.copyFault h (streamFault (addrFault fT3Timeout (lineAt j.ckptLine) 2 true) j.ckptLine)
      else
        let r := sendLines s.jobPasid (ls.drop j.ckptLine) j.ckptLine s
        if r.2.1 then r.2.2.closeStream j m (rs.any fun x => x.any (·.2))
        else
          (r.2.2.modJob fun j => { j with ckptLine := r.1 }).copyFault h
            (streamFault (addrFault fGatehouse (lineAt r.1) 2 true) r.1)

/-- STEP_END (R319 to R322): once every segment of the step is complete, the step ends, unless an outlier overflow ends
the job here (R117); its checkpoint stream follows. A pre-emption asked for before the stream starts is honoured
first (R31). -/
def execStepEnd (host : HostData) (s : State) : Out :=
  match s.job.cur with
  | none => .next s
  | some j =>
    match j.segs[j.nextSeg]? with
    | none => .next s
    | some g =>
      let h := s.leadHalf
      if g.kind ≠ 5 ∨ j.phase ≠ .running ∨ ¬ j.inStep ∨ s.jobStopping ∨ j.preempt.isSome ∨ j.handover ∨ ¬ s.stepQuiet ∨
          ¬ s.halfUp h ∨ s.copyHeld h then .next s
      else s.ifLead fun s =>
        if j.ckptPending then .next (s.stream host j g.man)
        else if j.outlier then
          .next (s.endJob { status := BitVec.ofNat 16 stOutlierFault, resExt := j.outlierExt })
        else if (List.range (jNseq s.jobDesc)).any (s.tokensHeld h) then .next s
        else
          let s := s.closeStepEnd j g.man
          match s.job.cur with
          | some j => .next (s.stream host j g.man)
          | none => .next s

end Sys2Proof.Machine
end

