-- ==== Sys2Proof/Machine/Resolve.lean ====
section
/-! DEFINITION. Resolution of held faults, by the host and by firmware (11 R308, R310 to R312; 15 R421; Table 11.3). -/

namespace Sys2Proof.Machine

/-! ### By the host (R310) -/

/-- The units that can hold a fault which a RESOLVE names. -/
def faultUnits : List FaultUnit := jobUnits ++ (List.range 16).map fun n => .mover (Fin.ofNat 48 (32 + n))

/-- The unit that holds the fault of a record. -/
def State.holderOf (s : State) (src seq : Nat) : Option (FaultUnit × HeldFault) :=
  faultUnits.findSome? fun u => match s.faultOf u with
    | some f => if srcOf u = src ∧ f.seq.toNat = seq ∧ ¬ f.escalated then some (u, f) else none
    | none => none

/-- Remove every cached translation of a job address from both halves' caches. -/
def State.forget (s : State) (f : HeldFault) : State :=
  if f.space ≠ 0 then s
  else
    let drop := fun (x : Half) => ({ x with tcache := x.tcache.filter fun t => !t.hits f.faddr.toNat } : Half)
    (s.modHalf 0 drop).modHalf 1 drop

/-- The unit repeats its work from its restart point; a collective starts its current step again. -/
def State.retryFault (s : State) (u : FaultUnit) (byHost : Bool) : State :=
  let lost := match s.faultOf u with
    | some f => f.cause.toNat == fLinkLost
    | none => false
  let s := s.settleFault u .retry byHost
  match u with
  | .mover m => s.retryColl m lost
  | _ => s

/-- The descriptor of a mover of a DMA ring ends CANCELLED. -/
def State.abortFault (s : State) (u : FaultUnit) : State :=
  match u with
  | .mover m =>
    let s := s.settleFault u .cancelled true
    (match (s.mover m).cur with
     | some t => s.endTask m t stCancelled
     | none => s)
  | _ => s

/-- What a RESOLVE does: its status and the state. -/
def State.resolve (s : State) (d : List Byte) : Nat × State :=
  match s.holderOf (rvSrc d) (rvSeq d) with
  | none => (stAlready, s)
  | some (u, f) =>
    if rvAction d = 1 ∧ f.host then (stOk, (s.forget f).retryFault u true)
    else if rvAction d = 2 ∧ f.host ∧ ¬ f.ofJob then (stOk, s.abortFault u)
    else (stMalformed, s)

/-- RESOLVE (R310): the module manager takes the first RESOLVE posted on the ring, ahead of the MOVEs that wait. -/
def execResolve (ring : RingId) (s : State) : Out :=
  let r := ring.val
  match (s.ring r).posted.find? fun p => dOpc p.bytes == 2 with
  | none => .next s
  | some p =>
    if ¬ s.mgrUp ∨ r < 2 ∨ 17 < r ∨ s.completionHeld r then .next s
    else
      let s := s.modRing r fun g => { g with posted := g.posted.filter fun q => q.idx ≠ p.idx }
      let x := s.resolve p.bytes
      .next (x.2.completeNow r p.bytes x.1)

/-! ### By firmware (Table 11.3) -/

/-- A fault's entry in the ladder. -/
def faultError (rung : Fin 5) (u : FaultUnit) (f : HeldFault) : ErrArrival :=
  { rung, src := BitVec.ofNat 16 (srcOf u), code := f.cause, unit := 0, forJob := f.ofJob, kind := BitVec.ofNat 16 kFault,
    seq := f.seq, data := f.faddr.toNat }

/-- Contained to the job: the fault is resolved ESCALATED, and the unit waits for the job's end. -/
def State.escalate (s : State) (u : FaultUnit) (f : HeldFault) : State :=
  ((s.arrive (faultError 2 u f)).postResolved u f .escalated false).setFault u (some { f with escalated := true })

/-- The module that a mover's current access goes to, where it goes to one. -/
def State.targetOf (s : State) (m : MoverId) (t : MTask) : Option Nat :=
  let a := t.srcAt (s.mover m).restart
  if mvSrcSpace t.bytes = 3 then some (bitsOf a 48 14)
  else if mvSrcSpace t.bytes = 0 then
    match (s.translate (m / 16) (moverReader m t) a false false).1 with
    | .ok 2 b => some (bitsOf b 48 14)
    | _ => none
  else none

/-- Whether a port works for traffic. -/
def State.portOpen (s : State) (p : Nat) : Bool := s.portActive p && !(s.port p).fenced

/-- Whether a route is open for what a mover lost (R352). -/
def State.routeOpen (s : State) (m : MoverId) : Bool :=
  let g := s.mover m
  match g.cur with
  | none => true
  | some t => match g.coll with
    | some c => match s.collDirs c with
      | some (down, up) => (s.dirPorts down ++ s.dirPorts up).all s.portOpen
      | none => true
    | none => match s.targetOf m t with
      | none => true
      | some dst => match s.nextHop dst with
        | none => true
        | some (_, dir) => (s.dirPorts dir).any s.portOpen

/-- The steward copies the descriptor of a value again from the plan's SRC; the Boolean says that it is done. -/
def State.recopyTile (s : State) (e : EngineId) (host : HostData) (f : HeldFault) : Bool × State :=
  let c := e.val / 8
  if s.copyHeld (c / 4) then (false, s)
  else match (s.course c).ranges.find? fun r => r.holds f.tile with
  | none => (true, s)
  | some r =>
    let o := r.offset f.tile * 2 ^ r.slotShift
    match s.ctlRead (c / 4) (coreReader (srcSteward c)) host (r.src.toNat + o) (2 ^ r.slotShift) with
    | .wait s => (false, s)
    | .fault f s => (false, s.copyFault (c / 4) f)
    | .ok bs _ s => (true, s.writeMem (courseBase c + r.descBase + o) bs)

/-- The steward copies a sort descriptor again. -/
def State.recopySort (s : State) (c : CourseId) (host : HostData) : Bool × State :=
  if s.copyHeld (c.val / 4) then (false, s)
  else match (s.course c).sort with
  | none => (true, s)
  | some q =>
    match s.ctlRead (c.val / 4) (coreReader (srcSteward c)) host q.src.toNat 64 with
    | .wait s => (false, s)
    | .fault f s => (false, s.copyFault (c.val / 4) f)
    | .ok bs _ s =>
      let fits := decide (q.descBase + 64 ≤ 0x4000000)
      let s := if fits then s.writeMem (courseBase c + q.descBase) bs else s
      (true, s.modSort c fun q => { q with desc := if fits then bs else [] })

/-- A first failure is copied again and retried; a second one is contained. -/
def State.retryOnce (s : State) (u : FaultUnit) (host : HostData) (f : HeldFault) : State :=
  if (s.lastRestart u).isSome then s.escalate u f
  else
    let r := match u with
      | .engine e => s.recopyTile e host f
      | .sorter c => s.recopySort c host
      | _ => (true, s)
    if r.1 then (r.2.arrive (faultError 0 u f)).retryFault u false else r.2

/-- A poisoned plane or table set is loaded again from its verified copy. -/
def State.reloadUnit (s : State) (u : FaultUnit) (f : HeldFault) : State :=
  let s := s.arrive (faultError 1 u f)
  match u with
  | .engine e =>
    let h := jTset s.jobDesc
    let s := if f.cause.toNat = fSfuTabPoison then
        match s.storedOf h 2 with
        | some x => (s.restage (e / 8) h (fieldAt x.bytes 8 4)).modEngine e fun x => { x with tsetPoison := false }
        | none => s
      else s
    s.retryFault u false
  | _ => s.retryFault u false

/-- Whether firmware may restart a unit that lost the link, PCI Express or Limfaette. -/
def State.linkBack (s : State) (u : FaultUnit) (f : HeldFault) : Bool :=
  if f.cause.toNat = fT3Timeout then f.space.toNat == 3 || s.hif.linkUp
  else match u with
    | .mover m => s.routeOpen m
    | _ => true

/-- Whether the level that resolves a unit's faults serves (Table 1.3): the course steward for its engines, its counter and its
sort unit, the half supervisor for its movers; the module manager, which keeps the ladder, in every case. -/
def State.ownerUp (s : State) (u : FaultUnit) : Bool :=
  s.mgrUp &&
  match u with
  | .engine e => s.courseUp (e / 8)
  | .steward c | .counter c | .sorter c => s.courseUp c
  | .mover m => if m.val < 32 then s.halfUp (m / 16) else true
  | .praline st => s.regionUp (st / 8)

/-- FIRMWARE_RESOLVE (R308, R421). -/
def execFirmwareResolve (u : FaultUnit) (host : HostData) (s : State) : Out :=
  match s.faultOf u with
  | none => .next s
  | some f =>
    if ¬ s.ownerUp u ∨ f.host ∨ f.escalated then .next s
    else match fwPolicy f.cause.toNat with
      | .whenLinkUp =>
        .next (if s.linkBack u f then (s.arrive (faultError 0 u f)).retryFault u false else s)
      | .retryOnce => .next (s.retryOnce u host f)
      | .reload => .next (s.reloadUnit u f)
      | .outlier => .next ((s.arrive (faultError 2 u f)).settleFault u .escalated false)
      | .contain => .next (s.escalate u f)

end Sys2Proof.Machine
end

