-- ==== Sys2Proof/Machine/Save.lean ====
section
/-! DEFINITION. Pre-emption saves, exports and what a resume reads (11 R313 to R318, R326 to R329; 10 R299). The layouts
of control and engine records are not published: a save area is held as data, and an exported one carries them as
bytes that nothing is known of (log entry 11). The memory behind a save area holds only what has flipped in it since. -/

namespace Sys2Proof.Config

/-- The control part of a save area and the record of an engine as an export writes them (Table 11.6; log entry 11). -/
opaque controlBytes (a : Machine.SaveArea) : List Byte
opaque engineBytes (v : Machine.EngineSave) : List Byte
/-- What the control part of an exported save and an engine record hold, where they are sound: ranges, epochs, sorts, movers,
lists, step state and collectives of a save area; an engine's record without its shadow set (log entry 11). -/
opaque controlOf (bytes : List Byte) : Option Machine.SaveArea
opaque engineOf (bytes : List Byte) : Option Machine.EngineSave

end Sys2Proof.Config

namespace Sys2Proof.Machine

/-! ### Reset reports (R299) -/

/-- RESET_REPORT body. -/
def resetBody (rtype item ring jobId step first count saved : Nat) : List Byte :=
  toLe rtype 1 ++ toLe item 1 ++ toLe ring 2 ++ toLe jobId 4 ++ toLe step 4 ++ toLe first 4 ++ toLe count 4 ++ toLe saved 4

/-- Post a RESET_REPORT to the PF1 event ring; after a host-interface reset the module manager holds it until that ring
is enabled (R474). -/
def State.reportReset (s : State) (held : Bool) (body : List Byte) : State :=
  let p : Post := { kind := kResetReport, src := srcMgr, rings := some [65], body }
  if held ∧ ¬ (s.ring 65).en then
    { s with mgt := { s.mgt with held := s.mgt.held ++ [s.record p] } }.bumpSeq srcMgr
  else s.post p

/-- The records of a reset's discarded descriptors, one for each ring. -/
def State.reportDiscards (s : State) (n : ResetNote) : State :=
  n.discards.foldl (fun s x => s.reportReset n.held (resetBody n.rtype 2 x.1 0 0 x.2.1 x.2.2 0)) s

/-- The job that a reset pre-empted has ended or is saved: its record goes first, then those of the rings. A job that ended
by itself before the signal was not pre-empted and has no record. -/
def State.flushNote (s : State) (j : Job) (saved : Bool) : State :=
  match s.mgt.note with
  | none => s
  | some n =>
    let s := { s with mgt := { s.mgt with note := none } }
    let s := if saved || j.signalled then
        s.reportReset n.held (resetBody n.rtype 1 0 (jId j.posted.bytes) j.step 0 0 (b2n saved))
      else s
    s.reportDiscards n

/-! ### Writing the save area (R316) -/

/-- The words of a stretch of memory as a save holds them: corrected errors corrected, bad words poisoned. -/
def Memory.cut (m : Memory) (keep : Nat → Bool) : Memory :=
  let part : Memory := { cells := m.cells.filter fun c => keep c.1, synd := m.synd.filter fun x => keep (4 * x.1) }
  part.synd.foldl (fun p x => (p.setBytes (4 * x.1) (m.deliver x.1)).setSyn x.1 (if m.bad x.1 then poisonSyn else 0)) part

/-- Memory with the words of a stretch replaced by those of a save. -/
def Memory.paste (m : Memory) (keep : Nat → Bool) (p : Memory) : Memory :=
  let base : Memory := { cells := m.cells.filter fun c => !keep c.1, synd := m.synd.filter fun x => !keep (4 * x.1) }
  let m1 := p.cells.foldl (fun m c => m.setByte c.1 c.2) base
  p.synd.foldl (fun m x => m.setSyn x.1 x.2) m1

/-- The scratchpads. -/
def inScratch (a : Nat) : Bool := decide (0x10020000000 ≤ a) && decide (a < 0x10030000000)

/-- The dirty lines of the job parts. -/
def inDirty (dirty : List (List Nat)) (split a : Nat) : Bool :=
  decide (0x10000000000 ≤ a) && decide (a < 0x10020000000) &&
  decide ((a - 0x10000000000) % 0x4000000 < split) &&
  (dirty.getD ((a - 0x10000000000) / 0x4000000) []).contains ((a - 0x10000000000) % 0x4000000 / 64)

/-- Count and report the bad words that the movers read in a stretch. -/
def State.noteStretch (s : State) (m : Nat) (keep : Nat → Bool) : State :=
  ((s.mem.synd.filter fun x => keep (4 * x.1)).map (·.1)).foldl
    (fun s w => s.noteWord { kind := 1, id := m, owner := .job } false w) s

/-- What a save keeps of an engine; a plane not yet reloaded after a resume counts as loaded (R78). -/
def Engine.saved (x : Engine) : EngineSave :=
  { activeHandle := x.reloadActive.getD (if x.plane.valid then x.plane.handle else 0),
    idleHandle := match x.reloadIdle with
      | some h => some h
      | none => if x.idlePlane.valid then some x.idlePlane.handle else none
    drain := x.drain, wbQ := x.wbQ, shadow := x.shadowSet, accActive := x.accActive,
    scale := x.bricks.map (·.scale), runs := x.bricks.map (·.runs), counters := x.counters,
    wext := x.wextLo.zip x.wextHi, wextTile := x.wextTile }

/-- What a save keeps of a mover. -/
def Mover.saved (g : Mover) : MoverSave :=
  { cur := g.cur, queue := g.queue, restart := g.restart, returned := g.prReturned, coll := g.coll,
    sat := g.prSat, zero := g.prZero, rect := g.prRect, out := g.prOut, flags := g.prFlags, poisoned := g.poisoned }

/-- The handle map: images in planes, and the job's table set. -/
def State.handleMap (s : State) (d : List Byte) : List (Word × Nat × List Byte) :=
  let used := (s.engines.map fun x => x.saved.activeHandle :: x.saved.idleHandle.toList).flatten
  let named := fun (f : Stored) =>
    (f.kind == 1 && used.contains f.handle) || (f.kind == 2 && f.handle.toNat == jTset d)
  (s.mgt.images.filter named).map fun f => (f.handle, f.kind, f.digest)

/-- The save area of the running job. -/
def State.saveArea (s : State) (j : Job) : SaveArea :=
  let dirty := s.courses.map fun c => c.dirty.filter fun n => decide (64 * n < s.splitBytes)
  { st := 2, boot := s.mgt.boot, job := { j with jobMib := s.regs.splitNow }, handles := s.handleMap j.posted.bytes,
    ranges := s.courses.map (·.ranges), epochs := s.courses.map (·.epoch), sorts := s.courses.map (·.sort),
    movers := s.movers.map Mover.saved, lists := s.job.lists, engines := s.engines.map Engine.saved, scratch := s.mem.cut inScratch, dirty,
    lines := s.mem.cut (inDirty dirty s.splitBytes), doneCids := s.fab.doneCids }

/-- Set save area `k`. -/
def State.setArea (s : State) (k : Nat) (a : Option SaveArea) : State :=
  { s with job := { s.job with areas := s.job.areas.set k a } }

/-- Where save area `k` lies: the eight stand one after another from the start of the firmware region (R317; log entry
11). -/
def State.areaBase (s : State) (k : Nat) : Nat := s.variant.fwBase + k * 0x40000000

/-- Whether an address lies in save area `k`. -/
def State.inArea (s : State) (k a : Nat) : Bool := decide (s.areaBase k ≤ a) && decide (a < s.areaBase k + 0x40000000)

/-- A save area is written: its words take correct check bits. -/
def State.writeArea (s : State) (k : Nat) (a : SaveArea) : State :=
  { s with mem := s.mem.paste (s.inArea k) {} }.setArea k (some a)

/-- The number of the save area that holds a job. -/
def State.areaOf (s : State) (id : Nat) : Option Nat :=
  s.job.areas.findIdx? fun a => match a with
    | some x => jId x.job.posted.bytes == id
    | none => false

/-! ### Export (R327) -/

/-- The handle map as written (Table 11.6). -/
def handleBytes (hs : List (Word × Nat × List Byte)) : List Byte :=
  padTo (hs.map fun x => toLe x.1.toNat 4 ++ toLe x.2.1 1 ++ zeros 59 ++ padTo x.2.2 64).flatten 0xF000

/-- Save area header (Table 11.7). -/
def SaveArea.header (a : SaveArea) : List Byte :=
  withCrc (padTo (toLe 0x4D395341 4 ++ [1] ++ toLe a.st 1 ++ toLe a.boot.toNat 2 ++ toLe (jId a.job.posted.bytes) 4 ++
    toLe a.job.step 4 ++ toLe a.job.jobMib 1 ++ toLe a.handles.length 1 ++ zeros 14 ++
    (a.job.cursors.map fun c => toLe c.toNat 8).flatten ++ padTo a.job.posted.bytes 256 ++
    padTo (shake256 (jKey a.job.posted.bytes)) 64) 0xFFC)

/-- An accumulator set as written: entries of 8 bytes in the format of R123. -/
def accBytes (set : List (Nat × Acc)) (floating : Bool) : List Byte :=
  ((List.range 131072).map fun k => match accGet set k with
    | none => toLe (2 ^ 40) 8
    | some a => toLe (a.val.toNat + b2n a.sticky * 2 ^ 41 + b2n a.poison * 2 ^ 42 + b2n floating * 2 ^ 43) 8).flatten

/-- A dirty map: one bit a line. -/
def dirtyBytes (ls : List Nat) : List Byte :=
  (List.range 0x20000).map fun i =>
    BitVec.ofNat 8 (((List.range 8).map fun b => b2n (ls.contains (8 * i + b)) * 2 ^ b).sum)

/-- Bytes in lines, with correct check bits. -/
def soundLines (bs : List Byte) : List (List Byte × Bool) := (chunksOf 64 (bs.length / 64) bs).map fun l => (l, false)

/-- `n` lines of a memory. -/
def Memory.lines (m : Memory) (a n : Nat) : List (List Byte × Bool) :=
  (List.range n).map fun i => (m.read (a + 64 * i) 64, m.anyBad (a + 64 * i) 64)

/-- The parts of Table 11.6 that a save wrote, the header last: offset and lines. -/
def SaveArea.parts (a : SaveArea) : List (Nat × List (List Byte × Bool)) :=
  let sets := (a.engines.zipIdx.filter fun x => !x.1.shadow.isEmpty).map fun x =>
    (0x1000000 + (2 * x.2 + (1 - x.1.accActive)) * 0x100000,
     soundLines (accBytes x.1.shadow ((x.1.drain.map (·.floating)).getD false)))
  let pads := (List.range 64).map fun n => (0x9000000 + n * 0x400000, a.scratch.lines (scratchBase n) 0x10000)
  let maps := a.dirty.zipIdx.map fun x => (0x19000000 + x.2 * 0x20000, soundLines (dirtyBytes x.1))
  let lines := (a.dirty.zipIdx.map fun x =>
    x.1.map fun n => (0x19100000 + x.2 * 0x3800000 + 64 * n, a.lines.lines (courseBase x.2 + 64 * n) 1)).flatten
  [(0x1000, soundLines (handleBytes a.handles)), (0x10000, soundLines (padTo (Config.controlBytes a) 0xF0000)),
   (0x100000, soundLines (a.engines.map fun v => padTo (Config.engineBytes v) 0x20000).flatten)] ++ sets ++ pads ++ maps ++ lines ++ [(0, soundLines a.header)]

/-- Bytes of save area `k` as they are read: what was written, with what has flipped since. -/
def State.areaRead (s : State) (k off : Nat) (bs : List Byte) : List Byte :=
  bs.zipWith (· ^^^ ·) (s.mem.read (s.areaBase k + off) bs.length)

/-- A part of save area `k` as it is read: lines with whether a word is bad. -/
def State.partRead (s : State) (k : Nat) (p : Nat × List (List Byte × Bool)) : Nat × List (List Byte × Bool) :=
  (p.1, p.2.zipIdx.map fun x =>
    let off := p.1 + 64 * x.2
    (s.areaRead k off x.1.1, x.1.2 || s.mem.anyBad (s.areaBase k + off) 64))

/-- The stream of the exported save area `k`: its lines and its length. -/
def State.exportLines (s : State) (k : Nat) (a : SaveArea) (addr : Nat) : List Line × Nat :=
  let d := a.job.posted.bytes
  let ps := a.parts.map (s.partRead k)
  let n := ps.length
  let lens := ps.map fun p => 64 * p.2.length
  let total := 0x100 + 64 * n + lens.sum + 64
  let bad := fun (p : Nat × List (List Byte × Bool)) => p.2.any (·.2)
  let head := streamHeader 2 s.mgt.boot.toNat (jId d) a.job.step total n (ps.any bad) a.job.cursors (shake256 (jKey d))
    (s.tsetDigest d)
  let heads := (ps.zipIdx.map fun x =>
    regionHeader x.2 4 (bad x.1) x.1.1 (64 * x.1.2.length) (dataOff n lens x.2)).flatten
  let data := (ps.map (·.2)).flatten.zipIdx.map fun x => (Line.mk (addr + 0x100 + 64 * n + 64 * x.2) x.1.1 true x.1.2)
  (cutLines addr (head ++ heads) true ++ data ++ cutLines (addr + total - 64) (streamTrailer (jId d) a.job.step) false, total)

/-- A PREEMPT whose save is done goes on: without EXPORT it completes OK; with EXPORT the stream is written, and it
completes after the trailer; a buffer too short completes it MALFORMED, and an area freed meanwhile NO_JOB (R327,
R329). -/
def State.exportSave (s : State) : State :=
  match s.job.waitPre with
  | none => s
  | some w =>
    let id := mArg w.posted.bytes 0 % 2 ^ 32
    if ¬ w.exp then s.endPreempt stOk
    else match (s.areaOf id).bind fun k => (s.job.areas.getD k none).map fun a => (k, a) with
      | none => s.endPreempt stNoJob
      | some (k, a) =>
        let x := s.exportLines k a w.addr.toNat
        if w.len.toNat < x.2 then s.endPreempt stMalformed
        else if ¬ s.hif.linkUp then s
        else
          let r := sendLines none x.1 0 s
          if r.2.1 then r.2.2.endPreempt stOk else r.2.2

/-! ### The signal (R313 to R315, R424, R426) -/

/-- Whether a unit of the job holds under T2_FAIL. -/
def State.t2Failed (s : State) : Bool :=
  s.engines.any (fun x => x.hold.toNat == wT2Fail) || (s.movers.take 32).any (fun g => g.hold.toNat == wT2Fail) ||
  s.hbm.zipIdx.any fun x => !x.1.queue.isEmpty && s.isFenced (srcPraline x.2)

/-- The pre-emption asked for, or that the module manager starts by itself. -/
def State.wantsPreempt (s : State) (j : Job) : Option PreBy :=
  match j.preempt with
  | some b => some b
  | none => if s.t2Failed then some .fence else none

/-- Whether the signal may go out now: never while the last step completes or a hand-over takes the boundary, and
during an encode list only once that list has ended (R398, R401). -/
def State.maySignal (s : State) (j : Job) : Bool :=
  match j.phase with
  | .lastStep => false
  | .encoding => s.codecs.all fun c => c.list.isNone
  | _ => !j.handover

/-- A restore in progress stops: the save area is unchanged (Table 11.10). -/
def State.stopRestore (s : State) (j : Job) : State :=
  let s := s.modJob fun j => { j with signalled := true, ending := some { status := BitVec.ofNat 16 stPreempted } }
  (s.endPreempt stOk).flushNote j (s.areaOf (jId j.posted.bytes)).isSome

/-- PREEMPTION_SIGNAL (R313): claims, movers and Praline units stop at their boundaries; held faults end ABANDONED. -/
def execPreemptionSignal (s : State) : Out :=
  match s.job.cur with
  | none => .next s
  | some j =>
    match s.wantsPreempt j with
    | none => .next s
    | some b =>
      if ¬ s.mgrUp ∨ j.signalled ∨ j.ending.isSome ∨ ¬ s.maySignal j then .next s
      else
        let s := s.modJob fun j => { j with preempt := some b }
        if j.phase = .resuming then .next (s.stopRestore j)
        else .next ((s.modJob fun j => { j with signalled := true }).stopUnits .abandoned false)

/-- SAVE (R316): once every unit has stopped, the save area is written and its STATE becomes valid; a PREEMPT then
completes, and the job will complete PREEMPTED. While the stack of the area is fenced, its STATE is saving and the movers
hold under T2_FAIL (R233). Where the save is already done, a waiting export goes on. -/
def execSave (s : State) : Out :=
  let waits := match s.job.waitPre with
    | some w => w.saved
    | none => false
  if ¬ s.mgrUp then .next s
  else if waits then .next s.exportSave
  else match s.job.cur with
    | none => .next s
    | some j =>
      if ¬ j.signalled ∨ j.ending.isSome ∨ ¬ s.halfUp 0 ∨ ¬ s.halfUp 1 then .next s
      else
        -- whatever a unit has taken up since the signal stops too
        let s := s.stopUnits .abandoned false
        if ¬ s.allStopped then .next s
        else if s.stackHeld s.variant.fwBase then
          .next ((s.setArea j.area (some { s.saveArea j with st := 1 })).stallMover (16 * s.leadHalf) wT2Fail)
        else
          let dirty := s.courses.map (·.dirty)
          let s := s.noteStretch (16 * s.leadHalf) fun a => inScratch a || inDirty dirty s.splitBytes a
          match s.job.cur with
          | none => .next s
          | some j =>
            let s := s.writeArea j.area (s.saveArea j)
            let s := s.modJob fun j => { j with ending := some { status := BitVec.ofNat 16 stPreempted } }
            let saved := fun (w : PreWait) => { w with saved := true }
            let s := { s with job := { s.job with waitPre := s.job.waitPre.map saved } }
            .next (s.exportSave.flushNote j true)

end Sys2Proof.Machine
end

