-- ==== Sys2Proof/Machine/Jobs.lean ====
section
/-! DEFINITION. Jobs: taking a job descriptor, completing it, resuming, PREEMPT and CANCEL (10 R284, R287, R288; 11 R318,
R326, R327; 08 R208, R236; 15 R422 to R427). -/

namespace Sys2Proof.Machine

/-! ### Management descriptors (R287) -/

/-- The management descriptor that the module manager takes next from a function's ring, when its operation is `opc`. -/
def State.takeMgmt (s : State) (fn : PFn) (opc : Nat) : Option (Posted × State) :=
  match (s.ring (mgmtRing fn)).posted with
  | [] => none
  | p :: _ => if s.mgrUp ∧ dOpc p.bytes = opc then s.take (mgmtRing fn) else none

/-- What came of a management operation: it completes, with status, JOB_ID, RES0 and RES_EXT; it completes later; its own
host write was refused; or it waits for the host or a stack. -/
inductive Mop where
  | done (status jobId res0 : Nat) (ext : List Byte) (s : State)
  | later (s : State)
  | refused (s : State)
  | wait

/-- An operation that completes with a status alone. -/
def Mop.plain (status : Nat) (s : State) : Mop := .done status 0 0 [] s

/-- Run a management operation from a ring: what it answers completes the descriptor; one whose host write is refused is
held behind a halt of cause 6 (R276, R517); one that waits leaves all as it was. -/
def State.manage (s : State) (fn : PFn) (opc : Nat) (op : Via → Posted → State → Mop) : Out :=
  match s.takeMgmt fn opc with
  | none => .next s
  | some (p, t) =>
    if s.mgmtDenied (.ring fn) opc then .next (t.respond (.ring fn) p.bytes stDenied (descJobId (mgmtRing fn) p.bytes))
    else match op (.ring fn) p t with
    | .done status jobId res0 ext u => .next (u.respond (.ring fn) p.bytes status jobId res0 ext)
    | .later u => .next u
    | .refused u => .next (u.holdDescriptor (mgmtRing fn) p)
    | .wait => .next s

/-! ### Starting a job -/

/-- Every stall counter clears (R236). -/
def State.clearStalls (s : State) : State :=
  let z : List (BitVec 48) := List.replicate 32 0
  let movers := s.movers.map fun g => ({ g with stalls := z } : Mover)
  let engines := s.engines.map fun x => ({ x with stalls := z } : Engine)
  let courses := s.courses.map fun c => ({ c with stalls := z } : Course)
  let hbm := s.hbm.map fun k => ({ k with stalls := z } : Stack)
  let ports := s.fab.ports.map fun p => ({ p with stalls := z } : Port)
  { s with movers, engines, courses, hbm, fab := { s.fab with ports } }

/-- An engine at a job's start. -/
def Engine.forJob (x : Engine) (noTables : Bool) : Engine :=
  { x.clear with counters := List.replicate 16 0, tset := 0, tsetLoaded := noTables, tsetPoison := false, tables := [] }

/-- A course at a job's start: the costs in force, no line dirty. -/
def Course.forJob (c : Course) (cost : List (BitVec 16)) : Course := { c.clear with cost, dirty := [] }

/-- Engines, courses and halves at a job's start, under a split. -/
def State.unitsForJob (s : State) (split : Nat) (noTables : Bool) : State :=
  let engines := s.engines.map fun x => x.forJob noTables
  let courses := s.courses.map fun c => c.forJob s.pwr.ecost
  let halves := s.halves.map fun h => ({ h with tcache := [] } : Half)
  { s with engines, courses, halves, regs := { s.regs with splitNow := split }, fab := { s.fab with doneCids := [] } }

/-- Each steward stages the job's table set. -/
def State.stageTables (s : State) (tset : Nat) : State :=
  match s.storedOf tset 2 with
  | some x => (List.range 8).foldl (fun s c => s.restage c tset (fieldAt x.bytes 8 4)) s
  | none => s

/-- The module is set up for a job that starts or resumes: the split, topology and energy costs take force, caches and
stall counters clear, and the stewards stage the table set (R208, R215, R236, R493). -/
def State.setUp (s : State) (split : Nat) (tset : Nat) : State :=
  (s.unitsForJob split (tset == 0)).applyTopo.clearStalls.restartWatch.stageTables tset

/-- A free save area. -/
def State.freeArea (s : State) : Option Nat := s.job.areas.findIdx? (·.isNone)

/-- Whether a JOB_ID stands in a queued or pre-empted job (R284). -/
def State.idTaken (s : State) (id : Nat) : Bool :=
  (s.areaOf id).isSome || ((s.ring 0).posted ++ (s.ring 0).fetched).any fun p => jId p.bytes == id

/-- The job leaves before its first step, with a status. -/
def State.refuseJob (s : State) (d : List Byte) (status : Nat) (res0 : Nat := 0) (resExt : List Byte := []) : State :=
  ({ s with job := { s.job with cur := none } }.complete 0 d status (jId d) res0 resExt).settleDisable

/-- A plan or list names a fenced unit: FAILED, with the unit in the log entry (R424); its code is not stated. -/
def State.refuseFenced (s : State) (d : List Byte) (u : Nat) : State :=
  let code := (Config.freeWord s.free).toNat % 2 ^ 16
  let e := s.drawn.entryOf (plainError 2 code u 0 true) (BitVec.ofNat 32 (jId d)) 0 aJobEnded
  let s := s.drawn.logAdd e
  (s.postError { e with lseq := s.rel.logNext - 1 }).refuseJob d stFailed 0 (errorExt e.code e.lseq)

/-- What came of the checks of a job's plan and encode list. -/
inductive Plan where
  | ok (segs : List Seg) (s : State)
  | refused (s : State)
  | wait

/-- Read and check the plan and the encode list of the running job; a job that fails leaves (R284, R397, R424). -/
def State.planOf (s : State) (host : HostData) (d : List Byte) : Plan :=
  match s.checkPlan host with
  | .wait => .wait
  | .bad i s => .refused (s.refuseJob d stMalformed i)
  | .fenced u s => .refused (s.refuseFenced d u)
  | .ok segs s =>
    if ¬ jEncode d then .ok segs s
    else match s.readEncList host with
      | .wait => .wait
      | .bad s => .refused (s.refuseJob d stMalformed)
      | .ok e _ s => if s.isFenced (srcCodec e) then .refused (s.refuseFenced d (srcCodec e)) else .ok segs s

/-- A taken descriptor starts as a job: a resume goes on with RESUME; any other has its plan checked. -/
def State.startJob (s0 s : State) (p : Posted) (host : HostData) (k : Nat) : State :=
  let d := p.bytes
  let j : Job := { posted := p, jobMib := s.regs.jobMib, area := k, phase := if jResume d then .resuming else .running }
  let s := { s with job := { s.job with cur := some j, lists := [] } }
  if jResume d then s
  else
    let s := (s.setUp s.regs.jobMib (jTset d)).retirePending
    match s.planOf host d with
    | .wait => s0
    | .refused s => s
    | .ok segs s => s.modJob fun j => { j with segs }

/-- The lead takes the descriptor at the head of the job ring. `s0` is the state to which the command falls back where
the host does not answer a read. -/
def State.takeJob (s0 s : State) (p : Posted) (host : HostData) : State :=
  let d := p.bytes
  let id := jId d
  let fromArea := jResume d && jResumeSrc d == 0
  if s.job.cancelled.contains (BitVec.ofNat 32 id) then
    { s with job := { s.job with cancelled := s.job.cancelled.filter fun w => w.toNat ≠ id } }.complete 0 d stCancelled id
  else if s.mgt.fatal ∨ s.mgt.noJobs then s.complete 0 d stFailed id
  else if fromArea ∧ (s.areaOf id).isNone ∨ ¬ fromArea ∧ s.idTaken id then s.complete 0 d stMalformed id
  else match (if fromArea then s.areaOf id else s.freeArea) with
    | none => s.complete 0 d stNoSaveArea id
    | some k =>
      if jTset d ≠ 0 ∧ (s.storedOf (jTset d) 2).isNone then s.complete 0 d stTableSetMissing id
      else State.startJob s0 s p host k

/-- JOB (R284): no job runs, the bank is ready, no board alert stands, and no hand-over or module reset waits. -/
def execJob (host : HostData) (s : State) : Out :=
  if ¬ s.mgrUp ∨ s.job.cur.isSome ∨ ¬ s.pwr.bankReady ∨ s.rel.pinActive.getD 3 false ∨ s.rel.handover.isSome ∨
      s.mgt.resetPending.isSome ∨ (s.ring 0).posted = [] ∨ ¬ s.halfUp s.leadHalf then .next s
  else s.ifLead fun s =>
    match s.take 0 with
    | none => .next s
    | some (p, t) => .next (State.takeJob s t p host)

/-! ### Completion -/

/-- How a job that has run through ends: OK, or OK_POISONED (R291). -/
def Job.goodEnd (j : Job) : JobEnd := { status := BitVec.ofNat 16 (if j.poisSteps = 0 then stOk else stOkPoisoned) }

/-- The end of a job: what it was told, or its last step. -/
def Job.endOf (j : Job) : Option JobEnd :=
  match j.ending with
  | some e => some e
  | none => if j.phase = .lastStep then some j.goodEnd else none

/-- The status of a PREEMPT whose job ends without having been pre-empted: OK where a CANCEL met its save, which finishes
(R288); NO_JOB under any other end (Table 15.8, R398). -/
def Job.preemptStatus (j : Job) (status : Nat) : Nat :=
  if j.signalled ∧ (status = stCancelled ∨ status = stHostFault) then stOk else stNoJob

/-- JOB_COMPLETION (R284, R288): once every unit of the job has stopped, its one record is written. A PREEMPT that waits
ends with the job. -/
def execJobCompletion (s : State) : Out :=
  match s.job.cur with
  | none => .next s
  | some j =>
    match j.endOf with
    | none => .next s
    | some e =>
      if ¬ s.mgrUp ∨ ¬ s.allStopped ∨ ¬ (s.codecs.all fun c => c.list.isNone) then .next s
      else s.ifLead fun s =>
        let preempted := decide (e.status.toNat = stPreempted)
        let waits := match s.job.waitPre with
          | some w => !w.saved
          | none => false
        let s := s.leaveJob j e.status.toNat ((e.res0.map (·.toNat)).getD j.res0) e.resExt
        let s := if waits then s.endPreempt (j.preemptStatus e.status.toNat) else s
        .next (s.flushNote j preempted)

/-! ### PREEMPT and CANCEL (R288, R327, R329) -/

/-- PREEMPT as an operation. -/
def opPreempt (via : Via) (p : Posted) (s : State) : Mop :=
  let d := p.bytes
  let id := mArg d 0 % 2 ^ 32
  let exp := bitOf (mArg d 1) 0
  if exp ∧ mArg d 2 % 4096 ≠ 0 then .done stMalformed id 0 [] s
  else match s.job.cur with
    | none => .done stNoJob id 0 [] s
    | some j =>
      if jId j.posted.bytes ≠ id ∨ j.ending.isSome then .done stNoJob id 0 [] s
      else if j.preempt.isSome then .done stAlready id 0 [] s
      else
        let w : PreWait := { via, posted := p, exp, addr := BitVec.ofNat 64 (mArg d 2), len := BitVec.ofNat 64 (mArg d 3) }
        .later ({ s with job := { s.job with waitPre := some w } }.askPreempt .command)

/-- PREEMPT. -/
def execPreempt (fn : PFn) (s : State) : Out := s.manage fn 4 opPreempt

/-- Whether a host-resolved fault of the job is held. -/
def State.hostFaultHeld (s : State) : Bool :=
  jobUnits.any fun u => match s.faultOf u with
    | some f => f.ofJob && f.host
    | none => false

/-- CANCEL of the running job: the job ends without a save; one that is just saved gives its area up. -/
def State.cancelRunning (s : State) (j : Job) : Option State :=
  match j.ending with
  | none =>
    let status := if s.hostFaultHeld then stHostFault else stCancelled
    some (s.endJob { status := BitVec.ofNat 16 status } true)
  | some e =>
    if e.status.toNat = stPreempted then
      some ((s.setArea j.area none).modJob fun j => { j with ending := some { status := BitVec.ofNat 16 stCancelled } })
    else none

/-- Whether a job of the ID waits in the job ring. -/
def State.queuedJob (s : State) (id : Nat) : Bool := (s.ring 0).posted.any fun q => jId q.bytes == id

/-- CANCEL of a job that does not run: a pre-empted one gives its area up; a queued one, its own resume included, will
complete CANCELLED (R288). -/
def State.cancelWaiting (s : State) (id : Nat) : State :=
  let s := match s.areaOf id with
    | some k => if s.job.cur.isSome then s.setArea k none else (s.setArea k none).dropWaiting fun _ => true
    | none => s
  if s.queuedJob id then { s with job := { s.job with cancelled := s.job.cancelled ++ [BitVec.ofNat 32 id] } } else s

/-- CANCEL as an operation. -/
def opCancel (_via : Via) (p : Posted) (s : State) : Mop :=
  let id := mArg p.bytes 0 % 2 ^ 32
  let ok := fun (s : State) => Mop.done stOk id 0 [] s
  let noJob := Mop.done stNoJob id 0 [] s
  if s.job.cur.isSome ∧ s.jobId = id then
    match s.job.cur.bind s.cancelRunning with
    | some s => ok s
    | none => noJob
  else if (s.areaOf id).isSome ∨ s.queuedJob id then ok (s.cancelWaiting id)
  else noJob

/-- CANCEL. -/
def execCancel (fn : PFn) (s : State) : Out := s.manage fn 5 opCancel

/-! ### Resuming from a save area (R318) -/

/-- The handle on this module of each entry of a handle map, or the first entry without one. -/
def State.mapHandles (s : State) : List (Word × Nat × List Byte) → Except (Nat × List Byte) (List (Word × Word))
  | [] => .ok []
  | (h, kind, dig) :: rest =>
    match s.mgt.images.find? fun x => x.kind == kind && decide (x.digest = dig) with
    | none => .error (kind, dig)
    | some f => match s.mapHandles rest with
      | .ok m => .ok ((h, f.handle) :: m)
      | .error e => .error e

/-- The handle now of a saved handle. -/
def mapped (m : List (Word × Word)) (h : Word) : Word := ((m.find? fun x => x.1 == h).map (·.2)).getD 0

/-- An engine restored: accumulators, drains, runs, scale registers and counters as saved, register files zero (R62). Its
steward then reloads the images of its planes (R78), and its saved tile drains and commits before its first claim (R118,
R318). -/
def State.restoreEngine (s : State) (m : List (Word × Word)) (e : Nat) (v : EngineSave) : State :=
  s.modEngine e fun x =>
    let bricks := x.bricks.zipIdx.map fun b =>
      ({ b.1 with rf := [], scale := v.scale.getD b.2 b.1.scale, runs := v.runs.getD b.2 b.1.runs } : Brick)
    { x with
      bricks
      reloadActive := if v.activeHandle = 0 then none else some (mapped m v.activeHandle)
      reloadIdle := v.idleHandle.map (mapped m)
      accActive := v.accActive
      acc0 := if v.accActive = 0 then [] else v.shadow
      acc1 := if v.accActive = 0 then v.shadow else []
      drain := v.drain
      wbQ := v.wbQ
      drainFirst := v.drain.isSome || !v.wbQ.isEmpty
      counters := v.counters
      wextLo := v.wext.map (·.1)
      wextHi := v.wext.map (·.2)
      wextTile := v.wextTile }

/-- A half mover restored: it goes on from its restart point; its collective is taken up again when MOVE_COLL has read the group
table as it now stands, and an atomic of the job that was outstanding is its own again (R369, R370). -/
def State.restoreMover (s : State) (m : Nat) (v : MoverSave) : State :=
  let s := s.modMover m fun g =>
    { g with cur := v.cur, queue := v.queue, restart := v.restart, prReturned := v.returned, coll := v.coll, wait := .none,
             prOpen := [], prNext := v.restart.off.toNat, prOut := v.out, prSat := v.sat, prZero := v.zero,
             prRect := v.rect, prFlags := v.flags, poisoned := v.poisoned }
  let id := match v.cur with | some t => t.jobOf s | none => 0
  let back := fun (o : PeerOp) => o.away && decide (o.job = id) && decide (o.mover.map (·.val) = some m)
  { s with fab := { s.fab with ops := s.fab.ops.map fun o => if back o then { o with away := false } else o } }

/-- The stewards copy the descriptors of the live ranges again; the Boolean says that every copy is done. -/
def recopyRanges (host : HostData) (c : Nat) : List Range → State → Option HeldFault × Bool × State
  | [], s => (none, true, s)
  | r :: rs, s =>
    match s.ctlRead (c / 4) (coreReader (srcSteward c)) host r.src.toNat (r.count * 2 ^ r.slotShift) with
    | .wait s => (none, false, s)
    | .fault f s => (some f, false, s)
    | .ok bs _ s => recopyRanges host c rs (s.writeMem (courseBase c + r.descBase) bs)

/-- The stewards of all courses. -/
def recopyCourses (host : HostData) (ranges : List (List Range)) : Nat → Nat → State → Option HeldFault × Bool × State
  | 0, _, s => (none, true, s)
  | fuel + 1, c, s =>
    match recopyRanges host c (ranges.getD c []) s with
    | (none, true, s) => recopyCourses host ranges fuel (c + 1) s
    | r => r

/-- Restore a save area into the module, for the resume descriptor `p` of the running job, whose plan is checked. -/
def State.restore (s0 s : State) (p : Posted) (host : HostData) (k : Nat) (a : SaveArea) (m : List (Word × Word))
    (segs : List Seg) : State :=
  let mem := (s.mem.paste inScratch a.scratch).paste (inDirty a.dirty (a.job.jobMib * 0x100000)) a.lines
  let s := { s with mem, fab := { s.fab with doneCids := a.doneCids }, job := { s.job with lists := a.lists } }
  let s := (List.range 8).foldl (fun s c => s.modCourse c fun x =>
    { x with ranges := a.ranges.getD c [], epoch := a.epochs.getD c 0, sort := a.sorts.getD c none }) s
  let s := a.engines.zipIdx.foldl (fun s x => s.restoreEngine m x.2 x.1) s
  let s := (a.movers.take 32).zipIdx.foldl (fun s x => s.restoreMover x.2 x.1) s
  match recopyCourses host a.ranges 8 0 s with
  | (some f, _, _) => s0.copyFault s0.leadHalf f
  | (none, false, _) => s0
  | (none, true, s) =>
    -- last: copies and restores have marked lines; what is dirty is what was restored (R316)
    let s := (List.range 8).foldl (fun s c => s.modCourse c fun x => { x with dirty := a.dirty.getD c [] }) s
    let j : Job := { a.job with posted := p, segs, area := k, preempt := none, signalled := false, ending := none }
    let s := { s with job := { s.job with cur := some j } }.setArea k none
    (List.range 8).foldl (fun s c => s.retireRanges c) s

/-- The job's key has the digest of the save's header, and its table set is that of the save (R326). -/
def matchesSave (d hdr : List Byte) (a : SaveArea) (m : List (Word × Word)) : Bool :=
  decide (bytesAt hdr 0x140 64 = padTo (shake256 (jKey d)) 64) &&
  (match a.handles.find? fun h => h.2.1 == 2 with
   | some h => jTset d == (mapped m h.1).toNat
   | none => jTset d == 0)

/-! ### What is read of a save area (R318, R234) -/

/-- The handle map of a save area from its bytes. -/
def handlesOf (n : Nat) (bs : List Byte) : List (Word × Nat × List Byte) :=
  (chunksOf 128 n bs).map fun x => (BitVec.ofNat 32 (fieldAt x 0 4), fieldAt x 4 1, bytesAt x 64 64)

/-- The dirty lines of a map. -/
def dirtyOf (bs : List Byte) : List Nat := (List.range 0x100000).filter fun i => bitOf (fieldAt bs (i / 8) 1) (i % 8)

/-- The header of a save area is good for a job (Table 11.7). -/
def headerGood (h : List Byte) (id : Nat) : Bool :=
  fieldAt h 0 4 == 0x4D395341 && fieldAt h 4 1 == 1 && fieldAt h 5 1 == 2 && crcOk h 0xFFC && fieldAt h 8 4 == id

/-- The engine whose tile a bad word of a save area reaches: that of an engine record, an accumulator or a scratchpad; every
engine's for the header, the handle map, the control part and the dirty maps; none for a course-buffer line, which carries
its mark to the tiles that read it (log entry 11). -/
def areaEngine (off : Nat) : Option (Option Nat) :=
  if off < 0x100000 then some none
  else if off < 0x1000000 then some (some ((off - 0x100000) / 0x20000))
  else if off < 0x9000000 then some (some ((off - 0x1000000) / 0x200000))
  else if off < 0x19000000 then some (some ((off - 0x9000000) / 0x400000))
  else if off < 0x19100000 then some none
  else none

/-- The tiles of an engine record are poisoned. -/
def EngineSave.mark (v : EngineSave) : EngineSave :=
  let bad := fun (d : Drain) => ({ d with tile := { d.tile with poison := true } } : Drain)
  { v with drain := v.drain.map bad, wbQ := v.wbQ.map bad }

/-- Mark what a bad word at an offset of a save area reaches. -/
def SaveArea.reach (a : SaveArea) (off : Nat) : SaveArea :=
  match areaEngine off with
  | none => a
  | some none => { a with engines := a.engines.map EngineSave.mark }
  | some (some e) => { a with engines := modifyNth EngineSave.mark a.engines e }

/-- A word of a stretch of memory with bits flipped and the poison pattern. -/
def Memory.spoil (m : Memory) (at_ flips : Nat) : Memory :=
  (m.setBytes at_ (toLe (leNat (m.read at_ 4) ^^^ flips) 4)).setSyn (at_ / 4) poisonSyn

/-- An accumulator entry with bits flipped, poisoned: word 0 of it holds value bits 31 to 0, word 1 the others and its three
state bits. -/
def spoilAcc (a : Acc) (word flips : Nat) : Acc :=
  if word = 0 then { a with val := a.val ^^^ BitVec.ofNat 40 flips, poison := true }
  else { a with val := a.val ^^^ BitVec.ofNat 40 (flips % 256 * 2 ^ 32), sticky := a.sticky != bitOf flips 9, poison := true }

/-- A bad word of a save area restores with the poison pattern where it has a word to restore to (R318). -/
def SaveArea.spoil (a : SaveArea) (off flips : Nat) : SaveArea :=
  let a := a.reach off
  if 0x1000000 ≤ off ∧ off < 0x9000000 then
    let n := (off - 0x1000000) / 0x100000
    let k := off % 0x100000 / 8
    let put := fun (v : EngineSave) =>
      if n % 2 = v.accActive then v
      else match accGet v.shadow k with
        | none => v
        | some x => { v with shadow := accPut v.shadow k (spoilAcc x (off / 4 % 2) flips) }
    { a with engines := modifyNth put a.engines (n / 2) }
  else if 0x9000000 ≤ off ∧ off < 0x19000000 then
    { a with scratch := a.scratch.spoil (0x10020000000 + (off - 0x9000000)) flips }
  else if 0x19100000 ≤ off ∧ off < 0x35100000 then
    let c := (off - 0x19100000) / 0x3800000
    let o := (off - 0x19100000) % 0x3800000
    if (a.dirty.getD c []).contains (o / 64) then { a with lines := a.lines.spoil (courseBase c + o) flips } else a
  else a

/-- Save area `k` as the movers read it: its header, and what the words that are bad now, or were bad at the save, leave of
it (R234, R318). -/
def State.loadArea (s : State) (k : Nat) (a : SaveArea) : List Byte × SaveArea :=
  let hdr := s.areaRead k 0 a.header
  let handles := handlesOf a.handles.length (s.areaRead k 0x1000 (handleBytes a.handles))
  let dirty := if s.mem.anyBad (s.areaBase k + 0x19000000) 0x100000 then
      a.dirty.zipIdx.map fun x => dirtyOf (s.areaRead k (0x19000000 + x.2 * 0x20000) (dirtyBytes x.1))
    else a.dirty
  let old := (a.scratch.synd.map fun x => 4 * x.1 - 0x10020000000 + 0x9000000)
  let bad := ((s.mem.synd.map (·.1)).filter fun w => s.inArea k (4 * w) && s.mem.bad w)
  let a := old.foldl SaveArea.reach { a with handles := handles, dirty := dirty }
  (hdr, bad.foldl (fun a w => a.spoil (4 * w - s.areaBase k) (leNat (s.mem.stored w))) a)

/-- Resume from save area `k`, which holds `a` under the header `hdr` (R318, R326). A refused resume leaves the area
held. -/
def State.resumeFrom (s0 s : State) (p : Posted) (host : HostData) (k : Nat) (hdr : List Byte) (a : SaveArea) : State :=
  let d := p.bytes
  if ¬ headerGood hdr (jId d) then s.refuseJob d stMalformed
  else match s.mapHandles a.handles with
    | .error (kind, dig) =>
      if kind = 2 then s.refuseJob d stTableSetMissing else s.refuseJob d stMalformed (leNat (dig.take 8))
    | .ok m =>
      if ¬ matchesSave d hdr a m then s.refuseJob d stMalformed
      else
        let s := (s.setUp a.job.jobMib (jTset d)).retirePending
        match s.planOf host d with
        | .wait => s0
        | .refused s => s
        | .ok segs s => State.restore s0 s p host k a m segs

/-! ### Resuming from a stream (R326) -/

/-- A region of a stream: its header and its data. -/
structure Region64 where
  addr : Nat
  data : List Byte
  deriving DecidableEq, Repr

/-- A region header is good at its place. -/
def regionHeadOk (h : List Byte) (i total : Nat) : Bool :=
  crcOk h 60 && fieldAt h 0 4 == i && fieldAt h 6 2 == 0 && decide (fieldAt h 5 1 < 2) && zeroAt h 0x20 28 &&
  fieldAt h 0x18 8 % 64 == 0 && fieldAt h 0x10 8 % 64 == 0 && decide (fieldAt h 0x18 8 + fieldAt h 0x10 8 ≤ total)

/-- Header, trailer and region headers of a stream are good, and its digests are those of the descriptor. -/
def State.streamOk (s : State) (d : List Byte) (host : HostData) : Bool :=
  let a := jResumeSrc d
  let h := hostBytes host a 256
  let total := fieldAt h 0x10 8
  let t := hostBytes host (a + total - 64) 64
  fieldAt h 0 4 == 0x4D39434B && fieldAt h 4 1 == 1 && (fieldAt h 5 1 == 1 || fieldAt h 5 1 == 2) && crcOk h 0xFC &&
  zeroAt h 0x1D 3 && zeroAt h 0xC0 60 && decide (fieldAt h 0x1C 1 < 2) && decide (0x140 ≤ total) &&
  decide (bytesAt h 0x40 64 = shake256 (jKey d)) && decide (bytesAt h 0x80 64 = padTo (s.tsetDigest d) 64) &&
  fieldAt t 0 4 == 0x4D394B43 && fieldAt t 4 4 == fieldAt h 8 4 && fieldAt t 8 4 == fieldAt h 0xC 4 &&
  fieldAt t 0xC 4 == 1 && zeroAt t 0x10 44 && crcOk t 60 &&
  (List.range (fieldAt h 0x18 4)).all fun i => regionHeadOk (hostBytes host (a + 0x100 + 64 * i) 64) i total

/-- The regions of a stream. -/
def streamRegions (d : List Byte) (host : HostData) : List Region64 :=
  let a := jResumeSrc d
  (List.range (fieldAt (hostBytes host a 256) 0x18 4)).map fun i =>
    let h := hostBytes host (a + 0x100 + 64 * i) 64
    { addr := fieldAt h 8 8, data := hostBytes host (a + fieldAt h 0x18 8) (fieldAt h 0x10 8) }

/-- Write lines of a region through the job's page table. -/
def writeLines (h m : Nat) : List (List Byte) → Nat → State → Option HeldFault × Bool × State
  | [], _, s => (none, true, s)
  | l :: ls, ja, s =>
    match s.translate h { kind := 1, id := m, owner := .job } ja true false with
    | (.ok 0 a, s) =>
      if ¬ s.rangeAll Region.hostOk a 64 then (some (addrFault fAddrUnbacked ja 0 true), false, s)
      else if s.stackHeld a then (none, false, s)
      else writeLines h m ls (ja + 64) (s.writeMem a l)
    | (.ok _ _, s) => (some (addrFault fAddrUnbacked ja 0 true), false, s)
    | (.held, s) => (none, false, s)
    | (.bad c l e ea, s) => (some (xlateFault ja c l e ea true), false, s)

/-- A fault of a restore names the region and the line that it could not write (R306). -/
def restoreFault (i base : Nat) (f : HeldFault) : HeldFault :=
  let off := BitVec.ofNat 32 (f.faddr.toNat - base)
  { f with restart := { f.restart with row := BitVec.ofNat 32 i, off, rkind := 6 } }

/-- Copy the regions of a stream to their places. -/
def copyRegions (h m : Nat) : Nat → List Region64 → State → Option HeldFault × Bool × State
  | _, [], s => (none, true, s)
  | i, r :: rs, s =>
    match writeLines h m (chunksOf 64 (r.data.length / 64) r.data) r.addr s with
    | (none, true, s) => copyRegions h m (i + 1) rs s
    | (f, b, s) => (f.map (restoreFault i r.addr), b, s)

/-- The segment after the `n`-th step end, counted from `i`. -/
def afterStep (n : Nat) : Nat → List Seg → Option Nat
  | i, [] => if n = 0 then some i else none
  | i, g :: gs =>
    match n with
    | 0 => some i
    | k + 1 => if g.kind = 5 then afterStep k (i + 1) gs else afterStep (k + 1) (i + 1) gs

/-- Resume from a step checkpoint: regions go to their places, cursors are set, and the plan goes on after the step. -/
def State.resumeStep (s0 s : State) (p : Posted) (host : HostData) (segs : List Seg) : State :=
  let d := p.bytes
  let h := hostBytes host (jResumeSrc d) 256
  let step := fieldAt h 0xC 4
  match afterStep step 0 segs with
  | none => s.refuseJob d stMalformed
  | some n =>
    let lead := s.leadHalf
    match copyRegions lead (16 * lead) 0 (streamRegions d host) s with
    | (some f, _, _) => s0.copyFault s0.leadHalf f
    | (none, false, _) => s0
    | (none, true, s) =>
      let cursors := (List.range 4).map fun i => BitVec.ofNat 64 (fieldAt h (0x20 + 8 * i) 8)
      let phase : JobPhase := if n < segs.length then .running else if jEncode d then .encoding else .lastStep
      s.modJob fun j => { j with segs, nextSeg := n, step, cursors, phase }

/-- The accumulator entry of 8 bytes (R123): none where EMPTY. -/
def accOfWord (w : Nat) : Option Acc :=
  if bitOf w 40 then none else some { val := BitVec.ofNat 40 w, sticky := bitOf w 41, poison := bitOf w 42 }

/-- The entries of an accumulator set from its bytes. -/
def accOfBytes (bs : List Byte) : List (Nat × Acc) :=
  (List.range 131072).filterMap fun k => (accOfWord (fieldAt bs (8 * k) 8)).map fun a => (k, a)

/-- The regions of an exported save at their offsets in a save area, and whether an offset was written. -/
def areaImage (rs : List Region64) : Memory := rs.foldl (fun m r => m.write r.addr r.data) {}
def areaCovers (rs : List Region64) (o : Nat) : Bool := rs.any fun r => decide (r.addr ≤ o) && decide (o < r.addr + r.data.length)

/-- An engine record of an exported save with its shadow set. -/
def engineOfImage (rs : List Region64) (img : Memory) (e : Nat) : Option EngineSave :=
  (Config.engineOf (img.read (0x100000 + e * 0x20000) 0x20000)).map fun v =>
    let o := 0x1000000 + (2 * e + (1 - v.accActive)) * 0x100000
    { v with shadow := if areaCovers rs o then accOfBytes (img.read o 0x100000) else [] }

/-- The save area that an exported save holds: header, handle map, accumulators, scratchpads, dirty maps and lines by their
layouts, the control part and the engine records as the module reads them (R326; log entry 11). -/
def areaOfStream (rs : List Region64) : Option (List Byte × SaveArea) :=
  let img := areaImage rs
  let h := img.read 0 0x1000
  match Config.controlOf (img.read 0x10000 0xF0000), (List.range 64).mapM (engineOfImage rs img) with
  | some a, some engines =>
    let cursors := (List.range 4).map fun i => BitVec.ofNat 64 (fieldAt h (0x20 + 8 * i) 8)
    let posted : Posted := { idx := 0, bytes := bytesAt h 0x40 256 }
    let job := { a.job with posted, step := fieldAt h 0xC 4, jobMib := fieldAt h 0x10 1, cursors }
    let dirty := (List.range 8).map fun c => dirtyOf (img.read (0x19000000 + c * 0x20000) 0x20000)
    let scratch := (img.cut fun o => decide (0x9000000 ≤ o) && decide (o < 0x19000000)).cells.foldl
      (fun (m : Memory) c => m.setByte (0x10020000000 + (c.1 - 0x9000000)) c.2) {}
    let lines := (img.cut fun o => decide (0x19100000 ≤ o) && decide (o < 0x35100000)).cells.foldl
      (fun (m : Memory) c => m.setByte (courseBase ((c.1 - 0x19100000) / 0x3800000) + (c.1 - 0x19100000) % 0x3800000) c.2) {}
    some (h, { a with st := 2, boot := BitVec.ofNat 16 (fieldAt h 6 2), job, dirty, scratch, lines, engines,
                      handles := handlesOf (fieldAt h 0x11 1) (img.read 0x1000 0xF000) })
  | _, _ => none

/-- Resume from the stream at RESUME_SRC. -/
def State.resumeStream (s0 s : State) (p : Posted) (host : HostData) (k : Nat) : State :=
  let d := p.bytes
  if ¬ s.streamOk d host then s.refuseJob d stMalformed
  else if fieldAt (hostBytes host (jResumeSrc d) 256) 5 1 = 2 then
    match areaOfStream (streamRegions d host) with
    | none => s.refuseJob d stMalformed
    | some (hdr, a) => State.resumeFrom s0 s p host k hdr a
  else
    let s := (s.setUp s.regs.jobMib (jTset d)).retirePending
    match s.planOf host d with
    | .wait => s0
    | .refused s => s
    | .ok segs s => State.resumeStep s0 s p host segs

/-- RESUME (R318, R326): the restore of the job that the lead has taken. It is done as a whole; where a read or a copy
holds, the command finds it again. -/
def execResume (host : HostData) (s : State) : Out :=
  match s.job.cur with
  | none => .next s
  | some j =>
    let d := j.posted.bytes
    if ¬ s.mgrUp ∨ j.phase ≠ .resuming ∨ s.jobStopping ∨ ¬ s.halfUp 0 ∨ ¬ s.halfUp 1 ∨ s.copyHeld s.leadHalf ∨
        s.stackHeld s.variant.fwBase then .next s
    else s.ifLead fun s =>
      if jResumeSrc d = 0 then
        match s.job.areas.getD j.area none with
        | some a =>
          let x := s.loadArea j.area a
          let t := s.noteStretch (16 * s.leadHalf) (s.inArea j.area)
          .next (State.resumeFrom s t j.posted host j.area x.1 x.2)
        | none => .next (s.refuseJob d stMalformed)
      else if ¬ s.hif.linkUp ∨ host.status ≠ .ok then .next s
      else .next (State.resumeStream s s j.posted host j.area)

end Sys2Proof.Machine
end

