-- ==== Sys2Proof/Machine/Picture.lean ====
section
/-! DEFINITION. The input path of the encoder and rate control: crop, conversion, scaling, flip and rotation (13 R385 to
R389), and the encode parameter block (Table 13.4). -/

namespace Sys2Proof.Machine

/-! ### Encode parameter block (Table 13.4) -/

def epWidth (b : List Byte) : Nat := fieldAt b 0 2
def epHeight (b : List Byte) : Nat := fieldAt b 2 2
def epDepth (b : List Byte) : Nat := fieldAt b 4 1
def epProfile (b : List Byte) : Nat := fieldAt b 5 1
def epLevel (b : List Byte) : Nat := fieldAt b 6 1
def epTier (b : List Byte) : Nat := fieldAt b 7 1
def epFrNum (b : List Byte) : Nat := fieldAt b 8 4
def epFrDen (b : List Byte) : Nat := fieldAt b 0xC 4
def epMode (b : List Byte) : Nat := fieldAt b 0x10 1
def epQpInit (b : List Byte) : Nat := fieldAt b 0x11 1
def epQpMin (b : List Byte) : Nat := fieldAt b 0x12 1
def epQpMax (b : List Byte) : Nat := fieldAt b 0x13 1
def epKeyOff (b : List Byte) : Int := signedOf 8 (fieldAt b 0x14 1)
def epDqMax (b : List Byte) : Nat := fieldAt b 0x15 1
def epGain (b : List Byte) : Nat := fieldAt b 0x16 1
def epNref (b : List Byte) : Nat := fieldAt b 0x17 1
def epTarget (b : List Byte) : Nat := fieldAt b 0x18 4
def epMax (b : List Byte) : Nat := fieldAt b 0x1C 4
def epVbv (b : List Byte) : Nat := fieldAt b 0x20 4
def epVbvInit (b : List Byte) : Nat := fieldAt b 0x24 1
def epKeyW (b : List Byte) : Nat := fieldAt b 0x25 1
def epGop (b : List Byte) : Nat := fieldAt b 0x26 2
def epCols (b : List Byte) : Nat := fieldAt b 0x28 1
def epRows (b : List Byte) : Nat := fieldAt b 0x29 1
def epTools (b : List Byte) : Nat := fieldAt b 0x2A 1
def epColor (b : List Byte) : Nat := fieldAt b 0x2B 1
def epPace (b : List Byte) : Nat := fieldAt b 0x2C 4
def epCoef (b : List Byte) : Nat := fieldAt b 0x30 8

/-- FSTAT of TOOLS. -/
def epFstat (b : List Byte) : Bool := bitOf (epTools b) 2

/-- The tile columns and rows that a level admits, none where the codec has no such level up to 6.1: AV1 by seq_level_idx, HEVC by
general_level_idc. The levels are those of the codecs' specifications (PRESUMED, log entry 10). -/
def levelTiles (codec level : Nat) : Option (Nat × Nat) :=
  if codec = 1 then
    match level with
    | 0 | 1 => some (4, 8)
    | 4 | 5 => some (6, 16)
    | 8 | 9 => some (8, 32)
    | 12 | 13 | 14 | 15 => some (8, 64)
    | 16 | 17 => some (16, 128)
    | _ => none
  else
    match level with
    | 30 | 60 | 63 => some (1, 1)
    | 90 => some (2, 2)
    | 93 => some (3, 3)
    | 120 | 123 => some (5, 5)
    | 150 | 153 | 156 => some (10, 11)
    | 180 | 183 => some (20, 22)
    | _ => none

/-- Main tier, or High tier, which begins at level 4 (R374; PRESUMED, log entry 10). -/
def tierOk (codec level tier : Nat) : Bool := tier == 0 || (tier == 1 && decide ((if codec = 1 then 8 else 120) ≤ level))

/-- Level, tier and tile grid are within R374: AV1 bounds the columns and the number of tiles, HEVC the columns and the rows. -/
def codecLevelOk (codec level tier cols rows : Nat) : Bool :=
  match levelTiles codec level with
  | none => false
  | some (c, r) => tierOk codec level tier && decide (cols ≤ c) && decide ((if codec = 1 then cols * rows else rows) ≤ r)

/-- The block is good for a codec, 1 AV1, 2 HEVC (R384). -/
def paramOk (codec : Nat) (b : List Byte) : Bool :=
  let qTop := if codec = 1 then 63 else 51
  crcOk b 0xFC && epWidth b % 2 == 0 && epHeight b % 2 == 0 && decide (16 ≤ epWidth b) && decide (epWidth b ≤ 8192) &&
  decide (16 ≤ epHeight b) && decide (epHeight b ≤ 8192) && decide (epWidth b * epHeight b ≤ 33177600) &&
  (epDepth b == 8 || epDepth b == 10) &&
  (if codec = 1 then epProfile b == 0 else (epProfile b == 1 && epDepth b == 8) || (epProfile b == 2 && epDepth b == 10)) &&
  codecLevelOk codec (epLevel b) (epTier b) (epCols b) (epRows b) &&
  epFrNum b != 0 && epFrDen b != 0 && decide (epMode b ≤ 2) && decide (epQpMin b ≤ epQpInit b) &&
  decide (epQpInit b ≤ epQpMax b) && decide (epQpMax b ≤ qTop) && decide (epDqMax b ≤ 15) && decide (epGain b ≤ 64) &&
  decide (1 ≤ epNref b) && decide (epNref b ≤ 4) &&
  (epMode b == 0 || (epTarget b != 0 && epMax b != 0 && epVbv b != 0)) && decide (epTarget b ≤ epMax b) &&
  decide (epVbvInit b ≤ 100) && decide (16 ≤ epKeyW b) && decide (1 ≤ epCols b) && decide (1 ≤ epRows b) &&
  decide (epTools b < 8) && decide (epColor b < 8) && bitsOf (epColor b) 1 1 == 0 && zeroAt b 0x38 196

/-- Tap `k` of phase `ph` of a coefficient block; chroma taps follow the luma taps (R387). -/
def coefTap (b : List Byte) (chroma : Bool) (ph k : Nat) : Int := signedOf 8 (fieldAt b ((if chroma then 512 else 0) + 8 * ph + k) 1)

/-- A coefficient block is good: its CRC is right, its reserved bytes zero, the taps of each phase sum to 128. -/
def coefOk (b : List Byte) : Bool :=
  crcOk b 1084 && zeroAt b 1024 60 &&
  [false, true].all fun ch => (List.range 64).all fun ph =>
    ((List.range 8).map fun k => coefTap b ch ph k).sum == 128

/-! ### Source samples (R385, R386) -/

/-- A plane of samples by column and row. -/
abbrev Samples := Nat → Nat → Int

/-- Bytes of a sample or packed pixel of an input format: luma of 8 and 10 bits, RGBA, RGB 10:10:10:2. -/
def pixBytes (fmt : Nat) : Nat := match fmt with | 1 => 1 | 2 => 2 | _ => 4

/-- Sample depth of an input format. -/
def inDepth (fmt : Nat) : Nat := if fmt = 2 ∨ fmt = 4 then 10 else 8

/-- A sample of a row of YUV input. -/
def yuvSample (fmt : Nat) (rows : List (List Byte)) (x y : Nat) : Nat :=
  let r := rows.getD y []
  if fmt = 1 then fieldAt r x 1 else fieldAt r (2 * x) 2 % 1024

/-- YUV samples at the output depth. -/
def toDepth (di d v : Nat) : Int :=
  if di = d then v else if d = 10 then v * 4 else min ((v + 2) / 4) 255

/-- Component `c` (0 R, 1 G, 2 B) of a packed pixel, widened to 12 bits. -/
def rgbComp (fmt : Nat) (rows : List (List Byte)) (c x y : Nat) : Int :=
  let r := rows.getD y []
  if fmt = 3 then (fieldAt r (4 * x + c) 1 : Int) * 16 else (bitsOf (fieldAt r (4 * x) 4) (10 * c) 10 : Int) * 4

/-- Table 13.8: coefficients of a row, Y 0, Cb 1, Cr 2. -/
def convRow (bt2020 : Bool) (row : Nat) : Int × Int × Int :=
  match bt2020, row with
  | false, 0 => (1742, 5859, 591)
  | false, 1 => (-939, -3157, 4096)
  | false, _ => (4096, -3720, -376)
  | true, 0 => (2152, 5554, 486)
  | true, 1 => (-1144, -2952, 4096)
  | true, _ => (4096, -3767, -329)

/-- A converted component of a packed pixel (R386). -/
def convert (fmt : Nat) (color d : Nat) (rows : List (List Byte)) (row x y : Nat) : Int :=
  let k := convRow (bitOf color 0) row
  let sum := k.1 * rgbComp fmt rows 0 x y + k.2.1 * rgbComp fmt rows 1 x y + k.2.2 * rgbComp fmt rows 2 x y
  let v :=
    if bitOf color 2 then
      (sum + 2 ^ (24 - d)) >>> (25 - d) + (if row = 0 then 0 else 2 ^ (d - 1))
    else
      (sum * (if row = 0 then 219 else 224) + 2 ^ (32 - d)) >>> (33 - d) + (if row = 0 then 2 ^ (d - 4) else 2 ^ (d - 1))
  clampInt 0 (2 ^ d - 1) v

/-- The luma plane of the crop at the output depth. -/
def lumaIn (fmt color d : Nat) (rows : List (List Byte)) : Samples := fun x y =>
  if fmt ≤ 2 then toDepth (inDepth fmt) d (yuvSample fmt rows x y) else convert fmt color d rows 0 x y

/-- A chroma plane of the crop at the output depth: 0 Cb, 1 Cr; of packed input, the mean of each 2 × 2 group. -/
def chromaIn (fmt color d : Nat) (rows rowsC : List (List Byte)) (c : Nat) : Samples := fun x y =>
  if fmt ≤ 2 then toDepth (inDepth fmt) d (yuvSample fmt rowsC (2 * x + c) y)
  else
    let v := fun (i j : Nat) => convert fmt color d rows (c + 1) (2 * x + i) (2 * y + j)
    (v 0 0 + v 1 0 + v 0 1 + v 1 1 + 2) >>> 2

/-! ### Scaling, flip, rotation (R387, R388) -/

/-- Position and phase of an output index on an axis from `n` to `m`. -/
def scalePos (n m x : Nat) : Int × Nat :=
  let step : Int := (n * 65536 / m : Nat)
  let p := (((2 * x + 1 : Nat) : Int) * step - 65536) >>> 1
  (p >>> 16, ((p >>> 10) % 64).toNat)

/-- The filter sum at an output index. -/
def scaleAcc (coef : List Byte) (chroma : Bool) (n m x : Nat) (s : Nat → Int) : Int :=
  let p := scalePos n m x
  ((List.range 8).map fun k => coefTap coef chroma p.2 k * s (clampInt 0 (n - 1) (p.1 - 3 + k)).toNat).sum

/-- A plane of `w` × `h` scaled to `w'` × `h'`: the horizontal pass first. -/
def scaled (coef : List Byte) (chroma : Bool) (d w h w' h' : Nat) (s : Samples) : Samples := fun x y =>
  let hz := fun (yy : Nat) => if w = w' then s x yy * 8 else (scaleAcc coef chroma w w' x (fun i => s i yy) + 8) >>> 4
  if h = h' then hz y >>> 3 else clampInt 0 (2 ^ d - 1) ((scaleAcc coef chroma h h' y hz + 512) >>> 10)

/-- Flip, then turn clockwise a plane of `w` × `h` (R388). -/
def turned (xform w h : Nat) (s : Samples) : Samples := fun x y =>
  let f := fun (i j : Nat) => s (if bitOf xform 0 then w - 1 - i else i) j
  match bitsOf xform 1 2 with
  | 0 => f x y
  | 1 => f y (h - 1 - x)
  | 2 => f (w - 1 - x) (h - 1 - y)
  | _ => f (w - 1 - y) x

/-- Whether a rotation swaps the axes. -/
def swaps (xform : Nat) : Bool := bitOf xform 1

/-- An axis can be scaled: the ratio lies between 1/8 and 8, and coefficients are there where it is filtered. -/
def axisScales (n m : Nat) (hasCoef : Bool) : Bool := decide (n ≤ 8 * m) && decide (m ≤ 8 * n) && (n == m || hasCoef)

/-- Samples of a plane, row by row. -/
def planeList (w h : Nat) (s : Samples) : List (Option Nat) :=
  ((List.range h).map fun y => (List.range w).map fun x => some (s x y).toNat).flatten

/-- The picture that is coded. -/
def codedPicture (param coef d : List Byte) (rows rowsC : List (List Byte)) : Config.Planes :=
  let depth := epDepth param
  let w := eCropW d
  let h := eCropH d
  let w' := if swaps (eXform d) then epHeight param else epWidth param
  let h' := if swaps (eXform d) then epWidth param else epHeight param
  let y := turned (eXform d) w' h' (scaled coef false depth w h w' h' (lumaIn (eFmt d) (epColor param) depth rows))
  let c := fun (i : Nat) => turned (eXform d) (w' / 2) (h' / 2)
    (scaled coef true depth (w / 2) (h / 2) (w' / 2) (h' / 2) (chromaIn (eFmt d) (epColor param) depth rows rowsC i))
  { y := planeList (epWidth param) (epHeight param) y, cb := planeList (epWidth param / 2) (epHeight param / 2) (c 0),
    cr := planeList (epWidth param / 2) (epHeight param / 2) (c 1), motion := [] }

/-! ### What a stream signals (R376, R386, R390) -/

/-- The tools in use: those of Table 13.2, with Wiener restoration, CDEF and SAO as TOOLS enables them. -/
def encTools (codec tools : Nat) : List Config.Tool :=
  if codec = 1 then
    [.intraAll, .cfl, .compound, .quarterPel, .dctAdst32, .dct64, .deblock, .uniformTiles] ++
      (if bitOf tools 0 then [.wiener] else []) ++ (if bitOf tools 1 then [.cdef] else [])
  else
    [.intraAll, .compound, .quarterPel, .merge, .tmvp, .dctAdst32, .dst4, .deblock, .uniformTiles] ++
      (if bitOf tools 1 then [.sao] else [])

/-- The sequence headers: 64 × 64 blocks down to 8 × 8, timing from the frame rate, matrix and range from COLOR, centred chroma
siting. -/
def seqSyntax (codec : Nat) (p : List Byte) : Config.SeqSyntax :=
  { codec, profile := epProfile p, level := epLevel p, tier := epTier p, width := epWidth p, height := epHeight p,
    depth := epDepth p, frNum := epFrNum p, frDen := epFrDen p, bt2020 := bitOf (epColor p) 0, fullRange := bitOf (epColor p) 2,
    centredChroma := true, largestBlock := 64, smallestBlock := 8, tileCols := epCols p, tileRows := epRows p,
    tools := encTools codec (epTools p) }

/-- QPs of a frame's rows as a stream carries them: HEVC as deltas from the init_qp of its PPS, which the last key frame sent (log
entry 10); AV1 as base_q_idx = 4q and deltas with delta_q_res 4. Chroma offsets are zero. -/
def qpSyntax (codec : Nat) (initQp q : Int) (qps : List Int) : Config.QpSyntax :=
  if codec = 1 then .av1 (4 * q) 4 (qps.map fun r => r - q) 0 else .hevc initQp (qps.map fun r => r - initQp) 0

/-- A frame's headers: those of the sequence go with every key frame; an inter frame predicts from the NREF frames before it at
most. -/
def frameSyntax (codec : Nat) (p : List Byte) (key : Bool) (order refs : Nat) (initQp q : Int) (qps : List Int) :
    Config.FrameSyntax :=
  { seq := if key then some (seqSyntax codec p) else none, order, key, refs := if key then 0 else min refs (epNref p),
    qp := qpSyntax codec initQp q qps }

/-! ### Rate control (R389) -/

/-- What rate control makes of a frame: its QP, the row QPs, bits, target, buffer after it, whether it overran. -/
structure RcFrame where
  q : Int
  qps : List Int
  bits : Nat
  t : Int
  b : Int
  ovf : Bool
  deriving DecidableEq, Repr

/-- Buffer size and fullness at open. -/
def rcSize (p : List Byte) : Int := (epVbv p : Int) * 1000
def rcOpen (p : List Byte) : Int := (rcSize p * epVbvInit p).tdiv 100

/-- Bits of a frame at a rate in kbit/s. -/
def rcPerFrame (p : List Byte) (kbps : Nat) : Int := ((kbps : Int) * 1000 * epFrDen p).tdiv (epFrNum p)

/-- Step of the frame QP from the last frame of the kind. -/
def rcDelta (last : RcLast) : Int :=
  if 8 * last.a > 12 * last.t then 2 else if 8 * last.a > 9 * last.t then 1
  else if 8 * last.a < 4 * last.t then -2 else if 8 * last.a < 7 * last.t then -1 else 0

/-- The row step after `a` bits; the quotient where t is zero is free, as the spec does not state it. -/
def rcRowStep (p : List Byte) (q b t : Int) (n r a : Nat) : Int :=
  if (a : Int) > b then (epQpMax p : Int) - q
  else
    let num := ((a : Int) - (t * (r + 1)).tdiv n) * epGain p * n
    clampInt (-(epDqMax p : Int)) (epDqMax p) (if t = 0 then Config.zeroTarget p num else num.tdiv (16 * t))

/-- Code the rows `r` on: the row QPs so far, the next row's QP. -/
def rcRows (p : List Byte) (bits : List Int → Nat) (q b t : Int) (n : Nat) : Nat → Nat → Int → List Int → List Int
  | 0, _, _, qps => qps
  | fuel + 1, r, qr, qps =>
    let qps := qps ++ [qr]
    let d := rcRowStep p q b t n r (bits qps)
    rcRows p bits q b t n fuel (r + 1) (clampInt (epQpMin p) (epQpMax p) (q + d)) qps

/-- Rate control over a frame of `n` rows; `bits` gives the bits of the rows coded so far from the frame's QP and theirs. -/
def rcFrame (p : List Byte) (key : Bool) (last : Option RcLast) (b0 : Int) (n : Nat) (bits : Int → List Int → Nat) :
    RcFrame :=
  let first := (epQpInit p : Int) + (if key then epKeyOff p else 0)
  if epMode p = 0 then
    let qps := List.replicate n first
    { q := first, qps, bits := bits first qps, t := 0, b := b0, ovf := false }
  else
    let v := rcSize p
    let bpf := rcPerFrame p (epTarget p)
    let fill := rcPerFrame p (if epMode p = 2 then epMax p else epTarget p)
    let b := min (b0 + fill) v
    let t := (bpf * (if key then epKeyW p else 16)).tdiv 16 + (b - v.tdiv 2).tdiv 4
    let t := clampInt (bpf.tdiv 8) ((b * 7).tdiv 8) t
    let q := match last with
      | none => first
      | some l => l.q + rcDelta l
    let q := clampInt (epQpMin p) (epQpMax p) q
    let qps := rcRows p (bits q) q b t n n 0 q []
    let a := bits q qps
    { q, qps, bits := a, t, b := if (a : Int) > b then 0 else b - a, ovf := decide ((a : Int) > b) }

/-! ### Frame buffers (R378) -/

/-- Pitch of a luma plane. -/
def fbPitch (w depth : Nat) : Nat := roundUp (w * (if depth = 8 then 1 else 2)) 256
/-- Offsets of chroma and motion field, and the buffer's size. -/
def fbChroma (w h depth : Nat) : Nat := 0x1000 + fbPitch w depth * roundUp h 64
def fbMotion (w h depth : Nat) : Nat := roundUp (fbChroma w h depth + fbPitch w depth * ((h + 1) / 2)) 4096
def fbSize (w h depth : Nat) : Nat := fbMotion w h depth + 16 * ceilDiv w 8 * ceilDiv h 8

/-- The header of a frame buffer. -/
def fbHeader (w h depth : Nat) (pois err grain : Bool) (order : Nat) : List Byte :=
  withCrc (padTo (toLe w 2 ++ toLe h 2 ++ toLe depth 1 ++ toLe (b2n pois + 2 * b2n err + 4 * b2n grain) 1 ++ zeros 2 ++
    toLe (fbPitch w depth) 4 ++ toLe order 4 ++ toLe 0x1000 4 ++ toLe (fbChroma w h depth) 4 ++
    toLe (fbMotion w h depth) 4) 0xFFC)

/-- Bytes of a sample. -/
def sampleBytes (depth : Nat) : Nat := if depth = 8 then 1 else 2

/-- Rows of a plane of `w` samples each, padded to the pitch; a sample that was not decoded is 2^(D−1) (R378, R393). -/
def planeRows (depth w pitch : Nat) (s : List (Option Nat)) : List Byte :=
  ((chunksOf w s.length s).map fun row =>
    padTo ((row.map fun v => toLe (v.getD (2 ^ (depth - 1))) (sampleBytes depth)).flatten) pitch).flatten

/-- Two planes, sample by sample. -/
def interleaved : List (Option Nat) → List (Option Nat) → List (Option Nat)
  | a :: as, b :: bs => a :: b :: interleaved as bs
  | _, _ => []

/-- What lies in a frame buffer behind its header: luma at the pitch, the interleaved Cb and Cr plane at half size with the same
pitch, the motion field (R378). Bytes between them are zero (log entry 10). -/
def bufferPlanes (w h depth : Nat) (p : Config.Planes) : List Byte :=
  let pitch := fbPitch w depth
  let luma := padTo (planeRows depth w pitch p.y) (fbChroma w h depth - 0x1000)
  let chroma := padTo (planeRows depth (2 * ((w + 1) / 2)) pitch (interleaved p.cb p.cr)) (fbMotion w h depth - fbChroma w h depth)
  padTo (luma ++ chroma ++ p.motion) (fbSize w h depth - 0x1000)

/-- Every sample 2^(D−1): what prediction from a slot without a buffer reads (Table 13.6). -/
def greyFrame (w h depth : Nat) : Config.RefFrame :=
  let grey := fun (n : Nat) => List.replicate n (some (2 ^ (depth - 1)))
  let half := (w + 1) / 2 * ((h + 1) / 2)
  { width := w, height := h, depth, planes := { y := grey (w * h), cb := grey half, cr := grey half, motion := [] } }

end Sys2Proof.Machine
end

