-- ==== Sys2Proof/Machine/Codec.lean ====
section
/-! DEFINITION. The codec engines: pools, contexts, encoding, decoding, encode lists (13 R373 to R401). The decisions of
the encoder and the decoded samples are the codecs' own: they come from Config (log entry 10). -/

namespace Sys2Proof.Machine

/-! ### Mark words (R380) -/

def mkRef (m : BitVec 12) : Nat := m.toNat % 32
def mkOut (m : BitVec 12) : Bool := m.getLsbD 5
def mkBusy (m : BitVec 12) : Bool := m.getLsbD 6
def mkPois (m : BitVec 12) : Bool := m.getLsbD 7
def mkErr (m : BitVec 12) : Bool := m.getLsbD 8
def mkCtx (m : BitVec 12) : Nat := bitsOf m.toNat 9 2
def mkOwned (m : BitVec 12) : Bool := m.getLsbD 11

/-- A mark word from its fields. -/
def mkWord (ref : Nat) (out pois err : Bool) (ctx : Nat) (owned : Bool) (busy : Bool := false) : BitVec 12 :=
  BitVec.ofNat 12 (ref % 32 + 32 * b2n out + 64 * b2n busy + 128 * b2n pois + 256 * b2n err + 512 * (ctx % 4) + 2048 * b2n owned)

/-- Whether a buffer is free. -/
def mkFree (m : BitVec 12) : Bool := mkRef m == 0 && !mkOut m && !mkBusy m

/-- A free buffer's word is clear. -/
def mkTidy (m : BitVec 12) : BitVec 12 := if mkFree m then 0 else m

/-- A context of an engine. -/
def Codec.ctx (c : Codec) (i : Nat) : Option Ctx := c.ctxs.getD i none
def Codec.setCtx (c : Codec) (i : Nat) (x : Option Ctx) : Codec := { c with ctxs := c.ctxs.set i x }
/-- The mark of a buffer. -/
def Codec.mark (c : Codec) (b : Nat) : BitVec 12 := c.marks.getD b 0
def Codec.setMark (c : Codec) (b : Nat) (m : BitVec 12) : Codec := { c with marks := c.marks.set b (mkTidy m) }

/-- Every buffer of a context carries the number of its reference slots that name it. -/
def Codec.recount (c : Codec) (i : Nat) (refs : List Nat) : Codec :=
  let marks := c.marks.zipIdx.map fun (x : BitVec 12 × Nat) =>
    if mkOwned x.1 ∧ mkCtx x.1 = i then
      mkTidy (mkWord (refs.filter fun b => b == x.2).length (mkOut x.1) (mkPois x.1) (mkErr x.1) i true (mkBusy x.1))
    else x.1
  { c with marks }

/-- A context closes: its reference marks drop, and buffers with OUT lose OWNED and keep OUT (R383, R401). -/
def Codec.close (c : Codec) (i : Nat) : Codec :=
  let marks := c.marks.map fun (m : BitVec 12) =>
    if mkOwned m ∧ mkCtx m = i then mkTidy (mkWord 0 (mkOut m) (mkPois m) (mkErr m) 0 false) else m
  { c.setCtx i none with marks }

/-- The lowest free buffer that is large enough (R380). -/
def Codec.freeBuffer (c : Codec) (size : Nat) : Option Nat :=
  (List.range c.pool.length).find? fun b => mkFree (c.mark b) && decide (size ≤ (c.pool.getD b (0, 0)).2)

/-- A frame of a context takes a buffer: it is BUSY and OWNED while the frame is written (R380). -/
def Codec.claim (c : Codec) (b i : Nat) : Codec := c.setMark b (mkWord 0 false false false i true true)

/-- Whether a pipeline that finds no free buffer holds instead of completing BUSY (R382). -/
def Codec.mayFree (c : Codec) : Bool := (c.marks.take c.pool.length).any fun m => mkOut m || mkBusy m

/-- First address of a buffer. -/
def Codec.bufAddr (c : Codec) (b : Nat) : Nat := (c.pool.getD b (0, 0)).1

/-! ### Reading, writing, completing -/

/-- The engine of a codec ring, and whether the ring is its encode ring. -/
def codecOf (r : Nat) : Nat := (r - 18) / 2
def encRing (r : Nat) : Bool := r % 2 == 0

/-- Whether a codec engine works. -/
def State.codecUp (s : State) (e : Nat) : Bool := s.regionUp 3 && !s.isFenced (srcCodec e)

/-- Read for a codec engine: device memory for a ring's descriptor, job memory for a list's (R385, R399). -/
def State.codecRead (s : State) (e : Nat) (owner : Owner) (inList : Bool) (host : HostData) (a len : Nat) : Ctl :=
  let rd : Reader := { kind := 7, id := e, owner }
  if inList then s.ctlRead s.leadHalf rd host a len
  else if ¬ s.rangeAll Region.hostOk a len then .fault (addrFault fAddrUnbacked a 1 false) s
  else if s.stackHeld a then .wait s
  else
    let r := s.readMem rd a len
    .ok r.1 r.2.1 r.2.2

/-- What came of reading rows. -/
inductive Rows where
  | ok (rows : List (List Byte)) (bad : Bool) (s : State)
  | fault (f : HeldFault) (s : State)
  | wait (s : State)

/-- Read `n` rows of `len` bytes at a pitch. -/
def readRows (e : Nat) (owner : Owner) (inList : Bool) (host : HostData) (pitch len : Nat) : Nat → Nat → State → Rows
  | 0, _, s => .ok [] false s
  | n + 1, a, s =>
    match s.codecRead e owner inList host a len with
    | .wait s => .wait s
    | .fault f s => .fault f s
    | .ok bs bad s => match readRows e owner inList host pitch len n (a + pitch) s with
      | .ok rows bad' s => .ok (bs :: rows) (bad || bad') s
      | r => r

/-- What came of a write: done, refused, or held by a fenced stack. -/
inductive Wrote where
  | ok (s : State)
  | bad
  | wait

/-- Where a range of job or device memory begins, for a codec engine that writes it. -/
def State.codecTarget (s : State) (e : Nat) (inList : Bool) (a : Nat) : Xlate × State :=
  if inList then s.translate s.leadHalf { kind := 7, id := e, owner := .job } a true false else (.ok 0 a, s)

/-- Write job or device memory in pieces of one leaf. A piece in a fenced stack holds (R401). -/
def codecWriteFuel (e : Nat) (inList : Bool) : Nat → Nat → List Byte → State → Wrote
  | 0, _, _, s => .ok s
  | fuel + 1, a, bs, s =>
    if bs.isEmpty then .ok s
    else
      let n := min bs.length (0x10000 - a % 0x10000)
      match s.codecTarget e inList a with
      | (.ok 0 p, s) =>
        if ¬ s.rangeAll Region.hostOk p n then .bad
        else if s.stackHeld p then .wait
        else codecWriteFuel e inList fuel (a + n) (bs.drop n) (s.writeMem p (bs.take n))
      | (.held, _) => .wait
      | _ => .bad

def State.codecWrite (s : State) (e : Nat) (inList : Bool) (a : Nat) (bs : List Byte) : Wrote :=
  codecWriteFuel e inList (bs.length / 0x10000 + 2) a bs s

/-- Body of a CODEC record (R395). -/
def codecBody (e ctx event key no bytes : Nat) (q lo hi : Int) (flags : Nat) (b t : Int) (code : Nat) : List Byte :=
  toLe e 1 ++ toLe ctx 1 ++ toLe event 1 ++ toLe key 1 ++ toLe no 4 ++ toLe bytes 4 ++ toLe (wrapTo 8 q) 1 ++
  toLe (wrapTo 8 lo) 1 ++ toLe (wrapTo 8 hi) 1 ++ toLe flags 1 ++ toLe (wrapTo 64 b) 8 ++ toLe (wrapTo 32 t) 4 ++ toLe code 2

/-- Post a CODEC record. -/
def State.postCodec (s : State) (e : Nat) (owner : Owner) (body : List Byte) : State :=
  s.post { kind := kCodec, src := srcCodec e, owner, body }

/-- A descriptor that a codec ring's pipeline may take: the oldest one, of operation `opc`. An encode list runs before
the next descriptor of its engine's encode ring (R398). -/
def State.takeCodec (s : State) (r opc : Nat) : Option (Posted × State) :=
  match (s.ring r).posted with
  | [] => none
  | p :: _ =>
    if dOpc p.bytes ≠ opc ∨ ¬ s.codecUp (codecOf r) ∨ (encRing r ∧ (s.codec (codecOf r)).list.isSome) then none
    else s.take r

/-- Whether a context named by a ring's descriptor is open on that ring (R383). -/
def Codec.openOn (c : Codec) (i r : Nat) : Option Ctx :=
  match c.ctx i with
  | some x => if x.ring.val = r ∧ ¬ x.ofList then some x else none
  | none => none

/-- Run a codec operation on a ring: absent engines have no rings. -/
def State.runCodec (s : State) (ring : RingId) (opc : Nat) (go : Posted → State → State) : Out :=
  if ring.val < 18 ∨ 21 < ring.val then .next s
  else if ¬ s.variant.hasCodec (codecOf ring) then .next s
  else match s.takeCodec ring opc with
    | none => .next s
    | some (p, s) => .next (go p s)

/-! ### Pools and contexts (R379, R383, R384) -/

/-- Entry `i` of a pool table. -/
def poolEntry (t : List Byte) (i : Nat) : Nat × Nat := (fieldAt t (16 * i) 8, fieldAt t (16 * i + 8) 4)

/-- A pool table is good: CRCs, alignment, buffers in HBM outside the firmware region. -/
def State.poolOk (s : State) (t : List Byte) (n : Nat) : Bool :=
  (List.range n).all fun i =>
    let e := poolEntry t i
    crcOk (bytesAt t (16 * i) 16) 12 && e.1 % 4096 == 0 && s.rangeAll Region.isHbm e.1 e.2

/-- POOL_SET (R379). -/
def execPoolSet (ring : RingId) (s : State) : Out :=
  let r := ring.val
  let e := codecOf r
  match (s.ring r).posted with
  | [] => s.runCodec ring 1 fun _ s => s
  | p :: _ =>
    let n := fieldAt p.bytes 0x28 1
    if (s.codec e).ctxs.any (·.isSome) then s.runCodec ring 1 fun p s => s.complete r p.bytes stBusy
    else match s.codecRead e (.desc r p.bytes) false { cells := [], status := .ok } (fieldAt p.bytes 0x20 8) (16 * n) with
      | .wait _ => .next s
      | .fault _ _ => s.runCodec ring 1 fun p s => s.complete r p.bytes stMalformed
      | .ok t _ s1 =>
        s1.runCodec ring 1 fun p s =>
          if ¬ s.poolOk t n then s.complete r p.bytes stMalformed
          else
            (s.modCodec e fun c =>
              { c with pool := (List.range n).map (poolEntry t), marks := List.replicate 32 0 }).complete r p.bytes stOk

/-- What came of an OPEN: the context, or what it completes with. -/
inductive Opened where
  | ok (x : Ctx) (s : State)
  | bad (s : State)
  | wait

/-- The context that an OPEN describes, with its parameter and coefficient blocks read and checked, and its stage area in HBM
(R384). -/
def State.openCtx (s : State) (e : Nat) (ring : RingId) (owner : Owner) (inList : Bool) (host : HostData) (d : List Byte) :
    Opened :=
  let x : Ctx := { ring, codec := fieldAt d 0x21 1, stage := fieldAt d 0x30 8, stageLen := fieldAt d 0x38 4, ofList := inList }
  let staged := if inList then s.writable s.leadHalf { kind := 7, id := e, owner } Region.isHbm x.stage x.stageLen
    else (some (s.rangeAll Region.isHbm x.stage x.stageLen), s)
  let s := staged.2
  if staged.1 = none then .wait
  else if staged.1 = some false then .bad s
  else if ¬ (inList ∨ encRing ring) then .ok { x with refs := if x.codec = 1 then List.replicate 8 255 else [] } s
  else match s.codecRead e owner inList host (fieldAt d 0x28 8) 256 with
    | .wait _ => .wait
    | .fault f s => if inList ∧ lateRead f then .wait else .bad s
    | .ok param _ s =>
      let small := (s.codec e).pool.any fun b => decide (b.2 < fbSize (epWidth param) (epHeight param) (epDepth param))
      if ¬ paramOk x.codec param ∨ small then .bad s
      else
        let x := { x with param, b := rcOpen param }
        if epCoef param = 0 then .ok x s
        else match s.codecRead e owner inList host (epCoef param) 1088 with
          | .wait _ => .wait
          | .fault f s => if inList ∧ lateRead f then .wait else .bad s
          | .ok coef _ s => if coefOk coef then .ok { x with coef } s else .bad s

/-- OPEN (R384). -/
def execCodecOpen (ring : RingId) (s : State) : Out :=
  let r := ring.val
  let e := codecOf r
  match (s.ring r).posted with
  | [] => s.runCodec ring 2 fun _ s => s
  | p :: _ =>
    let i := cCtx p.bytes
    if ((s.codec e).ctx i).isSome then s.runCodec ring 2 fun p s => s.complete r p.bytes stAlready
    else match s.openCtx e ring (.desc r p.bytes) false { cells := [], status := .ok } p.bytes with
      | .wait => .next s
      | .bad s1 => s1.runCodec ring 2 fun p s => s.complete r p.bytes stMalformed
      | .ok x s1 => s1.runCodec ring 2 fun p s => (s.modCodec e fun c => c.setCtx i (some x)).complete r p.bytes stOk

/-- RELEASE (R383): OUT clears in each buffer of the mask that has it. -/
def execRelease (ring : RingId) (s : State) : Out :=
  let r := ring.val
  let e := codecOf r
  s.runCodec ring 6 fun p s =>
    let mask := fieldAt p.bytes 0x20 4
    let hit := (List.range 32).filter fun b => bitOf mask b && mkOut ((s.codec e).mark b)
    let s := s.modCodec e fun c => hit.foldl (fun c b => c.setMark b (c.mark b &&& ~~~(0x20#12))) c
    s.complete r p.bytes stOk 0 (hit.map fun b => 2 ^ b).sum

/-- CLOSE (R383). -/
def execCodecClose (ring : RingId) (s : State) : Out :=
  let r := ring.val
  let e := codecOf r
  s.runCodec ring 7 fun p s =>
    let i := cCtx p.bytes
    match (s.codec e).openOn i r with
    | none => s.complete r p.bytes stMalformed
    | some _ => (s.modCodec e fun c => c.close i).complete r p.bytes stOk

/-! ### Encoding (R385, R389, R391, R394) -/

/-- What came of a frame. -/
inductive Framed where
  | wait
  | noBuffer
  | busy
  | malformed (s : State)
  | failed (code size : Nat) (record : List Byte) (s : State)
  | refused (s : State)
  | ok (res0 : Nat) (ext : List Byte) (bytes : Nat) (s : State)

/-- Whether the pool or a ring's stage area lies in a fenced stack: the pipeline holds; the stage of a list is job memory, and
holds when it is written (R401). -/
def State.codecHeld (s : State) (e : Nat) (x : Ctx) (inList : Bool) : Bool :=
  (s.codec e).pool.any (fun b => s.stackHeld b.1) || (!inList && s.stackHeld x.stage)

/-- Read `n` rows of `len` bytes at a pitch from a frame buffer. -/
def bufferRows (rd : Reader) (pitch len : Nat) : Nat → Nat → State → List (List Byte) × Bool × State
  | 0, _, s => ([], false, s)
  | n + 1, a, s =>
    let r := s.readMem rd a len
    let q := bufferRows rd pitch len n (a + pitch) r.2.2
    (r.1 :: q.1, r.2.1 || q.2.1, q.2.2)

/-- Samples of rows: `pick` chooses Cb or Cr of an interleaved plane. -/
def rowSamples (depth w step pick : Nat) (rows : List (List Byte)) : List (Option Nat) :=
  let k := sampleBytes depth
  (rows.map fun r => (List.range w).map fun x => some (fieldAt r (k * (step * x + pick)) k % 2 ^ depth)).flatten

/-- Read a frame from its buffer, for prediction: the samples of its planes and its motion field, at the sizes of its header
(R378, R399). -/
def State.readFrame (s : State) (e : Nat) (owner : Owner) (b : Nat) : Config.RefFrame × Bool × State :=
  let a := (s.codec e).bufAddr b
  let rd : Reader := { kind := 7, id := e, owner }
  let head := s.peek a 5
  let w := fieldAt head 0 2
  let h := fieldAt head 2 2
  let depth := fieldAt head 4 1
  let pitch := fbPitch w depth
  let w2 := (w + 1) / 2
  let y := bufferRows rd pitch (w * sampleBytes depth) h (a + 0x1000) s
  let c := bufferRows rd pitch (2 * w2 * sampleBytes depth) ((h + 1) / 2) (a + fbChroma w h depth) y.2.2
  let m := c.2.2.readMem rd (a + fbMotion w h depth) (fbSize w h depth - fbMotion w h depth)
  ({ width := w, height := h, depth,
     planes := { y := rowSamples depth w 1 0 y.1, cb := rowSamples depth w2 2 0 c.1, cr := rowSamples depth w2 2 1 c.1, motion := m.1 } },
   y.2.1 || c.2.1 || m.2.1, m.2.2)

/-- Read the frames of reference slots; a slot that names no buffer gives `grey` (Table 13.6). -/
def readRefs (e : Nat) (owner : Owner) (grey : Config.RefFrame) : List Nat → State → List Config.RefFrame × Bool × State
  | [], s => ([], false, s)
  | b :: bs, s =>
    let r := if b < 32 then s.readFrame e owner b else (grey, false, s)
    let q := readRefs e owner grey bs r.2.2
    (r.1 :: q.1, r.2.1 || q.2.1, q.2.2)

/-- Write a frame buffer: header and planes. -/
def State.writeBuffer (s : State) (e b w h depth : Nat) (pois err grain : Bool) (order : Nat) (planes : Config.Planes) : State :=
  let a := (s.codec e).bufAddr b
  s.writeMem a (fbHeader w h depth pois err grain order ++ bufferPlanes w h depth planes)

/-- Send a bitstream to the host, in lines, under the job's PASID for an encode list (R270); the Boolean says that every line
passed. -/
def State.sendBits (s : State) (inList : Bool) (a : Nat) (bs : List Byte) : Bool × State :=
  let r := sendLines (if inList then s.jobPasid else none) ((chunksOf 64 (bs.length / 64 + 1) bs).zipIdx.map fun x => (Line.mk (a + 64 * x.2) x.1 true false)) 0 s
  r.2

/-- Whether the next frame is a key frame: the first, a forced one, or one GOP_LEN frames after the last. -/
def Ctx.nextKey (x : Ctx) (d : List Byte) : Bool :=
  x.frames == 0 || bitOf (fieldAt d 0x21 1) 0 || (epGop x.param != 0 && decide (epGop x.param ≤ x.sinceKey))

/-- The context after a frame. -/
def Ctx.after (x : Ctx) (key : Bool) (b : Nat) (rc : RcFrame) : Ctx :=
  let last : RcLast := { q := rc.q, a := rc.bits, t := rc.t }
  { x with frames := x.frames + 1, sinceKey := if key then 1 else x.sinceKey + 1, b := rc.b, paced := false,
           refs := (b :: x.refs).take (epNref x.param),
           lastKey := if key then some last else x.lastKey, lastInter := if key then x.lastInter else some last }

/-- ORDER of the next frame: AV1 its number within the stream, HEVC PicOrderCntVal, which starts at 0 with each IDR (R378). -/
def Ctx.order (x : Ctx) (key : Bool) : Nat := if x.codec = 1 then x.frames else if key then 0 else x.sinceKey

/-- The init_qp that the last key frame's PPS sent: a key frame's own QP. -/
def Ctx.initQp (x : Ctx) (key : Bool) (q : Int) : Int :=
  if key then q else match x.lastKey with
    | some l => l.q
    | none => q

/-- Body of the ERROR record of a frame that was not coded: its context stays as it was (R391, R395). -/
def Ctx.errorBody (x : Ctx) (e i code : Nat) (d : List Byte) : List Byte :=
  codecBody e i 3 (b2n (x.nextKey d)) x.frames 0 0 0 0 (4 * b2n (x.nextKey d)) x.b 0 code

/-- Code a frame whose source rows are read, into buffer `b` (R385 to R394). The stage area takes the bitstream, as far as it
fits, before it is copied to its place (R391). -/
def State.codeFrame (s : State) (e : Nat) (x : Ctx) (d : List Byte) (owner : Owner) (inList : Bool) (b : Nat)
    (rows rowsC : List (List Byte)) (bad : Bool) : Framed :=
  let p := x.param
  let i := cCtx d
  let key := x.nextKey d
  let refs := if key then [] else x.refs
  let rr := readRefs e owner (greyFrame (epWidth p) (epHeight p) (epDepth p)) refs s
  let s := rr.2.2
  let pic := codedPicture p x.coef d rows rowsC
  let n := ceilDiv (epHeight p) 64
  let head := fun (q : Int) (qps : List Int) => frameSyntax x.codec p key (x.order key) refs.length (x.initQp key q) q qps
  let rc := rcFrame p key (if key then x.lastKey else x.lastInter) x.b n fun q qps =>
    Config.rowBits Config.encVer p (head q qps) rr.1 pic
  let bits := Config.encodeFrame Config.encVer p (head rc.q rc.qps) rr.1 pic
  let recon := Config.reconFrame Config.encVer p (head rc.q rc.qps) rr.1 pic
  let marks := refs.map fun q => (s.codec e).mark q
  let pois := bad || rr.2.1 || marks.any mkPois
  let lo := rc.qps.foldl min rc.q
  let hi := rc.qps.foldl max rc.q
  let flags := b2n pois + 2 * b2n rc.ovf + 4 * b2n key
  let body := fun (ev : Nat) (b : Int) (code : Nat) => codecBody e i ev (b2n key) x.frames bits.length rc.q lo hi flags b rc.t code
  match (s.modCodec e fun c => c.claim b i).codecWrite e inList x.stage (bits.take x.stageLen) with
  | .wait => .wait
  | .bad => .failed 5 0 (body 3 x.b 5) s
  | .ok s1 =>
    if x.stageLen < bits.length ∨ eCap d < bits.length then
      .failed 6 bits.length (body 3 x.b 6) (s1.modCodec e fun _ => s.codec e)
    else
      let out := if eDstSpace d = 2 then
          (match s1.sendBits inList (eDst d) bits with
           | (true, s) => Framed.ok 0 [] 0 s
           | (false, s2) => .refused (s2.modCodec e fun _ => s.codec e))
        else match s1.codecWrite e inList (eDst d) bits with
          | .ok s => .ok 0 [] 0 s
          | .wait => .wait
          | .bad => if inList then .failed 5 0 (body 3 x.b 5) s else .malformed s
      match out with
      | .ok _ _ _ s =>
        let s := s.writeBuffer e b (epWidth p) (epHeight p) (epDepth p) pois false false (x.order key) recon
        let y := x.after key b rc
        let s := s.modCodec e fun c =>
          ((c.setMark b (mkWord 1 false pois false i true)).setCtx i (some y)).recount i y.refs
        let s := if rc.ovf then s.modCodec e fun c => { c with rcOver := satAdd c.rcOver 1 } else s
        let s := if inList ∧ epFstat p then s.postCodec e owner (body 1 rc.b 0) else s
        let s := if rc.ovf then s.postCodec e owner (body 2 rc.b 0) else s
        .ok (bits.length % 2 ^ 32 + flags * 2 ^ 32)
          (toLe x.frames 4 ++ toLe (wrapTo 8 rc.q) 1 ++ toLe (wrapTo 8 lo) 1 ++ toLe (wrapTo 8 hi) 1 ++ [0] ++
            toLe (wrapTo 64 rc.b) 8) bits.length s
      | r => r

/-- Encode a frame of a context (R385). -/
def State.encodeFrame (s : State) (e : Nat) (x : Ctx) (d : List Byte) (host : HostData) (owner : Owner) (inList : Bool) :
    Framed :=
  let p := x.param
  let hasCoef := epCoef p != 0
  let w' := if swaps (eXform d) then epHeight p else epWidth p
  let h' := if swaps (eXform d) then epWidth p else epHeight p
  if (epPace p ≠ 0 ∧ 0 < x.frames ∧ ¬ x.paced) ∨ s.codecHeld e x inList then .wait
  else if ¬ axisScales (eCropW d) w' hasCoef ∨ ¬ axisScales (eCropH d) h' hasCoef then .malformed s
  else match (s.codec e).freeBuffer (fbSize (epWidth p) (epHeight p) (epDepth p)) with
    | none => if (s.codec e).mayFree then .noBuffer else .busy
    | some b =>
      let k := pixBytes (eFmt d)
      let a := eSrc d + eCropY d * ePitch d + eCropX d * k
      let err := x.errorBody e (cCtx d) 5 d
      let bad := fun (s : State) => if inList then Framed.failed 5 0 err s else Framed.malformed s
      match readRows e owner inList host (ePitch d) (eCropW d * k) (eCropH d) a s with
      | .wait _ => .wait
      | .fault f s => if lateRead f then .failed 5 0 err s else bad s
      | .ok rows b1 s =>
        if 2 < eFmt d then s.codeFrame e x d owner inList b rows [] b1
        else
          let ac := eSrcC d + eCropY d / 2 * ePitch d + eCropX d * k
          match readRows e owner inList host (ePitch d) (eCropW d * k) (eCropH d / 2) ac s with
          | .wait _ => .wait
          | .fault f s => if lateRead f then .failed 5 0 err s else bad s
          | .ok rowsC b2 s => s.codeFrame e x d owner inList b rows rowsC (b1 || b2)

/-- A pipeline holds for a buffer: the hold is counted once (R382). -/
def State.holdPool (s : State) (e : Nat) (enc : Bool) : State :=
  s.modCodec e fun c =>
    let n := if (if enc then c.encHeld else c.decHeld) then 0 else 1
    if enc then { c with encHeld := true, poolWait := satAdd c.poolWait n }
    else { c with decHeld := true, poolWait := satAdd c.poolWait n }

/-- A pipeline no longer holds. -/
def State.freePool (s : State) (e : Nat) (enc : Bool) : State :=
  s.modCodec e fun c => if enc then { c with encHeld := false } else { c with decHeld := false }

/-- Run the ENC_FRAME at the head of a ring. -/
def State.runEncFrame (s : State) (ring : RingId) (host : HostData) : Out :=
  let r := ring.val
  let e := codecOf r
  match (s.ring r).posted with
  | [] => s.runCodec ring 3 fun _ s => s
  | p :: _ =>
    let d := p.bytes
    let owner := Owner.desc r d
    match (s.codec e).openOn (cCtx d) r with
    | none => s.runCodec ring 3 fun p s => s.complete r p.bytes stMalformed
    | some x =>
      if (s.takeCodec r 3).isNone then s.runCodec ring 3 fun _ s => s
      else match s.encodeFrame e x d host owner false with
        | .wait => .next s
        | .noBuffer => .next (s.holdPool e true)
        | .busy => (s.freePool e true).runCodec ring 3 fun p s => s.complete r p.bytes stBusy
        | .malformed s1 => (s1.freePool e true).runCodec ring 3 fun p s => s.complete r p.bytes stMalformed
        | .failed code size record s1 =>
          (s1.freePool e true).runCodec ring 3 fun p s =>
            (s.postCodec e owner record).complete r p.bytes stFailed 0 (if code = 6 then size else code * 2 ^ 16)
        | .refused s1 => (s1.freePool e true).runCodec ring 3 fun p s => s.holdDescriptor r p
        | .ok res0 ext _ s1 => (s1.freePool e true).runCodec ring 3 fun p s => s.complete r p.bytes stOk 0 res0 ext

/-- ENC_FRAME (R385). A frame that waits for a buffer starts with POOL_WAIT. -/
def execEncFrame (ring : RingId) (host : HostData) (s : State) : Out :=
  if (s.codec (codecOf ring)).encHeld then .next s else s.runEncFrame ring host

/-- FRAME_PACING (R396). -/
def execFramePacing (c : CodecId) (ctx : Fin 4) (s : State) : Out :=
  if ¬ s.variant.hasCodec c then .next s
  else if ¬ s.regionUp 3 then .next s
  else .next (s.modCodec c fun k => k.setCtx ctx ((k.ctx ctx).map fun x => { x with paced := true }))

/-! ### Decoding (R392 to R394) -/

/-- What decoding one picture changes; `missing` says that a slot named no buffer. -/
structure DecState where
  s : State
  x : Ctx
  buf : Nat
  grain : Nat
  outs : List (Nat × Word)
  missing : Bool := false
  deriving DecidableEq, Repr

/-- What came of a picture: held or busy for want of a buffer, too large, or decoded. -/
inductive DecRes where
  | noBuffer
  | error (code : Nat)
  | ok (d : DecState)

/-- A picture lies within Table 13.1: profile, level and tier, 4:2:0 or AV1's monochrome, depth, size, no large-scale tiles. -/
def picOk (codec : Nat) (p : Config.PicHead) : Bool :=
  (if codec = 1 then p.profile == 0 && decide (p.chroma ≤ 1) else decide (1 ≤ p.profile) && decide (p.profile ≤ 3) && p.chroma == 1) &&
  (levelTiles codec p.level).isSome && decide (p.tier ≤ 1) && !p.largeTiles &&
  decide (16 ≤ p.width) && decide (p.width ≤ 8192) && decide (16 ≤ p.height) && decide (p.height ≤ 8192) &&
  decide (p.width * p.height ≤ 35651584) && (p.depth == 8 || p.depth == 10)

/-- OUT is set in a buffer. -/
def Codec.setOut (c : Codec) (b : Nat) : Codec := if b < 32 then c.setMark b (c.mark b ||| 0x20#12) else c

/-- A name in a list of PicHead: the picture itself, or an entry of a list. -/
def decName (b : Nat) (old : List Nat) (k : Nat) : Nat := if k = 255 then b else old.getD k 255

/-- ORDER in a buffer's header. -/
def State.bufOrder (s : State) (e b : Nat) : Word :=
  if b < 32 then BitVec.ofNat 32 (leNat (s.peek ((s.codec e).bufAddr b + 0xC) 4)) else 0

/-- The reference slots after a picture that is in buffer `b`: AV1 follows refresh_frame_flags, HEVC the reference picture sets
(R381). -/
def Ctx.slotsAfter (x : Ctx) (p : Config.PicHead) (b : Nat) : List Nat :=
  if x.codec = 1 then x.refs.zipIdx.map fun r => if bitOf p.refresh r.2 then b else r.1
  else p.keep.map (decName b x.refs)

/-- What is output after a picture that is in buffer `b`, its grain picture in `g` where one is written: AV1 a shown frame, in its
grain picture's buffer where there is one; HEVC by its output process (R375, R381). -/
def Ctx.outsAfter (x : Ctx) (p : Config.PicHead) (b : Nat) (g : Option Nat) : List Nat :=
  if x.codec = 1 then (if p.shown then [g.getD b] else []) else p.outs.map (decName b x.waiting)

/-- Settle a picture that is in buffer `b`: references, marks, outputs. -/
def DecState.settle (z : DecState) (e i : Nat) (p : Config.PicHead) (b : Nat) (g : Option Nat) (buf : Nat) : DecRes :=
  let refs := z.x.slotsAfter p b
  let waiting := if z.x.codec = 1 then [] else p.wait.map (decName b z.x.waiting)
  let outs := (z.x.outsAfter p b g).filter (· < 32)
  let s := z.s.modCodec e fun c => ((waiting ++ outs).foldl Codec.setOut c).recount i refs
  .ok { z with s, x := { z.x with refs, waiting }, buf, grain := g.getD 255,
               outs := z.outs ++ outs.map fun o => (o, s.bufOrder e o) }

/-- Write the grain picture of a shown AV1 frame with apply_grain into a second buffer, unless NO_GRAIN is set, and settle the
picture (R375). -/
def DecState.finish (z : DecState) (e i k : Nat) (owner : Owner) (unit : List Byte) (noGrain : Bool) (p : Config.PicHead) (b buf : Nat) :
    DecRes :=
  if noGrain ∨ z.x.codec ≠ 1 ∨ ¬ p.shown ∨ ¬ p.grain ∨ 32 ≤ b then z.settle e i p b none buf
  else
    let f := z.s.readFrame e owner b
    let w := f.1.width
    let h := f.1.height
    let depth := f.1.depth
    match (f.2.2.codec e).freeBuffer (fbSize w h depth) with
    | none => .noBuffer
    | some g =>
      let m := (f.2.2.codec e).mark b
      let pois := mkPois m || f.2.1
      let s := (f.2.2.modCodec e fun c => c.claim g i).writeBuffer e g w h depth pois (mkErr m) true (f.2.2.bufOrder e b).toNat
        (Config.grainPlanes z.x.units unit k f.1)
      DecState.settle { z with s := s.modCodec e fun c => c.setMark g (mkWord 0 true pois (mkErr m) i true) } e i p b (some g) buf

/-- Place a decoded picture in buffer `b`. An inter picture predicts from the buffers of its slots and takes their ERR and POISON;
a slot without a buffer reads 2^(D−1) and sets ERR, as broken data do (R393). -/
def DecState.place (z : DecState) (e i k : Nat) (owner : Owner) (unit : List Byte) (unitBad noGrain : Bool) (p : Config.PicHead) (b : Nat) :
    DecRes :=
  let from' := if p.intra then [] else p.uses.map fun k => z.x.refs.getD k 255
  let c := z.s.codec e
  let rr := readRefs e owner (greyFrame p.width p.height p.depth) from' (z.s.modCodec e fun c => c.claim b i)
  let missing := from'.any (32 ≤ ·)
  let err := p.broken || missing || (from'.filter (· < 32)).any fun q => mkErr (c.mark q)
  let pois := unitBad || rr.2.1 || (from'.filter (· < 32)).any fun q => mkPois (c.mark q)
  let s := rr.2.2.writeBuffer e b p.width p.height p.depth pois err false p.order.toNat
    (Config.decodePlanes z.x.codec z.x.units unit k rr.1)
  let s := s.modCodec e fun c => c.setMark b (mkWord 1 false pois err i true)
  DecState.finish { z with s, missing := z.missing || missing } e i k owner unit noGrain p b b

/-- Decode picture `k` of a unit; one that is not coded shows the frame of a slot (AV1), or only moves pictures on (HEVC). -/
def DecState.picture (z : DecState) (e i k : Nat) (owner : Owner) (unit : List Byte) (unitBad noGrain : Bool) (p : Config.PicHead) :
    DecRes :=
  if ¬ p.coded then
    let b := if z.x.codec = 1 then z.x.refs.getD p.existing 255 else 255
    if z.x.codec = 1 ∧ 32 ≤ b then .ok { z with missing := true }
    else z.finish e i k owner unit noGrain p b z.buf
  else if ¬ picOk z.x.codec p then .error 2
  else
    let size := fbSize p.width p.height p.depth
    if ¬ (z.s.codec e).pool.any (fun b => decide (size ≤ b.2)) then .error 3
    else match (z.s.codec e).freeBuffer size with
      | none => .noBuffer
      | some b => z.place e i k owner unit unitBad noGrain p b

/-- Decode the pictures of a unit in order, from number `k` on. -/
def decodePics (e i : Nat) (owner : Owner) (unit : List Byte) (unitBad noGrain : Bool) : Nat → List Config.PicHead → DecState → DecRes
  | _, [], z => .ok z
  | k, p :: ps, z =>
    match z.picture e i k owner unit unitBad noGrain p with
    | .ok z => decodePics e i owner unit unitBad noGrain (k + 1) ps z
    | r => r

/-- RES0 and RES_EXT of DEC_UNIT and FLUSH (R394). -/
def State.decResult (s : State) (e buf grain : Nat) (outs : List (Nat × Word)) (code : Nat) : Nat × List Byte :=
  let outs := outs.take 16
  (buf % 256 + outs.length * 2 ^ 8 + code * 2 ^ 16 + (grain % 256) * 2 ^ 32,
   (outs.map fun o =>
     let m := (s.codec e).mark o.1
     toLe (o.1 % 256 + b2n (mkPois m) * 2 ^ 8 + b2n (mkErr m) * 2 ^ 9 + (o.2.toNat % 2 ^ 16) * 2 ^ 16) 4).flatten)

/-- What came of a unit. -/
inductive Decoding where
  | wait
  | noBuffer
  | malformed (s : State)
  | done (status res0 code : Nat) (ext : List Byte) (s : State)

/-- Decode the unit of a descriptor (R392, R393). An error that writes nothing leaves the context unchanged. The unit passes
through the stage area, as far as it fits (R384; log entry 57). -/
def State.decodeUnit (s : State) (e : Nat) (x : Ctx) (d : List Byte) (host : HostData) (owner : Owner) : Decoding :=
  let i := cCtx d
  let a := fieldAt d 0x28 8
  let len := fieldAt d 0x24 4
  let fail := fun (s : State) (code : Nat) =>
    let r := s.decResult e 255 255 [] code
    Decoding.done stFailed r.1 code r.2 s
  let go := fun (unit : List Byte) (bad : Bool) (s : State) =>
    let u := Config.parseUnit x.codec x.units unit
    let s1 := s.writeMem x.stage (unit.take x.stageLen)
    if u.2.any fun p => p.coded && !picOk x.codec p then fail s 2
    else match decodePics e i owner unit bad (bitOf (fieldAt d 0x22 1) 0) 0 u.2 { s := s1, x, buf := 255, grain := 255, outs := [] } with
      | .noBuffer => .noBuffer
      | .error code => fail s code
      | .ok z =>
        let y := { z.x with units := x.units ++ [unit], frames := x.frames + 1 }
        let s := z.s.modCodec e fun c => c.setCtx i (some y)
        let code := if u.1 || u.2.any (·.broken) then 1 else if z.missing then 4 else 0
        let r := s.decResult e z.buf z.grain z.outs code
        .done (if code = 0 then stOk else stFailed) r.1 code r.2 s
  if s.codecHeld e x false then .wait
  else if fieldAt d 0x21 1 = 1 then
    match s.codecRead e owner false host a len with
    | .wait _ => .wait
    | .fault _ s => .malformed s
    | .ok unit bad s => go unit bad s
  else if ¬ s.hif.linkUp ∨ host.status ≠ .ok then fail s 5
  else go (hostBytes host a len) false s

/-- Run the DEC_UNIT at the head of a ring. -/
def State.runDecUnit (s : State) (ring : RingId) (host : HostData) : Out :=
  let r := ring.val
  let e := codecOf r
  match (s.ring r).posted with
  | [] => s.runCodec ring 4 fun _ s => s
  | p :: _ =>
    let d := p.bytes
    let owner := Owner.desc r d
    match (s.codec e).openOn (cCtx d) r with
    | none => s.runCodec ring 4 fun p s => s.complete r p.bytes stMalformed
    | some x =>
      if (s.takeCodec r 4).isNone then s.runCodec ring 4 fun _ s => s
      else match s.decodeUnit e x d host owner with
        | .wait => .next s
        | .noBuffer =>
          if (s.codec e).mayFree then .next (s.holdPool e false)
          else (s.freePool e false).runCodec ring 4 fun p s => s.complete r p.bytes stBusy
        | .malformed s1 => (s1.freePool e false).runCodec ring 4 fun p s => s.complete r p.bytes stMalformed
        | .done status res0 code ext s1 =>
          (s1.freePool e false).runCodec ring 4 fun p s =>
            (if code = 0 then s else s.postCodec e owner (codecBody e (cCtx d) 3 0 x.frames 0 0 0 0 0 0 0 code)).complete
              r p.bytes status 0 res0 ext

/-- DEC_UNIT (R392). -/
def execDecUnit (ring : RingId) (host : HostData) (s : State) : Out :=
  if (s.codec (codecOf ring)).decHeld then .next s else s.runDecUnit ring host

/-- FLUSH (R383, R394): every picture that awaits output is output, in output order. -/
def execFlush (ring : RingId) (s : State) : Out :=
  let r := ring.val
  let e := codecOf r
  s.runCodec ring 5 fun p s =>
    let i := cCtx p.bytes
    match (s.codec e).openOn i r with
    | none => s.complete r p.bytes stMalformed
    | some x =>
      let outs := x.waiting.map fun b => (b, s.bufOrder e b)
      let s := s.modCodec e fun c => (x.waiting.foldl Codec.setOut c).setCtx i (some { x with waiting := [] })
      let q := s.decResult e 255 255 outs 0
      s.complete r p.bytes stOk 0 q.1 q.2

/-! ### Encode lists (R397, R398, R401) -/

/-- Whether a reset's pre-emption ends the list after its frame; PREEMPT waits for the list's end. -/
def endsList : PreBy → Bool
  | .flr | .d3 | .hostReset | .moduleReset => true
  | .command | .alert | .fence => false

/-- The list of an engine ends: its context closes. -/
def State.endList (s : State) (e : Nat) : State :=
  let ctx := match (s.codec e).list with
    | some l => match l.descs with
      | d :: _ => if l.next = 0 then none else some (cCtx d)
      | [] => none
    | none => none
  let s := s.modCodec e fun c => { c with list := none, encHeld := false }
  match ctx with
  | some i => s.modCodec e fun c => c.close i
  | none => s

/-- The job of a list ends with a status. -/
def State.endEncoding (s : State) (status : Nat) (ext : List Byte) : State :=
  s.modJob fun j => { j with ending := some (j.ending.getD { status := BitVec.ofNat 16 status, resExt := ext }) }

/-- A descriptor of the list failed: the list ends, and the job FAILED with its index and error code. -/
def State.failList (s : State) (e idx code : Nat) : State := (s.endList e).endEncoding stFailed (toLe idx 4 ++ toLe code 2)

/-- The list's position moves on. -/
def State.passList (s : State) (e frames bytes : Nat) : State :=
  s.modCodec e fun c => { c with list := c.list.map fun l =>
    { l with next := l.next + 1, frames := l.frames + frames, bytes := l.bytes + bytes } }

/-- Run the next descriptor of a list. An OPEN whose context the decode ring has opened meanwhile ends it BUSY (R398). -/
def State.listStep (s : State) (e : Nat) (l : EncRun) (host : HostData) (jobDesc : List Byte) : State :=
  let owner := Owner.desc 0 jobDesc
  match l.descs[l.next]? with
  | none => s.endList e
  | some d =>
    let i := cCtx d
    match dOpc d with
    | 2 =>
      if ((s.codec e).ctx i).isSome then (s.endList e).endEncoding stBusy []
      else (match s.openCtx e (Fin.ofNat 66 (18 + 2 * e)) owner true host d with
       | .wait => s
       | .bad s => s.failList e l.next 0
       | .ok x s => (s.modCodec e fun c => c.setCtx i (some x)).passList e 0 0)
    | 3 =>
      (match (s.codec e).ctx i with
       | none => s.failList e l.next 0
       | some x =>
         match s.encodeFrame e x d host owner true with
         | .wait => s
         | .noBuffer => s.holdPool e true
         | .busy => s.failList e l.next 0
         | .malformed s => s.failList e l.next 0
         | .failed code _ record s => (s.postCodec e owner record).failList e l.next code
         | .refused s => s.failList e l.next 0
         | .ok _ _ bytes s => (s.freePool e true).passList e 1 bytes)
    | _ =>
      let good := match s.job.cur with
        | some j => j.goodEnd.status.toNat
        | none => stOk
      (s.endList e).endEncoding good (toLe l.frames 4 ++ zeros 4 ++ toLe l.bytes 8)

/-- The engine that runs the job's list. -/
def State.listEngine (s : State) : Option Nat := (List.range 2).find? fun e => (s.codec e).list.isSome

/-- Start the job's list at the encode pipeline's next descriptor boundary, so not while a frame of its ring holds for a buffer;
or end the job where its engine is fenced or its context open (R398). -/
def State.startList (s : State) (host : HostData) : State :=
  match s.readEncList host with
  | .wait => s
  | .bad s => s.endEncoding stMalformed []
  | .ok e ds s =>
    if s.isFenced (srcCodec e) then s.endEncoding stFailed []
    else if (s.codec e).encHeld then s
    else if ((s.codec e).ctx (cCtx (ds.headD []))).isSome then s.endEncoding stBusy []
    else s.modCodec e fun c => { c with list := some { descs := ds } }

/-- ENCODE_LIST (R398): the list starts, its next descriptor runs, or it ends early. -/
def execEncodeList (host : HostData) (s : State) : Out :=
  match s.job.cur with
  | none => .next s
  | some j =>
    if j.phase ≠ .encoding ∨ ¬ s.mgrUp then .next s
    else
      let early := j.ending.isSome || (match j.preempt with | some b => endsList b | none => false)
      match s.listEngine with
      | some e =>
        if early then .next (s.endList e)
        else if ¬ s.codecUp e ∨ (s.codec e).encHeld then .next s
        else (match (s.codec e).list with
          | some l => .next (s.listStep e l host j.posted.bytes)
          | none => .next s)
      | none => if early ∨ s.jobStopping then .next s else s.ifLead fun s => .next (s.startList host)

/-- POOL_WAIT (R382): a pipeline that holds for a buffer tries again. -/
def execPoolWait (c : CodecId) (enc : Bool) (host : HostData) (s : State) : Out :=
  let k := s.codec c
  if ¬ s.variant.hasCodec c then .next s
  else if enc then
    if ¬ k.encHeld then .next s
    else match k.list, s.job.cur with
      | some l, some j => if s.codecUp c then .next (s.listStep c l host j.posted.bytes) else .next s
      | _, _ => s.runEncFrame (Fin.ofNat 66 (18 + 2 * c.val)) host
  else if ¬ k.decHeld then .next s
  else s.runDecUnit (Fin.ofNat 66 (19 + 2 * c.val)) host

/-- The effect of an FLR of PF0 on a codec engine: contexts close, marks clear, the pool table stays (R401). -/
def Codec.afterFlr (c : Codec) : Codec :=
  { c with ctxs := List.replicate 4 none, marks := List.replicate 32 0, list := none, encHeld := false, decHeld := false }

end Sys2Proof.Machine
end

