-- ==== Sys2Proof/Machine/Power.lean ====
section
/-! DEFINITION. Power, thermal limits and supply loss; pace monitors, the reference clock and the progress watchdog (14
R402 to R419; 02 R37, R38, R58, R59). -/

namespace Sys2Proof.Machine

/-! ### Ceilings and rails -/

/-- The highest power ceiling of a variant, in watts (Table 18.8). -/
def Variant.maxCeil : Variant → Nat
  | .v16H4 => 2000
  | .v12H4 => 1848
  | .v16H2 => 1910

/-- The effective ceiling (R406). -/
def State.effCeil (s : State) : Nat := if s.pwr.throttle then min s.pwr.ceil s.pwr.throttleCeil else s.pwr.ceil

/-- Voltage of a core rail in millivolts: the lower of PWR_VSET and the cap (R404). -/
def State.railMv (s : State) (r : Nat) : Nat := min (500 + 5 * s.pwr.vset.getD r 24) (s.pwr.vcap.getD r 750)

/-- Whether the variant has a temperature sensor (R2, R412). -/
def Variant.hasSensor (v : Variant) (u : Nat) : Bool :=
  decide (u < 8) || (decide (u < 12) && decide (u - 8 < v.ioDies)) || (decide (16 ≤ u) && v.hasStack (u - 16))

/-- EVENT codes of the POWER record (R418). -/
def pwCeiling : Nat := 1
def pwThrottleOn : Nat := 2
def pwThrottleOff : Nat := 3
def pwLimitEnter : Nat := 4
def pwLimitExit : Nat := 5
def pwThermalHold : Nat := 6
def pwThermalRelease : Nat := 7
def pwUvHold : Nat := 8
def pwUvRelease : Nat := 9
def pwBankLow : Nat := 10
def pwBankReady : Nat := 11
def pwSupplySaved : Nat := 12

/-- POWER body up to COUNT; each event has its own record, so COUNT is 1 (R418). -/
def powerBody (event unit ceil temp vcap : Nat) : List Byte :=
  toLe event 1 ++ toLe unit 1 ++ zeros 2 ++ toLe ceil 2 ++ toLe temp 2 ++ toLe vcap 2 ++ zeros 2 ++ toLe 1 4

/-- Post a POWER record. -/
def State.postPower (s : State) (event unit : Nat) (temp vcap : Nat := 0) (owner : Owner := .none) : State :=
  s.post { kind := kPower, src := srcMgr, owner, body := powerBody event unit s.effCeil temp vcap }

/-- Record only while the module manager serves. -/
def State.notePower (s : State) (event unit : Nat) (temp vcap : Nat := 0) : State :=
  if s.mgrUp then s.postPower event unit temp vcap else s

/-! ### Undervoltage (R405) -/

/-- UV_HOLD. -/
def execUvHold (r : RailId) (s : State) : Out :=
  if ¬ s.ioUp ∨ s.pwr.uvHold.getD r false then .next s
  else
    let uvHold := s.pwr.uvHold.set r true
    .next (State.notePower { s with pwr := { s.pwr with uvHold, uvCnt := satAdd s.pwr.uvCnt 1 } } pwUvHold r 0 (s.railMv r))

/-- UV_RELEASE. -/
def execUvRelease (r : RailId) (s : State) : Out :=
  if ¬ s.ioUp ∨ ¬ s.pwr.uvHold.getD r false then .next s
  else
    let uvHold := s.pwr.uvHold.set r false
    .next (State.notePower { s with pwr := { s.pwr with uvHold } } pwUvRelease r 0 (s.railMv r))

/-- RAIL_LOST (R405, R421): the region is halted, and the loss is reported as module-fatal. -/
def execRailLost (r : RailId) (s : State) : Out :=
  if ¬ s.ioUp then .next s
  else
    let uvHold := s.pwr.uvHold.set r true
    .next (State.arrive { s with pwr := { s.pwr with uvHold } } (plainError 4 eRailLost 0 r))

/-! ### The limiter and THROTTLE_N (R407, R408) -/

/-- The cap of both halves' rails. -/
def Pwr.withCap (p : Pwr) (cap : Nat → Nat) : Pwr := { p with vcap := [cap 0, cap 1, p.vcap.getD 2 750] }

/-- LIMIT_ENTER: input power exceeds the ceiling, and the caps of the halves' rails have come down to `cut.cap` millivolts,
0.50 V at the lowest; while the power still exceeds it with both caps there, every gate freezes. A freeze holds the caps: they
rise only after its release. -/
def execLimitEnter (cut : PowerCut) (s : State) : Out :=
  if ¬ s.ioUp then .next s
  else
    let mv := s.railMv 0
    let c := max 500 cut.cap.toNat
    let pwr := if s.pwr.freeze then s.pwr else s.pwr.withCap fun r => min (500 + 5 * s.pwr.vset.getD r 24) c
    let low := decide (pwr.vcap.getD 0 750 = 500) && decide (pwr.vcap.getD 1 750 = 500)
    let s' := { s with pwr := { pwr with limit := true, freeze := s.pwr.freeze || (cut.freeze && low) } }
    .next (if s.pwr.limit then s' else s'.notePower pwLimitEnter 0 0 mv)

/-- LIMIT_EXIT: input power has fallen below 0.97 of the ceiling. A freeze is released first, with the caps still down; the
next LIMIT_EXIT finds the caps at PWR_VSET again (log entry 59). -/
def execLimitExit (s : State) : Out :=
  if ¬ s.ioUp ∨ ¬ s.pwr.limit then .next s
  else if s.pwr.freeze then .next { s with pwr := { s.pwr with freeze := false } }
  else
    let s := { s with pwr := { s.pwr.withCap (fun _ => 750) with limit := false } }
    .next (s.notePower pwLimitExit 0 0 (s.railMv 0))

/-! ### Thermal limits (R412) -/

/-- A signed temperature in sixteenths of a degree. -/
def tempOf (t : BitVec 16) : Int := t.toInt

/-- Thresholds of Table 14.2 in sixteenths of a degree: hold, release, trip. -/
def holdAt (u : Nat) : Int := if u < 16 then 1680 else 1520
def releaseAt (u : Nat) : Int := if u < 16 then 1616 else 1440
def tripAt (u : Nat) : Int := if u < 16 then 1840 else 1680

/-- A sensor reads a temperature. -/
def State.setTemp (s : State) (u : Nat) (t : BitVec 16) : State :=
  { s with pwr := { s.pwr with temp := s.pwr.temp.set u t } }

/-- The hold of a sensor; while an I/O die is held, the I/O core rail is capped at 0.50 V. -/
def State.setHold (s : State) (u : Nat) (on : Bool) : State :=
  let thermalHold := s.pwr.thermalHold.set u on
  let ioHeld := (List.range 4).any fun n => thermalHold.getD (8 + n) false
  let vcap := s.pwr.vcap.set 2 (if ioHeld then 500 else 750)
  { s with pwr := { s.pwr with thermalHold, vcap } }

/-- The rail voltage that a thermal record names: that of the I/O rail for an I/O die. -/
def State.holdMv (s : State) (u : Nat) : Nat := if 8 ≤ u ∧ u < 12 then s.railMv 2 else 0

/-- THERMAL_HOLD. -/
def execThermalHold (u : SensorId) (temp : BitVec 16) (s : State) : Out :=
  if ¬ s.variant.hasSensor u then .next s
  else if ¬ s.ioUp ∨ s.pwr.thermalHold.getD u false ∨ tempOf temp < holdAt u then .next s
  else
    let s := (s.setTemp u temp).setHold u true
    .next (s.notePower pwThermalHold u temp.toNat (s.holdMv u))

/-- THERMAL_RELEASE. -/
def execThermalRelease (u : SensorId) (temp : BitVec 16) (s : State) : Out :=
  if ¬ s.variant.hasSensor u then .next s
  else if ¬ s.ioUp ∨ ¬ s.pwr.thermalHold.getD u false ∨ releaseAt u < tempOf temp then .next s
  else
    let s := (s.setTemp u temp).setHold u false
    .next (s.notePower pwThermalRelease u temp.toNat (s.holdMv u))

/-- THERMAL_TRIP: the core rails are removed, and the trip is module-fatal (R423). -/
def execThermalTrip (u : SensorId) (temp : BitVec 16) (s : State) : Out :=
  if ¬ s.variant.hasSensor u then .next s
  else if ¬ s.ioUp ∨ 16 ≤ u.val ∨ tempOf temp < tripAt u then .next s
  else
    let s := s.setTemp u temp
    .next (State.arrive { s with pwr := { s.pwr with tripped := true } } (plainError 4 eThermalTrip 0 u))

/-- DRAM_TRIP: the stack is reported at fence-unit. -/
def execDramTrip (st : StackId) (temp : BitVec 16) (s : State) : Out :=
  if ¬ s.variant.hasStack st then .next s
  else if ¬ s.ioUp ∨ tempOf temp < tripAt (16 + st) then .next s
  else .next ((s.setTemp (16 + st) temp).arrive (plainError 3 eDramTrip (srcPraline st) st))

/-! ### Pace monitors, the reference clock, energy credits (R37, R38, R411) -/

/-- PACE_WINDOW (R37, R440, R438): the count of a monitor; a window of I/O die 0 also advances AGE, the windows without
a holder, and those of a hand-over at its boundary. -/
def execPaceWindow (u : Fin 12) (count : BitVec 16) (s : State) : Out :=
  if 8 ≤ u.val ∧ s.variant.ioDies ≤ u.val - 8 then .next s
  else if ¬ s.ioUp ∨ ¬ s.pwr.refclk then .next s
  else
    let pace := s.pwr.pace.set u (false, count)
    let s := { s with pwr := { s.pwr with pace } }
    if u.val ≠ 8 then .next s
    else
      let l := s.rel.lease
      let lease := if l.holder = 3 then { l with vacant := l.vacant + 1 } else { l with age := l.age + 1 }
      let handover := if s.atBoundary then s.rel.handover.map fun (h : Handover) => ({ h with windows := h.windows + 1 } : Handover)
        else s.rel.handover
      .next { s with rel := { s.rel with lease, handover } }

/-- The reference clock stops: the link goes down (R515, Table 10.14) and the monitors go stale (R38). -/
def execRefclkLoss (s : State) : Out :=
  if ¬ s.pwr.refclk then .next s
  else
    let pace := s.pwr.pace.map fun (p : Bool × BitVec 16) => (true, p.2)
    execLinkDown { s with pwr := { s.pwr with refclk := false, pace } }

/-- REFCLK_RETURN (R59): windows, refills, AGE and the watchdog count again; STALE clears with the next window. -/
def execRefclkReturn (s : State) : Out := .next { s with pwr := { s.pwr with refclk := true } }

/-- Sixteenths of a degree between a course's temperature and PWR_THOT, clamped to PWR_TSOFT's: the numerator of h. -/
def heatRoom (p : Pwr) (c : Nat) : Nat :=
  (clampInt 0 (16 * (p.thot - p.tsoft : Nat)) (16 * p.thot - tempOf (p.temp.getD c 0))).toNat

/-- Whether a course has work that draws credits: a live range, or a sort issued. -/
def Course.wants (c : Course) : Bool := !c.ranges.isEmpty || c.sort.isSome

/-- The energy to issue in a window, in units of 10^-5 uJ. -/
def State.refillEnergy (s : State) (t : Telemetry) : Nat :=
  (970 * s.effCeil + t.railMw - t.inputMw) * 1024

/-- The bucket and mask of a course after a refill; `up` rounds its share up (log entry 8). -/
def refillCourse (p : Pwr) (e total c : Nat) (up : Bool) (k : Course) : Course :=
  let w := if k.wants then heatRoom p c else 0
  let share := if total = 0 then 0
    else e * w / (100000 * total) + b2n (up && e * w % (100000 * total) != 0)
  let bucket := if w = 0 then k.bucket else BitVec.ofNat 24 (min (k.bucket.toNat + share) p.creditCap.toNat)
  let hot := decide (16 * (p.thot : Int) ≤ tempOf (p.temp.getD c 0))
  { k with bucket, mask := if hot then BitVec.ofNat 8 (2 ^ (p.hotClass + 1) - 1) else 0xFF }

/-- The rail voltages that the governor sets: 0.62 V while the effective ceiling is 2,000 W; under a lower ceiling those that
the firmware gives, which lower the rails only (R404, R411). -/
def State.governed (s : State) (vset : List (BitVec 8)) : List Nat :=
  if s.effCeil = 2000 then [24, 24, 24] else (List.range 3).map fun r => min (vset.getD r 24).toNat 24

/-- CREDIT_REFILL (R411): the governor's step of a window. -/
def execCreditRefill (t : Telemetry) (s : State) : Out :=
  if ¬ s.mgrUp ∨ ¬ s.pwr.refclk then .next s
  else
    let pwr := { s.pwr with temp := t.temps, vset := s.governed t.vset }
    let s := { s with pwr }
    let ws := s.courses.zipIdx.map fun (x : Course × Nat) => if x.1.wants then heatRoom pwr x.2 else 0
    let e := s.refillEnergy t
    let courses := s.courses.zipIdx.map fun (x : Course × Nat) =>
      refillCourse pwr e ws.sum x.2 (Config.freeBit (s.free + x.2)) x.1
    .next { s with courses, free := s.free + 8 }

/-! ### The progress watchdog (R58) -/

/-- The stall cause whose sum rose most, the lower code on a tie, with its rise (R236). Where no sum rose the spec names no
cause: code 0 with rise 0 (DESIGN CHOICE, log entry 91). -/
def topRise (now base : List Nat) : Nat × Nat :=
  (List.range 32).foldl (fun b k =>
    let d := now.getD k 0 - base.getD k 0
    if b.2 < d then (k, d) else b) (0, 0)

/-- Post `k` PROGRESS events, each at the end of its interval. -/
def progressEvents : Nat → State → State
  | 0, s => s
  | k + 1, s =>
    let r := topRise s.stallSums s.mgt.wdogBase
    progressEvents k (s.post { kind := kProgress, src := srcMgr, owner := .job,
                               body := toLe r.1 1 ++ zeros 3 ++ toLe s.jobId 4 ++ toLe r.2 8 }).restartWatch

/-- PROGRESS_WATCHDOG: periods of the reference clock pass; each time the count reaches the limit the event is posted and
the count restarts. With LIMIT 0 no event is posted; the periods still count, which the spec leaves open (DESIGN CHOICE, log
entry 91). -/
def execProgressWatchdog (periods : Word) (s : State) : Out :=
  match s.job.cur with
  | none => .next s
  | some j =>
    if ¬ s.mgrUp ∨ ¬ s.pwr.refclk ∨ j.signalled ∨ j.ending.isSome then .next s
    else
      let n := s.mgt.wdogCount.toNat + periods.toNat
      if s.mgt.wdogLimit = 0 ∨ n < s.mgt.wdogLimit.toNat then
        .next { s with mgt := { s.mgt with wdogCount := BitVec.ofNat 32 (min n (2 ^ 32 - 1)) } }
      else
        let l := s.mgt.wdogLimit.toNat
        let t := progressEvents (n / l) s
        .next { t with mgt := { t.mgt with wdogCount := BitVec.ofNat 32 (n % l) } }

/-! ### Supply loss (R413, R414) -/

/-- SUPPLY_LOSS (R403, R413): everything halts, the stacks enter self-refresh, the transmitters go off; a module reset
that was pending is abandoned (R483). `ovf` says that the input rose above the overvoltage disconnect. -/
def execSupplyLoss (ovf : Bool) (s : State) : Out :=
  if ¬ s.pwr.railsOn ∨ s.pwr.halted then .next s
  else
    let pwr := { s.pwr with halted := true, lossCause := if ovf then 2 else 1, bankReady := false }
    let hbm := s.hbm.map fun (k : Stack) => ({ k with selfRefresh := true } : Stack)
    let ports := s.fab.ports.map fun (p : Port) => ({ p with state := 0, lanes := 0 } : Port)
    let hif := { s.hif with linkUp := false, width := 0, rate := 0, flit := false }
    let mgt := { s.mgt with resetPending := none }
    .next { s with pwr, hbm, hif, mgt, fab := { s.fab with ports } }

/-- Ring cursors of a supply-loss record: ring, flags, CI and LAST, or records written and consumer index accepted. -/
def State.vaultRings (s : State) : List (Nat × Nat × Nat × Nat) :=
  ((List.range 66).filter s.variant.hasRing).map fun r =>
    let g := s.ring r
    (r, b2n g.en + 2 * b2n g.halted, g.ci.toNat, g.last.toNat)

/-- Whether a plan segment that has been issued is complete: its ranges have retired, its list and sort have run. -/
def segDone (ranges : List Range) (lists : List MList) (sorts : List SortRun) (i : Nat) (g : Seg) : Bool :=
  match g.kind with
  | 1 => !(ranges.any fun r => r.first == g.first && r.src == g.src)
  | 2 => !(lists.any fun l => l.id == i)
  | 3 => !(sorts.any fun q => q.src == g.src)
  | _ => true

/-- The lowest plan segment of the step in progress that is not complete. -/
def incSeg (ranges : List Range) (lists : List MList) (sorts : List SortRun) (j : Job) : Nat :=
  let start := j.nextSeg - (((j.segs.take j.nextSeg).reverse.takeWhile fun g => g.kind != 5).length)
  (((List.range j.nextSeg).drop start).find? fun i =>
    match j.segs[i]? with
    | some g => !(segDone ranges lists sorts i g)
    | none => false).getD j.nextSeg

/-- A job's entry of a supply-loss record (Table 14.4). -/
def vaultJob (st : Nat) (j : Job) (inc : Nat) : VaultJob :=
  let stepDone := if j.ckptPending then j.step - 1 else j.step
  { jobId := BitVec.ofNat 32 (jId j.posted.bytes), st, stepDone, off := j.ckptOff, total := j.ckptTotal,
    incStep := stepDone + 1, incSeg := inc }

/-- The running job, and each pre-empted job as its save area holds it. -/
def State.vaultJobs (s : State) : List VaultJob :=
  let run := match s.job.cur with
    | some j => [vaultJob (if j.phase = .encoding then 3 else 1) j
        (incSeg (s.courses.map (·.ranges)).flatten s.job.lists (s.courses.filterMap (·.sort)) j)]
    | none => []
  let saved := s.job.areas.filterMap fun a => a.bind fun (x : SaveArea) => if x.st = 2 then some x else none
  run ++ saved.map fun (x : SaveArea) => vaultJob 2 x.job (incSeg x.ranges.flatten x.lists (x.sorts.filterMap id) x.job)

/-- The valid slot with the highest SAVE_NO. -/
def newestSlot (slots : List (Option VaultSlot)) : Option (Nat × VaultSlot) :=
  (slots.zipIdx.filterMap fun (x : Option VaultSlot × Nat) => match x.1 with
    | some v => if v.complete then some (x.2, v) else none
    | none => none).foldl (fun b x => match b with
    | some y => if y.2.saveNo < x.2.saveNo then some x else b
    | none => some x) none

/-- VAULT_SAVE (R414): the record goes into the slot that does not hold the newest valid one, header last, and all rails
go off; with a weak bank the header may not be reached (R419). -/
def execVaultSave (s : State) : Out :=
  if ¬ s.pwr.railsOn ∨ ¬ s.pwr.halted then .next s
  else
    let newest := newestSlot s.mgt.vaultSlots
    let k := match newest with
      | some (i, _) => 1 - i
      | none => 0
    let last := match newest with
      | some (_, v) => v.saveNo
      | none => 0
    let v : VaultSlot :=
      { complete := !s.pwr.bankLow || Config.freeBit s.free, cause := s.pwr.lossCause, consumed := false, saveNo := last + 1,
        boot := s.mgt.boot, rings := s.vaultRings, jobs := s.vaultJobs, epoch := s.rel.lease.epoch,
        lead := s.rel.lease.holder, log := s.rel.log, pinned := s.rel.pinned, logNext := s.rel.logNext,
        logOver := s.rel.logOver }
    let s := s.drawn
    .next { s with mgt := { s.mgt with vaultSlots := s.mgt.vaultSlots.set k (some v) },
                   pwr := { s.pwr with railsOn := false, halted := false },
                   side := { s.side with modFault := false } }

/-- BANK_READY (R415). -/
def execBankReady (s : State) : Out :=
  if ¬ s.pwr.railsOn ∨ s.pwr.halted ∨ s.pwr.bankReady then .next s
  else .next (State.notePower { s with pwr := { s.pwr with bankReady := true } } pwBankReady 0)

end Sys2Proof.Machine
end

