-- ==== Sys2Proof/Machine/Manage.lean ====
section
/-! DEFINITION. Management operations beside PREEMPT and CANCEL: verification and the image store, firmware slots,
ceilings, port fences, the retirement list, the error log, the Gatehouse commands (10 R287; 03 R85 to R87; 06 R168; 15 R428,
R435 to R437; 16 R453, R454, R465 to R468; 14 R406; 12 R356). -/

namespace Sys2Proof.Machine

/-! ### Where an operation reads and writes -/

/-- The function under which the module manager reads and writes for an operation. -/
def Via.fn : Via → PFn
  | .ring fn => fn
  | .mctp _ => .pf1

/-- Whose records an operation raises (R292). -/
def viaOwner (via : Via) (p : Posted) : Owner :=
  match via with
  | .ring fn => .desc (mgmtRing fn) p.bytes
  | .mctp _ => .none

/-- What came of reading an operation's source. -/
inductive Source where
  | ok (bs : List Byte) (s : State)
  | bad (status : Nat)
  | wait

/-- The source of an operation: ARG0 and ARG1, in HBM where ARG2 [0] is set (R287). A bad word of HBM is used as read
(R229). -/
def State.mgmtSource (s : State) (via : Via) (p : Posted) (host : HostData) : Source :=
  let a := mArg p.bytes 0
  let len := mArg p.bytes 1
  if bitOf (mArg p.bytes 2) 0 then
    if ¬ s.rangeAll Region.isHbm a len then .bad stMalformed
    else if s.stackHeld a then .wait
    else
      let r := s.readMem { kind := 6, id := srcMgr, owner := viaOwner via p } a len
      .ok r.1 r.2.2
  else if ¬ s.hif.linkUp then .wait
  else if host.status ≠ .ok then .bad stFailed
  else .ok (hostBytes host a len) s

/-- Cut a host write into TLPs: at most 512 bytes each, none across a 4 KiB boundary; `fuel` bounds them. -/
def tlpPieces : Nat → Nat → List Byte → List (Nat × List Byte)
  | 0, _, _ => []
  | fuel + 1, a, bs =>
    if bs.isEmpty then []
    else
      let n := min 512 (4096 - a % 4096)
      (a, bs.take n) :: tlpPieces fuel (a + n) (bs.drop n)

/-- Send pieces until one is refused; the Boolean says that all passed. -/
def sendPieces (fn : PFn) : List (Nat × List Byte) → State → Bool × State
  | [], s => (true, s)
  | x :: xs, s =>
    match s.hostWrite fn x.1 x.2 false false with
    | (true, s) => sendPieces fn xs s
    | (false, s) => (false, s)

/-- Write a result to the host and complete. -/
def State.mgmtWrite (s : State) (via : Via) (a : Nat) (bs : List Byte) (go : State → Mop) : Mop :=
  if ¬ s.hif.linkUp then .wait
  else match sendPieces via.fn (tlpPieces (bs.length + 1) a bs) s with
    | (true, s) => go s
    | (false, s) => .refused s

/-! ### Verification (R85 to R87, R168) -/

/-- Check 2: the trailer's signature over the first `len` bytes verifies under the key in KEY_SLOT. -/
def State.signedBy (s : State) (b : List Byte) (len : Nat) : Bool :=
  let k := (s.sec.slots.getD (fieldAt b len 1) {}).key
  fieldAt b (len + 1) 1 == 1 && !k.isEmpty && Config.mldsaVerify k (b.take len) (bytesAt b (len + 4) 3309)

/-- The image store's bytes in use. -/
def State.storeUsed (s : State) : Nat := (s.mgt.images.map fun x => x.bytes.length).sum

/-- Copy a verified file into the store under the next handle, and measure it (R86, R87). -/
def State.keepFile (s : State) (kind mr ekind : Nat) (b : List Byte) (len : Nat) : State :=
  let h := s.mgt.nextHandle
  let digest := shake256 (b.take len)
  let f : Stored := { handle := h, kind, bytes := b.take len, digest, slot := fieldAt b len 1 }
  State.extendMr { s with mgt := { s.mgt with images := s.mgt.images ++ [f],
                                              nextHandle := if h + 1 = 0 then 1 else h + 1 } } mr ekind h digest

/-- The answer of a verification, whose first failed check is `fail`: VERIFY_FAIL, STORE_FULL, or the handle and digest. -/
def State.verified (s : State) (fail kind mr ekind : Nat) (b : List Byte) (len : Nat) : Mop :=
  if fail ≠ 0 then .done stVerifyFail 0 fail [] s
  else if Config.imageStore < s.storeUsed + len then .plain stStoreFull s
  else .done stOk 0 s.mgt.nextHandle.toNat (shake256 (b.take len)) (s.keepFile kind mr ekind b len)

/-- IMG_VERIFY as an operation. -/
def opImgVerify (host : HostData) (via : Via) (p : Posted) (s : State) : Mop :=
  match s.mgmtSource via p host with
  | .wait => .wait
  | .bad status => .plain status s
  | .ok b s => s.verified (imgFirstFail b (s.signedBy b (imgLen b))) 1 3 7 b (imgLen b)

/-- SET_LEN. -/
def tsLen (b : List Byte) : Nat := fieldAt b 8 4

/-- Check 1 of R168. -/
def tsetCheck1 (b : List Byte) : Bool :=
  decide (64 ≤ b.length) && fieldAt b 0 4 == 0x4D395354 && fieldAt b 4 1 == 1 && fieldAt b 6 2 == 64 &&
  crcOk (b.take 64) 0x3C && zeroAt b 0x28 20 && b.length == tsLen b + trailerLen

/-- Check 3. -/
def tsetCheck3 (b : List Byte) : Bool :=
  let n := tsLen b
  n == 64 + nativeSize * bitsBelow (tsNatMap b) 32 + m7Size * bitsBelow (tsM7Map b) 32 && decide (n ≤ 168000) &&
  zeroAt b (n + 2) 2 && zeroAt b (n + 3313) 7 && (allTables b).all fun t => tableClean t.1 t.2

/-- Check 5. -/
def tsetCheck5 (b : List Byte) : Bool :=
  let one := fun (slot : Nat) => match tableOf b false slot with
    | some t => tfWord t 8 == 0x3F800000#32
    | none => false
  (tableOf b false 4).isSome && one 0 && one 3

/-- The first failed check of a table set, whose signature check is given; 0 when all hold. -/
def tsetFirstFail (b : List Byte) (sigOk : Bool) : Nat :=
  if ¬ tsetCheck1 b then 1 else if ¬ sigOk then 2 else if ¬ tsetCheck3 b then 3
  else if ¬ (allTables b).all fun t => tableLimits t.1 t.2 then 4 else if ¬ tsetCheck5 b then 5
  else if ¬ (allTables b).all fun t => tableSeams t.1 t.2 then 6 else 0

/-- TSET_VERIFY as an operation. -/
def opTsetVerify (host : HostData) (via : Via) (p : Posted) (s : State) : Mop :=
  match s.mgmtSource via p host with
  | .wait => .wait
  | .bad status => .plain status s
  | .ok b s => s.verified (tsetFirstFail b (s.signedBy b (tsLen b))) 2 4 8 b (tsLen b)

/-- Whether a handle is in use (R287, Table 10.14): a plane that is loaded or loading, an image request, a queued,
running or pre-empted job. -/
def State.handleUsed (s : State) (h : Word) : Bool :=
  (s.engines.any fun x =>
    (x.plane0.valid && x.plane0.handle == h) || (x.plane1.valid && x.plane1.handle == h) || x.loading == some h) ||
  (s.courses.any fun c => c.imageReq.any fun r => r.2 == h) ||
  (((s.ring 0).posted ++ (s.ring 0).fetched).any fun q => jTset q.bytes == h.toNat) ||
  (s.job.cur.isSome && jTset s.jobDesc == h.toNat) ||
  s.job.areas.any fun a => match a with
    | some x => x.handles.any fun y => y.1 == h
    | none => false

/-- HANDLE_RELEASE as an operation. -/
def opHandleRelease (_via : Via) (p : Posted) (s : State) : Mop :=
  let h := BitVec.ofNat 32 (mArg p.bytes 0)
  if ¬ s.mgt.images.any (fun x => x.handle == h) then .plain stMalformed s
  else if s.handleUsed h then .plain stBusy s
  else .plain stOk { s with mgt := { s.mgt with images := s.mgt.images.filter fun x => x.handle != h } }

/-! ### Firmware slots (R436, R437, R453, R454) -/

/-- FW_STAGE as an operation: the package goes into the inactive slot. -/
def opFwStage (host : HostData) (via : Via) (p : Posted) (s : State) : Mop :=
  if s.rel.handover.isSome then .plain stBusy s
  else match s.mgmtSource via p host with
    | .wait => .wait
    | .bad status => .plain status s
    | .ok b s =>
      if ¬ pkgVerify b s.sec.fuseSvn ∨ ¬ pkgCrcs b then .plain stVerifyFail s
      else
        let k := 1 - s.mgt.fwSlot
        .done stOk 0 (pkgVersion b) (pkgDigest b)
          { s with mgt := { s.mgt with fwImages := s.mgt.fwImages.set k (some b), staged := some k } }

/-- Whether a half is fenced. -/
def State.halfFenced (s : State) : Bool := s.isFenced (srcHalf 0) || s.isFenced (srcHalf 1)

/-- FW_ACTIVATE as an operation: the hand-over waits for its boundary; the command completes with it. -/
def opFwActivate (via : Via) (p : Posted) (s : State) : Mop :=
  let k := if bitOf (mArg p.bytes 0) 0 then 1 - s.mgt.fwSlot else s.mgt.staged.getD (1 - s.mgt.fwSlot)
  if k = s.mgt.fwSlot then .plain stAlready s
  else if s.halfFenced ∨ s.rel.handover.isSome then .plain stBusy s
  else match s.mgt.fwImages.getD k none with
    | none => .plain stVerifyFail s
    | some b =>
      if pkgSvn b < s.sec.fuseSvn then .plain stVerifyFail s
      else .later { s with rel := { s.rel with handover := some { slot := k, via, posted := p } } }

/-! ### Ceilings (R406, R514) -/

/-- Whether a ceiling argument is in range; zero leaves the ceiling. -/
def ceilOk (v : Variant) (w : Nat) : Bool := w == 0 || (decide (800 ≤ w) && decide (w ≤ v.maxCeil))

/-- SET_CEILING as an operation. -/
def opSetCeiling (via : Via) (p : Posted) (s : State) : Mop :=
  let c := mArg p.bytes 0
  let t := mArg p.bytes 1
  if ¬ ceilOk s.variant c ∨ ¬ ceilOk s.variant t then .plain stMalformed s
  else
    let ceil := if c = 0 then s.pwr.ceil else c
    let throttleCeil := if t = 0 then s.pwr.throttleCeil else t
    let changed := decide (ceil ≠ s.pwr.ceil) || decide (throttleCeil ≠ s.pwr.throttleCeil)
    let s := State.measureGatehouse { s with pwr := { s.pwr with ceil, throttleCeil } }
    let s := if changed then s.postPower pwCeiling 0 0 0 (viaOwner via p) else s
    .done stOk 0 (ceil + throttleCeil * 2 ^ 16) [] s

/-! ### Port fences (R356) -/

/-- PORT_FENCE as an operation. -/
def opPortFence (via : Via) (p : Posted) (s : State) : Mop :=
  let n := mArg p.bytes 0
  if ¬ s.variant.hasPort n then .plain stMalformed s
  else if (s.port n).fenced then .plain stAlready s
  else .plain stOk (s.fencePort n (viaOwner via p))

/-- PORT_UNFENCE as an operation: FAB_VIOL_CNT is cleared, and the first occurrence of each of its codes will be posted again
(R354, R356). Each channel is resynchronised, since what was sent of its messages is lost (log entry 94). -/
def opPortUnfence (via : Via) (p : Posted) (s : State) : Mop :=
  let n := mArg p.bytes 0
  if ¬ s.variant.hasPort n then .plain stMalformed s
  else if ¬ (s.port n).fenced then .plain stAlready s
  else .plain stOk ((s.modPort n Port.unfence).linkEvent n 9 0 (viaOwner via p))

/-! ### The retirement list (R428) -/

/-- Units fenced or withdrawn, with 1 or 2, by source ID. -/
def State.unitEntries (s : State) : List (Nat × Nat) :=
  let t : List (Nat × Nat) := s.rel.fenced.foldl (fun t u => store 0 t u.toNat 1) []
  let t := (List.range 8).foldl (fun t n => if (s.port n).fenced then store 0 t (srcPort n) 1 else t) t
  let t := (List.range 16).foldl (fun t n => if (s.stack n).prFenced then store 0 t (srcPraline n) 1 else t) t
  s.rel.withdrawn.foldl (fun t u => store 0 t u.toNat 2) t

/-- The entries of RETIRE_READ: pages in ascending order, then units. -/
def State.retireList (s : State) : List Nat :=
  s.rel.pages.map (fun x => x.1 * 2 ^ 16 + x.2) ++ s.unitEntries.map fun x => 2 ^ 62 + x.2 * 2 ^ 16 + x.1

/-- RETIRE_READ as an operation. -/
def opRetireRead (via : Via) (p : Posted) (s : State) : Mop :=
  let len := mArg p.bytes 1
  if len % 8 ≠ 0 then .plain stMalformed s
  else
    let all := s.retireList
    let out := (all.drop (mArg p.bytes 2)).take (len / 8)
    s.mgmtWrite via (mArg p.bytes 0) (out.map fun x => toLe x 8).flatten fun s =>
      .done stOk 0 (out.length + all.length * 2 ^ 32) [] s

/-! ### The error log (R433, R435) -/

/-- Pinned and ring entries merged in order of LSEQ: pinned entries that the ring has lost are the older ones. -/
def mergedLog (pinned log : List LogEntry) : List LogEntry :=
  (pinned.filter fun e => !(log.any fun x => x.lseq == e.lseq)) ++ log

/-- The 4 KiB header of the log. -/
def logHeader (first next ovf : Nat) : List Byte :=
  withCrc (padTo (toLe 0x4D394C47 4 ++ [1] ++ zeros 3 ++ toLe first 4 ++ toLe next 4 ++ toLe ovf 4) 0xFFC)

/-- The log's header now. -/
def State.logHead (s : State) : List Byte :=
  let first := ((mergedLog s.rel.pinned s.rel.log).head?.map fun e => e.lseq).getD s.rel.logNext
  logHeader first.toNat s.rel.logNext.toNat s.rel.logOver.toNat

/-- The ring cursors of a supply-loss record (Table 14.4). -/
def vaultRingBytes (rs : List (Nat × Nat × Nat × Nat)) : List Byte :=
  padTo ((rs.map fun x => toLe x.1 2 ++ toLe x.2.1 1 ++ zeros 1 ++ toLe x.2.2.1 4 ++ toLe x.2.2.2 4 ++ zeros 4).flatten)
    4096

/-- Its job cursors. -/
def vaultJobBytes (js : List VaultJob) : List Byte :=
  padTo ((js.map fun j => padTo (toLe j.jobId.toNat 4 ++ toLe j.st 1 ++ zeros 3 ++ toLe j.stepDone 4 ++ toLe j.off.toNat 8 ++
    toLe j.total.toNat 8 ++ toLe j.incStep 4 ++ toLe j.incSeg 4) 64).flatten) 4096

/-- The 2 MiB of a complete supply-loss slot (Table 14.4). -/
def VaultSlot.bytes (v : VaultSlot) : List Byte :=
  let first := ((mergedLog v.pinned v.log).head?.map fun e => e.lseq).getD v.logNext
  let rings := vaultRingBytes v.rings
  let jobs := vaultJobBytes v.jobs
  let lease := padTo (toLe v.epoch.toNat 4 ++ toLe v.lead 1) 4096
  let log := logHeader first.toNat v.logNext.toNat v.logOver.toNat ++
    padTo (v.pinned.map LogEntry.bytes).flatten (64 * logPinned) ++ padTo (v.log.map LogEntry.bytes).flatten (64 * logRing)
  let crc := fun (b : List Byte) => toLe (crc32c b).toNat 4
  withCrc (padTo (toLe 0x4D395046 4 ++ [1] ++ toLe v.cause 1 ++ toLe (b2n v.consumed) 1 ++ zeros 1 ++ toLe v.saveNo 4 ++
    toLe v.boot.toNat 2 ++ zeros 2 ++ crc rings ++ crc jobs ++ crc lease ++ crc log) 0xFFC) ++ rings ++ jobs ++ lease ++ log

/-- A slot as LOG_READ writes it: one that was never written whole holds bytes that nothing is known of. -/
def State.slotBytes (s : State) (k : Nat) : List Byte :=
  match s.mgt.vaultSlots.getD k none with
  | some v => if v.complete then v.bytes else (List.range 0x200000).map (Config.freeByte (s.free + k))
  | none => (List.range 0x200000).map (Config.freeByte (s.free + k))

/-- The slot of source 1, the newest record, and of source 2. -/
def State.logSlot (s : State) (source : Nat) : Nat :=
  let newest := ((newestSlot s.mgt.vaultSlots).map (·.1)).getD 0
  if source = 1 then newest else 1 - newest

/-- LOG_READ as an operation. CLEAR frees the pinned entries once they are written. -/
def opLogRead (via : Via) (p : Posted) (s : State) : Mop :=
  let a := mArg p.bytes 0
  let len := mArg p.bytes 1
  let source := mArg p.bytes 2 % 4
  let first := mArg p.bytes 3
  if source = 3 ∨ len = 0 ∨ len % 4096 ≠ 0 ∨ (source ≠ 0 ∧ len < 0x200000) then .plain stMalformed s
  else if source ≠ 0 then
    s.mgmtWrite via a (s.slotBytes (s.logSlot source)) fun s => .plain stOk { s with free := s.free + 2 }
  else
    let out := ((mergedLog s.rel.pinned s.rel.log).filter fun e => decide (first ≤ e.lseq.toNat)).take ((len - 4096) / 64)
    let after := match out.getLast? with
      | some e => (e.lseq + 1).toNat
      | none => first
    s.mgmtWrite via a (s.logHead ++ (out.map LogEntry.bytes).flatten) fun s =>
      let pinned := if bitOf (mArg p.bytes 2) 8 then s.rel.pinned.filter fun e => !(out.any fun x => x.lseq == e.lseq)
        else s.rel.pinned
      .done stOk 0 (out.length + after * 2 ^ 32) [] { s with rel := { s.rel with pinned } }

/-! ### The Gatehouse commands (R465 to R468) -/

/-- The number of module IDs set in the job-domain table. -/
def domainCount (t : BitVec 16384) : Nat := ((List.range 16384).filter fun i => t.getLsbD i).length

/-- The table with `n` IDs from `id` on set or cleared. -/
def setDomain (t : BitVec 16384) (id n : Nat) (on : Bool) : BitVec 16384 :=
  let mask := BitVec.ofNat 16384 ((2 ^ n - 1) * 2 ^ id)
  if on then t ||| mask else t &&& ~~~ mask

/-- JOBDOM_SET as an operation: held messages of IDs that leave the table are discarded (R369, Table 16.6). -/
def opJobdomSet (_via : Via) (p : Posted) (s : State) : Mop :=
  let id := mArg p.bytes 0
  let n := mArg p.bytes 1
  if 16384 < id + n then .plain stMalformed s
  else
    let old := s.sec.jobdom
    let jobdom := setDomain old id n (bitOf (mArg p.bytes 2) 0)
    let s := State.dropWaiting { s with sec := { s.sec with jobdom } } fun m =>
      old.getLsbD (hSrc m.hdr) && !jobdom.getLsbD (hSrc m.hdr)
    .done stOk 0 (domainCount jobdom) [] s.measureGatehouse

/-- The window that WINDOW_SET's arguments give. -/
def windowOf (d : List Byte) : Window :=
  { base := mArg d 1, len := mArg d 2, pasid := BitVec.ofNat 20 (mArg d 3), pv := bitOf (mArg d 3) 31,
    at' := bitOf (mArg d 0) 9, en := bitOf (mArg d 0) 8 }

/-- A window is well formed (R466, R467). -/
def Window.ok (w : Window) : Bool :=
  w.base % 4096 == 0 && w.len % 4096 == 0 && decide (w.len ≤ 2 ^ 52) && decide (w.base + w.len ≤ 2 ^ 64) &&
  (!w.en || w.len != 0)

/-- Retry every write that the Gatehouse refused (R296, R517). -/
def State.retryRefused (s : State) : State :=
  (List.range 66).foldl (fun s r =>
    if ¬ s.hostUp ∨ ¬ (s.ring r).refused then s else if eventRing r then s.writeRecord r else s.retryShadow r) s

/-- WINDOW_SET as an operation. -/
def opWindowSet (_via : Via) (p : Posted) (s : State) : Mop :=
  let w := windowOf p.bytes
  if ¬ w.ok then .plain stMalformed s
  else
    let windows := s.sec.windows.set (mArg p.bytes 0 % 32) w
    let s := State.measureGatehouse { s with sec := { s.sec with windows } }
    .plain stOk s.retryRefused

/-! ### The commands -/

/-- IMG_VERIFY (R86). -/
def execImgVerify (fn : PFn) (host : HostData) (s : State) : Out := s.manage fn 1 (opImgVerify host)
/-- TSET_VERIFY (R168). -/
def execTsetVerify (fn : PFn) (host : HostData) (s : State) : Out := s.manage fn 2 (opTsetVerify host)
/-- HANDLE_RELEASE (R287). -/
def execHandleRelease (fn : PFn) (s : State) : Out := s.manage fn 3 opHandleRelease
/-- FW_STAGE (R436). -/
def execFwStage (fn : PFn) (host : HostData) (s : State) : Out := s.manage fn 0x10 (opFwStage host)
/-- FW_ACTIVATE (R437). -/
def execFwActivate (fn : PFn) (s : State) : Out := s.manage fn 0x11 opFwActivate
/-- SET_CEILING (R406). -/
def execSetCeiling (fn : PFn) (s : State) : Out := s.manage fn 0x12 opSetCeiling
/-- PORT_FENCE (R356). -/
def execPortFence (fn : PFn) (s : State) : Out := s.manage fn 0x13 opPortFence
/-- PORT_UNFENCE (R356). -/
def execPortUnfence (fn : PFn) (s : State) : Out := s.manage fn 0x14 opPortUnfence
/-- RETIRE_READ (R428). -/
def execRetireRead (fn : PFn) (s : State) : Out := s.manage fn 0x15 opRetireRead
/-- JOBDOM_SET (R468). -/
def execJobdomSet (fn : PFn) (s : State) : Out := s.manage fn 0x16 opJobdomSet
/-- WINDOW_SET (R467). -/
def execWindowSet (fn : PFn) (s : State) : Out := s.manage fn 0x17 opWindowSet
/-- LOG_READ (R435). -/
def execLogRead (fn : PFn) (s : State) : Out := s.manage fn 0x18 opLogRead

end Sys2Proof.Machine
end

