-- ==== Sys2Proof/Machine/Doe.lean ====
section
/-! DEFINITION. Management beside the rings: MCTP over PCI Express and I3C, DOE discovery and attestation (10 R271, R273; 16
R454 to R463; 18 R511). -/

namespace Sys2Proof.Machine

/-! ### MCTP (R273) -/

/-- The management operation of an OPC. -/
def mgmtOp (opc : Nat) (host : HostData) : Option (Via → Posted → State → Mop) :=
  match opc with
  | 0x01 => some (opImgVerify host)
  | 0x02 => some (opTsetVerify host)
  | 0x03 => some opHandleRelease
  | 0x04 => some opPreempt
  | 0x05 => some opCancel
  | 0x10 => some (opFwStage host)
  | 0x11 => some opFwActivate
  | 0x12 => some opSetCeiling
  | 0x13 => some opPortFence
  | 0x14 => some opPortUnfence
  | 0x15 => some opRetireRead
  | 0x16 => some opJobdomSet
  | 0x17 => some opWindowSet
  | 0x18 => some opLogRead
  | _ => none

/-- A management descriptor that came over MCTP is checked as on ring 64, apart from SEQ, runs, and is answered. One with a
wrong DCRC is untrusted and gets no answer; one that cannot reach the host completes FAILED (log entry 32). -/
def State.mctpRun (s : State) (viaI3c : Bool) (d : List Byte) (host : HostData) : State :=
  let via : Via := .mctp viaI3c
  if ¬ crcOk d 124 then s
  else if ¬ descriptorOk 64 d then s.respond via d stMalformed (descJobId 64 d)
  else if s.mgmtDenied via (dOpc d) then s.respond via d stDenied (descJobId 64 d)
  else match mgmtOp (dOpc d) host with
    | none => s.respond via d stMalformed
    | some op =>
      match op via { idx := dSeq d, bytes := d } s with
      | .done status jobId res0 ext t => t.respond via d status jobId res0 ext
      | .later t => t
      | .refused t => t.respond via d stFailed
      | .wait => s.respond via d stFailed (descJobId 64 d)

/-- An MCTP message: a request with a descriptor, or a control message, whose answer is the base specification's (log entry
32). -/
def State.mctpMessage (s : State) (viaI3c : Bool) (m : List Byte) (host : HostData) : State :=
  if m.length = 128 then s.mctpRun viaI3c m host else s.sendMctp viaI3c (Config.mctpControl m)

/-- MCTP_REQUEST (R273). -/
def execMctpRequest (viaI3c : Bool) (desc : List Byte) (host : HostData) (s : State) : Out :=
  if ¬ s.mgrUp ∨ (¬ viaI3c ∧ ¬ s.hostUp) then .next s else .next (s.mctpMessage viaI3c desc host)

/-- I3C_TRANSFER (R511): address assignment; a write that carries a request; a read, which takes the oldest response, with
the in-band interrupt standing while more wait. Only an assigned target is addressed. -/
def execI3cTransfer (x : I3cOp) (s : State) : Out :=
  if ¬ s.ioUp then .next s
  else
    let s := { s with side := { s.side with i3cBusy := false } }
    match x with
    | .assign addr => .next { s with side := { s.side with i3cAddr := some addr } }
    | .writePacket d host =>
      if s.side.i3cAddr.isNone ∨ ¬ s.mgrUp then .next s else .next (s.mctpMessage true d host)
    | .readResponse =>
      match s.mgt.mctp with
      | [] => .next s
      | b :: rest =>
        if s.side.i3cAddr.isNone then .next s
        else .next { s with
          mgt := { s.mgt with mctp := rest }
          side := { s.side with i3cBusy := true, i3cIbi := !rest.isEmpty, i3cOut := s.side.i3cOut ++ [b] } }

/-- I3C_SCL_TIMEOUT (R511): the packet that the target is sending is abandoned, discarded and logged; how DATA names the
I3C port is not stated. -/
def execI3cSclTimeout (s : State) : Out :=
  if ¬ s.ioUp ∨ ¬ s.side.i3cBusy then .next s
  else
    let data := (Config.freeWord s.free).toNat
    let s := { s with side := { s.side with i3cBusy := false, i3cOut := s.side.i3cOut.dropLast } }
    .next (s.drawn.arrive (plainError 0 eBoardAlert 0 data))

/-! ### Data objects (R273, R461) -/

/-- The vendor ID that PCI-SIG assigned to Edxus. -/
def vendorId : Nat := Config.vendorId.toNat

/-- Send a data object and signal the mailbox's vector (R271). -/
def State.doeSend (s : State) (fn : PFn) (vendor type : Nat) (payload : List Byte) : State :=
  let body := padTo payload (roundUp payload.length 4)
  let vec := match fn with | .pf0 => s.hif.doeVec.toNat | .pf1 => s.mgt.doeVec
  (s.send (.doe fn (toLe vendor 2 ++ toLe type 1 ++ zeros 1 ++ toLe (2 + body.length / 4) 4 ++ body))).signal fn vec

/-- Whether a DOE mailbox answers. -/
def State.doeUp (s : State) : Bool := s.hostUp && s.mgt.ready

/-- DOE_DISCOVERY (R273): DOE Discovery itself, then type 0x01 of Edxus. -/
def execDoeDiscovery (fn : PFn) (index : Byte) (s : State) : Out :=
  if ¬ s.doeUp then .next s
  else
    let entry := if index = 0 then toLe 1 2 ++ [0, 1] else if index = 1 then toLe vendorId 2 ++ [1, 0] else toLe 0xFFFF 2 ++ [0, 0]
    .next (s.doeSend fn 1 0 entry)

/-- STATUS of an Edxus object (R461). -/
def doOk : Nat := 0
def doMalformed : Nat := 1
def doDenied : Nat := 2
def doBusy : Nat := 3
def doVerifyFail : Nat := 4

/-- Answer an attestation request. -/
def State.attest (s : State) (fn : PFn) (req status : Nat) (payload : List Byte := []) : State :=
  s.doeSend fn vendorId 1 (toLe req 1 ++ toLe status 1 ++ zeros 2 ++ payload)

/-- The alias public key (R459). -/
def State.aliasKey (s : State) : List Byte := Config.mldsaPublic s.sec.aliasSeed

/-- GET_CERTS (R461). -/
def execGetCerts (fn : PFn) (s : State) : Out :=
  if ¬ s.doeUp then .next s
  else
    let id := Config.identityCert
    let al := Config.aliasCert s.aliasKey
    .next (s.attest fn 1 doOk (toLe id.length 4 ++ id ++ toLe al.length 4 ++ al))

/-- GET_LOG (R457). -/
def execGetLog (fn : PFn) (first count : Word) (s : State) : Out :=
  if ¬ s.doeUp then .next s
  else if 500 < count.toNat then .next (s.attest fn 2 doMalformed)
  else
    let xs := ((s.sec.mlog.filter fun x => decide (first.toNat ≤ x.index)).take count.toNat).map MLog.bytes
    .next (s.attest fn 2 doOk xs.flatten)

/-- Whether an owner has claimed the module (R463). -/
def State.claimed (s : State) : Bool := !(s.sec.ownerDigest.all (· == 0))

/-- Bytes 0x000 to 0x2FF of a report (Table 16.5). -/
def State.reportBody (s : State) (nonce : List Byte) : List Byte :=
  let flags := b2n s.sec.debugSeen + 2 * b2n s.claimed + 4 * b2n s.mgt.recovery + 8 * b2n (decide (4096 < s.sec.logCount))
  toLe 0x4D394152 4 ++ [1] ++ toLe flags 1 ++ toLe s.mgt.boot.toNat 2 ++ toLe Config.serial.toNat 8 ++ toLe s.sec.fwSvn 4 ++
  toLe s.sec.fuseSvn 4 ++ toLe s.sec.logCount 4 ++ zeros 4 ++ padTo nonce 32 ++
  ((List.range 8).map fun i => padTo (s.sec.mr.getD i []) 64).flatten ++ padTo s.ghDigest 64 ++
  padTo s.sec.ownerDigest 64 ++ padTo (shake256 s.aliasKey) 64

/-- REPORT (R462). -/
def execReport (fn : PFn) (nonce : List Byte) (s : State) : Out :=
  if ¬ s.doeUp then .next s
  else
    let b := s.reportBody nonce
    .next (s.attest fn 3 doOk (b ++ padTo ((Config.mldsaSign s.sec.aliasSeed b).take 3309) 3312))

/-- OWNER_CLAIM (R463): permanent; PF1 only. -/
def execOwnerClaim (fn : PFn) (key : List Byte) (s : State) : Out :=
  if ¬ s.doeUp then .next s
  else if fn = .pf0 ∨ s.claimed then .next (s.attest fn 4 doDenied)
  else
    let sec := { s.sec with ownerDigest := shake256 key, ownerKey := key }
    .next (State.attest { s with sec } fn 4 doOk)

/-- Whether the signature of a SLOT_WRITE payload verifies under the owner key, whose digest the fuses hold. -/
def State.ownerSigned (s : State) (b : List Byte) : Bool :=
  s.claimed && decide (shake256 s.sec.ownerKey = s.sec.ownerDigest) &&
  Config.mldsaVerify s.sec.ownerKey (b.take 1960) (bytesAt b 1960 3309)

/-- SLOT_WRITE (R463): PF1 only. -/
def execSlotWrite (fn : PFn) (payload : List Byte) (s : State) : Out :=
  let k := fieldAt payload 0 1
  let svn := fieldAt payload 4 4
  let key := bytesAt payload 8 1952
  if ¬ s.doeUp then .next s
  else if fn = .pf0 then .next (s.attest fn 5 doDenied)
  else if k < 4 ∨ 8 ≤ k ∨ ¬ zeroAt payload 1 3 then .next (s.attest fn 5 doMalformed)
  else if ¬ s.ownerSigned payload ∨ svn ≤ (s.sec.slots.getD k {}).svn.toNat then .next (s.attest fn 5 doVerifyFail)
  else if s.mgt.images.any fun x => x.slot == k then .next (s.attest fn 5 doBusy)
  else
    let slot : KeySlot := { key := if key.all (· == 0) then [] else key, svn := BitVec.ofNat 32 svn }
    let s := State.extendMr { s with sec := { s.sec with slots := s.sec.slots.set k slot } } 2 6 (BitVec.ofNat 32 k)
      (keyDigest slot.key)
    .next (s.attest fn 5 doOk)

/-- SVN_COMMIT (R454): PF1 only. -/
def execSvnCommit (fn : PFn) (s : State) : Out :=
  if ¬ s.doeUp then .next s
  else if fn = .pf0 then .next (s.attest fn 6 doDenied)
  else
    let v := max s.sec.fuseSvn s.sec.fwSvn
    .next (State.attest { s with sec := { s.sec with fuseSvn := v } } fn 6 doOk (toLe v 4))

end Sys2Proof.Machine
end

