-- ==== Sys2Proof/Machine/Resets.lean ====
section
/-! DEFINITION. Filtered inputs, Function Level Resets, the host-interface reset, the host link (15 R445 to R447; 17 R472 to
R476, R483; 10 R263, R298, R299; 14 R408; 18 R510). -/

namespace Sys2Proof.Machine

/-! ### Filtered inputs (Table 15.6) -/

/-- N of an input, by its row: PERST_N, THROTTLE_N, WAKE_N, ALERT_N, MGT_RST_N. -/
def pinSamples (i : Nat) : Nat := [25, 5, 25, 250, 250].getD i 0

/-- Whether the glitch filters work: the always-on domain is supplied and not halted. -/
def State.filtersUp (s : State) : Bool := s.pwr.railsOn && !s.pwr.halted

/-- A level holds at an input for a number of samples, of which those of a lockout still running are not tested (R445, R446,
log entry 95): one that reverts before N is counted; the Boolean says that the filter's output changes, which starts a lockout
of N samples. -/
def State.pinFilter (s : State) (i : Nat) (active : Bool) (samples : Nat) : Bool × State :=
  let lock := s.rel.pinLock.getD i 0
  let n := pinSamples i
  let tested := samples - lock
  let rel := { s.rel with pinLock := s.rel.pinLock.set i (lock - samples) }
  if ¬ s.filtersUp then (false, s)
  else if s.rel.pinActive.getD i false = active ∨ tested = 0 then (false, { s with rel })
  else if tested < n then
    (false, { s with rel := { rel with pinGlitch := modifyNth (fun c => satAdd c 1) rel.pinGlitch i } })
  else
    (true, { s with rel := { rel with pinActive := rel.pinActive.set i active, stuckDone := rel.stuckDone.set i false,
                                      pinLock := rel.pinLock.set i (2 * n - tested) } })

/-- INPUT_STUCK_COUNT (R447): an input active for 2^24 samples, counted once in each assertion. -/
def execInputStuckCount (pin : PinId) (s : State) : Out :=
  if ¬ s.filtersUp ∨ ¬ s.rel.pinActive.getD pin false ∨ s.rel.stuckDone.getD pin false then .next s
  else
    let rel := { s.rel with
      stuckDone := s.rel.stuckDone.set pin true
      pinStuck := modifyNth (fun c => satAdd c 1) s.rel.pinStuck pin }
    .next (State.arrive { s with rel } (plainError 0 ePinStuck 0 pin))

/-- WAKE_N (R510): only sensed. -/
def execWakeN (low : Bool) (samples : Nat) (s : State) : Out := .next (s.pinFilter 2 low samples).2

/-- THROTTLE_N (R408): each filtered edge changes the effective ceiling. -/
def execThrottleN (low : Bool) (samples : Nat) (s : State) : Out :=
  match s.pinFilter 1 low samples with
  | (false, s) => .next s
  | (true, s) =>
    .next (State.notePower { s with pwr := { s.pwr with throttle := low } } (if low then pwThrottleOn else pwThrottleOff) 0)

/-- ALERT_N (R445): the running job is pre-empted without export, and BOARD_ALERT is logged. -/
def execAlertN (samples : Nat) (s : State) : Out :=
  match s.pinFilter 3 true samples with
  | (false, s) => .next s
  | (true, s) =>
    let job := BitVec.ofNat 32 s.jobId
    let e := s.entryOf (plainError 0 eBoardAlert 0 3) job 0 (if s.job.cur.isSome then aPreempted else aCounted)
    let s := s.logAdd e
    .next ((s.postError { e with lseq := s.rel.logNext - 1 }).askPreempt .alert)

/-- ALERT_N_RELEASE (R445). -/
def execAlertNRelease (samples : Nat) (s : State) : Out := .next (s.pinFilter 3 false samples).2

/-! ### Discarded work (R298, R299) -/

/-- The index of a ring's oldest descriptor that has not started. -/
def Ring.oldest (g : Ring) : Nat :=
  match g.held.toList ++ g.posted ++ g.fetched with
  | p :: _ => p.idx
  | [] => g.ci.toNat

/-- How many descriptors a ring has from there to LAST − 1. -/
def Ring.queued (g : Ring) : Nat := (g.last - BitVec.ofNat 24 g.oldest).toNat

/-- The PF0 rings whose queued descriptors a reset discards: job, DMA and codec rings. -/
def discardRings : List Nat := 0 :: (List.range 20).map (· + 2)

/-- The rings that lose descriptors, with first index and count. -/
def State.discards (s : State) : List (Nat × Nat × Nat) :=
  (discardRings.map fun r => (r, (s.ring r).oldest, (s.ring r).queued)).filter fun x => x.2.2 != 0

/-- A ring after the reset of its function: its registers at their reset values, disabled. What is in a consumer's hands
goes on; records that wait stay; `keep` says that the descriptors already fetched stay too. -/
def Ring.reset (g : Ring) (keep : Bool) : Ring :=
  { inHand := g.inHand, evq := g.evq, dropped := g.dropped, posted := if keep then g.held.toList ++ g.posted else [],
    fetched := if keep then g.fetched else [] }

/-- Forget the descriptor reads of a function's rings. -/
def State.dropRingReads (s : State) (fn : PFn) : State :=
  let keep := fun (x : OutRead) => match x.who with
    | .ring .. => decide (x.fn ≠ fn)
    | .mover _ => true
  { s with hif := { s.hif with reads := s.hif.reads.filter keep } }

/-- The rings of PF0 reset: management descriptors already fetched complete; job, DMA and codec descriptors go. -/
def State.resetRings0 (s : State) : State :=
  let rings := s.rings.zipIdx.map fun (x : Ring × Nat) => if x.2 < 64 then x.1.reset (x.2 == 1) else x.1
  State.dropRingReads { s with rings } .pf0

/-- The rings of PF1 reset. -/
def State.resetRings1 (s : State) : State :=
  let rings := s.rings.zipIdx.map fun (x : Ring × Nat) => if x.2 < 64 then x.1 else x.1.reset true
  State.dropRingReads { s with rings } .pf1

/-- Configuration space, MSI-X table and AER status of a function in their reset state (log entry 13). -/
def Hif.resetFn (h : Hif) (fn : PFn) : Hif :=
  let low := fun (k : Nat) => match fn with | .pf0 => decide (k < 2048) | .pf1 => decide (2048 ≤ k)
  let mine := fun (k : Nat) => match fn with | .pf0 => decide (k < 4096) | .pf1 => decide (4096 ≤ k)
  let h := { h with cfg := h.cfg.filter (fun (x : Nat × Word) => !mine x.1), msix := h.msix.filter (fun (x : Nat × Msix) => !low x.1),
                    pba := h.pba.filter fun (k : Nat) => !low k }
  match fn with
  | .pf0 => { h with aer0 := 0, fmask0 := false, barHeld := [], atsEn := false, priEn := false, priStopped := false, atc := [], bar4Log2 := 36 }
  | .pf1 => { h with aer1 := 0, fmask1 := false }

/-- The HIF registers at their reset values (R476). -/
def Hif.resetRegs (h : Hif) : Hif :=
  { h with bar4Base := 0, evroute := 0, doeVec := 0, violCnt := 0, dbBad := 0, dbReject := 0, evqHold := 0, evqDrop := 0 }

/-- Pre-empt the running job for a reset and report it with the work discarded (R298, R299): at once where no job runs,
else once the job's end is known. -/
def State.resetWork (s : State) (rtype : Nat) (why : PreBy) (discards : List (Nat × Nat × Nat)) (held : Bool) : State :=
  let n : ResetNote := { rtype, discards, held }
  let runs : Bool := match s.job.cur with
    | some j => j.ending.isNone
    | none => false
  if runs ∧ s.mgt.note.isNone then { s with mgt := { s.mgt with note := some n } }.askPreempt why
  else (s.askPreempt why).reportDiscards n

/-- The effects of an FLR of PF0 (R298). -/
def State.flr0 (s : State) (rtype : Nat) (why : PreBy) (held : Bool) : State :=
  let lost := s.discards
  let s := s.resetRings0
  let s := { s with hif := (s.hif.resetFn .pf0).resetRegs, codecs := s.codecs.map Codec.afterFlr,
                    job := { s.job with cancelled := [] } }
  s.resetWork rtype why lost held

/-- The effects of an FLR of PF1. -/
def State.flr1 (s : State) : State :=
  let s := s.resetRings1
  { s with hif := s.hif.resetFn .pf1 }

/-- FLR_PF0 (R298). -/
def execFlrPf0 (s : State) : Out := if s.hostUp then .next (s.flr0 1 .flr false) else .next s

/-- FLR_PF1 (R298). -/
def execFlrPf1 (s : State) : Out := if s.hostUp then .next s.flr1 else .next s

/-- Store a configuration register as the host writes it. -/
def State.cfgWrite (s : State) (fn : PFn) (reg : Nat) (v : Word) : State :=
  let k := cfgKey fn reg
  { s with hif := { s.hif with cfg := (s.hif.cfg.filter fun (x : Nat × Word) => x.1 ≠ k) ++ [(k, v)] } }

/-- D3HOT (R263, R299): the power state reads D3hot, and the running job is pre-empted and reported. -/
def execD3hot (s : State) : Out :=
  if ¬ s.hostUp then .next s
  else .next ((s.cfgWrite .pf0 0x44 (s.cfgWritten .pf0 0x44 ||| 3)).resetWork 2 .d3 [] false)

/-- Whether a configuration write moves PF0 to D3hot: its power state becomes 3. -/
def State.entersD3 (s : State) (fn : PFn) (reg : Nat) (data : Word) : Bool :=
  decide (fn = .pf0) && reg == 0x44 && data &&& 3 == 3 && s.cfgWritten fn reg &&& 3 != 3

/-- CONFIG_REQUEST (R479). The completion goes to the root complex, requester 0. A write keeps the bits that the host
writes, and acts as its register does; one that moves PF0 to D3hot does what D3HOT does. -/
def execConfigRequest (fn : PFn) (isWrite : Bool) (reg : BitVec 12) (data : Word) (s : State) : Out :=
  let r := reg.toNat / 4 * 4
  if ¬ s.hif.linkUp then .next s
  else if ¬ s.mgt.ready then .next (s.send (.completion 0 .rrs [] false))
  else if isWrite then
    let d3 := s.entersD3 fn r data
    let s := (s.cfgWrite fn r data).cfgEffect fn r data
    .next ((if d3 then s.resetWork 2 .d3 [] false else s).send (.completion 0 .sc [] false))
  else .next (s.send (.completion 0 .sc (toLe (s.cfgRead fn r).toNat 4) false))

/-! ### The host-interface reset (R474, R475) -/

/-- A host-interface reset: both FLRs, and the link and both functions in their reset state. -/
def State.hostReset (s : State) : State :=
  let s := if s.hif.linkUp then s.hostLinkLost else s
  let s := s.flr1.flr0 3 .hostReset true
  { s with hif := { s.hif with cfg := [], msix := [], pba := [], pageReqs := [], barHeld := [] } }

/-- HOST_INTERFACE_RESET (R474): a Hot Reset, or what PERST_N does. -/
def execHostInterfaceReset (s : State) : Out := if s.ioUp then .next s.hostReset else .next s

/-- PERST_N (R445, R475): the filtered assertion resets the host interface; under MGT_RST_N it adds nothing (R483). -/
def execPerstN (samples : Nat) (s : State) : Out :=
  match s.pinFilter 0 true samples with
  | (false, s) => .next s
  | (true, s) => if s.ioUp then .next s.hostReset else .next s

/-- PERST_N_RELEASE (R479): the link may train. -/
def execPerstNRelease (samples : Nat) (s : State) : Out := .next (s.pinFilter 0 false samples).2

/-- PCIE_LINK_UP (R308, Table 11.3): the link is up, and what is held on T3_TIMEOUT of host data goes on. -/
def execPcieLinkUp (width rate : Nat) (flit : Bool) (s : State) : Out :=
  if ¬ s.regionUp 2 ∨ s.hif.linkUp ∨ (rate = 6 ∧ ¬ flit) ∨ s.rel.pinActive.getD 0 false ∨ ¬ s.pwr.refclk then .next s
  else
    let s := { s with hif := { s.hif with linkUp := true, width, rate, flit } }
    if ¬ s.mgrUp then .next s
    else .next (faultUnits.foldl (fun s u =>
      match s.faultOf u with
      | some f =>
        if f.cause.toNat = fT3Timeout ∧ f.space.toNat ≠ 3 ∧ ¬ f.escalated then
          (s.arrive (faultError 0 u f)).retryFault u false
        else s
      | none => s) s)

end Sys2Proof.Machine
end

