-- ==== Sys2Proof/Machine/Startup.lean ====
section
/-! DEFINITION. Cold start and module reset (17 R472, R473, R475, R476, R478 to R480, R483; 14 R415, R417; 15 R427; 16 R452,
R455, R469; 18 R510). -/

namespace Sys2Proof.Machine

/-! ### What a reset keeps -/

/-- What every reset of the boot ROM keeps: vault, fuses, error log, fence and retirement lists, ceilings, cables, the filtered
inputs and what has gone out on the links; all else is at its reset value (Table 17.1, R469, R473). -/
def State.bare (s : State) : State :=
  let port := fun (p : Port) => ({ fenced := p.fenced, cblPres := p.cblPres, cblPower := p.cblPower, out := p.out } : Port)
  let stack := fun (k : Stack) => ({ prFenced := k.prFenced } : Stack)
  { pending := s.pending
    variant := s.variant
    free := s.free
    hif := { tx := s.hif.tx }
    hbm := s.hbm.map stack
    fab := { ports := s.fab.ports.map port }
    pwr := { railsOn := true, refclk := s.pwr.refclk, pace := List.replicate 12 (!s.pwr.refclk, 0), throttle := s.rel.pinActive.getD 1 false,
             ceil := min s.pwr.ceil s.variant.maxCeil, throttleCeil := s.pwr.throttleCeil, temp := s.pwr.temp }
    rel := { logNext := s.rel.logNext, logOver := s.rel.logOver, log := s.rel.log, pinned := s.rel.pinned,
             fenced := s.rel.fenced, withdrawn := s.rel.withdrawn, pages := s.rel.pages, pinActive := s.rel.pinActive,
             pinLock := s.rel.pinLock, stuckDone := s.rel.stuckDone }
    sec := { ownerDigest := s.sec.ownerDigest, ownerKey := s.sec.ownerKey, fuseSvn := s.sec.fuseSvn, slots := s.sec.slots }
    mgt := { boot := s.mgt.boot, fwSlot := s.mgt.fwSlot, fwImages := s.mgt.fwImages, staged := s.mgt.staged,
             vaultEpoch := s.mgt.vaultEpoch, vaultSlots := s.mgt.vaultSlots } }

/-- An ERROR record of a log entry that waits for the PF1 event ring (R473). -/
def State.holdError (s : State) (e : LogEntry) : State :=
  let x := s.record { kind := kError, src := srcMgr, body := e.bytes }
  State.bumpSeq { s with mgt := { s.mgt with held := s.mgt.held ++ [x] } } srcMgr

/-- Log an entry whose code the spec does not state, under a free code (log entry 8). -/
def State.logFree (s : State) (rung : Fin 5) (unit : Nat) (job step : Word) (act : Byte) : LogEntry × State :=
  let code := (Config.freeWord s.free).toNat % 2 ^ 16
  let e := { s.entryOf (plainError rung code unit) job 0 act with step }
  (e, s.drawn.logAdd e)

/-! ### Self-test, training (R427, R478, R480) -/

/-- The units that a self-test covers: courses, engines, movers, codec engines, Praline units; halves with their courses. -/
def selfTested (u : Nat) : Bool :=
  let k := u / 0x1000
  k == 2 || k == 3 || k == 4 || k == 5 || k == 7 || k == 8

/-- A unit that the self-test passes returns to service, with UNIT_RESTORED. -/
def State.restoreUnit (s : State) (u : Nat) : State :=
  let e := s.entryOf (plainError 0 eUnitRestored u) 0 0 aRestored
  let t := s.logAdd e
  t.postError { e with lseq := s.rel.logNext }

/-- A unit that fails the self-test is fenced and logged. -/
def State.failUnit (s : State) (u : Nat) : State :=
  let s := if u / 0x1000 = 8 then s.modStack (u % 0x1000) fun k => { k with prFenced := true } else s.setFenced u
  let r := s.logFree 3 u 0 0 aFenced
  r.2.postError { r.1 with lseq := s.rel.logNext }

/-- The self-test of a reset: `failed` lists what fails. -/
def State.selfTest (s : State) (failed : List (BitVec 16)) : State :=
  let lift := s.rel.fenced.filter fun u => u.toNat / 0x1000 ≠ 8 && !failed.contains u
  let s := lift.foldl (fun s u => (s.unfence u).restoreUnit u.toNat) s
  let s := (List.range 16).foldl (fun s n =>
    if (s.stack n).prFenced ∧ ¬ failed.contains (BitVec.ofNat 16 (srcPraline n)) then
      (s.modStack n fun k => { k with prFenced := false }).restoreUnit (srcPraline n)
    else s) s
  let new := failed.filter fun u =>
    selfTested u.toNat && !s.rel.fenced.contains u && !(u.toNat / 0x1000 == 8 && (s.stack (u.toNat % 0x1000)).prFenced)
  new.foldl (fun s u => s.failUnit u.toNat) s

/-- Stacks that fail training are fenced and, since no job runs, withdrawn, as is any that was fenced; pending pages retire;
without the firmware region's stack the module accepts no job (R427, R480). -/
def State.trainStacks (s : State) (untrained : List StackId) : State :=
  let bad := untrained.filter fun (n : StackId) => s.variant.hasStack n.val && !s.isFenced (srcPraline n.val)
  let s := bad.foldl (fun (s : State) (n : StackId) => s.setFenced (srcPraline n.val)) s
  let s := s.withdrawStacks.retirePending
  let noJobs := s.rel.withdrawn.contains (BitVec.ofNat 16 (srcPraline s.variant.fwStack))
  { s with mgt := { s.mgt with noJobs } }

/-- The boot (R452, R478): the boot chain; outside recovery the manager grants the lease to half A; READY. Nothing starts while
MGT_RST_N is held (R475). -/
def State.boot (s : State) : State :=
  if s.rel.pinActive.getD 4 false then s
  else
    let s := s.bootChain
    let s := if s.mgt.recovery then s
      else
        let s := { s with rel := { s.rel with lease := { epoch := s.mgt.vaultEpoch } } }
        let s := s.grant 0
        if s.halfFenced ∧ s.isFenced (srcHalf 0) ∧ s.isFenced (srcHalf 1) then s.arrive (plainError 4 eMgrFault (srcHalf 0))
        else s
    { s with mgt := { s.mgt with ready := true }, side := { s.side with modFault := s.mgt.fatal } }

/-! ### Cold start (R478, R415, R417) -/

/-- SUPPLY_SAVED body. -/
def savedBody (s : State) (v : VaultSlot) (cut : Bool) : List Byte :=
  let run := v.jobs.find? fun j => j.st != 2
  powerBody pwSupplySaved 0 s.effCeil 0 0 ++ toLe v.saveNo 4 ++ toLe v.boot.toNat 2 ++ toLe v.cause 1 ++ toLe (b2n cut) 1 ++
  (match run with
   | some j => toLe j.jobId.toNat 4 ++ toLe j.stepDone 4 ++ toLe j.incStep 4
   | none => zeros 12)

/-- The newest supply-loss record that is complete and not consumed is reported once the PF1 event ring is enabled, and marked
(R417). -/
def State.reportSaved (s : State) : State :=
  let fresh := s.mgt.vaultSlots.map fun x => x.bind fun v => if v.consumed then none else some v
  match newestSlot fresh with
  | none => s
  | some (k, v) =>
    let cut := match s.mgt.vaultSlots.getD (1 - k) none with
      | some w => !w.complete
      | none => false
    let x := s.record { kind := kPower, src := srcMgr, body := savedBody s v cut }
    let done := some { v with consumed := true }
    State.bumpSeq { s with mgt := { s.mgt with held := s.mgt.held ++ [x], vaultSlots := s.mgt.vaultSlots.set k done } } srcMgr

/-- COLD_START (R478): `failed` and `untrained` are what self-test and training find, `bankUf` what the charger measures. -/
def execColdStart (failed : List (BitVec 16)) (untrained : List StackId) (bankUf : BitVec 16) (s : State) : Out :=
  if s.pwr.railsOn then .next s
  else
    let s := s.bare
    let low := decide (bankUf.toNat < 2200)
    let pwr := { s.pwr with bankUf, bankLow := low }
    let s := { s with pwr, mgt := { s.mgt with boot := s.mgt.boot + 1, resetCause := 1 },
                      side := { s.side with modFault := true } }
    let s := (s.selfTest failed).trainStacks untrained
    let s := if low then s.postPower pwBankLow 0 else s
    let s := s.boot
    .next (if s.mgt.ready && !s.mgt.recovery then s.reportSaved else s)

/-! ### Module reset (R473) -/

/-- A module reset is asked for (R472): the running job is pre-empted without export. -/
def State.askReset (s : State) (why : RstCause) : State :=
  if s.mgt.resetPending.isSome then s
  else { s with mgt := { s.mgt with resetPending := some why } }.askPreempt .moduleReset

/-- MGT_RST_N (R445, R473). -/
def execMgtRstN (samples : Nat) (s : State) : Out :=
  match s.pinFilter 4 true samples with
  | (false, s) => .next s
  | (true, s) => .next (s.askReset .pin)

/-- The jobs that a module reset finds: in valid save areas, and one cut off. -/
def State.lostJobs (s : State) : List (Nat × Nat) :=
  let saved := s.job.areas.filterMap fun a => a.bind fun (x : SaveArea) =>
    if x.st = 2 then some (jId x.job.posted.bytes, x.job.step) else none
  match s.job.cur with
  | some j => if saved.any fun x => x.1 == jId j.posted.bytes then saved else saved ++ [(jId j.posted.bytes, j.step)]
  | none => saved

/-- The state that a module reset leaves before the boot: memory, valid save areas, sequence numbers and the power
hardware's own state stay. -/
def State.afterReset (s : State) : State :=
  let t := s.bare
  let areas := s.job.areas.map fun a => a.bind fun (x : SaveArea) => if x.st = 2 then some x else none
  let ioHeld := (List.range 4).any fun n => s.pwr.thermalHold.getD (8 + n) false
  { t with
    mem := s.mem
    seqs := s.seqs
    job := { t.job with areas }
    pwr := { t.pwr with bankUf := s.pwr.bankUf, bankLow := s.pwr.bankLow, bankReady := s.pwr.bankReady,
                        uvHold := s.pwr.uvHold, thermalHold := s.pwr.thermalHold, tripped := s.pwr.tripped,
                        vcap := [750, 750, if ioHeld then 500 else 750] }
    mgt := { t.mgt with held := s.mgt.held }
    side := { t.side with modFault := s.side.modFault, jtag := s.side.jtag } }

/-- The reset takes hold (R473): each pre-empted job is reported to the PF1 event ring, the self-test runs, and the module
boots. -/
def State.takeReset (s : State) (why : RstCause) (failed : List (BitVec 16)) (untrained : List StackId) : State :=
  let jobs := s.lostJobs
  let s := s.afterReset
  let s := { s with mgt := { s.mgt with resetCause := match why with | .pin => 2 | .reg => 3 } }
  let s := jobs.foldl (fun s x =>
    let r := s.logFree 0 0 (BitVec.ofNat 32 x.1) (BitVec.ofNat 32 x.2) aPreempted
    r.2.holdError { r.1 with lseq := s.rel.logNext }) s
  ((s.selfTest failed).trainStacks untrained).boot

/-- MODULE_RESET (R473): once the save of the running job is done. -/
def execModuleReset (failed : List (BitVec 16)) (untrained : List StackId) (s : State) : Out :=
  match s.mgt.resetPending with
  | none => .next s
  | some why =>
    if ¬ s.filtersUp ∨ s.job.cur.isSome then .next s else .next (s.takeReset why failed untrained)

/-- MODULE_RESET_BOUND (R473): 2.0 ms after the trigger. A job not saved by then is lost. -/
def execModuleResetBound (failed : List (BitVec 16)) (untrained : List StackId) (s : State) : Out :=
  match s.mgt.resetPending with
  | none => .next s
  | some why => if ¬ s.filtersUp then .next s else .next (s.takeReset why failed untrained)

/-- MGT_RST_N_RELEASE (R475): the boot ROM starts, where the reset has taken hold. An EXTEST that is loaded behaves as BYPASS
from then on (R512, Table 18.9). -/
def execMgtRstNRelease (samples : Nat) (s : State) : Out :=
  match s.pinFilter 4 false samples with
  | (false, s) => .next s
  | (true, s) =>
    let s := { s with side := { s.side with jtag := if s.side.jtag = .extest then .bypass else s.side.jtag } }
    if s.mgt.ready ∨ s.mgt.resetPending.isSome then .next s else .next s.boot

/-- MOD_FAULT_N is low (R510). -/
def State.modFaultLow (s : State) : Bool := s.pwr.railsOn && s.side.modFault

end Sys2Proof.Machine
end

