-- ==== Sys2Proof/Machine/Board.lean ====
section
/-! DEFINITION. Cables and JTAG (18 R505, R512). -/

namespace Sys2Proof.Machine

/-- A cable end that loses its power or its cable: an ACTIVE port loses lock, posts DOWN and trains again (R333, R505). -/
def State.cableGone (s : State) (p : Nat) : State :=
  if s.portActive p then (s.linkEvent p 2 0).modPort p Port.retrain else s

/-- CBL_PRES_N (R505): cable power follows the presence of the cable; seating a cable closes a switch that an overload
opened. -/
def execCblPresN (p : PortId) (low : Bool) (s : State) : Out :=
  if ¬ s.variant.hasPort p then .next s
  else
    let s := s.modPort p fun g => { g with cblPres := low, cblPower := if low = g.cblPres then g.cblPower else low }
    .next (if low then s else s.cableGone p)

/-- CABLE_OVERCURRENT (R505): the switch opens until the cable is reseated. -/
def execCableOvercurrent (p : PortId) (s : State) : Out :=
  if ¬ s.variant.hasPort p then .next s
  else if ¬ (s.port p).cblPower then .next s
  else .next ((s.modPort p fun g => { g with cblPower := false }).cableGone p)

/-- JTAG_INSTRUCTION (R512): EXTEST acts only while filtered MGT_RST_N is active. -/
def execJtagInstruction (i : JtagOp) (s : State) : Out :=
  let op := if i = .extest ∧ ¬ s.rel.pinActive.getD 4 false then .bypass else i
  .next { s with side := { s.side with jtag := op } }

end Sys2Proof.Machine
end

