-- ==== Sys2Proof/Machine/Hbm.lean ====
section
/-! DEFINITION. The HBM4 controllers: reads, refresh and scrub; and page walks (08 R209 to R216, R224 to R231). -/

namespace Sys2Proof.Machine

/-! ### Reads and refresh (R210, R211) -/

/-- Controller cycles of a read from crossing to crossing (Table 8.4). -/
def Stack.readCycles (k : Stack) (a : Nat) : Nat :=
  match k.openRow (hbmBank a) with
  | some r => if r = hbmRow a then 30 else 58
  | none => 44

/-- Whether a stack's controller serves. -/
def State.stackUp (s : State) (n : Nat) : Bool := s.ioUp && !(s.stack n).selfRefresh

/-- Who causes a read of a unit: the running job for an engine, a mover, a Praline unit or a sort unit. -/
def readerOwner (kind : Nat) : Owner := if kind ≤ 2 ∨ kind = 9 then .job else .none

/-- HBM_READ (R210): upsets that struck the words come first, then the read opens its row, as every access does, and every error it meets is
counted and reported (R225 to R233). -/
def execHbmRead (addr : Addr) (len : Nat) (reader : Byte) (readerId : BitVec 16) (upsets : List (Nat × BitVec 39))
    (s : State) : Out :=
  let a := addr.toNat
  let n := hbmStack a
  if ¬ s.variant.hasStack n then .next s
  else if ¬ s.stackUp n ∨ s.stackHeld a then .next s
  else
    let hit := upsets.filter fun u => (wordsOf a len).contains u.1
    let s := { s with mem := hit.foldl (fun (m : Memory) (u : Nat × BitVec 39) => m.upset u.1 u.2) s.mem }
    .next (s.readMem { kind := reader.toNat, id := readerId.toNat, owner := readerOwner reader.toNat } a len).2.2

/-- Whether a stack refreshes at the short interval: its DRAM temperature is above 85 °C (R211). -/
def State.hotDram (s : State) (n : Nat) : Bool := decide (1360 < tempOf (s.pwr.temp.getD (16 + n) 0))

/-- Refresh interval of a stack in nanoseconds (R211). -/
def State.refreshNs (s : State) (n : Nat) : Nat := if s.hotDram n then 1950 else 3900

/-- REFRESH (R211): each bank is refreshed once, which closes its row. -/
def execRefresh (st : StackId) (s : State) : Out :=
  if ¬ s.variant.hasStack st then .next s
  else if ¬ s.stackUp st then .next s
  else .next (s.modStack st fun k => { k with rows := [] })

/-! ### Scrub (R227) -/

/-- Correct every corrected error of a granule, where no word of it is uncorrectable. -/
def Memory.scrubGranule (m : Memory) (a : Nat) : Memory :=
  let ws := m.flawed a 64
  let isUe := fun (w : Nat) => match synClass (m.syn w) with
    | .ue => true
    | _ => false
  let isCe := fun (w : Nat) => match synClass (m.syn w) with
    | .ce _ => true
    | _ => false
  if ws.any isUe then m
  else (ws.filter isCe).foldl (fun m w => (m.setBytes (4 * w) (m.deliver w)).setSyn w 0) m

/-- The device addresses of the granules that a stack's scrubber reads next: one in each pseudo-channel. -/
def State.scrubAt (s : State) (n : Nat) : Nat := n * 0x1000000000 + (s.stack n).scrubPtr * 0x1000

/-- A scrub pass begins anew: the first CE and the first poisoned word of each page count again (R228, R231). -/
def State.newPass (s : State) (n : Nat) : State :=
  { s with rel := { s.rel with
      ceCount := s.rel.ceCount.filter fun x => x.1 / 0x100000 != n
      ceRec := s.rel.ceRec.filter fun x => x.1 / 0x100000 != n
      poisSeen := s.rel.poisSeen.filter fun p => p / 0x100000 != n
      poisRec := s.rel.poisRec.filter fun x => x.1 / 0x100000 != n } }

/-- SCRUB (R227). -/
def execScrub (st : StackId) (s : State) : Out :=
  let n := st.val
  if ¬ s.variant.hasStack n then .next s
  else if ¬ s.stackUp n ∨ ¬ s.regs.scrubEn ∨ s.stackHeld (s.scrubAt n) then .next s
  else
    let a := s.scrubAt n
    let s := s.touchRows a 0x1000
    let s := (s.mem.flawed a 0x1000).foldl (fun s w => s.noteWord { kind := 3, id := n } true w) s
    let s := { s with mem := (List.range 64).foldl (fun (m : Memory) i => m.scrubGranule (a + 64 * i)) s.mem }
    let ptr : Nat := ((s.stack n).scrubPtr + 1) % 0x1000000
    let s := s.modStack n fun k => { k with scrubPtr := ptr }
    .next (if ptr = 0 then s.newPass n else s)

/-! ### Page walks (R216) -/

/-- The reader that a walk reports: the unit whose access needed the translation (Table 8.10). -/
def walkReader : FaultUnit → Reader
  | .engine e => { kind := 0, id := e, owner := .job }
  | .mover m => { kind := 1, id := m, owner := .job }
  | u => coreReader (srcOf u)

/-- PAGE_WALK (R216): the walk ends in a translation that the half's cache keeps, or in one fault cause that the unit
raises. -/
def execPageWalk (h : HalfId) (u : FaultUnit) (ja : Addr) (isWrite staging : Bool) (s : State) : Out :=
  if s.job.cur.isNone ∨ ¬ s.regionUp h ∨ halfOf u ≠ some h.val ∨ (s.faultOf u).isSome then .next s
  else match s.translate h (walkReader u) ja.toNat isWrite staging with
    | (.ok _ _, s) | (.held, s) => .next s
    | (.bad c level e ea, s) => .next (s.raiseFault u (xlateFault ja.toNat c level e ea isWrite))

end Sys2Proof.Machine
end

