-- ==== Sys2Proof/Machine/Messages.lean ====
section
/-! DEFINITION. Received messages of the request, response and management classes (12 R347 to R353). -/

namespace Sys2Proof.Machine

/-- Bad lines of a device range, one mark for each 64 bytes. -/
def State.badLines (s : State) (a len : Nat) : List Bool :=
  (List.range (len / 64)).map fun i => s.mem.anyBad (a + 64 * i) 64

/-- READ_REQ (R348, R349): served from HBM outside the firmware region, whether or not a job runs; any other address
is refused with NAK ADDR. -/
def execReadReq (p : PortId) (s : State) : Out :=
  if ¬ s.variant.hasPort p then .next s
  else match s.headMsg p 1 with
    | none => .next s
    | some (vc, x) =>
      let a := hAddr x.hdr
      let n := hLen x.hdr
      if ¬ s.regionUp 3 then .next s
      else if ¬ s.rangeAll Region.isHbm a n then .next ((s.finishMsg p vc x).answerNak p 9 x.hdr)
      else if s.stackHeld a then .next s
      else
        let marks := s.badLines a n
        let (bs, _, s) := s.readMem { kind := 5, id := p } a n
        match s.originate 2 0 n (hSrc x.hdr) a (hTag x.hdr) (pmapOf marks) bs with
        | (.noRoute, _) => .next s
        | (_, s) => .next (s.finishMsg p vc x)

/-- The outstanding operation that a response of this module answers: its type, TAG and ADDR match. -/
def State.matchOp (s : State) (mtype : Nat) (h : List Byte) : Option PeerOp :=
  s.fab.ops.find? fun o => o.mtype == mtype && o.tag.toNat == hTag h && o.addr.toNat == hAddr h

/-- An operation is no longer outstanding. -/
def State.dropOp (s : State) (o : PeerOp) : State :=
  { s with fab := { s.fab with ops := s.fab.ops.filter fun x => x.tag ≠ o.tag } }

/-- A response that matches nothing outstanding (Table 12.7, code 0x08). -/
def State.unmatched (s : State) (p vc : Nat) (x : Msg) : State := (s.finishMsg p vc x).answerViolation p 8 vc (hTag x.hdr)

/-- READ_RSP (R349): the requesting mover writes the data, its marked lines poisoned; a marked line poisons the mover's
tile. One whose LEN is not that asked for is malformed (Tables 12.6, 12.7). -/
def execReadRsp (p : PortId) (s : State) : Out :=
  if ¬ s.variant.hasPort p then .next s
  else match s.headMsg p 2 with
    | none => .next s
    | some (vc, x) =>
      if ¬ s.regionUp 3 then .next s
      else match s.matchOp 1 x.hdr with
        | none => .next (s.unmatched p vc x)
        | some o =>
          if o.len ≠ hLen x.hdr then .next ((s.finishMsg p vc x).answerNak p 5 x.hdr)
          else
          let s := (s.finishMsg p vc x).dropOp o
          let lines := marksOfPmap x.hdr x.data.length
          match o.mover with
          | none => .next s
          | some m =>
            if (s.mover m).wait ≠ .peer o.tag then .next s
            else
              let s := if lines.any id then s.modMover m fun g => { g with poisoned := true } else s
              .next (s.arriveAt m x.data ((lines.map fun b => List.replicate 16 b).flatten))

/-- Where a WRITE or ATOMIC_ADD lands: its address translated through the running job's table for a write, to local
memory (R348). The port is the reader. -/
def State.peerTarget (s : State) (p : Nat) (ja : Nat) : Option Nat × State :=
  match s.translate 0 { kind := 5, id := p } ja true false with
  | (.ok 0 a, s) => (some a, s)
  | (_, s) => (none, s)

/-- Whether that translation holds, because a table lies in a fenced stack (R233). -/
def State.peerHeld (s : State) (p : Nat) (ja : Nat) : Bool :=
  decide ((s.translate 0 { kind := 5, id := p } ja true false).1 = .held)

/-- WRITE (R348): applied only while a job runs, held while it is pre-empted. -/
def execMsgWrite (p : PortId) (s : State) : Out :=
  if ¬ s.variant.hasPort p then .next s
  else match s.headMsg p 3 with
    | none => .next s
    | some (vc, x) =>
      if ¬ s.regionUp 3 ∨ s.jobAway then .next s
      else if s.job.cur.isNone then .next ((s.finishMsg p vc x).answerNak p 9 x.hdr)
      else if s.peerHeld p (hAddr x.hdr) then .next s
      else match s.peerTarget p (hAddr x.hdr) with
        | (none, s) => .next ((s.finishMsg p vc x).answerNak p 9 x.hdr)
        | (some a, s) =>
          if s.stackHeld a then .next s
          else
            let s := s.writeMarked a x.data
              (wordFlags (x.data.length + 1) a (byteMarks (marksOfPmap x.hdr x.data.length)))
            match s.originate 4 0 0 (hSrc x.hdr) (hAddr x.hdr) (hTag x.hdr) 0 [] with
            | (.noRoute, _) => .next s
            | (_, s) => .next (s.finishMsg p vc x)

/-- ATOMIC_ADD (R348): adds modulo 2^64 and returns the old value; an operand in a bad word marks the response. -/
def execAtomicAdd (p : PortId) (s : State) : Out :=
  if ¬ s.variant.hasPort p then .next s
  else match s.headMsg p 5 with
    | none => .next s
    | some (vc, x) =>
      if ¬ s.regionUp 3 ∨ s.jobAway then .next s
      else if s.job.cur.isNone then .next ((s.finishMsg p vc x).answerNak p 9 x.hdr)
      else if s.peerHeld p (hAddr x.hdr) then .next s
      else match s.peerTarget p (hAddr x.hdr) with
        | (none, s) => .next ((s.finishMsg p vc x).answerNak p 9 x.hdr)
        | (some a, s) =>
          if s.stackHeld a then .next s
          else
            let (old, bad, s') := s.readMem { kind := 5, id := p } a 8
            let mark := b2n (bad || bitOf (hPmap x.hdr) 0)
            let s' := s'.writeMem a (toLe ((leNat old + fieldAt x.data 0 8) % 2 ^ 64) 8)
            match s'.originate 6 0 64 (hSrc x.hdr) (hAddr x.hdr) (hTag x.hdr) mark (padTo old 64) with
            | (.noRoute, _) => .next s
            | (_, s) => .next (s.finishMsg p vc x)

/-- WRITE_ACK (R347). -/
def execWriteAck (p : PortId) (s : State) : Out :=
  if ¬ s.variant.hasPort p then .next s
  else match s.headMsg p 4 with
    | none => .next s
    | some (vc, x) =>
      if ¬ s.regionUp 3 then .next s
      else match s.matchOp 3 x.hdr with
        | none => .next (s.unmatched p vc x)
        | some o =>
          let s := (s.finishMsg p vc x).dropOp o
          match o.mover with
          | some m => .next (s.collCheck m)
          | none => .next s

/-- ATOMIC_RSP (R347, R366): the old value is written to SRC of the ADD64 that asked; while its job is away it is kept for the
resume (R371; log entry 55). -/
def execAtomicRsp (p : PortId) (s : State) : Out :=
  if ¬ s.variant.hasPort p then .next s
  else match s.headMsg p 6 with
    | none => .next s
    | some (vc, x) =>
      if ¬ s.regionUp 3 then .next s
      else match s.matchOp 5 x.hdr with
        | none => .next (s.unmatched p vc x)
        | some o =>
          if o.away then
            let kept := { o with answer := some (x.data.take 8, bitOf (hPmap x.hdr) 0) }
            let s := s.finishMsg p vc x
            .next { s with fab := { s.fab with ops := s.fab.ops.map fun y => if y.tag = o.tag then kept else y } }
          else match o.mover with
          | none => .next ((s.finishMsg p vc x).dropOp o)
          | some m => match (s.mover m).cur, (s.mover m).coll with
            | some t, some c =>
              if (s.mover m).fault.isSome ∨ ¬ s.moverRuns m then .next s
              else match s.jobPut m t c.src (x.data.take 8) (List.replicate 8 (bitOf (hPmap x.hdr) 0)) with
                | .stop s => .next s
                | .ok _ s =>
                  let s := if bitOf (hPmap x.hdr) 0 then s.modMover m fun g => { g with poisoned := true } else s
                  .next (((s.finishMsg p vc x).dropOp o).collCheck m)
            | _, _ => .next ((s.finishMsg p vc x).dropOp o)

/-- MGMT (R348): delivered to the module manager only with FAB_CTRL.MGMT_IN set. -/
def execMgmt (p : PortId) (s : State) : Out :=
  if ¬ s.variant.hasPort p then .next s
  else match s.headMsg p 0xB with
    | none => .next s
    | some (vc, x) =>
      if ¬ s.regionUp 3 then .next s
      else if s.fab.mgmtIn then
        let s := s.finishMsg p vc x
        .next { s with fab := { s.fab with mgmtIn' := s.fab.mgmtIn' ++ [x] } }
      else .next ((s.finishMsg p vc x).answerNak p 0xA x.hdr)

/-- MGMT_RSP (R347): it answers a management request of this module, or matches nothing. -/
def execMgmtRsp (p : PortId) (s : State) : Out :=
  if ¬ s.variant.hasPort p then .next s
  else match s.headMsg p 0xC with
    | none => .next s
    | some (vc, x) =>
      if ¬ s.regionUp 3 then .next s
      else match s.matchOp 0xB x.hdr with
        | none => .next (s.unmatched p vc x)
        | some o =>
          let s := (s.finishMsg p vc x).dropOp o
          .next { s with fab := { s.fab with mgmtIn' := s.fab.mgmtIn' ++ [x] } }

/-- PEER_NAK at a mover (R353). -/
def State.peerNak (s : State) (m : MoverId) (h : List Byte) : State :=
  match (s.mover m).cur with
  | none => s
  | some t =>
    if (s.mover m).fault.isSome then s
    else
      let s := s.modMover m fun g => { g with wait := if g.coll.isSome then .coll else .none }
      s.moverFault m t { addrFault fPeerNak (hAddr h) 3 false with nak := BitVec.ofNat 8 (hFlags h) }

/-- The mover whose collective message a NAK refuses: the CID is its own and the NAK comes from a neighbour of its
group. -/
def State.nakedColl (s : State) (h : List Byte) : Option MoverId :=
  match s.collOf (hCid h) with
  | some m => match (s.mover m).coll with
    | some c => if c.started ∧ hStep h ≤ c.sendStep ∧ (hSrc h = c.down ∨ hSrc h = c.up) then some m else none
    | none => none
  | none => none

/-- NAK (R353, R354): one that matches nothing outstanding is dropped and counted, and nothing is sent in reply. -/
def execNak (p : PortId) (s : State) : Out :=
  if ¬ s.variant.hasPort p then .next s
  else match s.headMsg p 0xD with
    | none => .next s
    | some (vc, x) =>
      if ¬ s.regionUp 3 then .next s
      else
        let s := s.finishMsg p vc x
        match s.fab.ops.find? fun o => o.tag.toNat == hTag x.hdr && o.addr.toNat == hAddr x.hdr with
        | some o =>
          let s := s.dropOp o
          (match o.mover with
           | some m => if o.away then .next s else .next (s.peerNak m x.hdr)
           | none => .next s)
        | none => match s.nakedColl x.hdr with
          | some m => .next (s.peerNak m x.hdr)
          | none => .next (s.portViolation p 8)

end Sys2Proof.Machine
end

