-- ==== Sys2Proof/Machine/Registers.lean ====
section
/-! DEFINITION. Writes of the set-up registers in BAR0 (17 R484 to R498; 00 R8 to R10; 10 R265, R271, R276). -/

namespace Sys2Proof.Machine

/-! ### The maps: which offsets name a register, and which bits it lists -/

/-- A register lists all of its 32 bits. -/
def allBits : Word := 0xFFFFFFFF

/-- The listed bits of a HIF register (Table 17.5). -/
def hifBits (o : Nat) : Option Word :=
  match o with
  | 0x00 => some 0x001F0F11 | 0x08 => some 0xF0000000 | 0x0C => some 0x0000FFFF | 0x10 => some 0x00FFFFFF
  | 0x14 => some 0x000007FF
  | 0x20 | 0x24 | 0x28 | 0x2C | 0x30 => some allBits
  | _ => none

/-- The listed bits of a RING register (Table 17.6). -/
def ringBits (o : Nat) : Option Word :=
  match o with
  | 0x00 => some 0xFFFFF000 | 0x04 => some allBits | 0x08 => some 0x9F1FFFFF | 0x0C => some 0x000007FF
  | 0x10 => some 0xFFFFFFF8 | 0x14 => some allBits | 0x18 => some 1 | 0x1C => some 0xE1FFFFFF | 0x20 => some 0x00FFFFFF
  | _ => none

/-- The listed bits of a DMA register (Table 17.7). -/
def dmaBits (v : Variant) (o : Nat) : Option Word :=
  if o = 0 then some 0x7FF
  else if 0x100 ≤ o ∧ o < 0x700 then
    if ¬ v.hasMover ((o - 0x100) / 0x20) then none
    else match o % 0x20 with
      | 0x00 => some 0xFF018001
      | 0x08 | 0x0C | 0x10 | 0x14 => some allBits
      | _ => none
  else none

/-- The listed bits of a MEM register (Table 17.8); MEM_STACK_STATEn belongs to the block (R477). -/
def memBits (o : Nat) : Option Word :=
  match o with
  | 0x00 => some 0x3F | 0x04 => some 1 | 0x08 => some 0xFF | 0x0C => some 0xFFFF | 0x10 => some 0x1F
  | 0x20 | 0x24 | 0x28 => some allBits
  | _ => if 0x40 ≤ o ∧ o < 0x80 then some 0xFFFFF003 else none

/-- The listed bits of an engine's ENG register (Table 17.9, R236). -/
def engBits (o : Nat) : Option Word :=
  if o = 0 then some 0x00FF0107
  else if 0x100 ≤ o ∧ o < 0x140 then some allBits
  else if 0x200 ≤ o ∧ o < 0x228 then some 0x00FFFFFF
  else if o = 0x240 then some allBits
  else if 0x408 ≤ o ∧ o < 0x4B0 then some (if o % 8 = 0 then allBits else 0x0000FFFF)
  else none

/-- The listed bits of an SFU register (Table 17.10). -/
def sfuBits (o : Nat) : Option Word :=
  match o with
  | 0x00 | 0x08 => some allBits
  | 0x04 => some 3
  | _ => none

/-- The listed bits of a global FAB register, and of one of a port (Table 17.11). -/
def fabBits (o : Nat) : Option Word :=
  match o with
  | 0x00 => some 0x3FF | 0x08 => some allBits | 0x0C => some 0x0FFFFFFF | 0x10 => some allBits | 0x14 => some 0
  | 0x18 | 0x1C | 0x20 | 0x24 | 0x28 | 0x2C => some 0x80003FFF
  | 0x30 | 0x38 => some 0xFFFF | 0x34 => some 0x000FFFFF | 0x40 => some allBits
  | _ => none
def portBits' (o : Nat) : Option Word :=
  match o with
  | 0x00 => some 0x3FFF0F17
  | 0x10 | 0x14 | 0x18 | 0x1C | 0x20 | 0x24 | 0x28 => some allBits
  | _ => none

/-- The listed bits of a CDC register (Table 17.12). -/
def cdcBits (o : Nat) : Option Word :=
  match o with
  | 0x00 | 0x10 | 0x14 => some allBits
  | 0x04 => some 0x3F0F
  | _ => if 0x100 ≤ o ∧ o < 0x180 then some 0xFFF else none

/-- The listed bits of a PWR register (Table 17.13). -/
def pwrBits (v : Variant) (o : Nat) : Option Word :=
  match o with
  | 0x00 => some 0x000F0FFF | 0x04 => some 0xFFFF | 0x10 | 0x14 | 0x18 => some 0xFF
  | 0x20 | 0x24 | 0x28 | 0x2C => some allBits
  | 0x30 => some 0x00FFFFFF | 0x34 | 0x38 => some 0xFF | 0x3C => some 7 | 0x40 => some allBits
  | _ =>
    if 0x100 ≤ o ∧ o < 0x130 then
      (if (o - 0x100) / 4 < 8 + v.ioDies then some 0x8000FFFF else none)
    else if 0x200 ≤ o ∧ o < 0x280 then (if v.hasSensor ((o - 0x200) / 4) then some 0xFFFF else none)
    else none

/-- The listed bits of an ERR register (Table 17.14). -/
def errBits (o : Nat) : Option Word :=
  match o with
  | 0x00 => some 1 | 0x04 => some 0x001F0001
  | 0x10 | 0x14 | 0x18 => some allBits
  | 0x40 | 0x44 | 0x48 | 0x4C | 0x50 => some allBits
  | 0x60 | 0x64 | 0x68 | 0x6C | 0x70 => some allBits
  | _ => none

/-- The listed bits of a SEC register (Table 17.15). -/
def secBits (o : Nat) : Option Word :=
  match o with
  | 0x00 => some 0x007F7F07
  | 0x04 | 0x08 | 0x10 => some allBits
  | _ => none

/-- The listed bits of an MGT register (Table 17.16). -/
def mgtBits (o : Nat) : Option Word :=
  match o with
  | 0x00 => some 0xFFFF0317 | 0x04 => some 1 | 0x08 => some allBits | 0x0C => some 0xFFFF | 0x10 => some allBits
  | 0x14 => some 0x00FFFFFF | 0x18 => some 7 | 0x1C => some 0x3F
  | _ => none

/-- The blocks of Table 17.4, with the instance and the offset within it; and the MSI-X tables and pending-bit arrays
of Table 10.2. -/
inductive Reg where
  | hif (o : Nat)
  | ring (r o : Nat)
  | dma (o : Nat)
  | mem (o : Nat)
  | engCtrl
  | course (c o : Nat)
  | engine (e o : Nat)
  | sfu (e o : Nat)
  | fab (o : Nat)
  | port (p o : Nat)
  | cdc (e o : Nat)
  | pwr (o : Nat)
  | err (o : Nat)
  | sec (o : Nat)
  | mgt (o : Nat)
  | msix (vec o : Nat)
  | pba
  | nowhere
  deriving DecidableEq, Repr

/-- The place of a BAR0 offset of PF0. The views of the PF1 blocks name no register for a write (R484). -/
def place0 (a : Nat) : Reg :=
  if a < 0x10000 then .hif a
  else if a < 0x14000 then .ring ((a - 0x10000) / 0x100) (a % 0x100)
  else if 0x20000 ≤ a ∧ a < 0x30000 then .dma (a - 0x20000)
  else if 0x30000 ≤ a ∧ a < 0x40000 then .mem (a - 0x30000)
  else if a = 0xF0000 then .engCtrl
  else if 0xF8000 ≤ a ∧ a < 0xF8800 then .course ((a - 0xF8000) / 0x100) (a % 0x100)
  else if 0x100000 ≤ a ∧ a < 0x500000 then .engine ((a - 0x100000) / 0x10000) (a % 0x10000)
  else if 0x500000 ≤ a ∧ a < 0x504000 then .sfu ((a - 0x500000) / 0x100) (a % 0x100)
  else if 0x600000 ≤ a ∧ a < 0x601000 then .fab (a - 0x600000)
  else if 0x601000 ≤ a ∧ a < 0x601800 then .port ((a - 0x601000) / 0x100) (a % 0x100)
  else if 0x700000 ≤ a ∧ a < 0x720000 then .cdc ((a - 0x700000) / 0x10000) (a % 0x10000)
  else if 0xF00000 ≤ a ∧ a < 0xF08000 then .msix ((a - 0xF00000) / 16) (a % 16)
  else if 0xF80000 ≤ a ∧ a < 0xF80100 then .pba
  else .nowhere

/-- The place of a BAR0 offset of PF1. -/
def place1 (a : Nat) : Reg :=
  if 0x10000 ≤ a ∧ a < 0x10200 then .ring (64 + (a - 0x10000) / 0x100) (a % 0x100)
  else if 0x20000 ≤ a ∧ a < 0x30000 then .pwr (a - 0x20000)
  else if 0x30000 ≤ a ∧ a < 0x40000 then .err (a - 0x30000)
  else if 0x40000 ≤ a ∧ a < 0x50000 then .sec (a - 0x40000)
  else if 0x50000 ≤ a ∧ a < 0x60000 then .mgt (a - 0x50000)
  else if 0xF0000 ≤ a ∧ a < 0xF0400 then .msix ((a - 0xF0000) / 16) (a % 16)
  else if 0xF8000 ≤ a ∧ a < 0xF8008 then .pba
  else .nowhere

def placeOf (fn : PFn) (a : Nat) : Reg :=
  match fn with
  | .pf0 => place0 a
  | .pf1 => place1 a

/-- The listed bits of a place; none where it names no register, or one of an instance that the variant lacks (R477). -/
def Reg.bits (v : Variant) : Reg → Option Word
  | .hif o => hifBits o
  | .ring r o => if v.hasRing r then ringBits o else none
  | .dma o => dmaBits v o
  | .mem o => memBits o
  | .engCtrl => some 1
  | .course _ o => if o < 0x18 then some allBits else none
  | .engine _ o => engBits o
  | .sfu _ o => sfuBits o
  | .fab o => fabBits o
  | .port p o => if v.hasPort p then portBits' o else none
  | .cdc e o => if v.hasCodec e then cdcBits o else none
  | .pwr o => pwrBits v o
  | .err o => errBits o
  | .sec o => secBits o
  | .mgt o => mgtBits o
  | .msix _ o => if o = 12 then some 1 else some allBits
  | .pba => some allBits
  | .nowhere => none

/-! ### Storing by type (R8) -/

/-- Clear the bits written as one (R8, R9). -/
def w1c (c v : Word) : Word := c &&& ~~~v

/-- The low or high half of a 64-bit register. -/
def putLow (r : DWord) (v : Word) : DWord := r.extractLsb' 32 32 ++ v
def putHigh (r : DWord) (v : Word) : DWord := v ++ r.extractLsb' 0 32

def Hif.put (h : Hif) (o : Nat) (v : Word) : Hif :=
  match o with
  | 0x08 => { h with bar4Base := putLow h.bar4Base v }
  | 0x0C => { h with bar4Base := putHigh h.bar4Base v }
  | 0x10 => { h with evroute := v.setWidth 24 }
  | 0x14 => { h with doeVec := v.setWidth 11 }
  | 0x20 => { h with violCnt := w1c h.violCnt v }
  | 0x24 => { h with dbBad := w1c h.dbBad v }
  | 0x28 => { h with dbReject := w1c h.dbReject v }
  | 0x2C => { h with evqHold := w1c h.evqHold v }
  | 0x30 => { h with evqDrop := w1c h.evqDrop v }
  | _ => h

/-- The set-up fields of a ring; RING_CTRL acts apart. -/
def Ring.put (g : Ring) (o : Nat) (v : Word) : Ring :=
  match o with
  | 0x00 => { g with base := putLow g.base v }
  | 0x04 => { g with base := putHigh g.base v }
  | 0x08 => { g with pv := v.getLsbD 31, log2s := bitsOf v.toNat 24 5, loc := v.getLsbD 20, pasid := v.setWidth 20 }
  | 0x0C => { g with vec := v.setWidth 11 }
  | 0x10 => { g with shadow := putLow g.shadow v }
  | 0x14 => { g with shadow := putHigh g.shadow v }
  | _ => g

def MemRegs.put (m : MemRegs) (o : Nat) (v : Word) : MemRegs :=
  match o with
  | 0x00 => { m with jobMib := v.toNat }
  | 0x04 => { m with scrubEn := v.getLsbD 0 }
  | 0x08 => { m with ceRetire := v.toNat }
  | 0x0C => { m with stackLimit := v.toNat }
  | 0x10 => { m with pralineShare := v.toNat }
  | 0x20 => { m with ceCnt := w1c m.ceCnt v }
  | 0x24 => { m with ueCnt := w1c m.ueCnt v }
  | 0x28 => { m with poisonCnt := w1c m.poisonCnt v }
  | _ => m

def Fab.put (f : Fab) (o : Nat) (v : Word) : Fab :=
  match o with
  | 0x08 => { f with topo := putLow f.topo v }
  | 0x0C => { f with topo := putHigh f.topo v }
  | 0x10 => { f with linkmap := putLow f.linkmap v }
  | 0x30 => { f with trainTo := v.setWidth 16 }
  | 0x34 => { f with retryTimeout := v.setWidth 16, retryLimit := bitsOf v.toNat 16 4 }
  | 0x38 => { f with violLimit := v.setWidth 16 }
  | 0x40 => { f with collOvf := w1c f.collOvf v }
  | _ => if 0x18 ≤ o ∧ o < 0x30 then { f with nbr := f.nbr.set ((o - 0x18) / 4) v } else f

/-- A port's counters; once FAB_VIOL_CNT or FAB_NAK_CNT is clear, the first violation of each of its codes is posted again
(R354). -/
def Port.put (g : Port) (o : Nat) (v : Word) : Port :=
  match o with
  | 0x10 =>
    let n := w1c g.violCnt v
    { g with violCnt := n, seenCodes := if n = 0 then g.seenCodes.filter (8 < ·) else g.seenCodes }
  | 0x14 =>
    let n := w1c g.nakCnt v
    { g with nakCnt := n, seenCodes := if n = 0 then g.seenCodes.filter (· ≤ 8) else g.seenCodes }
  | 0x18 => { g with violRx := w1c g.violRx v }
  | 0x1C => { g with stale := w1c g.stale v }
  | 0x20 => { g with fecCe := w1c g.fecCe v }
  | 0x24 => { g with fecUe := w1c g.fecUe v }
  | 0x28 => { g with replay := w1c g.replay v }
  | _ => g

def Codec.put (c : Codec) (o : Nat) (v : Word) : Codec :=
  match o with
  | 0x10 => { c with poolWait := w1c c.poolWait v }
  | 0x14 => { c with rcOver := w1c c.rcOver v }
  | _ => c

def Pwr.put (p : Pwr) (o : Nat) (v : Word) : Pwr :=
  match o with
  | 0x30 => { p with creditCap := v.setWidth 24 }
  | 0x34 => { p with tsoft := v.toNat }
  | 0x38 => { p with thot := v.toNat }
  | 0x3C => { p with hotClass := v.toNat }
  | 0x40 => { p with uvCnt := w1c p.uvCnt v }
  | _ =>
    if 0x20 ≤ o ∧ o < 0x30 then
      let k := (o - 0x20) / 4
      { p with ecost := (p.ecost.set (2 * k) (v.setWidth 16)).set (2 * k + 1) (v.extractLsb' 16 16) }
    else p

def Rel.put (x : Rel) (o : Nat) (v : Word) : Rel :=
  match o with
  | 0x00 => { x with pinnedRemap := v.getLsbD 0 }
  | 0x10 => { x with regViol := w1c x.regViol v }
  | 0x14 => { x with queueOvf := w1c x.queueOvf v }
  | 0x18 => { x with leaseStale := w1c x.leaseStale v }
  | _ =>
    if 0x40 ≤ o ∧ o < 0x54 then { x with pinGlitch := modifyNth (fun c => w1c c v) x.pinGlitch ((o - 0x40) / 4) }
    else if 0x60 ≤ o ∧ o < 0x74 then { x with pinStuck := modifyNth (fun c => w1c c v) x.pinStuck ((o - 0x60) / 4) }
    else x

def Mgt.put (m : Mgt) (o : Nat) (v : Word) : Mgt :=
  match o with
  | 0x08 => { m with wdogLimit := v }
  | 0x0C => { m with leaseTerm := v.toNat }
  | 0x14 => { m with handoverWindows := v.toNat }
  | 0x1C => { m with doeVec := v.toNat }
  | _ => m

/-- A word of an MSI-X table entry (log entry 13). -/
def Msix.put (e : Msix) (o : Nat) (v : Word) : Msix :=
  match o with
  | 0 => { e with addr := putLow e.addr v }
  | 4 => { e with addr := putHigh e.addr v }
  | 8 => { e with data := v }
  | _ => { e with masked := v.getLsbD 0 }

/-- Count an access in ERR_REG_VIOL. -/
def State.countViol (s : State) : State := { s with rel := { s.rel with regViol := satAdd s.rel.regViol 1 } }

/-! ### Fields that act when written -/

/-- Whether an enable is refused (R487, R455): READY 0; recovery, on PF0; LOC on an event ring, with a base that has
bits above 47, or with slots outside HBM or in the firmware region. A ring spans less than a region, so its ends show
where it lies. -/
def State.enableRefused (s : State) (r : Nat) : Bool :=
  let g := s.ring r
  let base := g.base.toNat
  !s.mgt.ready || (s.mgt.recovery && decide (r < 64)) ||
  (g.loc && (eventRing r || decide (2 ^ 48 ≤ base) || !(s.region base).isHbm ||
    !(s.region (base + g.size * slotSize r - 1)).isHbm))

/-- Check every descriptor that a ring has fetched. -/
def State.checkAll : Nat → State → Nat → State
  | 0, s, _ => s
  | n + 1, s, r => State.checkAll n (s.checkOldest r) r

/-- Put the records that the manager holds for the PF1 event ring before those that wait there, under the ring's bound of
64 (R296, R473, R474). -/
def State.releaseHeld (s : State) : State :=
  let waiting := s.mgt.held ++ (s.ring 65).evq
  let s := State.modRing { s with mgt := { s.mgt with held := [] } } 65 fun g => { g with evq := [] }
  waiting.foldl (fun s x => s.enqueue 65 x) s

/-- Enable a ring (R276): LAST and CI become zero, and no halt stands. What it fetched before completes; its reads in
flight go. -/
def State.enableRing (s : State) (r : Nat) : State :=
  let s := State.checkAll (s.ring r).fetched.length s r
  let reads := s.hif.reads.filter fun x => match x.who with
    | .ring q _ _ => q.val != r
    | .mover _ => true
  let s := State.modRing { s with hif := { s.hif with reads } } r fun g =>
    { g with en := true, disabling := false, ci := 0, last := 0, halted := false, hcause := 0, refused := false,
             reading := false, held := none, posted := g.held.toList ++ g.posted, armed := false }
  if r = 65 then s.releaseHeld else s

/-- A write of RING_CTRL.EN (R276, R487); a refused enable changes nothing. The job ring's disable waits for the running
job. -/
def State.writeEn (s : State) (r : Nat) (en : Bool) : State :=
  let g := s.ring r
  if en then
    if g.en then s.modRing r fun g => { g with disabling := false }
    else if s.enableRefused r then s
    else s.enableRing r
  else if r = 0 ∧ s.job.cur.isSome then s.modRing r fun g => { g with disabling := g.en }
  else s.modRing r fun g => { g with en := false, disabling := false }

/-- A write of FAB_CTRL (R333, R492): a port whose bit is set trains; one whose bit is cleared idles its lanes at once. -/
def State.writeFabCtrl (s : State) (v : Word) : State :=
  let old := s.fab.portEn
  let s := { s with fab := { s.fab with portEn := v.setWidth 8, allowX4 := v.getLsbD 8, mgmtIn := v.getLsbD 9 } }
  (List.range 8).foldl (fun s p =>
    if ¬ s.variant.hasPort p ∨ old.getLsbD p = v.getLsbD p then s
    else if v.getLsbD p then s.modPort p Port.retrain
    else s.modPort p fun g => { g.retrain with state := 0 }) s

/-- A write of DEBUG_EN (R490, R497): each change from 0 to 1 extends MR6. -/
def State.writeDebug (s : State) (en : Bool) : State :=
  let rise := en && !s.regs.debugEn
  let s := { s with regs := { s.regs with debugEn := en } }
  if rise then State.extendMr { s with sec := { s.sec with debugSeen := true } } 6 10 0 Config.debugDigest else s

/-- What one word of an access stores, where its place names a register; `v` has the listed bits alone. -/
def State.putReg (s : State) (fn : PFn) (x : Reg) (v : Word) : State :=
  match x with
  | .hif o => { s with hif := s.hif.put o v }
  | .ring r o => if o = 0x18 then s.writeEn r (v.getLsbD 0) else s.modRing r fun g => g.put o v
  | .dma o => if o = 0 then { s with hif := { s.hif with maxRd := v.setWidth 11 } } else s
  | .mem o => { s with regs := s.regs.put o v }
  | .engCtrl => s.writeDebug (v.getLsbD 0)
  | .course .. | .engine .. | .sfu .. => s
  | .fab o => if o = 0 then s.writeFabCtrl v else { s with fab := s.fab.put o v }
  | .port p o => s.modPort p fun g => g.put o v
  | .cdc e o => { s with codecs := modifyNth (fun c => c.put o v) s.codecs e }
  | .pwr o => { s with pwr := s.pwr.put o v }
  | .err o => { s with rel := s.rel.put o v }
  | .sec o => if o = 0x10 then { s with sec := { s.sec with ghRefuse := w1c s.sec.ghRefuse v } } else s
  | .mgt o => if o = 0x04 then (if v.getLsbD 0 then s.askReset .reg else s) else { s with mgt := s.mgt.put o v }
  | .msix vec o =>
    let k := State.msixKey fn vec
    { s with hif := { s.hif with msix := store {} s.hif.msix k ((look {} s.hif.msix k).put o v) } }
  | .pba | .nowhere => s

/-! ### An access -/

/-- Every set-up field lies within its stated range (R485, R487, R489, R492, R495, R498). -/
def State.fieldsOk (s : State) : Bool :=
  let t := s.fab.topo.toNat
  let size := fun d => bitsOf t (10 * d) 10 + 1
  decide (s.regs.jobMib ≤ 56) && decide (1 ≤ s.regs.stackLimit) && decide (s.regs.pralineShare ≤ 16) &&
  decide (1 ≤ s.hif.maxRd.toNat) && decide (s.hif.maxRd.toNat ≤ 1024) &&
  s.rings.all (fun g => decide (4 ≤ g.log2s) && decide (g.log2s ≤ 16)) &&
  decide (size 0 * size 1 * size 2 ≤ 16384) && (List.range 3).all (fun d => decide (bitsOf t (30 + 10 * d) 10 < size d)) &&
  decide (1 ≤ s.fab.trainTo.toNat) && decide (256 ≤ s.fab.retryTimeout.toNat) && decide (1 ≤ s.fab.retryLimit) &&
  decide (s.pwr.tsoft < s.pwr.thot) && decide (s.pwr.thot ≤ 105) && decide (4 ≤ s.mgt.leaseTerm)

/-- The set-up fields of a ring (R276). -/
def Ring.setup (g : Ring) : DWord × Bool × Nat × Bool × BitVec 20 × DWord × BitVec 11 :=
  (g.base, g.pv, g.log2s, g.loc, g.pasid, g.shadow, g.vec)

/-- An access would change a set-up field of an enabled ring (R276). -/
def State.setupFixed (s t : State) : Bool :=
  (s.rings.zip t.rings).all fun (x : Ring × Ring) => !x.1.en || decide (x.1.setup = x.2.setup)

/-- The words of an access: byte offset and value. -/
def accessWords (off : Nat) (size8 : Bool) (value : DWord) : List (Nat × Word) :=
  if size8 then [(off, value.extractLsb' 0 32), (off + 4, value.extractLsb' 32 32)] else [(off, value.extractLsb' 0 32)]

/-- A word writes what its map does not list: no register there, an absent instance, or reserved bits (R8, R477). -/
def State.strays (s : State) (fn : PFn) (w : Nat × Word) : Bool :=
  match (placeOf fn w.1).bits s.variant with
  | none => true
  | some m => w.2 &&& ~~~m != 0

/-- A word asks for an enable that is refused (R487). -/
def State.refusesEn (s : State) (fn : PFn) (w : Nat × Word) : Bool :=
  match placeOf fn w.1 with
  | .ring r o => o == 0x18 && s.variant.hasRing r && w.2.getLsbD 0 && !(s.ring r).en && s.enableRefused r
  | _ => false

/-- Store one word of an access. -/
def State.putWord (s : State) (fn : PFn) (w : Nat × Word) : State :=
  match (placeOf fn w.1).bits s.variant with
  | none => s
  | some m => s.putReg fn (placeOf fn w.1) (w.2 &&& m)

/-- A write of BAR0 (R8, R276, R477, R484, R485): an access that would put a field outside its range, or change a set-up
field of an enabled ring, is discarded whole; that, a refused enable, or anything it writes beside the listed fields, counts
once. Topology
and link map take force at once while no job runs (R493); messages of vectors no longer masked go out (R271). -/
def State.regWrite (s : State) (fn : PFn) (off : Nat) (size8 : Bool) (value : DWord) : State :=
  let ws := accessWords off size8 value
  let t := ws.foldl (fun t w => t.putWord fn w) s
  if t.fieldsOk && s.setupFixed t then
    let t := if ws.any fun w => s.strays fn w || s.refusesEn fn w then t.countViol else t
    let t := if t.fab.topo = s.fab.topo ∧ t.fab.linkmap = s.fab.linkmap ∧ t.fab.nbr = s.fab.nbr then t
      else if t.job.cur.isSome then t else t.applyTopo
    if t.hif.msix = s.hif.msix then t else t.drainPba
  else s.countViol

/-- A register write where the host reaches the module. -/
def State.hostRegWrite (s : State) (fn : PFn) (off : Nat) (size8 : Bool) (value : DWord) : Out :=
  if s.hostUp then .next (s.regWrite fn off size8 value) else .next s

/-! ### The commands -/

/-- RING_ENABLE (R276, R487): a write of RING_CTRL. -/
def execRingEnable (fn : PFn) (ring : RingId) (value : Word) (s : State) : Out :=
  let r := ring.val
  s.hostRegWrite fn (0x10018 + 0x100 * (if r < 64 then r else r - 64)) false (value.setWidth 64)

/-- BAR4_BASE_WRITE (R265). -/
def execBar4BaseWrite (value : DWord) (s : State) : Out := s.hostRegWrite .pf0 0x8 true value

/-- DEBUG_EN_WRITE (R490). -/
def execDebugEnWrite (value : Word) (s : State) : Out := s.hostRegWrite .pf0 0xF0000 false (value.setWidth 64)

/-- PORT_EN_WRITE (R492). -/
def execPortEnWrite (value : Word) (s : State) : Out := s.hostRegWrite .pf0 0x600000 false (value.setWidth 64)

/-- FAB_TOPO_WRITE (R493): FAB_TOPO, FAB_LINKMAP, or the FAB_LINKMAP_NBR of a direction. -/
def execFabTopoWrite (r : FabMapReg) (value : DWord) (s : State) : Out :=
  match r with
  | .topo => s.hostRegWrite .pf0 0x600008 true value
  | .linkmap => s.hostRegWrite .pf0 0x600010 true value
  | .nbr d => s.hostRegWrite .pf0 (0x600018 + 4 * d) false value

/-- W1C_COUNTER_WRITE (R485). -/
def execW1cCounterWrite (fn : PFn) (off : BitVec 24) (value : Word) (s : State) : Out :=
  s.hostRegWrite fn off.toNat false (value.setWidth 64)

/-- REGISTER_WRITE (R8, R10, R485). -/
def execRegisterWrite (fn : PFn) (off : BitVec 24) (size8 : Bool) (value : DWord) (s : State) : Out :=
  s.hostRegWrite fn off.toNat size8 value

/-- MOD_RST (R498): a write of MGT_CTRL. -/
def execModRst (value : Word) (s : State) : Out := s.hostRegWrite .pf1 0x50004 false (value.setWidth 64)

end Sys2Proof.Machine
end

