-- ==== Sys2Proof/Machine/Dispatch.lean ====
section
/-! DEFINITION. Which meaning each command has: one arm per constructor. -/

namespace Sys2Proof.Machine

/-- The effect of a command on everything but the queue. -/
def exec (i : Instr) (s : State) : Host.Outcome State Fault Refusal :=
  match i with
  | .doorbell ring data => Sys2Proof.Machine.execDoorbell ring data s
  | .eventDoorbell ring data => Sys2Proof.Machine.execEventDoorbell ring data s
  | .descriptorFetch ring => Sys2Proof.Machine.execDescriptorFetch ring s
  | .descriptorCheck ring => Sys2Proof.Machine.execDescriptorCheck ring s
  | .completionTimeout tag => Sys2Proof.Machine.execCompletionTimeout tag s
  | .readCompletion tag status data => Sys2Proof.Machine.execReadCompletion tag status data s
  | .recordWrite ring => Sys2Proof.Machine.execRecordWrite ring s
  | .bar4Read off len rid => Sys2Proof.Machine.execBar4Read off len rid s
  | .bar4Write off data be ep rid => Sys2Proof.Machine.execBar4Write off data be ep rid s
  | .hostProtocolViolation v fn rid fmtType addr => Sys2Proof.Machine.execHostProtocolViolation v fn rid fmtType addr s
  | .configRequest fn isWrite reg data => Sys2Proof.Machine.execConfigRequest fn isWrite reg data s
  | .atsTranslationCompletion m res => Sys2Proof.Machine.execAtsTranslationCompletion m res s
  | .atsInvalidate pasid addr size => Sys2Proof.Machine.execAtsInvalidate pasid addr size s
  | .pageRequestResponse m code => Sys2Proof.Machine.execPageRequestResponse m code s
  | .flrPf0 => Sys2Proof.Machine.execFlrPf0 s
  | .flrPf1 => Sys2Proof.Machine.execFlrPf1 s
  | .d3hot => Sys2Proof.Machine.execD3hot s
  | .hostInterfaceReset => Sys2Proof.Machine.execHostInterfaceReset s
  | .perstNRelease samples => Sys2Proof.Machine.execPerstNRelease samples s
  | .linkDown => Sys2Proof.Machine.execLinkDown s
  | .job host => Sys2Proof.Machine.execJob host s
  | .jobCompletion => Sys2Proof.Machine.execJobCompletion s
  | .imgVerify fn host => Sys2Proof.Machine.execImgVerify fn host s
  | .tsetVerify fn host => Sys2Proof.Machine.execTsetVerify fn host s
  | .handleRelease fn => Sys2Proof.Machine.execHandleRelease fn s
  | .preempt fn => Sys2Proof.Machine.execPreempt fn s
  | .cancel fn => Sys2Proof.Machine.execCancel fn s
  | .fwStage fn host => Sys2Proof.Machine.execFwStage fn host s
  | .fwActivate fn => Sys2Proof.Machine.execFwActivate fn s
  | .setCeiling fn => Sys2Proof.Machine.execSetCeiling fn s
  | .portFence fn => Sys2Proof.Machine.execPortFence fn s
  | .portUnfence fn => Sys2Proof.Machine.execPortUnfence fn s
  | .retireRead fn => Sys2Proof.Machine.execRetireRead fn s
  | .logRead fn => Sys2Proof.Machine.execLogRead fn s
  | .jobdomSet fn => Sys2Proof.Machine.execJobdomSet fn s
  | .windowSet fn => Sys2Proof.Machine.execWindowSet fn s
  | .mctpRequest viaI3c desc host => Sys2Proof.Machine.execMctpRequest viaI3c desc host s
  | .doeDiscovery fn index => Sys2Proof.Machine.execDoeDiscovery fn index s
  | .getCerts fn => Sys2Proof.Machine.execGetCerts fn s
  | .getLog fn first count => Sys2Proof.Machine.execGetLog fn first count s
  | .report fn nonce => Sys2Proof.Machine.execReport fn nonce s
  | .ownerClaim fn key => Sys2Proof.Machine.execOwnerClaim fn key s
  | .slotWrite fn payload => Sys2Proof.Machine.execSlotWrite fn payload s
  | .svnCommit fn => Sys2Proof.Machine.execSvnCommit fn s
  | .range host => Sys2Proof.Machine.execRange host s
  | .movers host => Sys2Proof.Machine.execMovers host s
  | .sort host => Sys2Proof.Machine.execSort host s
  | .sortComplete c => Sys2Proof.Machine.execSortComplete c s
  | .barrier => Sys2Proof.Machine.execBarrier s
  | .stepEnd host => Sys2Proof.Machine.execStepEnd host s
  | .stepCommand h epoch => Sys2Proof.Machine.execStepCommand h epoch s
  | .encodeList host => Sys2Proof.Machine.execEncodeList host s
  | .tileClaim e => Sys2Proof.Machine.execTileClaim e s
  | .dispatch e => Sys2Proof.Machine.execDispatch e s
  | .stagingFill e => Sys2Proof.Machine.execStagingFill e s
  | .planeLoad e => Sys2Proof.Machine.execPlaneLoad e s
  | .planeSwitch e => Sys2Proof.Machine.execPlaneSwitch e s
  | .tableSetLoad e => Sys2Proof.Machine.execTableSetLoad e s
  | .agBeat e g => Sys2Proof.Machine.execAgBeat e g s
  | .brickNop e row col => Sys2Proof.Machine.execBrickNop e row col s
  | .mac e row col => Sys2Proof.Machine.execMac e row col s
  | .pass e row col => Sys2Proof.Machine.execPass e row col s
  | .ldw e row col => Sys2Proof.Machine.execLdw e row col s
  | .emax e row col => Sys2Proof.Machine.execEmax e row col s
  | .eadd e row col => Sys2Proof.Machine.execEadd e row col s
  | .vecNop e => Sys2Proof.Machine.execVecNop e s
  | .vecIn e => Sys2Proof.Machine.execVecIn e s
  | .vecOut e => Sys2Proof.Machine.execVecOut e s
  | .vecAdd e => Sys2Proof.Machine.execVecAdd e s
  | .vecSub e => Sys2Proof.Machine.execVecSub e s
  | .vecMul e => Sys2Proof.Machine.execVecMul e s
  | .vecMax e => Sys2Proof.Machine.execVecMax e s
  | .vecMin e => Sys2Proof.Machine.execVecMin e s
  | .vecSfu e => Sys2Proof.Machine.execVecSfu e s
  | .sfuEvaluation e => Sys2Proof.Machine.execSfuEvaluation e s
  | .vecRmax e => Sys2Proof.Machine.execVecRmax e s
  | .vecRsum e => Sys2Proof.Machine.execVecRsum e s
  | .vecConst e => Sys2Proof.Machine.execVecConst e s
  | .vecCvt e => Sys2Proof.Machine.execVecCvt e s
  | .vecSel e => Sys2Proof.Machine.execVecSel e s
  | .vecLoop e => Sys2Proof.Machine.execVecLoop e s
  | .vecEnd e => Sys2Proof.Machine.execVecEnd e s
  | .phaseEnd e => Sys2Proof.Machine.execPhaseEnd e s
  | .setSwap e => Sys2Proof.Machine.execSetSwap e s
  | .drain e => Sys2Proof.Machine.execDrain e s
  | .writeBack e => Sys2Proof.Machine.execWriteBack e s
  | .commit e => Sys2Proof.Machine.execCommit e s
  | .stewardReload c => Sys2Proof.Machine.execStewardReload c s
  | .firmwareResolve u host => Sys2Proof.Machine.execFirmwareResolve u host s
  | .hbmRead addr len reader readerId upsets => Sys2Proof.Machine.execHbmRead addr len reader readerId upsets s
  | .refresh st => Sys2Proof.Machine.execRefresh st s
  | .scrub st => Sys2Proof.Machine.execScrub st s
  | .pageWalk h u ja isWrite staging => Sys2Proof.Machine.execPageWalk h u ja isWrite staging s
  | .moveCopy m => Sys2Proof.Machine.execMoveCopy m s
  | .movePraline m => Sys2Proof.Machine.execMovePraline m s
  | .moveNoise m => Sys2Proof.Machine.execMoveNoise m s
  | .moveColl m => Sys2Proof.Machine.execMoveColl m s
  | .resolve ring => Sys2Proof.Machine.execResolve ring s
  | .pralineStatus st => Sys2Proof.Machine.execPralineStatus st s
  | .mvDense st => Sys2Proof.Machine.execMvDense st s
  | .mvKFrame st => Sys2Proof.Machine.execMvKFrame st s
  | .mvVFrame st => Sys2Proof.Machine.execMvVFrame st s
  | .statsRows st => Sys2Proof.Machine.execStatsRows st s
  | .statsMerge st => Sys2Proof.Machine.execStatsMerge st s
  | .pralineEadd st => Sys2Proof.Machine.execPralineEadd st s
  | .emul st => Sys2Proof.Machine.execEmul st s
  | .append st => Sys2Proof.Machine.execAppend st s
  | .gather st => Sys2Proof.Machine.execGather st s
  | .encode st => Sys2Proof.Machine.execEncode st s
  | .decode st => Sys2Proof.Machine.execDecode st s
  | .preemptionSignal => Sys2Proof.Machine.execPreemptionSignal s
  | .save => Sys2Proof.Machine.execSave s
  | .resume host => Sys2Proof.Machine.execResume host s
  | .shift m => Sys2Proof.Machine.execShift m s
  | .allreduce m => Sys2Proof.Machine.execAllreduce m s
  | .reduceScatter m => Sys2Proof.Machine.execReduceScatter m s
  | .allgather m => Sys2Proof.Machine.execAllgather m s
  | .statsCombine m => Sys2Proof.Machine.execStatsCombine m s
  | .fondant m => Sys2Proof.Machine.execFondant m s
  | .collBarrier m => Sys2Proof.Machine.execCollBarrier m s
  | .add64 m => Sys2Proof.Machine.execAdd64 m s
  | .ringStepSend m => Sys2Proof.Machine.execRingStepSend m s
  | .portTraining p lock => Sys2Proof.Machine.execPortTraining p lock s
  | .trainTimeout p => Sys2Proof.Machine.execTrainTimeout p s
  | .lockLost p => Sys2Proof.Machine.execLockLost p s
  | .param p flit => Sys2Proof.Machine.execParam p flit s
  | .sequencedFlit p flit fecCe fecUe => Sys2Proof.Machine.execSequencedFlit p flit fecCe fecUe s
  | .retryReq p flit => Sys2Proof.Machine.execRetryReq p flit s
  | .retryTimeout p => Sys2Proof.Machine.execRetryTimeout p s
  | .idle p flit => Sys2Proof.Machine.execIdle p flit s
  | .nop p flit => Sys2Proof.Machine.execNop p flit s
  | .violation p flit => Sys2Proof.Machine.execViolation p flit s
  | .vcResync p flit => Sys2Proof.Machine.execVcResync p flit s
  | .readReq p => Sys2Proof.Machine.execReadReq p s
  | .readRsp p => Sys2Proof.Machine.execReadRsp p s
  | .msgWrite p => Sys2Proof.Machine.execMsgWrite p s
  | .writeAck p => Sys2Proof.Machine.execWriteAck p s
  | .atomicAdd p => Sys2Proof.Machine.execAtomicAdd p s
  | .atomicRsp p => Sys2Proof.Machine.execAtomicRsp p s
  | .chunk p => Sys2Proof.Machine.execChunk p s
  | .sent p => Sys2Proof.Machine.execSent p s
  | .done p => Sys2Proof.Machine.execDone p s
  | .msgBarrier p => Sys2Proof.Machine.execMsgBarrier p s
  | .mgmt p => Sys2Proof.Machine.execMgmt p s
  | .mgmtRsp p => Sys2Proof.Machine.execMgmtRsp p s
  | .nak p => Sys2Proof.Machine.execNak p s
  | .messageForward p => Sys2Proof.Machine.execMessageForward p s
  | .cblPresN p low => Sys2Proof.Machine.execCblPresN p low s
  | .cableOvercurrent p => Sys2Proof.Machine.execCableOvercurrent p s
  | .poolSet ring => Sys2Proof.Machine.execPoolSet ring s
  | .codecOpen ring => Sys2Proof.Machine.execCodecOpen ring s
  | .encFrame ring host => Sys2Proof.Machine.execEncFrame ring host s
  | .decUnit ring host => Sys2Proof.Machine.execDecUnit ring host s
  | .flush ring => Sys2Proof.Machine.execFlush ring s
  | .release ring => Sys2Proof.Machine.execRelease ring s
  | .codecClose ring => Sys2Proof.Machine.execCodecClose ring s
  | .framePacing c ctx => Sys2Proof.Machine.execFramePacing c ctx s
  | .poolWait c enc host => Sys2Proof.Machine.execPoolWait c enc host s
  | .supplyLoss ovf => Sys2Proof.Machine.execSupplyLoss ovf s
  | .vaultSave => Sys2Proof.Machine.execVaultSave s
  | .coldStart failed untrained bankUf => Sys2Proof.Machine.execColdStart failed untrained bankUf s
  | .bankReady => Sys2Proof.Machine.execBankReady s
  | .uvHold r => Sys2Proof.Machine.execUvHold r s
  | .uvRelease r => Sys2Proof.Machine.execUvRelease r s
  | .railLost r => Sys2Proof.Machine.execRailLost r s
  | .limitEnter freeze => Sys2Proof.Machine.execLimitEnter freeze s
  | .limitExit => Sys2Proof.Machine.execLimitExit s
  | .throttleN low samples => Sys2Proof.Machine.execThrottleN low samples s
  | .thermalHold u temp => Sys2Proof.Machine.execThermalHold u temp s
  | .thermalRelease u temp => Sys2Proof.Machine.execThermalRelease u temp s
  | .thermalTrip u temp => Sys2Proof.Machine.execThermalTrip u temp s
  | .dramTrip st temp => Sys2Proof.Machine.execDramTrip st temp s
  | .creditRefill t => Sys2Proof.Machine.execCreditRefill t s
  | .paceWindow u count => Sys2Proof.Machine.execPaceWindow u count s
  | .refclkLoss => Sys2Proof.Machine.execRefclkLoss s
  | .progressWatchdog periods => Sys2Proof.Machine.execProgressWatchdog periods s
  | .errorHandle arrivals => Sys2Proof.Machine.execErrorHandle arrivals s
  | .reload u ok => Sys2Proof.Machine.execReload u ok s
  | .heartbeatCheck u advanced => Sys2Proof.Machine.execHeartbeatCheck u advanced s
  | .fwHandover failing => Sys2Proof.Machine.execFwHandover failing s
  | .handoverTimeout u => Sys2Proof.Machine.execHandoverTimeout u s
  | .renew h epoch => Sys2Proof.Machine.execRenew h epoch s
  | .acquire h => Sys2Proof.Machine.execAcquire h s
  | .leaseRelease h epoch => Sys2Proof.Machine.execLeaseRelease h epoch s
  | .leaseExpiry => Sys2Proof.Machine.execLeaseExpiry s
  | .leaseVacant => Sys2Proof.Machine.execLeaseVacant s
  | .perstN samples => Sys2Proof.Machine.execPerstN samples s
  | .wakeN low samples => Sys2Proof.Machine.execWakeN low samples s
  | .alertN samples => Sys2Proof.Machine.execAlertN samples s
  | .mgtRstN samples => Sys2Proof.Machine.execMgtRstN samples s
  | .mgtRstNRelease samples => Sys2Proof.Machine.execMgtRstNRelease samples s
  | .modRst value => Sys2Proof.Machine.execModRst value s
  | .moduleReset failed untrained => Sys2Proof.Machine.execModuleReset failed untrained s
  | .moduleResetBound failed untrained => Sys2Proof.Machine.execModuleResetBound failed untrained s
  | .inputStuckCount pin => Sys2Proof.Machine.execInputStuckCount pin s
  | .i3cTransfer x => Sys2Proof.Machine.execI3cTransfer x s
  | .i3cSclTimeout => Sys2Proof.Machine.execI3cSclTimeout s
  | .jtagInstruction op => Sys2Proof.Machine.execJtagInstruction op s
  | .ringEnable fn ring value => Sys2Proof.Machine.execRingEnable fn ring value s
  | .bar4BaseWrite value => Sys2Proof.Machine.execBar4BaseWrite value s
  | .debugEnWrite value => Sys2Proof.Machine.execDebugEnWrite value s
  | .portEnWrite value => Sys2Proof.Machine.execPortEnWrite value s
  | .fabTopoWrite r value => Sys2Proof.Machine.execFabTopoWrite r value s
  | .w1cCounterWrite fn off value => Sys2Proof.Machine.execW1cCounterWrite fn off value s
  | .registerWrite fn off size8 value => Sys2Proof.Machine.execRegisterWrite fn off size8 value s
  | .refclkReturn => Sys2Proof.Machine.execRefclkReturn s
  | .alertNRelease samples => Sys2Proof.Machine.execAlertNRelease samples s
  | .pcieLinkUp width rate flit => Sys2Proof.Machine.execPcieLinkUp width rate flit s

end Sys2Proof.Machine
end

