-- ==== Sys2Proof/Machine/RegRead.lean ====
section
/-! DEFINITION. What a read of BAR0 returns (00 R8; 17 R477, R484 to R498; 10 R264): RO, RW and W1C fields their current
value; WO and RSVD bits, an absent instance, and an offset that names no register zero. No command reads a register: a read
changes nothing, and these definitions say what the host sees. -/

namespace Sys2Proof.Machine

/-- The word at byte offset `o` of a register held in 64 bits. -/
def half64 (r : Nat) (o : Nat) : Nat := if o % 8 = 0 then r % 2 ^ 32 else r / 2 ^ 32

def State.readHif (s : State) (o : Nat) : Nat :=
  let h := s.hif
  match o with
  | 0x00 => b2n s.mgt.ready + 16 * b2n h.flit + 256 * h.rate + 65536 * h.width
  | 0x08 | 0x0C => half64 h.bar4Base.toNat o
  | 0x10 => h.evroute.toNat
  | 0x14 => h.doeVec.toNat
  | 0x20 => h.violCnt.toNat
  | 0x24 => h.dbBad.toNat
  | 0x28 => h.dbReject.toNat
  | 0x2C => h.evqHold.toNat
  | 0x30 => h.evqDrop.toNat
  | _ => 0

def Ring.read (g : Ring) (o : Nat) : Nat :=
  match o with
  | 0x00 | 0x04 => half64 g.base.toNat o
  | 0x08 => b2n g.pv * 2 ^ 31 + g.log2s * 2 ^ 24 + b2n g.loc * 2 ^ 20 + g.pasid.toNat
  | 0x0C => g.vec.toNat
  | 0x10 | 0x14 => half64 g.shadow.toNat o
  | 0x18 => b2n g.en
  | 0x1C => g.hcause.toNat * 2 ^ 29 + b2n g.halted * 2 ^ 24 + g.ci.toNat
  | 0x20 => g.last.toNat
  | _ => 0

/-- The DMA registers (Table 17.7): MV_STATE and the four words of MV_RESTART in the layout of Table 11.2. -/
def State.readDma (s : State) (o : Nat) : Nat :=
  if o = 0 then s.hif.maxRd.toNat
  else
    let m := (o - 0x100) / 0x20
    let g := s.mover m
    if o % 0x20 = 0 then
      g.hold.toNat * 2 ^ 24 + b2n (s.isFenced (srcMover m)) * 2 ^ 16 + b2n g.fault.isSome * 2 ^ 15 + b2n g.cur.isSome
    else fieldAt g.restart.bytes (o % 0x20 - 8) 4

/-- MEM_STACK_STATEn (R477, R489). -/
def State.readStack (s : State) (n : Nat) : Nat :=
  if ¬ s.variant.hasStack n then 3
  else
    let u := BitVec.ofNat 16 (srcPraline n)
    (min (s.stackPages n) (2 ^ 20 - 1)) * 2 ^ 12 +
      (if s.rel.withdrawn.contains u then 2 else if s.rel.fenced.contains u then 1 else 0)

def State.readMem' (s : State) (o : Nat) : Nat :=
  let m := s.regs
  match o with
  | 0x00 => m.jobMib
  | 0x04 => b2n m.scrubEn
  | 0x08 => m.ceRetire
  | 0x0C => m.stackLimit
  | 0x10 => m.pralineShare
  | 0x20 => m.ceCnt.toNat
  | 0x24 => m.ueCnt.toNat
  | 0x28 => m.poisonCnt.toNat
  | _ => s.readStack ((o - 0x40) / 4)

/-- The RO counters of a course (17, before R490). -/
def Course.read (c : Course) (o : Nat) : Word :=
  match o with
  | 0x00 => c.wcDup
  | 0x04 => c.wcStray
  | 0x08 => c.wcOldEpoch
  | 0x0C => c.wcReturned
  | 0x10 => c.wcPoison
  | 0x14 => c.sortNan
  | _ => 0

/-- The ENG registers of an engine (Table 17.9): BUSY while a tile is dispatched and not committed. -/
def State.readEngine (s : State) (e o : Nat) : Nat :=
  let x := s.engine e
  if o = 0 then
    let busy := x.run.isSome || x.drain.isSome || !x.wbQ.isEmpty
    x.hold.toNat * 2 ^ 16 + x.active * 2 ^ 8 + b2n (s.isFenced (srcEngine e)) * 4 + b2n busy * 2 + x.accActive
  else if o < 0x140 then (x.counters.getD ((o - 0x100) / 4) 0).toNat
  else if o < 0x228 then
    ((if o % 8 = 0 then x.wextLo else x.wextHi).getD ((o - 0x200) / 8) 0).toNat
  else if o = 0x240 then x.wextTile.toNat
  else half64 (x.stalls.getD ((o - 0x400) / 8) 0).toNat o

def Engine.readSfu (x : Engine) (o : Nat) : Nat :=
  match o with
  | 0x00 => x.tset.toNat
  | 0x04 => b2n x.tsetLoaded + 2 * b2n x.tsetPoison
  | _ => x.sfuEmpty.toNat

def Fab.read (f : Fab) (o : Nat) : Nat :=
  match o with
  | 0x00 => f.portEn.toNat + 256 * b2n f.allowX4 + 512 * b2n f.mgmtIn
  | 0x08 | 0x0C => half64 f.topo.toNat o
  | 0x10 | 0x14 => half64 f.linkmap.toNat o
  | 0x30 => f.trainTo.toNat
  | 0x34 => f.retryLimit * 2 ^ 16 + f.retryTimeout.toNat
  | 0x38 => f.violLimit.toNat
  | 0x40 => f.collOvf.toNat
  | _ => (f.nbr.getD ((o - 0x18) / 4) 0).toNat

def Port.read (g : Port) (o : Nat) : Nat :=
  match o with
  | 0x00 => g.peer.toNat * 2 ^ 16 + g.lanes * 2 ^ 8 + b2n g.fenced * 16 + g.state
  | 0x10 => g.violCnt.toNat
  | 0x14 => g.nakCnt.toNat
  | 0x18 => g.violRx.toNat
  | 0x1C => g.stale.toNat
  | 0x20 => g.fecCe.toNat
  | 0x24 => g.fecUe.toNat
  | _ => g.replay.toNat

def Codec.read (c : Codec) (o : Nat) : Nat :=
  match o with
  | 0x00 => Config.encVer.toNat
  | 0x04 =>
    c.pool.length * 256 + ((List.range 4).map fun k => b2n (c.ctxs.getD k none).isSome * 2 ^ k).sum
  | 0x10 => c.poolWait.toNat
  | 0x14 => c.rcOver.toNat
  | _ => (c.marks.getD ((o - 0x100) / 4) 0).toNat

def State.readPwr (s : State) (o : Nat) : Nat :=
  let p := s.pwr
  match o with
  | 0x00 =>
    b2n p.limit * 2 ^ 19 + b2n p.throttle * 2 ^ 18 + b2n p.bankLow * 2 ^ 17 + b2n p.bankReady * 2 ^ 16 + s.effCeil
  | 0x04 => p.bankUf.toNat
  | 0x10 | 0x14 | 0x18 => p.vset.getD ((o - 0x10) / 4) 0
  | 0x20 | 0x24 | 0x28 | 0x2C =>
    let k := (o - 0x20) / 4
    (p.ecost.getD (2 * k + 1) 0).toNat * 65536 + (p.ecost.getD (2 * k) 0).toNat
  | 0x30 => p.creditCap.toNat
  | 0x34 => p.tsoft
  | 0x38 => p.thot
  | 0x3C => p.hotClass
  | 0x40 => p.uvCnt.toNat
  | _ =>
    if o < 0x200 then
      let c := p.pace.getD ((o - 0x100) / 4) (false, 0)
      b2n c.1 * 2 ^ 31 + c.2.toNat
    else (p.temp.getD ((o - 0x200) / 4) 0).toNat

/-- The ERR registers (Table 17.14). The handling of an error is one command, so no read meets BUSY (log entry 86). -/
def Rel.read (x : Rel) (o : Nat) : Nat :=
  match o with
  | 0x00 => b2n x.pinnedRemap
  | 0x04 => min x.queue.length 16 * 65536
  | 0x10 => x.regViol.toNat
  | 0x14 => x.queueOvf.toNat
  | 0x18 => x.leaseStale.toNat
  | _ => ((if o < 0x60 then x.pinGlitch else x.pinStuck).getD (o % 0x20 / 4) 0).toNat

def State.readSec (s : State) (o : Nat) : Nat :=
  let x := s.sec
  match o with
  | 0x00 =>
    x.fwSvn * 65536 + x.fuseSvn * 256 + b2n (decide (4096 < x.logCount)) * 4 + b2n x.debugSeen * 2 +
      b2n (x.ownerDigest.any (· != 0))
  | 0x04 => x.logCount
  | 0x08 => (x.windows.zipIdx.map fun w => b2n w.1.en * 2 ^ w.2).sum
  | _ => x.ghRefuse.toNat

/-- The MGT registers (Table 17.16); MOD_RST is WO and reads as zero. -/
def State.readMgt (s : State) (o : Nat) : Nat :=
  let m := s.mgt
  match o with
  | 0x00 =>
    m.boot.toNat * 65536 + s.rel.lease.holder * 256 + m.fwSlot * 16 + b2n m.recovery * 4 + b2n m.fatal * 2 + b2n m.ready
  | 0x08 => m.wdogLimit.toNat
  | 0x0C => m.leaseTerm
  | 0x10 => s.rel.lease.epoch.toNat
  | 0x14 => m.handoverWindows
  | 0x18 => m.resetCause
  | 0x1C => m.doeVec
  | _ => 0

def Msix.read (e : Msix) (o : Nat) : Nat :=
  match o with
  | 0 | 4 => half64 e.addr.toNat o
  | 8 => e.data.toNat
  | _ => b2n e.masked

/-- The place that a read of BAR0 names: on PF0, also the views of the PF1 blocks (R484). -/
def readPlace (fn : PFn) (a : Nat) : Reg :=
  match fn with
  | .pf1 => place1 a
  | .pf0 =>
    if 0x800000 ≤ a ∧ a < 0x810000 then .pwr (a - 0x800000)
    else if 0x900000 ≤ a ∧ a < 0x910000 then .err (a - 0x900000)
    else if 0xA00000 ≤ a ∧ a < 0xA10000 then .sec (a - 0xA00000)
    else if 0xB00000 ≤ a ∧ a < 0xB10000 then .mgt (a - 0xB00000)
    else place0 a

/-- The offset of a pending-bit word within its array (Table 10.2). -/
def pbaOff (fn : PFn) (a : Nat) : Nat := match fn with | .pf0 => a - 0xF80000 | .pf1 => a - 0xF8000

/-- What a place holds. -/
def State.readReg (s : State) (fn : PFn) (a : Nat) : Nat :=
  match readPlace fn a with
  | .hif o => s.readHif o
  | .ring r o => (s.ring r).read o
  | .dma o => s.readDma o
  | .mem o => s.readMem' o
  | .engCtrl => b2n s.regs.debugEn
  | .course c o => ((s.course c).read o).toNat
  | .engine e o => s.readEngine e o
  | .sfu e o => (s.engine e).readSfu o
  | .fab o => s.fab.read o
  | .port p o => (s.port p).read o
  | .cdc e o => (s.codec e).read o
  | .pwr o => s.readPwr o
  | .err o => s.rel.read o
  | .sec o => s.readSec o
  | .mgt o => s.readMgt o
  | .msix vec o => (look {} s.hif.msix (State.msixKey fn vec)).read o
  | .pba =>
    let w := pbaOff fn a / 4
    ((List.range 32).map fun k => b2n (s.hif.pba.contains (State.msixKey fn (32 * w + k))) * 2 ^ k).sum
  | .nowhere => 0

/-- The word that a read of BAR0 returns (R8, R477): the listed bits of the register, zero where none is named. -/
def State.readWord (s : State) (fn : PFn) (a : Nat) : Word :=
  match (readPlace fn a).bits s.variant with
  | none => 0
  | some m => BitVec.ofNat 32 (s.readReg fn a) &&& m

/-- An aligned access of 4 or 8 bytes (R10). -/
def State.regRead (s : State) (fn : PFn) (off : Nat) (size8 : Bool) : DWord :=
  if size8 then s.readWord fn (off + 4) ++ s.readWord fn off else (s.readWord fn off).setWidth 64

end Sys2Proof.Machine
end

