-- ==== Sys2Proof/Safety.lean ====
section
/-! DEFINITION. What a safe run is, in the terms that claims use. -/

namespace Sys2Proof.Machine

/-- Every unit of the module is there: the lists of the state have the lengths of Tables 0.1 and 10.4. -/
def State.shaped (s : State) : Bool :=
  s.rings.length == 66 && s.movers.length == 48 && s.engines.length == 64 && s.courses.length == 8 &&
  s.halves.length == 2 && s.hbm.length == 16 && s.fab.ports.length == 8 && s.codecs.length == 2

/-- A step that neither faults nor is refused. -/
def goesOn (s : State) : Prop := ∃ t, step s = .next t

end Sys2Proof.Machine
end

