-- ==== Sys2Proof/Certificates/Slice0/Obligations.lean ====
section
/-! DEFINITION. The statements for the provers, from the rules of the spec. A statement names the conditions on state and
operands alone and concludes with the next state that exec answers. -/

open Sys2Proof Sys2Proof.Machine

/-- For every command c and state s, a step of s with c at the front of its queue is exec of c on s with the queue's
rest; on an empty queue the block idles (log entry 1). (spec/INDEX.md) -/
def Obligations.StepRunsTheFront : Prop :=
  (∀ (c : Instr) (rest : List Instr) (s : State),
    step { s with pending := c :: rest } = exec c { s with pending := rest }) ∧
  (∀ s : State, s.pending = [] → step s = .next s)

/-- State.reset holds the 66 rings, 48 movers, 64 engines, 8 courses, 2 halves, 16 stacks, 8 ports and 2 codec
engines; its memory is in canonical form; its set-up fields lie within their ranges. (17_startup_registers.md,
08_memory_tiers.md) -/
def Obligations.ResetMeetsTheInvariants : Prop :=
  State.reset.shaped = true ∧ State.reset.mem.wf = true ∧ State.reset.fieldsOk = true

/-- Every command of the opcode table, each of the 208 constructors of Instr with every operand, answers a next state
from every state: none ends in a fault or a refusal, since the spec gives each an effect. If the memory of a state
lists rising addresses without zero bytes, and rising words with non-zero syndromes, then so does the memory of the
state that the command, or a step, answers. (08_memory_tiers.md, spec/INDEX.md) -/
def Obligations.StepKeepsMemoryCanonical : Prop :=
  (∀ (c : Instr) (s : State), ∃ t, exec c s = .next t ∧ (s.mem.wf = true → t.mem.wf = true)) ∧
  (∀ s t : State, s.mem.wf = true → step s = .next t → t.mem.wf = true)

/-- R485 discards a write that would put a field outside its range; so a state whose units are all there and whose
set-up fields lie within their ranges steps to another such state, whatever command it runs. (17_startup_registers.md)
-/
def Obligations.StepKeepsFieldsInRange : Prop :=
  ∀ s t : State, s.shaped = true → s.fieldsOk = true → step s = .next t → t.shaped = true ∧ t.fieldsOk = true

/-- A doorbell whose CRC is right and whose bits 31 to 24 are clear reaches an enabled descriptor ring that is not
halted; with a = (INDEX - LAST) mod 2^24 not above S - ((LAST - CI) mod 2^24), LAST becomes INDEX and nothing else
changes. A doorbell with a wrong CRC (reason 1), a reserved bit set (5), ARM on a descriptor ring (2), or to a
disabled ring (3) adds one to HIF_DB_BAD; one beyond the free slots (4) adds one to HIF_DB_REJECT. The descriptor ring
is untouched. The DB_REJECT record with ring, reason and data joins its event ring, which is ring 65 for ring 64 and
the ring that HIF_EVROUTE names otherwise, where fewer than 64 records wait. Nothing else changes. For a valid event
doorbell without ARM to an enabled event ring that is not halted, with a = (INDEX - CI) mod 2^24 and u = (W - CI) mod
2^24: when a is at most u, CI becomes INDEX and nothing else changes; with ARM and every record consumed the ring is
armed as well; when a exceeds u, CI and the arm state stay and HIF_DB_REJECT counts it. Completes: doorbell,
eventDoorbell. (R279, R280, R291, R292, R294, R295) -/
def Obligations.Doorbells : Prop :=
  (∀ (r : RingId) (data : DWord) (s : State),
    s.variant.hasRing r = true → descRing r = true → s.hostUp = true →
    (s.ring r).en = true → (s.ring r).halted = false →
    data.extractLsb' 32 32 = crc32c (toLe r 4 ++ toLe (data.toNat % 2 ^ 32) 4) → data.extractLsb' 24 8 = 0 →
    (data.extractLsb' 0 24 - (s.ring r).last).toNat ≤
      2 ^ (s.ring r).log2s - ((s.ring r).last - (s.ring r).ci).toNat →
    exec (.doorbell r data) s = .next (s.modRing r fun g => { g with last := data.extractLsb' 0 24 })) ∧
  (∀ (r : RingId) (data : DWord) (s : State),
    s.shaped = true → s.variant.hasRing r = true → descRing r = true → s.hostUp = true →
    let crcBad := data.extractLsb' 32 32 ≠ crc32c (toLe r 4 ++ toLe (data.toNat % 2 ^ 32) 4)
    let fault := crcBad ∨ data.extractLsb' 25 7 ≠ 0 ∨ data.getLsbD 24 = true ∨ (s.ring r).en = false
    let tooFar := 2 ^ (s.ring r).log2s <
        (data.extractLsb' 0 24 - (s.ring r).last).toNat + ((s.ring r).last - (s.ring r).ci).toNat ∧
      data.extractLsb' 0 24 ≠ (s.ring r).last
    let reason := if crcBad then 1 else if data.extractLsb' 25 7 ≠ 0 then 5 else if data.getLsbD 24 = true then 2
      else if (s.ring r).en = false then 3 else 4
    let q := if r.val ≥ 64 then 65 else 32 + bitsOf s.hif.evroute.toNat 21 3
    fault ∨ tooFar →
      ∃ t, exec (.doorbell r data) s = .next t ∧ t.ring r = s.ring r ∧
        (fault → t.hif.dbBad = satAdd s.hif.dbBad 1 ∧ t.hif.dbReject = s.hif.dbReject) ∧
        (¬ fault → t.hif.dbReject = satAdd s.hif.dbReject 1 ∧ t.hif.dbBad = s.hif.dbBad) ∧
        ((s.ring q).evq.length < 64 → ∃ x : Rec, (t.ring q).evq = (s.ring q).evq ++ [x] ∧ x.kind = 3 ∧
          x.body = padTo (toLe r 2 ++ toLe reason 1 ++ zeros 5 ++ toLe data.toNat 8) 92) ∧
        t = { s with rings := t.rings, hif := t.hif, seqs := t.seqs }) ∧
  (∀ (r : RingId) (data : DWord) (s : State),
    eventRing r = true → s.hostUp = true → (s.ring r).en = true → (s.ring r).halted = false →
    data.extractLsb' 32 32 = crc32c (toLe r 4 ++ toLe (data.toNat % 2 ^ 32) 4) → data.extractLsb' 25 7 = 0 →
    let a := (data.extractLsb' 0 24 - (s.ring r).last).toNat
    let u := ((s.ring r).ci - (s.ring r).last).toNat
    (a ≤ u → data.getLsbD 24 = false →
      exec (.eventDoorbell r data) s = .next (s.modRing r fun g => { g with last := data.extractLsb' 0 24 })) ∧
    (a ≤ u → data.getLsbD 24 = true → data.extractLsb' 0 24 = (s.ring r).ci →
      exec (.eventDoorbell r data) s =
        .next (s.modRing r fun g => { g with last := data.extractLsb' 0 24, armed := true })) ∧
    (u < a →
      ∃ t, exec (.eventDoorbell r data) s = .next t ∧ (t.ring r).last = (s.ring r).last ∧
        (t.ring r).armed = (s.ring r).armed ∧ t.hif.dbReject = satAdd s.hif.dbReject 1 ∧
        t = { s with rings := t.rings, hif := t.hif, seqs := t.seqs }))

/-- For an enabled descriptor ring in host memory, with descriptors available, none in flight and none unchecked, the
fetch presents one read TLP of n slots at base + (CI mod S) x slot size, n the least of 8, the descriptors available
and the slots to the ring's end; with the ring's PASID where set up; and nothing else changes. The oldest fetched
descriptor with a right DCRC and SEQ, well formed and not bypassed, joins the posted ones, CI advances by one, and the
new CI goes to the shadow, where a Gatehouse window covers it. With a wrong DCRC (cause 1), or a wrong SEQ (cause 2),
the ring halts, CI and the posted descriptors stay, and what was fetched is dropped. When the host answers a ring's
read with all its bytes, the slots become fetched descriptors with consecutive indices and the read is no longer in
flight. When it times out, the ring halts with cause 4 and CI and posted descriptors stay. Completes: descriptorFetch,
descriptorCheck, completionTimeout, readCompletion. (R267, R282, R278, R517) -/
def Obligations.DescriptorsReachConsumers : Prop :=
  (∀ (r : RingId) (s : State),
    s.variant.hasRing r = true → descRing r = true → s.regionUp 2 = true → s.hif.linkUp = true →
    s.mayRead (fnOfRing r) = true → (r.val = 0 → s.leadOk = true) →
    (s.ring r).en = true → (s.ring r).halted = false → (s.ring r).reading = false → (s.ring r).fetched = [] →
    (s.ring r).loc = false → (s.ring r).last ≠ (s.ring r).ci →
    let g := s.ring r
    let slot := g.ci.toNat % 2 ^ g.log2s
    let n := min 8 (min (g.last - g.ci).toNat (2 ^ g.log2s - slot))
    let at' := g.base.toNat + slot * slotSize r
    let who := if g.pv then some g.pasid else none
    exec (.descriptorFetch r) s = .next
      { s with
        rings := (s.modRing r fun g => { g with reading := true }).rings
        hif := { s.hif with
          nextTag := s.hif.nextTag + 1
          reads := s.hif.reads ++ [OutRead.mk s.hif.nextTag (fnOfRing r) at' (n * slotSize r) (.ring r g.ci.toNat n)]
          tx := s.hif.tx ++ [.read (fnOfRing r) s.hif.nextTag at' (n * slotSize r) who] } }) ∧
  (∀ (r : RingId) (p : Posted) (rest : List Posted) (s : State),
    s.regionUp 2 = true → (s.ring r).fetched = p :: rest → (s.ring r).halted = false → s.completionHeld r = false →
    (r.val = 0 → s.leadOk = true ∧ s.halfUp (s.lead.getD 0) = true) →
    (crcOk p.bytes (slotSize r - 4) = true → dSeq p.bytes = p.idx → descriptorOk r p.bytes = true →
      s.bypass r p.bytes = none → s.ghPass (s.ring r).shadow.toNat 8 none false = true →
      exec (.descriptorCheck r) s = .next
        ((s.modRing r fun g => { g with fetched := rest, ci := g.ci + 1, posted := g.posted ++ [p] }).send
          (.write (fnOfRing r) (s.ring r).shadow.toNat (toLe ((s.ring r).ci + 1).toNat 8) false false none false))) ∧
    (descRing r = true → crcOk p.bytes (slotSize r - 4) = false ∨ dSeq p.bytes ≠ p.idx →
      ∃ t, exec (.descriptorCheck r) s = .next t ∧ (t.ring r).halted = true ∧
        (t.ring r).hcause = (if crcOk p.bytes (slotSize r - 4) then 2 else 1) ∧ (t.ring r).fetched = [] ∧
        (t.ring r).ci = (s.ring r).ci ∧ (t.ring r).posted = (s.ring r).posted ∧
        t = { s with rings := t.rings, hif := t.hif, seqs := t.seqs, sec := t.sec })) ∧
  (∀ (rd : OutRead) (r : RingId) (first n : Nat) (data : List Byte) (s : State),
    s.hif.reads.find? (fun x => x.tag = rd.tag) = some rd → rd.who = .ring r first n →
    (s.ring r).reading = true → (s.ring r).halted = false →
    (s.hostUp = true → data.length = rd.len → rd.len = n * slotSize r →
      ∃ t, exec (.readCompletion rd.tag .ok data) s = .next t ∧ (t.ring r).reading = false ∧
        (t.ring r).fetched.map (·.idx) = (List.range n).map (fun i => (first + i) % 2 ^ 24) ∧
        ((t.ring r).fetched.map (·.bytes)).flatten = data ∧ rd ∉ t.hif.reads ∧
        t = { s with rings := t.rings, hif := { s.hif with reads := t.hif.reads } }) ∧
    (s.regionUp 2 = true → s.pwr.refclk = true → descRing r = true →
      ∃ t, exec (.completionTimeout rd.tag) s = .next t ∧ (t.ring r).reading = false ∧ (t.ring r).halted = true ∧
        (t.ring r).hcause = 4 ∧ (t.ring r).ci = (s.ring r).ci ∧ (t.ring r).posted = (s.ring r).posted ∧
        rd ∉ t.hif.reads ∧ t = { s with rings := t.rings, hif := t.hif, seqs := t.seqs, sec := t.sec }))

/-- For an enabled event ring that is not halted and has a free slot, a record waiting and no drops to report, and a
Gatehouse window over the slot, bytes 0x04 to 0x7F go first, then bytes 0x00 to 0x03 with PHASE; W advances; the
record leaves the queue. An armed ring whose vector is not masked sends its MSI-X message after both and is disarmed;
nothing else changes. Completes: recordWrite. (R290, R293, R294) -/
def Obligations.RecordWriteOrdersTwoTlps : Prop :=
  ∀ (r : RingId) (x : Rec) (rest : List Rec) (s : State),
    eventRing r = true → s.hostUp = true → (s.ring r).en = true → (s.ring r).halted = false →
    (s.ring r).dropped = 0 → (s.ring r).evq = x :: rest →
    (s.ring r).hcause = 0 → (s.ring r).refused = false →
    ((s.ring r).ci - (s.ring r).last).toNat < 2 ^ (s.ring r).log2s →
    let g := s.ring r
    let slot := g.base.toNat + (g.ci.toNat % 2 ^ g.log2s) * 128
    let bs := x.bytes ((g.ci.toNat / 2 ^ g.log2s) % 2 == 0)
    let fn := fnOfRing r
    s.ghPass (slot + 4) 124 none false = true → s.ghPass slot 4 none false = true → bs.length = 128 →
    let tlps := [Tlp.write fn (slot + 4) (bs.drop 4) false false none false,
                 Tlp.write fn slot (bs.take 4) false false none false]
    let e := look {} s.hif.msix (State.msixKey fn g.vec.toNat)
    (g.armed = false →
      exec (.recordWrite r) s = .next
        { s with
          rings := (s.modRing r fun g => { g with ci := g.ci + 1, evq := rest }).rings
          hif := { s.hif with tx := s.hif.tx ++ tlps } }) ∧
    (g.armed = true → e.masked = false → s.hif.fmask0 = false → s.hif.fmask1 = false →
      exec (.recordWrite r) s = .next
        { s with
          rings := (s.modRing r fun g => { g with ci := g.ci + 1, evq := rest, armed := false }).rings
          hif := { s.hif with tx := s.hif.tx ++ tlps ++ [.msix fn g.vec.toNat e.addr e.data] } })

/-- For a window inside HBM or the job parts, over words without flaws: a read completes with the stored bytes and
changes nothing else; a read over a bad word completes with EP = 1 and leaves memory alone; a write without EP stores
each enabled byte, leaves every other byte of memory as it was, and changes nothing but memory, the dirty-line marks
and the open rows. An access to a fenced stack holds and changes nothing else. An access to a refused address leaves
memory alone and counts a violation, and a read of it completes with Unsupported Request. Completes: bar4Read,
bar4Write. (R265, R266, R226, R229, R210, R233) -/
def Obligations.Bar4Transfers : Prop :=
  ∀ (off len : Nat) (data : List Byte) (be : List Bool) (rid : BitVec 16) (s : State),
    let size := 2 ^ s.hif.bar4Log2
    let a := s.hif.bar4Base.toNat / size * size + off
    s.hostUp = true → s.mem.wf = true →
    (off + len ≤ size → s.rangeAll Region.hostOk a len = true → s.stackHeld a = false → s.mem.flawed a len = [] →
      exec (.bar4Read off len rid) s =
        .next { s with hbm := (s.touchRows a len).hbm
                       hif := { s.hif with tx := s.hif.tx ++ [.completion rid .sc (s.mem.read a len) false] } }) ∧
    (off + len ≤ size → s.rangeAll Region.hostOk a len = true → s.stackHeld a = false → s.mem.anyBad a len = true →
      ∃ t, exec (.bar4Read off len rid) s = .next t ∧ t.mem = s.mem ∧
        t.hif.tx = s.hif.tx ++ [.completion rid .sc (s.mem.read a len) true]) ∧
    (off + len ≤ size → s.rangeAll Region.hostOk a len = false →
      ∃ t, exec (.bar4Read off len rid) s = .next t ∧ t.mem = s.mem ∧
        t.hif.violCnt = satAdd s.hif.violCnt 1 ∧ t.hif.tx = s.hif.tx ++ [.completion rid .ur [] false]) ∧
    (off + data.length ≤ size → s.rangeAll Region.hostOk a data.length = true → be.length = data.length →
      s.stackHeld a = false → s.mem.flawed a data.length = [] →
      ∃ t, exec (.bar4Write off data be false rid) s = .next t ∧
        (∀ i, i < data.length → be.getD i false = true → t.mem.byte (a + i) = data.getD i 0) ∧
        (∀ i, i < data.length → be.getD i false = false → t.mem.byte (a + i) = s.mem.byte (a + i)) ∧
        (∀ b, b < a ∨ a + data.length ≤ b → t.mem.byte b = s.mem.byte b) ∧
        (∀ n, { t.stack n with rows := [] } = { s.stack n with rows := [] }) ∧
        t = { s with mem := t.mem, courses := t.courses, hbm := t.hbm }) ∧
    (off + len ≤ size → s.rangeAll Region.hostOk a len = true → s.stackHeld a = true →
      exec (.bar4Read off len rid) s =
        .next { s with hif := { s.hif with barHeld := s.hif.barHeld ++ [.read a len rid] } }) ∧
    (off + data.length ≤ size → s.rangeAll Region.hostOk a data.length = true → s.stackHeld a = true →
      exec (.bar4Write off data be false rid) s =
        .next { s with hif := { s.hif with barHeld := s.hif.barHeld ++ [.write a data be false] } }) ∧
    (off + data.length ≤ size → s.rangeAll Region.hostOk a data.length = false →
      ∃ t, exec (.bar4Write off data be false rid) s = .next t ∧ t.mem = s.mem ∧
        t.hif.violCnt = satAdd s.hif.violCnt 1)

/-- Until READY a configuration request is answered with Request Retry Status and changes nothing else. Then a read
completes with the register's value: words 0 and 8 show the function's device ID and class code. A write, but for one
of PF0's power state, keeps what the host wrote and changes nothing but the host interface; BAR0 reads with the
address bits above its size as written and the others zero but for the 64-bit type. Every host protocol violation but
a malformed translation advances HIF_VIOL_CNT and changes nothing but the host interface, event rings and sequence
numbers; no ring's halt state changes. A memory read of BAR2 at offset 0 of a populated doorbell page is none: it
completes with zeros. Completes: hostProtocolViolation, configRequest. (R262, R264, R272, R479) -/
def Obligations.ConfigAndViolations : Prop :=
  ∀ (fn : PFn) (reg : BitVec 12) (data : Word) (s : State), s.hif.linkUp = true →
    (s.mgt.ready = false → ∀ w, exec (.configRequest fn w reg data) s =
      .next { s with hif := { s.hif with tx := s.hif.tx ++ [.completion 0 .rrs [] false] } }) ∧
    (s.mgt.ready = true → exec (.configRequest fn false reg data) s =
      .next { s with hif := { s.hif with
        tx := s.hif.tx ++ [.completion 0 .sc (toLe (s.cfgRead fn (reg.toNat / 4 * 4)).toNat 4) false] } }) ∧
    ((s.cfgRead fn 0).extractLsb' 16 16 = BitVec.ofNat 16 (s.deviceId fn)) ∧
    ((s.cfgRead fn 8).extractLsb' 8 24 = BitVec.ofNat 24 (classCode fn)) ∧
    (s.mgt.ready = true → (fn = .pf1 ∨ reg.toNat / 4 * 4 ≠ 0x44) →
      ∃ t, exec (.configRequest fn true reg data) s = .next t ∧ t.cfgWritten fn (reg.toNat / 4 * 4) = data ∧
        (reg.toNat / 4 * 4 = 0x10 → t.cfgRead fn 0x10 =
          4#32 ||| (data &&& (match fn with | .pf0 => 0xFF000000#32 | .pf1 => 0xFFF00000#32))) ∧
        t = { s with hif := t.hif }) ∧
    (s.hostUp = true → ∀ (rid : BitVec 16) (fmt : Byte) (addr : DWord), s.doorbellRead fn fmt addr.toNat = true →
      exec (.hostProtocolViolation .bar2Access fn rid fmt addr) s =
        .next { s with hif := { s.hif with tx := s.hif.tx ++ [.completion rid .sc (zeros 8) false] } }) ∧
    (s.hostUp = true → ∀ (v : HostViol) (rid : BitVec 16) (fmt : Byte) (addr : DWord),
      (∀ m, v ≠ .badTranslation m) → (v = .bar2Access → s.doorbellRead fn fmt addr.toNat = false) →
      ∃ t, exec (.hostProtocolViolation v fn rid fmt addr) s = .next t ∧
        t.hif.violCnt = satAdd s.hif.violCnt 1 ∧
        t.rings.map (·.halted) = s.rings.map (·.halted) ∧
        t = { s with rings := t.rings, hif := t.hif, seqs := t.seqs })

/-- For a mover that waits for a translation, a usable one is cached, or replaces a free entry of a full cache, and
the mover waits no more. An invalidation removes every cached translation that overlaps the range under its PASID and
sends its completion. For a mover that waits for a page, Success sends the translation request for the page's 4 KiB
again. Completes: atsTranslationCompletion, atsInvalidate, pageRequestResponse. (R268, R269) -/
def Obligations.AtsAndPageRequests : Prop :=
  ∀ (m : MoverId) (s : State), s.hostUp = true →
    (∀ addr (r : AtsResult), (s.mover m).wait = .ats addr →
      ∃ t, exec (.atsTranslationCompletion m (some r)) s = .next t ∧
        AtcEntry.mk (moverDie m) s.jobPasid (addr / r.size * r.size) r.base.toNat r.size ∈ t.hif.atc ∧
        (t.mover m).wait = .none ∧
        t = { s with hif := { s.hif with atc := t.hif.atc }, movers := t.movers, free := t.free }) ∧
    (∀ pasid (addr : DWord) size,
      exec (.atsInvalidate pasid addr size) s = .next { s with hif := { s.hif with
        atc := s.hif.atc.filter fun e =>
          !(decide (e.pasid = pasid) && decide (e.page < addr.toNat + size) && decide (addr.toNat < e.page + e.size))
        tx := s.hif.tx ++ [.invalidateDone] } }) ∧
    (∀ addr, (s.mover m).wait = .pri addr →
      ∃ t, exec (.pageRequestResponse m .success) s = .next t ∧ (t.mover m).wait = .ats addr ∧
        t.hif.tx = s.hif.tx ++ [.atsRequest m (addr / 4096 * 4096) s.jobPasid] ∧ m ∉ t.hif.pageReqs ∧
        t = { s with hif := { s.hif with pageReqs := t.hif.pageReqs, tx := t.hif.tx }, movers := t.movers })

/-- When the link goes down no host read is outstanding, no ring waits for one, and HIF_STATUS shows width 0; event
queues keep their order and memory stays. When it trains, with PERST_N not held and the reference clock present, and
in FLIT mode where the rate is 64.0 GT/s, HIF_STATUS shows its width, rate and FLIT mode. Completes: linkDown,
pcieLinkUp. (R261, R297, R308, R479) -/
def Obligations.LinkLossAndReturn : Prop :=
  ∀ s : State,
    (s.hif.linkUp = true → s.shaped = true → ∃ t, exec .linkDown s = .next t ∧ t.hif.linkUp = false ∧
      t.hif.width = 0 ∧ t.hif.reads = [] ∧ t.mem = s.mem ∧
      (∀ rd ∈ s.hif.reads, ∀ r a n, rd.who = .ring r a n → (t.ring r).reading = false)) ∧
    (∀ w rt fl, s.regionUp 2 = true → s.hif.linkUp = false → s.rel.pinActive.getD 0 false = false →
      s.pwr.refclk = true → (rt = 6 → fl = true) →
      ∃ t, exec (.pcieLinkUp w rt fl) s = .next t ∧ t.hif.linkUp = true ∧ t.hif.width = w ∧ t.hif.rate = rt ∧
        t.hif.flit = fl ∧ t.mem = s.mem)

/-- Writing EN = 1 to a disabled ring other than 65 that has no unchecked descriptor, with READY set, no recovery, and
LOC clear, enables it with CI and LAST zero and no halt, keeps its set-up fields and changes only that ring and its
reads in flight. With READY 0 the write is discarded and counted in ERR_REG_VIOL. Writing EN = 0 disables it; the job
ring's disable waits for a running job. HIF_BAR4_BASE takes bits 47 to 28 of what is written, and any other bit counts
once in ERR_REG_VIOL. MEM_STACK_LIMIT takes 1 to 65,535; zero is discarded whole and counted, and reserved bits do not
discard a write in range. A write to an offset that names no register is discarded and counted. Each changes nothing
else. For each W1C counter of the HIF, MEM, PWR, ERR and SEC blocks, a write of v leaves its old value without the
bits of v, so that all ones clear it, and no other field of the state changes beside that block's counters. A read
returns MEM_STACK_LIMIT and MEM_CE_CNT as they stand, zero for the write-only MOD_RST and for an offset that names no
register, and STATE 3 with PAGES 0 for a stack that the variant lacks. Completes: ringEnable, bar4BaseWrite,
w1cCounterWrite, registerWrite. (R276, R477, R487, R8, R265, R485, R489) -/
def Obligations.SetUpRegisters : Prop :=
  (∀ (fn : PFn) (r : RingId) (s : State), s.shaped = true → s.fieldsOk = true → s.hostUp = true →
    s.variant.hasRing r = true → fn = fnOfRing r →
    ((s.ring r).en = false → r.val ≠ 65 → (s.ring r).fetched = [] → s.mgt.ready = true → s.mgt.recovery = false →
      (s.ring r).loc = false →
      ∃ t, exec (.ringEnable fn r 1) s = .next t ∧ (t.ring r).en = true ∧ (t.ring r).ci = 0 ∧ (t.ring r).last = 0 ∧
        (t.ring r).halted = false ∧ (t.ring r).hcause = 0 ∧ (t.ring r).setup = (s.ring r).setup ∧
        (∀ q, q ≠ r.val → t.ring q = s.ring q) ∧
        t = { s with rings := t.rings, hif := { s.hif with reads := t.hif.reads } }) ∧
    ((s.ring r).en = false → s.mgt.ready = false →
      exec (.ringEnable fn r 1) s = .next { s with rel := { s.rel with regViol := satAdd s.rel.regViol 1 } }) ∧
    ((s.ring r).en = true → (r.val ≠ 0 ∨ s.job.cur = none) →
      exec (.ringEnable fn r 0) s = .next (s.modRing r fun g => { g with en := false, disabling := false })) ∧
    (r.val = 0 → (s.ring r).en = true → s.job.cur.isSome = true →
      exec (.ringEnable fn r 0) s = .next (s.modRing 0 fun g => { g with disabling := true }))) ∧
  (∀ s : State, s.hostUp = true → s.fieldsOk = true →
    let viol := { s.rel with regViol := satAdd s.rel.regViol 1 }
    (∀ v : DWord, exec (.bar4BaseWrite v) s =
      .next { s with hif := { s.hif with bar4Base := v &&& 0x0000FFFFF0000000 },
                     rel := if v &&& 0xFFFF00000FFFFFFF = 0 then s.rel else viol }) ∧
    (∀ v : Word, v.extractLsb' 0 16 ≠ 0 →
      exec (.registerWrite .pf0 0x3000C false (v.setWidth 64)) s =
        .next { s with regs := { s.regs with stackLimit := v.toNat % 65536 },
                       rel := if v.toNat < 65536 then s.rel else viol }) ∧
    (∀ v : Word, v.extractLsb' 0 16 = 0 →
      exec (.registerWrite .pf0 0x3000C false (v.setWidth 64)) s = .next { s with rel := viol }) ∧
    (∀ v : Word, exec (.registerWrite .pf0 0x30014 false (v.setWidth 64)) s = .next { s with rel := viol }) ∧
    (∀ (v : Word), v.toNat ≤ 255 →
      exec (.registerWrite .pf0 0x30008 false (v.setWidth 64)) s =
        .next { s with regs := { s.regs with ceRetire := v.toNat } })) ∧
  (∀ (v : Word) (s : State), s.hostUp = true → s.fieldsOk = true →
    (∀ x ∈ ([(0x20, fun h => h.violCnt), (0x24, fun h => h.dbBad), (0x28, fun h => h.dbReject),
             (0x2C, fun h => h.evqHold), (0x30, fun h => h.evqDrop)] : List (BitVec 24 × (Hif → Word))),
      ∃ t, exec (.w1cCounterWrite .pf0 x.1 v) s = .next t ∧ x.2 t.hif = x.2 s.hif &&& ~~~v ∧
        t = { s with hif := { s.hif with violCnt := t.hif.violCnt, dbBad := t.hif.dbBad, dbReject := t.hif.dbReject,
                                         evqHold := t.hif.evqHold, evqDrop := t.hif.evqDrop } }) ∧
    (∀ x ∈ ([(0x30020, fun m => m.ceCnt), (0x30024, fun m => m.ueCnt), (0x30028, fun m => m.poisonCnt)] :
             List (BitVec 24 × (MemRegs → Word))),
      ∃ t, exec (.w1cCounterWrite .pf0 x.1 v) s = .next t ∧ x.2 t.regs = x.2 s.regs &&& ~~~v ∧
        t = { s with regs := { s.regs with ceCnt := t.regs.ceCnt, ueCnt := t.regs.ueCnt, poisonCnt := t.regs.poisonCnt } }) ∧
    exec (.w1cCounterWrite .pf1 0x20040 v) s = .next { s with pwr := { s.pwr with uvCnt := s.pwr.uvCnt &&& ~~~v } } ∧
    exec (.w1cCounterWrite .pf1 0x30010 v) s = .next { s with rel := { s.rel with regViol := s.rel.regViol &&& ~~~v } } ∧
    exec (.w1cCounterWrite .pf1 0x40010 v) s = .next { s with sec := { s.sec with ghRefuse := s.sec.ghRefuse &&& ~~~v } }) ∧
  (∀ s : State, s.fieldsOk = true →
    s.regRead .pf0 0x3000C false = BitVec.ofNat 64 s.regs.stackLimit ∧
    s.regRead .pf0 0x30020 false = s.regs.ceCnt.setWidth 64 ∧ s.regRead .pf0 0x30014 false = 0 ∧
    s.regRead .pf1 0x50004 false = 0 ∧
    ∀ n < 16, s.variant.hasStack n = false → s.regRead .pf0 (0x30040 + 4 * n) false = 3)

/-- DEBUG_EN from 0 to 1 extends MR6 once, and writing the value it has changes nothing. PORT_EN sets the ports whose
bit rises to training and idles those whose bit falls. A FAB_TOPO in range takes force at once while no job runs, else
at the next job; one out of range is discarded and counted. MOD_RST = 1 makes a module reset pending when none is, and
asks for the running job's pre-emption. Completes: modRst, debugEnWrite, portEnWrite, fabTopoWrite. (R456, R472, R490,
R492, R493, R498) -/
def Obligations.ControlWritesAct : Prop :=
  ∀ s : State, s.shaped = true → s.hostUp = true → s.fieldsOk = true →
    (s.regs.debugEn = false → ∃ t, exec (.debugEnWrite 1) s = .next t ∧ t.regs.debugEn = true ∧
      t.sec.debugSeen = true ∧ t.sec.mr = s.sec.mr.set 6 (shake256 (s.sec.mr.getD 6 [] ++ Config.debugDigest)) ∧
      t.sec.logCount = s.sec.logCount + 1 ∧ t = { s with regs := { s.regs with debugEn := true }, sec := t.sec }) ∧
    (s.regs.debugEn = true → exec (.debugEnWrite 1) s = .next s) ∧
    (∀ v : Word, v.toNat < 1024 → ∃ t, exec (.portEnWrite v) s = .next t ∧ t.fab.portEn = v.setWidth 8 ∧
      (∀ p : Fin 8, s.variant.hasPort p = true → s.fab.portEn.getLsbD p = false → v.getLsbD p = true →
        (t.port p).state = 1) ∧
      (∀ p : Fin 8, s.variant.hasPort p = true → s.fab.portEn.getLsbD p = true → v.getLsbD p = false →
        (t.port p).state = 0 ∧ (t.port p).lanes = 0) ∧
      (∀ p : Fin 8, s.fab.portEn.getLsbD p = v.getLsbD p → t.port p = s.port p) ∧ t = { s with fab := t.fab }) ∧
    (∀ v : DWord, v.toNat < 2 ^ 60 →
      let x := fun d => bitsOf v.toNat (10 * d) 10 + 1
      let ok := x 0 * x 1 * x 2 ≤ 16384 ∧ ∀ d, d < 3 → bitsOf v.toNat (30 + 10 * d) 10 < x d
      (ok → ∃ t, exec (.fabTopoWrite .topo v) s = .next t ∧ t.fab.topo = v ∧
        (s.job.cur.isSome = true → t.fab.topoNow = s.fab.topoNow) ∧
        (s.job.cur = none → v ≠ s.fab.topo → t.fab.topoNow = v) ∧ t.mem = s.mem) ∧
      (¬ ok → exec (.fabTopoWrite .topo v) s =
        .next { s with rel := { s.rel with regViol := satAdd s.rel.regViol 1 } })) ∧
    (s.mgt.resetPending = none → ∃ t, exec (.modRst 1) s = .next t ∧ t.mgt.resetPending = some .reg ∧
      (∀ j, s.job.cur = some j → ∃ k, t.job.cur = some k ∧
        k.preempt = (if j.preempt.isSome ∨ j.ending.isSome then j.preempt else some .moduleReset)) ∧
      t = { s with mgt := { s.mgt with resetPending := some .reg }, job := t.job })

/-- For each of the five filtered inputs, with N of Table 15.6: a level opposite to the filtered one that lasts fewer
than N samples, and at least one, leaves the filtered level as it is and changes nothing but that input's
ERR_PIN_GLITCH, which counts one, and the lockout that is left. A level wholly within the lockout of an earlier change
is not tested and not counted (DEDUCED, log entry 95). (R445, R446) -/
def Obligations.FilteredInputs : Prop :=
  ∀ (n : Nat) (s : State), s.filtersUp = true → 0 < n →
    let glitch := fun (i : Nat) =>
      let left := s.rel.pinLock.getD i 0
      Host.Outcome.next (φ := Fault) (ρ := Refusal) { s with rel := { s.rel with
        pinLock := s.rel.pinLock.set i (left - n)
        pinGlitch := if left < n then modifyNth (fun c => satAdd c 1) s.rel.pinGlitch i else s.rel.pinGlitch } }
    (s.rel.pinActive.getD 0 false = false → n < 25 → exec (.perstN n) s = glitch 0) ∧
    (s.rel.pinActive.getD 0 false = true → n < 25 → exec (.perstNRelease n) s = glitch 0) ∧
    (∀ low, s.rel.pinActive.getD 1 false ≠ low → n < 5 → exec (.throttleN low n) s = glitch 1) ∧
    (∀ low, s.rel.pinActive.getD 2 false ≠ low → n < 25 → exec (.wakeN low n) s = glitch 2) ∧
    (s.rel.pinActive.getD 3 false = false → n < 250 → exec (.alertN n) s = glitch 3) ∧
    (s.rel.pinActive.getD 3 false = true → n < 250 → exec (.alertNRelease n) s = glitch 3) ∧
    (s.rel.pinActive.getD 4 false = false → n < 250 → exec (.mgtRstN n) s = glitch 4) ∧
    (s.rel.pinActive.getD 4 false = true → n < 250 → exec (.mgtRstNRelease n) s = glitch 4)

/-- After N samples THROTTLE_N sets the throttle and so the effective ceiling; WAKE_N and the releases of PERST_N and
ALERT_N only change the filtered level; ALERT_N asks for the pre-emption of the running job; MGT_RST_N makes a module
reset pending. An input active for 2^24 samples counts once in ERR_PIN_STUCK and is logged, and not again in the same
assertion. Seating a cable switches its power on, and taking it out off; an overload switches it off until the cable
is seated again. An ACTIVE port that loses its cable or its power trains again. A JTAG instruction is loaded as given,
except that EXTEST loaded while filtered MGT_RST_N is not active is BYPASS. Each change of a filtered level starts a
lockout of N samples; samples within a lockout, and samples at the filtered level, change nothing but the lockout that
is left (DEDUCED, log entry 95). Completes: perstNRelease, cblPresN, cableOvercurrent, throttleN, wakeN, alertN,
mgtRstN, inputStuckCount, jtagInstruction, alertNRelease. (R408, R445, R447, R473, R333, R505, R512) -/
def Obligations.Pins : Prop :=
  (∀ (n : Nat) (s : State), s.filtersUp = true →
    let unseen := fun (i : Nat) (level : Bool) (out : Host.Outcome State Fault Refusal) =>
      s.rel.pinActive.getD i false = level ∨ n ≤ s.rel.pinLock.getD i 0 →
        out = .next { s with rel := { s.rel with pinLock := s.rel.pinLock.set i (s.rel.pinLock.getD i 0 - n) } }
    unseen 0 true (exec (.perstN n) s) ∧ unseen 0 false (exec (.perstNRelease n) s) ∧
    (∀ low, unseen 1 low (exec (.throttleN low n) s)) ∧ (∀ low, unseen 2 low (exec (.wakeN low n) s)) ∧
    unseen 3 true (exec (.alertN n) s) ∧ unseen 3 false (exec (.alertNRelease n) s) ∧
    unseen 4 true (exec (.mgtRstN n) s) ∧ unseen 4 false (exec (.mgtRstNRelease n) s)) ∧
  (∀ (n : Nat) (s : State), s.filtersUp = true → s.shaped = true → s.rel.pinActive.length = 5 → s.rel.stuckDone.length = 5 →
    250 ≤ n → (∀ i, s.rel.pinLock.getD i 0 = 0) →
    let level := fun (i : Nat) (on : Bool) =>
      { s.rel with pinActive := s.rel.pinActive.set i on, stuckDone := s.rel.stuckDone.set i false,
                   pinLock := s.rel.pinLock.set i (2 * pinSamples i - n) }
    (∀ low, s.rel.pinActive.getD 1 false ≠ low → ∃ t, exec (.throttleN low n) s = .next t ∧
      t.rel.pinActive = s.rel.pinActive.set 1 low ∧
      t.effCeil = (if low then min s.pwr.ceil s.pwr.throttleCeil else s.pwr.ceil) ∧
      t = { s with rel := level 1 low, pwr := { s.pwr with throttle := low }, rings := t.rings, hif := t.hif, seqs := t.seqs }) ∧
    (∀ low, s.rel.pinActive.getD 2 false ≠ low → exec (.wakeN low n) s = .next { s with rel := level 2 low }) ∧
    (s.rel.pinActive.getD 0 false = true → exec (.perstNRelease n) s = .next { s with rel := level 0 false }) ∧
    (s.rel.pinActive.getD 3 false = true → exec (.alertNRelease n) s = .next { s with rel := level 3 false }) ∧
    (s.rel.pinActive.getD 3 false = false → ∃ t, exec (.alertN n) s = .next t ∧ t.rel.pinActive.getD 3 false = true ∧
      t.rel.logNext = s.rel.logNext + 1 ∧ (∃ e ∈ t.rel.log, e.code = 0x30C) ∧
      (∀ j, s.job.cur = some j → j.preempt = none → j.ending = none →
        ∃ k, t.job.cur = some k ∧ k.preempt = some .alert) ∧
      t = { s with rel := t.rel, job := t.job, rings := t.rings, hif := t.hif, seqs := t.seqs }) ∧
    (s.rel.pinActive.getD 4 false = false → s.mgt.resetPending = none → ∃ t, exec (.mgtRstN n) s = .next t ∧
      t.rel.pinActive.getD 4 false = true ∧ t.mgt.resetPending = some .pin ∧
      (∀ j, s.job.cur = some j → j.preempt = none → j.ending = none →
        ∃ k, t.job.cur = some k ∧ k.preempt = some .moduleReset) ∧
      t = { s with rel := level 4 true, mgt := { s.mgt with resetPending := some .pin }, job := t.job }) ∧
    (∀ i : PinId, s.rel.pinActive.getD i false = true → s.rel.stuckDone.getD i false = false → s.rel.pinStuck.length = 5 →
      ∃ t, exec (.inputStuckCount i) s = .next t ∧ t.rel.pinStuck.getD i 0 = satAdd (s.rel.pinStuck.getD i 0) 1 ∧
        (∃ e ∈ t.rel.log, e.code = 0x30B ∧ e.data = i.val) ∧ exec (.inputStuckCount i) t = .next t ∧
        t = { s with rel := t.rel, rings := t.rings, hif := t.hif, seqs := t.seqs })) ∧
  (∀ (p : PortId) (s : State), s.shaped = true → s.variant.hasPort p = true →
    ((s.port p).cblPres = false → ∃ t, exec (.cblPresN p true) s = .next t ∧ (t.port p).cblPres = true ∧
      (t.port p).cblPower = true ∧ t = s.modPort p fun _ => t.port p) ∧
    ((s.port p).cblPres = true → ∃ t, exec (.cblPresN p false) s = .next t ∧ (t.port p).cblPres = false ∧
      (t.port p).cblPower = false ∧ (s.portActive p = true → (t.port p).state = 1) ∧
      (s.portActive p = false → t = s.modPort p fun _ => t.port p)) ∧
    ((s.port p).cblPower = true → ∃ t, exec (.cableOvercurrent p) s = .next t ∧ (t.port p).cblPower = false ∧
      (t.port p).cblPres = (s.port p).cblPres ∧ (s.portActive p = true → (t.port p).state = 1) ∧
      (s.portActive p = false → t = s.modPort p fun _ => t.port p)) ∧
    (∀ i : JtagOp, exec (.jtagInstruction i) s = .next { s with side := { s.side with
      jtag := if i = .extest ∧ s.rel.pinActive.getD 4 false = false then .bypass else i } }))

/-- An FLR of PF0 disables every PF0 ring, discards queued job, DMA and codec descriptors, keeps images, table sets,
save areas, memory and Gatehouse, and asks for the running job's pre-emption. An FLR of PF1 disables the PF1 rings and
leaves PF0's rings and the job as they were. A move to D3hot shows in PMCSR, asks for the pre-emption and disables no
ring. The link is down, every ring is disabled, the HIF registers and both configuration spaces take their reset
values, and the running job's pre-emption is asked for; memory, Gatehouse, Limfaette unit, codec pool tables, images
and save areas stay. Completes: flrPf0, flrPf1, d3hot, hostInterfaceReset, perstN. (R263, R298, R474, R475, R476) -/
def Obligations.HostResets : Prop :=
  (∀ s : State, s.shaped = true → s.hostUp = true →
    let asked := fun (t : State) (why : PreBy) => ∀ j, s.job.cur = some j → j.preempt = none → j.ending = none →
      ∃ k, t.job.cur = some k ∧ k.preempt = some why
    (∃ t, exec .flrPf0 s = .next t ∧ (∀ r, r < 64 → (t.ring r).en = false) ∧
      (∀ r, r = 0 ∨ (2 ≤ r ∧ r < 22) → (t.ring r).posted = [] ∧ (t.ring r).fetched = []) ∧
      (t.ring 64) = (s.ring 64) ∧ t.mgt.images = s.mgt.images ∧ t.job.areas = s.job.areas ∧ t.mem = s.mem ∧
      t.sec = s.sec ∧ t.fab = s.fab ∧ asked t .flr) ∧
    (∃ t, exec .flrPf1 s = .next t ∧ (t.ring 64).en = false ∧ (t.ring 65).en = false ∧
      (∀ r, r < 64 → t.ring r = s.ring r) ∧ t = { s with rings := t.rings, hif := t.hif }) ∧
    (∃ t, exec .d3hot s = .next t ∧ bitsOf (t.cfgRead .pf0 0x44).toNat 0 2 = 3 ∧
      t.rings.map (·.en) = s.rings.map (·.en) ∧ t.mem = s.mem ∧ asked t .d3)) ∧
  (∀ s : State, s.shaped = true → s.ioUp = true →
    let done := fun (t : State) => t.hif.linkUp = false ∧ (∀ r, (t.ring r).en = false) ∧ t.hif.bar4Base = 0 ∧
      t.hif.evroute = 0 ∧ t.hif.doeVec = 0 ∧ t.hif.violCnt = 0 ∧ t.hif.cfg = [] ∧ t.mem = s.mem ∧
      t.sec = s.sec ∧ t.codecs.map (·.pool) = s.codecs.map (·.pool) ∧ t.mgt.images = s.mgt.images ∧
      t.job.areas = s.job.areas ∧ t.mgt.fatal = s.mgt.fatal
    (∃ t, exec .hostInterfaceReset s = .next t ∧ done t) ∧
    (∀ n, 25 + s.rel.pinLock.getD 0 0 ≤ n → s.rel.pinActive.length = 5 → s.rel.pinActive.getD 0 false = false →
      ∃ t, exec (.perstN n) s = .next t ∧ done t ∧ t.rel.pinActive.getD 0 false = true))

/-- Once no job runs, or at the bound, a pending module reset takes hold: the link is down, every ring is disabled,
images and handles are gone, windows and job domain are cleared, FATAL is clear, memory and boot count stay, save
areas with STATE valid stay, and RESET_CAUSE names the trigger. Unless MGT_RST_N is held, READY is set; at the
filtered release of MGT_RST_N a module that waits in reset boots. Completes: mgtRstNRelease, moduleReset,
moduleResetBound. (R473, R475, R478, Table 17.1) -/
def Obligations.ModuleReset : Prop :=
  ∀ (failed : List (BitVec 16)) (untrained : List StackId) (why : RstCause) (s : State),
    s.filtersUp = true → s.mgt.resetPending = some why →
    let kept := s.job.areas.map fun a => a.bind fun (x : SaveArea) => if x.st = 2 then some x else none
    let done := fun (t : State) => t.hif.linkUp = false ∧ (∀ r, (t.ring r).en = false) ∧ t.mgt.images = [] ∧
      t.sec.windows = List.replicate 32 {} ∧ t.sec.jobdom = 0 ∧ t.mem = s.mem ∧ t.mgt.boot = s.mgt.boot ∧
      t.job.areas = kept ∧ t.job.cur = none ∧ t.mgt.resetPending = none ∧ t.mgt.fatal = false ∧
      t.mgt.resetCause = (match why with | .pin => 2 | .reg => 3) ∧
      (t.mgt.ready = true ↔ s.rel.pinActive.getD 4 false = false)
    (s.job.cur = none → ∃ t, exec (.moduleReset failed untrained) s = .next t ∧ done t) ∧
    (∃ t, exec (.moduleResetBound failed untrained) s = .next t ∧ done t) ∧
    (∀ n, 250 + s.rel.pinLock.getD 4 0 ≤ n → s.rel.pinActive.length = 5 → s.rel.pinActive.getD 4 false = true →
      s.mgt.ready = false →
      ∃ t, exec (.mgtRstNRelease n) { s with mgt := { s.mgt with resetPending := none } } = .next t ∧
        t.mgt.ready = true ∧ t.mem = s.mem ∧ t.mgt.boot = s.mgt.boot)

/-- For a module without supply, the boot count rises by one, memory reads zero, no save area, window, domain member,
image or enabled ring is left, RESET_CAUSE is 1, the measured capacitance shows and BANK_LOW is set below 2,200 uF;
unless MGT_RST_N is held READY is set. Completes: coldStart. (R415, R469, R472, R478) -/
def Obligations.ColdStart : Prop :=
  ∀ (failed : List (BitVec 16)) (untrained : List StackId) (uf : BitVec 16) (s : State), s.pwr.railsOn = false →
    ∃ t, exec (.coldStart failed untrained uf) s = .next t ∧ t.pwr.railsOn = true ∧ t.mgt.boot = s.mgt.boot + 1 ∧
      t.mem = {} ∧ t.job.areas = List.replicate 8 none ∧ t.job.cur = none ∧ t.sec.windows = List.replicate 32 {} ∧
      t.sec.jobdom = 0 ∧ t.mgt.images = [] ∧ (∀ r, (t.ring r).en = false) ∧ t.mgt.resetCause = 1 ∧
      t.pwr.bankUf = uf ∧ (t.pwr.bankLow = true ↔ uf.toNat < 2200) ∧ t.hif.linkUp = false ∧
      (t.mgt.ready = true ↔ s.rel.pinActive.getD 4 false = false)

/-- RENEW by the holder under its EPOCH zeroes AGE; refused, a half that took itself for the lead drops to follower
and LEASE_LOST is logged. ACQUIRE of a free lease makes the half holder under EPOCH + 1 with LAST and AGE set, and the
vault keeps the epoch. RELEASE by the holder frees the lease, or grants it to the other half under EPOCH + 1 in a
hand-over. At AGE = TERM the holder becomes none. Completes: renew, acquire, leaseRelease, leaseExpiry. (R440, R441)
-/
def Obligations.LeaseRequests : Prop :=
  ∀ (h : HalfId) (e : Word) (s : State), s.shaped = true → s.ioUp = true → s.halfUp h = true →
    let l := s.rel.lease
    (l.holder = h.val → l.epoch = e →
      exec (.renew h e) s = .next { s with rel := { s.rel with lease := { l with age := 0, granted := none } } }) ∧
    ((l.holder ≠ h.val ∨ l.epoch ≠ e) → (s.half h).leads.isSome = true →
      ∃ t, exec (.renew h e) s = .next t ∧ (t.half h).leads = none ∧ t.rel.lease = l ∧
        (∃ x ∈ t.rel.log, x.code = 0x302 ∧ x.data = e.toNat)) ∧
    (l.holder = 3 → ∃ t, exec (.acquire h) s = .next t ∧
      t.rel.lease = { l with holder := h.val, epoch := l.epoch + 1, age := 0, vacant := 0,
                             lastA := if h.val = 0 then l.epoch + 1 else l.lastA,
                             lastB := if h.val = 0 then l.lastB else l.epoch + 1 } ∧
      t.mgt.vaultEpoch = l.epoch + 1 ∧ (t.half h).leads = some (l.epoch + 1) ∧
      t = { s with rel := { s.rel with lease := t.rel.lease }, mgt := { s.mgt with vaultEpoch := t.mgt.vaultEpoch },
                   halves := t.halves }) ∧
    (l.holder = h.val → l.epoch = e → ∃ t, exec (.leaseRelease h e) s = .next t ∧
      (s.rel.handover = none → t.rel.lease.holder = 3 ∧ t.rel.lease.epoch = e) ∧
      (s.rel.handover.isSome = true → s.halfUp (1 - h.val) = true →
        t.rel.lease.holder = 1 - h.val ∧ t.rel.lease.epoch = e + 1) ∧
      t = { s with rel := { s.rel with lease := t.rel.lease }, mgt := { s.mgt with vaultEpoch := t.mgt.vaultEpoch },
                   halves := t.halves }) ∧
    (l.holder ≠ 3 → s.mgt.leaseTerm ≤ l.age → exec .leaseExpiry s =
      .next { s with rel := { s.rel with lease := { l with holder := 3, vacant := 0 } } })

/-- With both halves in service and no earlier grant, the half whose LAST is older, B on a tie, is fenced and the
other holds the lease under a higher EPOCH. A heartbeat that advanced clears a core's count; the second window without
one reports CORE_HANG for the core. Completes: heartbeatCheck, leaseVacant. (R443, R444) -/
def Obligations.LeaseVacantAndHeartbeat : Prop :=
  ∀ s : State, s.shaped = true → s.mgrUp = true →
    (s.rel.lease.holder = 3 → s.mgt.leaseTerm ≤ s.rel.lease.vacant → s.rel.lease.granted = none →
      s.isFenced (srcHalf 0) = false → s.isFenced (srcHalf 1) = false →
      let h := if s.rel.lease.lastA.toNat < s.rel.lease.lastB.toNat then 0 else 1
      ∃ t, exec .leaseVacant s = .next t ∧ t.isFenced (srcHalf h) = true ∧ t.rel.lease.holder = 1 - h ∧
        t.rel.lease.epoch = s.rel.lease.epoch + 1 ∧ t.isFenced (srcHalf (1 - h)) = false ∧ t.mem = s.mem) ∧
    (∀ u : BitVec 16, s.pwr.refclk = true → (u.toNat / 0x1000 = 2 ∧ u.toNat % 0x1000 < 2) ∨
        (u.toNat / 0x1000 = 3 ∧ u.toNat % 0x1000 < 8) → s.isFenced u.toNat = false → s.rel.queue.length < 16 →
      tableOk 0 s.rel.beats = true →
      (∃ t, exec (.heartbeatCheck u true) s = .next t ∧ look 0 t.rel.beats u.toNat = 0 ∧
        t.rel.queue = s.rel.queue) ∧
      (look 0 s.rel.beats u.toNat = 0 → ∃ t, exec (.heartbeatCheck u false) s = .next t ∧
        look 0 t.rel.beats u.toNat = 1 ∧ t.rel.queue = s.rel.queue) ∧
      (look 0 s.rel.beats u.toNat = 1 → ∃ t q, exec (.heartbeatCheck u false) s = .next t ∧
        t.rel.queue = s.rel.queue ++ [q] ∧ q.a.code = 0x304 ∧ q.a.rung = 3 ∧ q.a.unit = u))

/-- With no summary, the handler removes the first of the highest-rung errors from the queue and no other. A rung-2
error for the running job gives it an end with FAILED; a rung-4 error sets FATAL; a rung-3 error of an engine fences
it, and one of a unit already fenced is absorbed in the log. Memory stays as it was, where no BAR4 access waits for a
fenced stack. Completes: errorHandle. (R422, R423, R424, R430, R432, R434) -/
def Obligations.ErrorHandling : Prop :=
  ∀ (q : QErr) (s : State), s.shaped = true → s.mgrUp = true → s.rel.summary = none →
    s.rel.queue.find? (fun x => x.a.rung.val = topRung s.rel.queue) = some q →
    (∀ x ∈ s.rel.queue, x.lseq = q.lseq → x = q) →
    ∃ t more, exec (.errorHandle []) s = .next t ∧ t.rel.queue = s.rel.queue.filter (fun x => x ≠ q) ++ more ∧
      (s.hif.barHeld = [] → t.mem = s.mem) ∧
      (q.a.rung = 4 → t.mgt.fatal = true) ∧
      (∀ j, q.a.rung = 2 → s.job.cur = some j → q.job ≠ 0 → q.job.toNat = jId j.posted.bytes → j.ending = none →
        q.a.code.toNat ≠ fOutlierOvf → ∃ k e, t.job.cur = some k ∧ k.ending = some e ∧ e.status = 0xD) ∧
      (∀ n, q.a.rung = 3 → n < 64 → q.a.unit.toNat = srcEngine n → t.isFenced (srcEngine n) = true) ∧
      (q.a.rung = 3 → q.a.unit.toNat / 0x1000 = 4 → s.isFenced q.a.unit.toNat = true →
        ∀ e ∈ t.rel.log, e.lseq = q.lseq → e.action = 8)

/-- A course whose reload passes is no longer fenced; one that fails stays fenced, and its live ranges ask for the
job's pre-emption. A half's reload lifts its fence. A hand-over with no job running passes the lease to the other half
under a higher EPOCH, makes the slot active and completes; one that fails, or runs out of windows, keeps the slot and
completes FAILED. Completes: reload, fwHandover, handoverTimeout. (R437, R438, R444) -/
def Obligations.ReloadAndHandover : Prop :=
  ∀ s : State, s.shaped = true → s.mgrUp = true →
    (∀ u : BitVec 16, s.rel.reloading.contains u = true → u.toNat / 0x1000 = 3 →
      (∃ t, exec (.reload u true) s = .next t ∧ u ∉ t.rel.fenced ∧ u ∉ t.rel.reloading ∧ t.mem = s.mem) ∧
      (∃ t, exec (.reload u false) s = .next t ∧ t.rel.fenced = s.rel.fenced ∧ u ∉ t.rel.reloading ∧
        ((s.course (u.toNat % 0x1000)).ranges ≠ [] → ∀ j, s.job.cur = some j → j.preempt = none → j.ending = none →
          ∃ k, t.job.cur = some k ∧ k.preempt = some .fence))) ∧
    (∀ u : BitVec 16, s.rel.reloading.contains u = true → u.toNat / 0x1000 = 2 →
      ∃ t, exec (.reload u true) s = .next t ∧ u ∉ t.rel.fenced ∧ t.mem = s.mem) ∧
    (∀ ho h, s.rel.handover = some ho → s.lead = some h → s.job.cur = none → s.halfUp 0 = true → s.halfUp 1 = true →
      (∃ t, exec (.fwHandover none) s = .next t ∧ t.rel.lease.holder = 1 - h ∧
        t.rel.lease.epoch = s.rel.lease.epoch + 1 ∧ t.mgt.fwSlot = ho.slot ∧ t.rel.handover = none) ∧
      (∀ u, ∃ t, exec (.fwHandover (some u)) s = .next t ∧ t.rel.lease.holder = h ∧ t.mgt.fwSlot = s.mgt.fwSlot ∧
        t.rel.handover = none ∧ ∃ e ∈ t.rel.log, e.code = 0x30A ∧ e.action = 10) ∧
      (∀ u, s.mgt.handoverWindows ≤ ho.windows → ∃ t, exec (.handoverTimeout u) s = .next t ∧
        t.mgt.fwSlot = s.mgt.fwSlot ∧ t.rel.handover = none ∧ t.rel.lease.holder = h))

/-- A rail below 0.44 V holds its region, counts in PWR_UV_CNT and changes no memory; above 0.46 V the region goes on.
A rail below 0.40 V reports a rung-4 error. The limiter lowers the rails of both halves to the cap, 0.50 V at the
lowest, and freezes the gates only with both there; its exit releases a freeze first, alone, with the caps still down,
and ends with both rails at what PWR_VSET asks. At the hold threshold of its kind (105, or 95 for a stack) a sensor
holds its unit, and an I/O die's hold caps the I/O core rail at 0.50 V; at the release threshold (101, or 90) the hold
ends. At 115 a course or I/O die trips: the core rails go off and a rung-4 error is queued. At 105 a stack queues a
rung-3 error for it. Completes: uvHold, uvRelease, railLost, limitEnter, limitExit, thermalHold, thermalRelease,
thermalTrip, dramTrip. (R404, R405, R407, R412, R421) -/
def Obligations.RailsAndThermal : Prop :=
  (∀ s : State, s.shaped = true → s.ioUp = true → s.pwr.uvHold.length = 3 →
    let want := fun (r : Nat) => 500 + 5 * s.pwr.vset.getD r 24
    (∀ r : RailId, s.pwr.uvHold.getD r false = false → ∃ t, exec (.uvHold r) s = .next t ∧
      t.pwr = { s.pwr with uvHold := s.pwr.uvHold.set r true, uvCnt := satAdd s.pwr.uvCnt 1 } ∧
      t.regionUp r = false ∧ t = { s with pwr := t.pwr, rings := t.rings, hif := t.hif, seqs := t.seqs }) ∧
    (∀ r : RailId, s.pwr.uvHold.getD r false = true → ∃ t, exec (.uvRelease r) s = .next t ∧
      t.pwr = { s.pwr with uvHold := s.pwr.uvHold.set r false } ∧
      t = { s with pwr := t.pwr, rings := t.rings, hif := t.hif, seqs := t.seqs }) ∧
    (∀ r : RailId, s.rel.queue.length < 16 → ∃ t q, exec (.railLost r) s = .next t ∧
      t.rel.queue = s.rel.queue ++ [q] ∧ q.a.rung = 4 ∧ q.a.code = 0x309 ∧ t.mem = s.mem) ∧
    (∀ (cap : BitVec 10) fr, ∃ t, exec (.limitEnter ⟨cap, fr⟩) s = .next t ∧ t.pwr.limit = true ∧
      (∀ r, r < 2 → t.railMv r = if s.pwr.freeze then s.railMv r else min (want r) (max 500 cap.toNat)) ∧
      t.railMv 2 = s.railMv 2 ∧
      (t.pwr.freeze = true ↔ s.pwr.freeze = true ∨ (fr = true ∧ t.railMv 0 = 500 ∧ t.railMv 1 = 500)) ∧
      t = { s with pwr := t.pwr, rings := t.rings, hif := t.hif, seqs := t.seqs }) ∧
    (s.pwr.limit = true → s.pwr.freeze = true →
      exec .limitExit s = .next { s with pwr := { s.pwr with freeze := false } }) ∧
    (s.pwr.limit = true → s.pwr.freeze = false → (∀ r, s.pwr.vset.getD r 24 ≤ 50) →
      ∃ t, exec .limitExit s = .next t ∧ t.pwr.freeze = false ∧ t.pwr.limit = false ∧
        (∀ r, r < 2 → t.railMv r = want r) ∧ t.railMv 2 = s.railMv 2 ∧
        t = { s with pwr := t.pwr, rings := t.rings, hif := t.hif, seqs := t.seqs })) ∧
  (∀ (temp : BitVec 16) (s : State), s.shaped = true → s.ioUp = true → s.pwr.thermalHold.length = 32 →
    s.pwr.vcap.length = 3 →
    (∀ u : SensorId, s.variant.hasSensor u = true → s.pwr.thermalHold.getD u false = false →
      (if u.val < 16 then 105 * 16 else 95 * 16) ≤ temp.toInt →
      ∃ t, exec (.thermalHold u temp) s = .next t ∧ t.pwr.thermalHold = s.pwr.thermalHold.set u true ∧
        (8 ≤ u.val ∧ u.val < 12 → t.railMv 2 ≤ 500) ∧
        t = { s with pwr := t.pwr, rings := t.rings, hif := t.hif, seqs := t.seqs }) ∧
    (∀ u : SensorId, s.variant.hasSensor u = true → s.pwr.thermalHold.getD u false = true →
      temp.toInt ≤ (if u.val < 16 then 101 * 16 else 90 * 16) →
      ∃ t, exec (.thermalRelease u temp) s = .next t ∧ t.pwr.thermalHold = s.pwr.thermalHold.set u false ∧
        t = { s with pwr := t.pwr, rings := t.rings, hif := t.hif, seqs := t.seqs }) ∧
    (∀ u : SensorId, s.variant.hasSensor u = true → u.val < 16 → 115 * 16 ≤ temp.toInt → s.rel.queue.length < 16 →
      ∃ t q, exec (.thermalTrip u temp) s = .next t ∧ t.regionUp 0 = false ∧ t.regionUp 1 = false ∧
        t.regionUp 3 = false ∧ t.rel.queue = s.rel.queue ++ [q] ∧ q.a.rung = 4 ∧ q.a.code = 0x308 ∧ t.mem = s.mem) ∧
    (∀ st : StackId, s.variant.hasStack st = true → 105 * 16 ≤ temp.toInt → s.rel.queue.length < 16 →
      ∃ t q, exec (.dramTrip st temp) s = .next t ∧ t.rel.queue = s.rel.queue ++ [q] ∧ q.a.rung = 3 ∧
        q.a.code = 0x30F ∧ q.a.unit = BitVec.ofNat 16 (srcPraline st) ∧ t.mem = s.mem))

/-- A refill leaves each course's bucket at least as it was below the cap and never above the cap where the course
draws credits, masks the classes above PWR_HOT_CLASS of a course at PWR_THOT, sets 0.62 V at a ceiling of 2,000 W and
no more under a lower one, and changes nothing else but temperatures. A pace window shows its count without STALE; one
of I/O die 0 advances AGE of a held lease. Without the reference clock every monitor is stale, and neither windows nor
refills change anything. Completes: creditRefill, paceWindow, refclkLoss, refclkReturn. (R37, R38, R59, R411, R440) -/
def Obligations.CreditsAndPace : Prop :=
  ∀ s : State, s.shaped = true → s.ioUp = true →
    (∀ t : Telemetry, s.mgt.ready = true → s.pwr.refclk = true → ∃ u, exec (.creditRefill t) s = .next u ∧
      (∀ c, c < 8 → ((s.course c).wants = true → heatRoom { s.pwr with temp := t.temps } c ≠ 0 →
          (u.course c).bucket ≤ s.pwr.creditCap ∧
          ((s.course c).bucket ≤ s.pwr.creditCap → (s.course c).bucket ≤ (u.course c).bucket)) ∧
        ((s.course c).wants = false → (u.course c).bucket = (s.course c).bucket) ∧
        (16 * (s.pwr.thot : Int) ≤ (t.temps.getD c 0).toInt →
          (u.course c).mask = BitVec.ofNat 8 (2 ^ (s.pwr.hotClass + 1) - 1)) ∧
        ((t.temps.getD c 0).toInt < 16 * (s.pwr.thot : Int) → (u.course c).mask = 0xFF)) ∧
      u.pwr.vset.length = 3 ∧ (∀ v ∈ u.pwr.vset, v ≤ 24) ∧ (s.effCeil = 2000 → u.pwr.vset = [24, 24, 24]) ∧
      u = { s with courses := u.courses, pwr := { s.pwr with temp := t.temps, vset := u.pwr.vset }, free := u.free }) ∧
    (∀ (m : Fin 12) (n : BitVec 16), s.pwr.refclk = true → m.val < 8 + s.variant.ioDies → s.pwr.pace.length = 12 →
      ∃ t, exec (.paceWindow m n) s = .next t ∧ t.pwr.pace = s.pwr.pace.set m (false, n) ∧
        (m.val = 8 → s.rel.lease.holder ≠ 3 → t.rel.lease.age = s.rel.lease.age + 1) ∧
        (m.val ≠ 8 → t.rel = s.rel) ∧ t = { s with pwr := { s.pwr with pace := t.pwr.pace }, rel := t.rel }) ∧
    (s.pwr.refclk = true → ∃ t, exec .refclkLoss s = .next t ∧ t.pwr.refclk = false ∧
      (∀ p ∈ t.pwr.pace, p.1 = true) ∧ t.pwr.pace.map (·.2) = s.pwr.pace.map (·.2) ∧ t.mem = s.mem) ∧
    (s.pwr.refclk = false → (∀ m n, m.val < 8 + s.variant.ioDies → exec (.paceWindow m n) s = .next s) ∧
      (∀ t, exec (.creditRefill t) s = .next s)) ∧
    exec .refclkReturn s = .next { s with pwr := { s.pwr with refclk := true } }

/-- At a supply loss the module halts, every stack is in self-refresh and every link down, BANK_READY is clear and
memory stays until the rails go. The save writes the slot that does not hold the newest record with the next SAVE_NO,
the cause, the ring cursors, the jobs and the lease, and removes the rails. BANK_READY is set when the bank reaches
its voltage. A watchdog posts one PROGRESS for each time that its count reaches the limit, and counts on from there.
Completes: supplyLoss, vaultSave, bankReady, progressWatchdog. (R58, R413, R414, R415) -/
def Obligations.SupplyLossAndVault : Prop :=
  ∀ s : State, s.shaped = true →
    (∀ ovf, s.pwr.railsOn = true → s.pwr.halted = false → ∃ t, exec (.supplyLoss ovf) s = .next t ∧
      t.pwr.halted = true ∧ t.ioUp = false ∧ t.pwr.lossCause = (if ovf then 2 else 1) ∧ t.pwr.bankReady = false ∧
      t.hif.linkUp = false ∧ (∀ k ∈ t.hbm, k.selfRefresh = true) ∧ (∀ p ∈ t.fab.ports, p.state = 0) ∧
      t = { s with pwr := t.pwr, hbm := t.hbm, fab := t.fab, hif := t.hif, mgt := t.mgt }) ∧
    (s.pwr.railsOn = true → s.pwr.halted = true → s.pwr.bankLow = false → s.mgt.vaultSlots.length = 2 →
      ∃ t k v, exec .vaultSave s = .next t ∧ k < 2 ∧ t.mgt.vaultSlots = s.mgt.vaultSlots.set k (some v) ∧
        (∀ i w, newestSlot s.mgt.vaultSlots = some (i, w) → k ≠ i ∧ v.saveNo = w.saveNo + 1) ∧ v.complete = true ∧
        v.cause = s.pwr.lossCause ∧ v.boot = s.mgt.boot ∧ v.rings = s.vaultRings ∧ v.jobs = s.vaultJobs ∧
        v.epoch = s.rel.lease.epoch ∧ t.pwr.railsOn = false ∧ t.mem = s.mem) ∧
    (s.pwr.railsOn = true → s.pwr.halted = false → s.pwr.bankReady = false → ∃ t, exec .bankReady s = .next t ∧
      t.pwr = { s.pwr with bankReady := true } ∧
      t = { s with pwr := t.pwr, rings := t.rings, hif := t.hif, seqs := t.seqs }) ∧
    (∀ (j : Job) (p : Word), s.job.cur = some j → s.mgrUp = true → s.pwr.refclk = true → j.signalled = false →
      j.ending = none →
      (s.mgt.wdogLimit ≠ 0 → s.mgt.wdogLimit.toNat ≤ s.mgt.wdogCount.toNat + p.toNat →
        let n := s.mgt.wdogCount.toNat + p.toNat
        let q := s.routed kProgress
        ∃ t, exec (.progressWatchdog p) s = .next t ∧ t.mgt.wdogCount.toNat = n % s.mgt.wdogLimit.toNat ∧
          ((s.ring q).evq.length + n / s.mgt.wdogLimit.toNat ≤ 64 →
            (t.ring q).evq.length = (s.ring q).evq.length + n / s.mgt.wdogLimit.toNat) ∧
          t = { s with mgt := t.mgt, rings := t.rings, hif := t.hif, seqs := t.seqs }) ∧
      (s.mgt.wdogCount.toNat + p.toNat < s.mgt.wdogLimit.toNat →
        exec (.progressWatchdog p) s = .next { s with mgt := { s.mgt with wdogCount := s.mgt.wdogCount + p } }))

/-- An engine that may claim gets a value of the first range of its course that can serve it: a free offset, of the
engine's own residue where the range is pinned, with no range before it able to serve. The gate debits the class's
cost and the offset is free no more; nothing else changes. A gate that is shut leaves the engine under CREDIT_WAIT; no
range to serve it leaves it under WORK_PINNED where offsets are left, else under WORK_EMPTY; a missing table set, or
an active image still to be reloaded after a resume, leaves it under IMAGE_WAIT, and else a held fault under
FAULT_WAIT. Completes: tileClaim. (R140, R141, R409) -/
def Obligations.TileClaims : Prop :=
  ∀ (e : EngineId) (s : State), s.shaped = true → s.engineUp e = true → s.jobClaims = true →
    (s.engine e).claim = none → (s.engine e).drainFirst = false →
    let c := e.val / 8
    let ranges := (s.course c).ranges
    let stalled := fun (code : Nat) => exec (.tileClaim e) s = .next (s.stallEngine e code)
    ((s.engine e).tsetLoaded = false ∨ (s.engine e).reloadActive.isSome = true → stalled 0x02) ∧
    ((s.engine e).tsetLoaded = true → (s.engine e).reloadActive = none → (s.engine e).fault.isSome = true → stalled 0x07) ∧
    ((s.engine e).tsetLoaded = true → (s.engine e).reloadActive = none → (s.engine e).fault = none →
      (∀ n r k, pickRange (e.val % 8) 0 ranges = some (n, r, k) →
        ranges[n]? = some r ∧ k < r.count ∧ r.free k = true ∧ (2 ≤ r.affinity → k % 8 = e.val % 8) ∧
        (∀ m q, m < n → ranges[m]? = some q → q.pick (e.val % 8) = none) ∧
        (s.gateOpen c r.eclass = false → stalled 0x06) ∧
        (s.gateOpen c r.eclass = true → ∃ t v, exec (.tileClaim e) s = .next t ∧ (t.engine e).claim = some v ∧
          v.value = r.first + BitVec.ofNat 32 k ∧ v.epoch = r.epoch ∧ v.eclass = r.eclass ∧ v.read = false ∧
          v.cost = (s.course c).costOf r.eclass ∧
          (t.course c).bucket.toNat + v.cost = (s.course c).bucket.toNat ∧
          (∀ q, (t.course c).ranges[n]? = some q → q.free k = false ∧ q.committed = r.committed) ∧
          t = (s.modCourse c fun _ => t.course c).modEngine e fun x => { x with claim := some v, hold := 0 })) ∧
      (pickRange (e.val % 8) 0 ranges = none →
        (∀ r ∈ ranges, r.pick (e.val % 8) = none) ∧
        ((∃ r ∈ ranges, ∃ k < r.count, r.free k = true) → stalled 0x05) ∧
        ((∀ r ∈ ranges, ∀ k < r.count, r.free k = false) → stalled 0x04)))

/-- A tile not yet read takes its descriptor from memory when that passes its checks, and otherwise leaves the engine
holding a fault of the check that failed. A tile that still waits for its fills, or for the running tile's swap, asks
for its image where neither plane holds it, and counts the fills' tier. One that is read, filled and not preceded by a
running one starts on the active plane when that holds its image: it runs from phase 0, the vector registers are zero
and every brick stands at ENTRY_SLOT. Where the idle plane holds the image, PLANE_SWITCH exchanges the planes and
nothing else. Where neither does, the steward is asked for a verified image, and raises IMAGE_MISSING for one that no
handle names. Completes: dispatch. (R15, R74, R76, R135, R138) -/
def Obligations.TileDispatches : Prop :=
  ∀ (e : EngineId) (v : Tile) (s : State), s.shaped = true → s.engineUp e = true → s.jobStopping = false →
    (s.engine e).claim = some v → (s.engine e).fault = none →
    let d := s.mem.read v.descAddr 64
    let entries := chunksOf 32 (tdStages d) (s.mem.read (v.descAddr + 64) (32 * tdStages d))
    let x := s.engine e
    (v.read = false → s.mem.synd = [] →
      (∀ c, tileDescFault d v.eclass = some c → ∃ t f, exec (.dispatch e) s = .next t ∧
        (t.engine e).fault = some f ∧ f.cause = BitVec.ofNat 16 c ∧ f.tile = v.value ∧ (t.engine e).claim = some v ∧
        t.mem = s.mem) ∧
      (tileDescFault d v.eclass = none → entries.filterMap stageFault = [] → entries.any (fun b => !seWrite b) = true →
        ∃ t, exec (.dispatch e) s = .next t ∧
          (t.engine e).claim = some { v with read := true, desc := d, stage := entries, fills := 0, off := 0 } ∧
          (t.engine e).run = x.run ∧ (t.engine e).lastRestart = none ∧
          t = { s with engines := t.engines, courses := t.courses, hbm := t.hbm })) ∧
    (v.read = true → x.run.isSome = true → exec (.dispatch e) s = .next (s.askImage e v)) ∧
    (v.read = true → x.run = none → v.filled = false →
      exec (.dispatch e) s = .next ((s.askImage e v).stallEngine e (s.fillCause e v))) ∧
    (x.plane.serves (tdHandle v.desc) = false → x.idlePlane.serves (tdHandle v.desc) = false → x.loading = none →
      (s.storedOf (tdHandle v.desc) 1).isSome = true →
      (((s.askImage e v).course (e.val / 8)).imageReq.any fun q => q.1 == e.val) = true) ∧
    (v.read = true → v.filled = true → x.run = none →
      (x.plane.serves (tdHandle v.desc) = true → ∃ t, exec (.dispatch e) s = .next t ∧
        (t.engine e).run = some { v with phase := 0 } ∧ (t.engine e).claim = none ∧
        (∀ lane < 16, ∀ reg < 32, (t.engine e).vreg lane reg = List.replicate 32 0) ∧
        (∀ b ∈ (t.engine e).bricks, b.slot = phEntry (x.plane.block 0) ∧ b.done = false ∧ b.fired = 0) ∧
        (t.engine e).bricks.map (·.rf) = x.bricks.map (·.rf) ∧
        t = s.modEngine e fun _ => t.engine e) ∧
      (x.plane.serves (tdHandle v.desc) = false → x.idlePlane.serves (tdHandle v.desc) = true → x.loading = none →
        exec (.dispatch e) s = .next s ∧
        (x.reloadActive = none →
          exec (.planeSwitch e) s = .next (s.modEngine e fun x => { x with active := 1 - x.active }))) ∧
      (x.plane.serves (tdHandle v.desc) = false → x.idlePlane.serves (tdHandle v.desc) = false → x.loading = none →
        ((s.storedOf (tdHandle v.desc) 1).isSome = true → ∃ t, exec (.dispatch e) s = .next t ∧
          ((t.course (e.val / 8)).imageReq.any fun q => q.1 == e.val) = true ∧ (t.engine e).claim = some v ∧
          t = (s.modCourse (e.val / 8) fun c => { c with imageReq := (t.course (e.val / 8)).imageReq }).stallEngine e 0x02) ∧
        (s.storedOf (tdHandle v.desc) 1 = none → (s.course (e.val / 8)).stewardFault = none →
          ∃ t f, exec (.dispatch e) s = .next t ∧ (t.course (e.val / 8)).stewardFault = some f ∧ f.cause = 0x1E ∧
            f.tile = v.value ∧ (t.engine e).claim = some v ∧ t.mem = s.mem)))

/-- A fill of one piece whose address translates copies its bytes into the engine's scratchpad, marks there the words
that were bad, and leaves every other byte as it was; the tile is poisoned where a word was bad, and its next fill
comes. A destination beyond the scratchpad takes no byte and is counted. A failed translation leaves the engine
holding a fault of its cause, and a fenced stack, of the data or of a page table, holds the fill under T2_FAIL.
Completes: stagingFill. (R125, R137, R138, R225, R233) -/
def Obligations.StagingFills : Prop :=
  ∀ (e : EngineId) (v : Tile) (b : List Byte) (s s1 : State) (tgt a : Nat), s.shaped = true → s.engineUp e = true →
    s.jobStopping = false → (s.engine e).claim = some v → v.read = true → (s.engine e).fault = none →
    v.stage[v.fills]? = some b → stageFault b = none → seWrite b = false → v.off = 0 → s.mem.wf = true →
    let n := seLen b
    let la := seLaddr b
    let dst := scratchBase e + la
    seJaddr b % 0x10000 + n ≤ 0x10000 →
    (s.translate (e / 32) (engReader e v) (seJaddr b) false true = (.ok tgt a, s1) → s1.stackHeld a = false → a % 64 = 0 →
      (la + n ≤ 0x400000 → ∃ t w, exec (.stagingFill e) s = .next t ∧
        (∀ i < n, t.mem.byte (dst + i) = (s.mem.read a n).getD i 0) ∧
        (∀ k, k < dst ∨ dst + n ≤ k → t.mem.byte k = s.mem.byte k) ∧
        (∀ j < n / 4, t.mem.bad (dst / 4 + j) = s.mem.bad (a / 4 + j)) ∧
        (t.engine e).claim = some w ∧ w.fills = v.fills + 1 ∧ w.off = 0 ∧ w.poison = (v.poison || s.mem.anyBad a n) ∧
        w.desc = v.desc ∧ w.value = v.value ∧ (t.engine e).counters = (s.engine e).counters ∧
        (s.mem.flawed a n = [] → t = { s1 with mem := t.mem, engines := t.engines, hbm := t.hbm })) ∧
      (0x400000 ≤ la → la + n ≤ 0x1000000 → ∃ t, exec (.stagingFill e) s = .next t ∧ t.mem = s.mem ∧
        (s.imageDebug (tdHandle v.desc) = false →
          (t.engine e).counters = modifyNth (fun k => satAdd k 1) (s.engine e).counters nOorWr) ∧
        (s.imageDebug (tdHandle v.desc) = true → la + n ≤ 0x600000 →
          (t.engine e).counters = modifyNth (fun k => satAdd k 1) (s.engine e).counters nDebugWr))) ∧
    (s.translate (e / 32) (engReader e v) (seJaddr b) false true = (.ok tgt a, s1) → s1.stackHeld a = true →
      ∃ t, exec (.stagingFill e) s = .next t ∧ (t.engine e).hold = 0x0D ∧ t.mem = s.mem) ∧
    (s.translate (e / 32) (engReader e v) (seJaddr b) false true = (.held, s1) →
      ∃ t, exec (.stagingFill e) s = .next t ∧ (t.engine e).hold = 0x0D ∧ t.mem = s.mem) ∧
    (∀ c l en ea, s.translate (e / 32) (engReader e v) (seJaddr b) false true = (.bad c l en ea, s1) →
      ∃ t f w, exec (.stagingFill e) s = .next t ∧ (t.engine e).fault = some f ∧ f.cause = BitVec.ofNat 16 c ∧
        f.tile = v.value ∧ (t.engine e).claim = some w ∧ w.fills = v.fills ∧ t.mem = s.mem)

/-- A load command clears the idle plane and leaves the active one; a debug image without DEBUG_EN raises IMAGE_DEBUG
and changes no plane. The load then ends with the image's slots and blocks in the idle plane, or, after a bad word,
with a plane that serves no tile and PLANE_POISON. After a resume the saved active image is loaded first, and
PLANE_SWITCH makes it active. A table set is loaded whole, or not at all with SFU_TAB_POISON. Completes: planeLoad,
planeSwitch, tableSetLoad. (R75, R78, R81, R167) -/
def Obligations.PlanesAndTableSetsLoad : Prop :=
  ∀ (e : EngineId) (s : State), s.shaped = true → s.engineUp e = true →
    let x := s.engine e
    let c := e.val / 8
    (∀ h f, x.loading = none → x.reloadActive = none → x.reloadIdle = none →
      (s.course c).imageReq.find? (fun q => q.1 == e.val) = some (e.val, h) → s.storedOf h.toNat 1 = some f →
      ((flagDebug (imgFlags f.bytes) = false ∨ s.regs.debugEn = true) →
        ∃ t, exec (.planeLoad e) s = .next t ∧ (t.engine e).idlePlane = {} ∧ (t.engine e).plane = x.plane ∧
          (t.engine e).loading = some h ∧ t.mem.cells = s.mem.cells ∧
          ((t.course c).imageReq.any fun q => q.1 == e.val) = false) ∧
      (flagDebug (imgFlags f.bytes) = true → s.regs.debugEn = false →
        ∃ t g, exec (.planeLoad e) s = .next t ∧ (t.engine e).fault = some g ∧ g.cause = 0x16 ∧
          (t.engine e).plane = x.plane ∧ (t.engine e).idlePlane = x.idlePlane ∧ t.mem = s.mem)) ∧
    (∀ h f, x.loading = none → x.fault = none → x.reloadActive = some h → x.idlePlane.serves h.toNat = false →
      s.storedOf h.toNat 1 = some f → flagDebug (imgFlags f.bytes) = false ∨ s.regs.debugEn = true →
      ∃ t, exec (.planeLoad e) s = .next t ∧ (t.engine e).loading = some h ∧ (t.engine e).plane = x.plane ∧
        (t.engine e).reloadActive = some h ∧ t.mem.cells = s.mem.cells) ∧
    (∀ h, x.run = none → x.loading = none → x.reloadActive = some h → x.idlePlane.serves h.toNat = true →
      exec (.planeSwitch e) s = .next (s.modEngine e fun x => { x with active := 1 - x.active, reloadActive := none })) ∧
    (∀ h f, x.loading = some h → s.storedOf h.toNat 1 = some f →
      (s.mem.flawed (stageBase c h.toNat) (imgLen f.bytes) = [] → ∃ t, exec (.planeLoad e) s = .next t ∧
        (t.engine e).idlePlane = imgPlane f.bytes h ∧ (t.engine e).idlePlane.serves h.toNat = true ∧
        (t.engine e).plane = x.plane ∧ (t.engine e).loading = none ∧ t = s.modEngine e fun _ => t.engine e) ∧
      (s.mem.anyBad (stageBase c h.toNat) (imgLen f.bytes) = true → ∃ t g, exec (.planeLoad e) s = .next t ∧
        (∀ k, (t.engine e).idlePlane.serves k = false) ∧ (t.engine e).plane = x.plane ∧
        (t.engine e).fault = some g ∧ g.cause = 0x15 ∧ t.mem = s.mem)) ∧
    (∀ f, s.jobStopping = false → x.tsetLoaded = false → x.fault = none → s.storedOf (jTset s.jobDesc) 2 = some f →
      (s.mem.flawed (stageBase c (jTset s.jobDesc)) (fieldAt f.bytes 8 4) = [] → exec (.tableSetLoad e) s =
        .next (s.modEngine e fun x => { x with hold := 0, tset := BitVec.ofNat 32 (jTset s.jobDesc), tsetLoaded := true,
                                               tsetPoison := false, tables := f.bytes })) ∧
      (s.mem.anyBad (stageBase c (jTset s.jobDesc)) (fieldAt f.bytes 8 4) = true →
        ∃ t g, exec (.tableSetLoad e) s = .next t ∧ (t.engine e).tsetLoaded = false ∧ (t.engine e).tables = [] ∧
          (t.engine e).fault = some g ∧ g.cause = 0x1C ∧ t.mem = s.mem))

/-- A read beat of a program without side streams that lies in the scratchpad delivers its bytes, padded with zeros,
to the one port that its number modulo 16 names: the W input of a row, the N input of a column, or a lane; a pad beat
delivers the pad value and reads nothing; a beat wholly beyond the scratchpad of an image that is not a debug image
delivers zeros and is counted. A port that holds a word takes no beat, unless its brick is done: then the beat is
delivered all the same, as surplus. With a side stream the 16 bytes at byte 32, or the byte at byte 48, come from it.
Memory stays. A write beat stores the first BEAT bytes of the word that waits and leaves every other byte; a pad write
beat stores nothing. Completes: agBeat. (R72, R125, R130, R131, R132, R133) -/
def Obligations.AddressGeneratorBeats : Prop :=
  ∀ (e : EngineId) (g : AgId) (v : Tile) (p : List Byte) (s : State), s.shaped = true → s.engineRuns e = true →
    (s.engine e).run = some v → phProg (s.engine e).block g = some p → (s.engine e).agDone g = false →
    agBytes p ≤ 128 → (s.engine e).bricks.length = 256 → (s.engine e).laneC.length = 16 →
    (s.engine e).sWord.length = 16 → (s.engine e).vecOut.length = 16 →
    let x := s.engine e
    let n := x.beat g
    let addr := beatAddr p v.desc n
    let pad := beatPad p v.desc n
    let off := (addr + 0x1000000 - tdBase v.desc (agBase p) % 0x1000000) % 0x1000000
    let outl := tdBase v.desc (agOutl p) + 16 * (off / blockBytes p 128)
    let scl := tdBase v.desc (agScale p) + off / blockBytes p 32
    let atPort := fun (t : State) (w : PortBits) => match g with
      | .a => ((t.engine e).brick (n % 16) 0).inW = [.act w]
      | .b => ((t.engine e).brick 0 (n % 16)).inN = [.act w]
      | .c => (t.engine e).laneC.getD (n % 16) [] = [w]
    (agDir p = 0 → x.portFree g n = true →
      (pad = true ∨ addr + agBytes p ≤ 0x400000) → (bitOf (agSide p) 0 = true → pad = true ∨ outl + 16 ≤ 0x400000) →
      (bitOf (agSide p) 1 = true → pad = true ∨ scl + 1 ≤ 0x400000) →
      ∃ t w, exec (.agBeat e g) s = .next t ∧ atPort t w ∧ (t.engine e).beat g = n + 1 ∧ t.mem = s.mem ∧
        (let data := padTo (if pad then padBytes p else s.mem.read (scratchBase e + addr) (agBytes p)) 128
         bytesAt (portBytes w) 0 32 = bytesAt data 0 32 ∧
         bytesAt (portBytes w) 32 16 = (if bitOf (agSide p) 0 then
           (if pad then zeros 16 else s.mem.read (scratchBase e + outl) 16) else bytesAt data 32 16) ∧
         bytesAt (portBytes w) 48 1 = (if bitOf (agSide p) 1 then
           (if pad then [0x7F] else s.mem.read (scratchBase e + scl) 1) else bytesAt data 48 1) ∧
         bytesAt (portBytes w) 49 79 = bytesAt data 49 79) ∧
        (s.mem.synd = [] → t = s.modEngine e fun _ => t.engine e)) ∧
    (agDir p = 0 → x.portFree g n = true → pad = false → agSide p = 0 → x.debug = false → 0x400000 ≤ addr →
      addr + agBytes p ≤ 0x1000000 →
      ∃ t, exec (.agBeat e g) s = .next t ∧ atPort t 0 ∧
        (t.engine e).counters = modifyNth (fun k => satAdd k 1)
          (if beatPadx p v.desc n = 0 then x.counters
           else modifyNth (fun k => satAdd k (beatPadx p v.desc n)) x.counters nPadx) nOorRd ∧
        t = s.modEngine e fun _ => t.engine e) ∧
    (agDir p = 0 → x.takesBeat g n = true →
      ∃ t, exec (.agBeat e g) s = .next t ∧ (t.engine e).beat g = n + 1 ∧ t.mem = s.mem) ∧
    (agDir p = 0 → x.takesBeat g n = false → exec (.agBeat e g) s = .next s) ∧
    ((match g with
      | .a => x.brick (n % 16) 0
      | _ => x.brick 0 (n % 16)).done = true → g ≠ .c → x.takesBeat g n = true) ∧
    (∀ w rest, agDir p ≠ 0 → (x.writeQ (agDir p)).getD (n % 16) [] = w :: rest → s.mem.wf = true →
      (pad = true → ∃ t, exec (.agBeat e g) s = .next t ∧ t.mem = s.mem ∧ (t.engine e).beat g = n + 1 ∧
        ((t.engine e).writeQ (agDir p)).getD (n % 16) [] = rest ∧ t = s.modEngine e fun _ => t.engine e) ∧
      (pad = false → addr + agBytes p ≤ 0x400000 → ∃ t, exec (.agBeat e g) s = .next t ∧
        (∀ i < agBytes p, t.mem.byte (scratchBase e + addr + i) = (portBytes w).getD i 0) ∧
        (∀ k, k < scratchBase e + addr ∨ scratchBase e + addr + agBytes p ≤ k → t.mem.read k 1 = s.mem.read k 1) ∧
        (t.engine e).beat g = n + 1 ∧ ((t.engine e).writeQ (agDir p)).getD (n % 16) [] = rest ∧
        t = { s with mem := t.mem, engines := t.engines })) ∧
    (agDir p ≠ 0 → (x.writeQ (agDir p)).getD (n % 16) [] = [] → exec (.agBeat e g) s = .next s)

/-- A brick that can fire takes one word from each input its slot reads and from no other, and goes on to its next
firing, slot or end. NOP, PASS and the loads leave runs and accumulators; LDW writes the current register-file entry,
and the scale registers at entry 63; MAC, EMAX and EADD leave register file and scale registers. An integer MAC whose
runs are its own and go to the accumulators adds each column's run, once it has RUN_LEN products, to its entry,
clamped to 40 bits, and starts the run anew. A brick at its slot that cannot fire waits under FABRIC_STARVE.
Completes: brickNop, mac, pass, ldw, emax, eadd. (R65, R67, R94, R96, R97, R104) -/
def Obligations.BricksFire : Prop :=
  ∀ (e : EngineId) (row col : Fin 16) (s : State), s.shaped = true → s.engineRuns e = true →
    (s.engine e).bricks.length = 256 →
    ∀ (op : Nat) (i : Instr), (op, i) ∈ [(0, .brickNop e row col), (1, .mac e row col), (2, .pass e row col),
      (3, .ldw e row col), (4, .emax e row col), (5, .eadd e row col)] →
    let x := s.engine e
    let b := x.brick row col
    let c := (x.plane.slot (16 * row.val + col.val) b.slot).1
    let r := (x.plane.slot (16 * row.val + col.val) b.slot).2
    (x.canFire op row col = true → ∃ t, exec i s = .next t ∧ t = (s.modEngine e fun _ => t.engine e) ∧
      (let b' := (t.engine e).brick row col
       (∀ d < 4, b'.input d = if (inputsOf c r).contains d then (b.input d).drop 1 else b.input d) ∧
       (b.fired < cRep c → b'.fired = b.fired + 1 ∧ b'.slot = b.slot ∧ b'.done = false) ∧
       (cRep c ≤ b.fired → cLast c = false → b'.fired = 0 ∧ b'.slot = cNext c ∧ b'.done = false) ∧
       (cRep c ≤ b.fired → cLast c = true → b'.done = true) ∧
       (op ≠ 3 → b'.rf = b.rf ∧ b'.scale = b.scale) ∧
       (op = 3 → b'.rf = store 0 b.rf (currentEntry b c) (fragOf b c) ∧
         b'.scale = (if currentEntry b c = 63 then scaleOf (fragOf b c) else b.scale)) ∧
       (op = 0 ∨ op = 2 ∨ op = 3 → b'.runs = b.runs ∧ (t.engine e).acc0 = x.acc0 ∧ (t.engine e).acc1 = x.acc1) ∧
       (t.engine e).shadowSet = x.shadowSet ∧ (t.engine e).vregs = x.vregs ∧
       (op = 1 → floatW (cWfmt c) = false → x.plane.floating = false → cPsrc c = 0 → cDst c = 1 →
         ∀ j run, b.runs[j]? = some run → b.runs.length = 16 →
           let k := (pairK (cWfmt c) (cAfmt c)).getD 0
           let after := macInt (cWfmt c) (cAfmt c) k b.fired (look 0 b.rf (currentEntry b c)) (fragOf b c) j run
           let entry := accEntry row col (cAccRow c) j
           let old : Acc := (accGet x.activeSet entry).getD {}
           after.count = run.count + k ∧
           (phRunLen x.block ≤ run.count + k ∨ (b.fired = cRep c ∧ run.count + k ≠ 0) →
             b'.runs[j]? = some { val := 0 } ∧ ∃ a, accGet (t.engine e).activeSet entry = some a ∧
               a.val.toInt = clampInt (-(2 ^ 39)) (2 ^ 39 - 1) (old.val.toInt + after.val.toInt + after.side.toInt) ∧
               (old.sticky = true → a.sticky = true) ∧ a.poison = old.poison) ∧
           (run.count + k < phRunLen x.block → (b.fired ≠ cRep c ∨ run.count + k = 0) → b'.runs[j]? = some after)))) ∧
    (x.atSlot op row col = true → x.canFire op row col = false → exec i s = .next (s.stallEngine e 0x01)) ∧
    (x.atSlot op row col = false → exec i s = .next s)

/-- ADD, SUB, MUL, MAX and MIN write the element-wise result, RMAX and RSUM the reduction in all 32 elements, CONST
the constant, SEL the selected elements, CVT the converted ones, in all sixteen lanes at once, from the registers as
they were before; every other register stays, NOP changes none, and the lanes go on to the next instruction. LOOP puts
its body and count before the loops in progress; END ends the program. Nothing outside the engine changes. Completes:
vecNop, vecAdd, vecSub, vecMul, vecMax, vecMin, vecRmax, vecRsum, vecConst, vecCvt, vecSel, vecLoop, vecEnd. (R70,
R71, R120, R121) -/
def Obligations.VectorLanes : Prop :=
  ∀ (e : EngineId) (s : State), s.shaped = true → (s.engine e).vregs.length = 16 →
    (∀ l ∈ (s.engine e).vregs, l.length = 32) →
    let x := s.engine e
    let w := x.vinstr
    let writes := fun (i : Instr) (f : Nat → List Word) => ∃ t, exec i s = .next t ∧
      (∀ lane < 16, (t.engine e).vreg lane (viVd w) = f lane ∧
        ∀ r, r ≠ viVd w → (t.engine e).vreg lane r = x.vreg lane r) ∧
      (x.loops = [] → (t.engine e).vpc = x.vpc + 1) ∧ (t.engine e).acc0 = x.acc0 ∧ (t.engine e).acc1 = x.acc1 ∧
      (t.engine e).bricks = x.bricks ∧ (t.engine e).run = x.run ∧ t = s.modEngine e fun _ => t.engine e
    (∀ op i f, (op, i, f) ∈ [(3, Instr.vecAdd e, fpAdd), (4, .vecSub e, fpSub), (5, .vecMul e, fpMul), (6, .vecMax e, fpMax),
        (7, .vecMin e, fpMin)] → s.vecReady e op usesAB = true →
      writes i fun lane => List.zipWith f (x.vreg lane (viVa w)) (x.vreg lane (viVb w))) ∧
    (s.vecReady e 9 usesA = true → writes (.vecRmax e) fun lane => List.replicate 32 (rmax (x.vreg lane (viVa w)))) ∧
    (s.vecReady e 0xA usesA = true → writes (.vecRsum e) fun lane => List.replicate 32 (rsum (x.vreg lane (viVa w)))) ∧
    (s.vecReady e 0xB usesD = true → writes (.vecConst e) fun _ => List.replicate 32 (phConst x.block (viImm w % 64))) ∧
    (s.vecReady e 0xC usesA = true → writes (.vecCvt e) fun lane =>
      (cvtLane (viImm w % 16) (x.vreg lane (viVa w))).map (·.1)) ∧
    (s.vecReady e 0xD usesAB = true → (∀ l ∈ x.vregs, ∀ r ∈ l, r.length = 32) → ∃ t, exec (.vecSel e) s = .next t ∧
      (∀ lane < 16, ∀ k < 32, ((t.engine e).vreg lane (viVd w)).getD k 0 =
        if fpIsZero ((x.vreg lane (viVb w)).getD k 0) then (x.vreg lane (viVd w)).getD k 0
        else (x.vreg lane (viVa w)).getD k 0) ∧
      (∀ lane < 16, ∀ r, r ≠ viVd w → (t.engine e).vreg lane r = x.vreg lane r) ∧ t = s.modEngine e fun _ => t.engine e) ∧
    (s.vecReady e 0 (fun _ => []) = true → ∃ t, exec (.vecNop e) s = .next t ∧ (t.engine e).vregs = x.vregs ∧
      (x.loops = [] → (t.engine e).vpc = x.vpc + 1) ∧ t = s.modEngine e fun _ => t.engine e) ∧
    (s.vecReady e 0xE (fun _ => []) = true → ∃ t, exec (.vecLoop e) s = .next t ∧ (t.engine e).vregs = x.vregs ∧
      (x.vpc + 1 < min (x.vpc + 2 + viImm w % 64) (phVecLen x.block) → (t.engine e).vpc = x.vpc + 1 ∧
        (t.engine e).loops = { first := x.vpc + 1, last := min (x.vpc + 2 + viImm w % 64) (phVecLen x.block),
                               left := viVa w } :: x.loops) ∧ t = s.modEngine e fun _ => t.engine e) ∧
    (s.vecReady e 0xF (fun _ => []) = true →
      exec (.vecEnd e) s = .next (s.modEngine e fun x => { x with vdone := true, loops := [] }))

/-- IN with a word offered to every lane writes the words into the destination register and takes them; where a lane's
input is missing the lanes hold under FABRIC_STARVE. OUT 3 marks a channel exactly where its element is not zero or a
mark stood before. OUT 2 of FP32 stores each lane's 32 elements into the next 512 entries of the fused operand and
touches no other byte. OUT to a destination that takes no word discards and goes on. SFU queues the 512 arguments, and
each evaluation writes one element of the oldest argument's register and nothing else but the count of empty slots.
Completes: vecIn, vecOut, vecSfu, sfuEvaluation. (R70, R112, R118, R166, R171) -/
def Obligations.VectorPortsAndSfu : Prop :=
  ∀ (e : EngineId) (s : State), s.shaped = true → (s.engine e).vregs.length = 16 →
    (∀ l ∈ (s.engine e).vregs, l.length = 32) →
    let x := s.engine e
    let w := x.vinstr
    (∀ words : Nat → PortBits, s.vecReady e 1 usesD = true → x.vgot = 0 →
      (∀ lane < 16, x.laneOffer (viImm w % 4) lane = some (words lane)) → ∃ t, exec (.vecIn e) s = .next t ∧
        (∀ lane < 16, (t.engine e).vreg lane (viVd w) = portWords (words lane) ∧
          ∀ r, r ≠ viVd w → (t.engine e).vreg lane r = x.vreg lane r) ∧
        (viImm w % 4 = 0 → (t.engine e).laneE = (x.laneE.take 16).map (List.drop 1) ++ x.laneE.drop 16) ∧
        (t.engine e).vgot = 0 ∧ t = s.modEngine e fun _ => t.engine e) ∧
    (s.vecReady e 1 usesD = true → x.vgot = 0 → (∃ lane < 16, x.laneOffer (viImm w % 4) lane = none) →
      ∃ t, exec (.vecIn e) s = .next t ∧ (t.engine e).hold = 0x01 ∧ (t.engine e).vpc = x.vpc ∧ t.mem = s.mem) ∧
    (s.vecReady e 2 (fun w => [viVa w]) = true →
      (viImm w % 4 = 3 → ∃ t, exec (.vecOut e) s = .next t ∧ (t.engine e).vregs = x.vregs ∧
        (∀ lane < 16, ∀ k < 16, (x.vreg lane (viVa w)).length = 32 → (t.engine e).marks.getLsbD (16 * lane + k) =
          (x.marks.getLsbD (16 * lane + k) || !fpIsZero ((x.vreg lane (viVa w)).getD k 0))) ∧
        t = s.modEngine e fun _ => t.engine e) ∧
      (∀ v, viImm w % 4 = 2 → x.run = some v → phFmt x.lastBlock % 16 = 0 → s.mem.wf = true →
        (∀ l ∈ x.vregs, ∀ r ∈ l, r.length = 32) → viVa w < 32 →
        tdFused v.desc + 4 * (x.fusedElem + 512) ≤ 0x400000 → ∃ t, exec (.vecOut e) s = .next t ∧
          (t.engine e).fusedElem = x.fusedElem + 512 ∧ (t.engine e).vregs = x.vregs ∧
          (let base := scratchBase e + tdFused v.desc + 4 * x.fusedElem
           (∀ lane < 16, ∀ k < 32, ∀ i < 4, t.mem.byte (base + 128 * lane + 4 * k + i) =
             (toLe (convert 0 ((x.vreg lane (viVa w)).getD k 0)).bits 4).getD i 0) ∧
           (∀ a, a < base ∨ base + 2048 ≤ a → t.mem.read a 1 = s.mem.read a 1)) ∧
          t = { s with mem := t.mem, engines := t.engines }) ∧
      (viImm w % 4 = 1 → x.agDone .c = true → x.vgot = 0 → ∃ t, exec (.vecOut e) s = .next t ∧
        (t.engine e).vecOut = x.vecOut ∧ (t.engine e).vregs = x.vregs ∧ (t.engine e).hold = (if x.fault.isSome then 7 else 0) ∧
        t = s.modEngine e fun _ => t.engine e)) ∧
    (s.vecReady e 8 usesA = true → (∀ l ∈ x.vregs, ∀ r ∈ l, r.length = 32) → viVa w < 32 →
      ∃ t added, exec (.vecSfu e) s = .next t ∧ (t.engine e).sfuQ = x.sfuQ ++ added ∧ added.length = 512 ∧
        (∀ lane < 16, ∀ k < 32, ∃ q ∈ added, q.lane = lane ∧ q.elem = k ∧ q.vd = viVd w ∧
          q.arg = (x.vreg lane (viVa w)).getD k 0) ∧
        (t.engine e).vregs = x.vregs ∧ t = s.modEngine e fun _ => t.engine e) ∧
    (∀ q rest, s.engineRuns e = true → x.sfuQ = q :: rest → q.lane < 16 → q.vd < 32 →
      ∃ t, exec (.sfuEvaluation e) s = .next t ∧ (t.engine e).sfuQ = rest ∧
        (t.engine e).vreg q.lane q.vd = (x.vreg q.lane q.vd).set q.elem
          (sfuEval x.tables (flagM7 x.plane.flags.toNat) q.slot q.arg) ∧
        (∀ lane r, lane ≠ q.lane ∨ r ≠ q.vd → (t.engine e).vreg lane r = x.vreg lane r) ∧
        t = s.modEngine e fun x => { x with sfuQ := rest, vregs := (t.engine e).vregs, sfuEmpty := (t.engine e).sfuEmpty })

/-- When the bricks, the vector program and streams A and B are done, the running tile goes on to its next phase, with
every brick at the phase's ENTRY_SLOT, or waits for its swap after the last one; with no word left for program C no
memory changes. The swap exchanges the accumulator sets, latches the drain parameters of the last phase and frees the
engine for the next tile; while an earlier drain is in the path the engine waits under DRAIN_WAIT. A drain leaves
every entry of its set empty and its tile last in the queue for write-back, poisoned where an entry was read with an
uncorrectable error; a drain count of 0 writes nothing. With INT32, no fusion, no channel scales and no records, an
integer tile's N entries are stored as 32-bit integers, clamped, at DEST, and every other byte stays. A write-back of
one piece copies scratchpad bytes to the address that translates, bad words as bad, and leaves every other byte; in a
fenced stack it holds under T2_FAIL. Completes: phaseEnd, setSwap, drain, writeBack. (R72, R103, R109, R111, R112,
R113, R118, R138, R233) -/
def Obligations.PhasesAndDrain : Prop :=
  (∀ (e : EngineId) (v : Tile) (s : State), s.shaped = true → s.engineRuns e = true → (s.engine e).run = some v →
    let x := s.engine e
    (x.phaseOver = true → ∃ t u, exec (.phaseEnd e) s = .next t ∧ (t.engine e).run = some u ∧ u.phase = v.phase + 1 ∧
      u.value = v.value ∧ u.desc = v.desc ∧
      (v.phase + 1 < x.plane.phases → (t.engine e).beatA = 0 ∧ (t.engine e).beatB = 0 ∧ (t.engine e).beatC = 0 ∧
        (∀ b ∈ (t.engine e).bricks, b.slot = phEntry (x.plane.block (v.phase + 1)) ∧ b.done = false) ∧
        (phAccMode (x.plane.block (v.phase + 1)) = 1 → (t.engine e).activeSet = [])) ∧
      (t.engine e).shadowSet = x.shadowSet ∧ (t.engine e).vregs = x.vregs ∧
      ((∀ q ∈ x.sWord, q = []) → (∀ q ∈ x.vecOut, q = []) → t = s.modEngine e fun _ => t.engine e)) ∧
    (x.phaseOver = false → exec (.phaseEnd e) s = .next s) ∧
    (x.plane.phases ≤ v.phase → x.accActive < 2 →
      (x.drain = none → ∃ t d, exec (.setSwap e) s = .next t ∧ (t.engine e).drain = some d ∧ d.tile = v ∧
        d.fmt = phFmt x.lastBlock ∧ d.fuse = phFuse x.lastBlock ∧ d.pol = phPol x.lastBlock ∧ d.masks = x.marks ∧
        (t.engine e).run = none ∧ (t.engine e).shadowSet = x.activeSet ∧ (t.engine e).activeSet = x.shadowSet ∧
        (t.engine e).vregs = x.vregs ∧ t = s.modEngine e fun _ => t.engine e) ∧
      (x.drain.isSome = true → exec (.setSwap e) s = .next (s.stallEngine e 0x03)))) ∧
  (∀ (e : EngineId) (upsets : List (Fin 131072 × Bool)) (s s1 : State) (tgt a : Nat), s.shaped = true →
    s.engineUp e = true →
    let x := s.engine e
    (∀ d, x.drain = some d → (d.afterSignal = false ∨ s.jobStopping = false) →
      ∃ t q, exec (.drain ⟨e, upsets⟩) s = .next t ∧ (t.engine e).drain = none ∧ (t.engine e).shadowSet = [] ∧
        (t.engine e).activeSet = x.activeSet ∧ (t.engine e).wbQ = x.wbQ ++ [q] ∧ q.tile.value = d.tile.value ∧
        (tdDrainN d.tile.desc = 0 → t.mem = s.mem) ∧ ((∃ u ∈ upsets, u.2 = true) → q.tile.poison = true) ∧
        (d.floating = false → d.fmt = 2 → d.fuse = 0 → tdCscale d.tile.desc = 0 → tdSiderec d.tile.desc = 0 →
          tdDest d.tile.desc + 4 * tdDrainN d.tile.desc ≤ 0x400000 → s.mem.wf = true →
          (let base := scratchBase e + tdDest d.tile.desc
           (∀ k < tdDrainN d.tile.desc, ∀ i < 4, t.mem.byte (base + 4 * k + i) =
             (toLe (wrapTo 32 (clampInt (-(2 ^ 31)) (2 ^ 31 - 1)
               ((accGet x.shadowSet k).getD {}).val.toInt)) 4).getD i 0) ∧
           (∀ b, b < base ∨ base + 4 * tdDrainN d.tile.desc ≤ b → t.mem.read b 1 = s.mem.read b 1)) ∧
          (upsets = [] → t = { s with mem := t.mem, engines := t.engines }))) ∧
    (∀ d rest b, x.wbQ = d :: rest → x.fault = none → (x.drainFirst = false ∨ s.jobStopping = false) →
      d.tile.stage[d.tile.wbs]? = some b → stageFault b = none → seWrite b = true → d.tile.off = 0 → s.mem.wf = true →
      seJaddr b % 0x10000 + seLen b ≤ 0x10000 → seLaddr b + seLen b ≤ 0x400000 →
      let n := seLen b
      let src := scratchBase e + seLaddr b
      (s.translate (e / 32) (engReader e d.tile) (seJaddr b) true true = (.ok tgt a, s1) → s1.stackHeld a = false →
        a % 64 = 0 → ∃ t q, exec (.writeBack e) s = .next t ∧
          (∀ i < n, t.mem.byte (a + i) = (s.mem.read src n).getD i 0) ∧
          (∀ k, k < a ∨ a + n ≤ k → t.mem.byte k = s.mem.byte k) ∧
          (∀ j < n / 4, t.mem.bad (a / 4 + j) = s.mem.bad (src / 4 + j)) ∧
          (t.engine e).wbQ = q :: rest ∧ q.tile.wbs = d.tile.wbs + 1 ∧ q.tile.off = 0 ∧
          q.tile.poison = (d.tile.poison || s.mem.anyBad src n) ∧
          (s.mem.flawed src n = [] →
            t = { s1 with mem := t.mem, engines := t.engines, courses := t.courses, hbm := t.hbm })) ∧
      (s.translate (e / 32) (engReader e d.tile) (seJaddr b) true true = (.ok tgt a, s1) → s1.stackHeld a = true →
        ∃ t, exec (.writeBack e) s = .next t ∧ (t.engine e).hold = 0x0D ∧ t.mem = s.mem) ∧
      (s.translate (e / 32) (engReader e d.tile) (seJaddr b) true true = (.held, s1) →
        ∃ t, exec (.writeBack e) s = .next t ∧ (t.engine e).hold = 0x0D ∧ t.mem = s.mem) ∧
      (∀ c l en ea, s.translate (e / 32) (engReader e d.tile) (seJaddr b) true true = (.bad c l en ea, s1) →
        ∃ t f, exec (.writeBack e) s = .next t ∧ (t.engine e).fault = some f ∧ f.cause = BitVec.ofNat 16 c ∧
          f.tile = d.tile.value ∧ t.mem = s.mem)))

/-- A landed tile's commit leaves the engine's queue, shows its extents, restarts the progress watchdog and counts its
value: accepted where it is not committed yet, as a duplicate where it is, as a stray where no live range holds it; no
range stays that has retired, and no memory changes. A steward's reload raises the course's epoch, gives it to every
range, keeps committed values and poison counts, and issues every uncommitted value again. Completes: commit,
stewardReload. (R142, R143, R144, R149, R58) -/
def Obligations.CommitsCountOnce : Prop :=
  ∀ (e : EngineId) (d : Drain) (rest : List Drain) (s : State), s.shaped = true → s.engineUp e = true →
    (s.engine e).wbQ = d :: rest → d.tile.landed = true →
    let c := e.val / 8
    let v := d.tile.value
    let k := s.course c
    (∃ t, exec (.commit e) s = .next t ∧ (t.engine e).wbQ = rest ∧ (t.engine e).wextTile = v ∧ t.mgt.wdogCount = 0 ∧
      (∀ r, k.ranges.find? (fun r => r.holds v) = some r →
        (r.committed.contains (r.offset v) = false →
          (∀ q ∈ (t.course c).ranges, q.first = r.first → q.committed.contains (r.offset v) = true ∧
            q.poison = r.poison + (if d.tile.poison then 1 else 0)) ∧
          (t.course c).wcDup = k.wcDup ∧ (t.course c).wcStray = k.wcStray ∧
          (d.tile.poison = true → (t.course c).wcPoison = satAdd k.wcPoison 1) ∧
          (d.tile.epoch ≠ r.epoch → (t.course c).wcOldEpoch = satAdd k.wcOldEpoch 1)) ∧
        (r.committed.contains (r.offset v) = true → (t.course c).wcDup = satAdd k.wcDup 1 ∧
          (t.course c).wcPoison = k.wcPoison ∧ t.job = s.job)) ∧
      (k.ranges.find? (fun r => r.holds v) = none → (t.course c).wcStray = satAdd k.wcStray 1 ∧
        (t.course c).wcDup = k.wcDup ∧ t.job = s.job) ∧
      (∀ q ∈ (t.course c).ranges, t.rangeRetired c q = false) ∧
      t = { s with courses := t.courses, engines := t.engines, mgt := t.mgt, job := t.job } ∧
      t.mgt = { s.mgt with wdogCount := 0, wdogBase := t.mgt.wdogBase }) ∧
    (∀ h : CourseId, s.regionUp (h.val / 4) = true → ∃ t, exec (.stewardReload h) s = .next t ∧
      (t.course h).epoch = (s.course h).epoch + 1 ∧
      (t.course h).ranges.map (fun r => (r.first, r.count, r.committed, r.poison)) =
        (s.course h).ranges.map (fun r => (r.first, r.count, r.committed, r.poison)) ∧
      (∀ r ∈ (t.course h).ranges, r.issued = [] ∧ r.epoch = (t.course h).epoch) ∧
      (t.course h).bucket = (s.course h).bucket ∧ t = s.modCourse h fun _ => t.course h)

/-- A management descriptor that the module manager takes, no completion of its ring waiting for an event slot, and
that its ring may send: IMG_VERIFY and TSET_VERIFY of a file in host memory or HBM complete VERIFY_FAIL with the first
failed check and keep nothing, STORE_FULL when the store has no room, and otherwise OK with handle and digest: the
file joins the store under the next handle, which is never 0 after it, and a measurement register is extended.
HANDLE_RELEASE removes exactly the named handle, or completes BUSY or MALFORMED and removes none; its COMPLETION
record goes to the descriptor's event ring with its TAG and status. Whatever its ring may not send completes DENIED,
with its JOB_ID. Completes: imgVerify, tsetVerify, handleRelease. (R86, R87, R168, R287, R291, R293) -/
def Obligations.VerificationAndHandles : Prop :=
  ∀ (fn : PFn) (host : HostData) (p : Posted) (rest : List Posted) (src : List Byte) (s : State), s.shaped = true →
    s.mgrUp = true → (s.ring (mgmtRing fn)).posted = p :: rest → (s.ring (mgmtRing fn)).canTake = true →
    s.completionHeld (mgmtRing fn) = false →
    let d := p.bytes
    let taken := s.modRing (mgmtRing fn) fun g => { g with posted := rest, inHand := g.inHand + 1 }
    let read := if bitOf (mArg d 2) 0 then taken.touchRows (mArg d 0) (mArg d 1) else taken
    let fromSource := (bitOf (mArg d 2) 0 = true ∧ s.rangeAll Region.isHbm (mArg d 0) (mArg d 1) = true ∧
        s.stackHeld (mArg d 0) = false ∧ s.mem.flawed (mArg d 0) (mArg d 1) = [] ∧ src = s.mem.read (mArg d 0) (mArg d 1)) ∨
      (bitOf (mArg d 2) 0 = false ∧ s.hif.linkUp = true ∧ host.status = .ok ∧ src = hostBytes host (mArg d 0) (mArg d 1))
    let verifies := fun (i : Instr) (fail kind mr ekind len : Nat) =>
      (fail ≠ 0 → exec i s = .next (read.respond (.ring fn) d 2 0 fail [])) ∧
      (fail = 0 → Config.imageStore < s.storeUsed + len → exec i s = .next (read.respond (.ring fn) d 0xA 0 0 [])) ∧
      (fail = 0 → s.storeUsed + len ≤ Config.imageStore → ∃ (u : State) (f : Stored),
        exec i s = .next (u.respond (.ring fn) d 0 0 s.mgt.nextHandle.toNat (shake256 (src.take len))) ∧
        u.mgt.images = s.mgt.images ++ [f] ∧ f.handle = s.mgt.nextHandle ∧ f.kind = kind ∧ f.bytes = src.take len ∧
        f.digest = shake256 f.bytes ∧ u.mgt.nextHandle ≠ 0 ∧
        u.sec.mr = s.sec.mr.set mr (shake256 (s.sec.mr.getD mr [] ++ f.digest)) ∧ u.sec.logCount = s.sec.logCount + 1 ∧
        (∃ x : MLog, x.mr = mr ∧ x.ekind = ekind ∧ x.digest = f.digest ∧
          (s.sec.mlog.length < 4096 → u.sec.mlog = s.sec.mlog ++ [x])) ∧
        u.mem = s.mem ∧ u = { read with mgt := { s.mgt with images := u.mgt.images, nextHandle := u.mgt.nextHandle },
                                         sec := { s.sec with mr := u.sec.mr, mlog := u.sec.mlog, logCount := u.sec.logCount } })
    let handle := BitVec.ofNat 32 (mArg d 0)
    (∀ opc i, (opc, i) ∈ [(1, Instr.imgVerify fn host), (2, .tsetVerify fn host), (3, .handleRelease fn), (4, .preempt fn),
        (5, .cancel fn), (0x10, .fwStage fn host), (0x11, .fwActivate fn), (0x12, .setCeiling fn), (0x13, .portFence fn),
        (0x14, .portUnfence fn), (0x15, .retireRead fn), (0x16, .jobdomSet fn), (0x17, .windowSet fn), (0x18, .logRead fn)] →
      dOpc d = opc → s.mgmtDenied (.ring fn) opc = true →
      exec i s = .next (taken.respond (.ring fn) d 0xF (descJobId (mgmtRing fn) d))) ∧
    (dOpc d = 1 → s.mgmtDenied (.ring fn) 1 = false → fromSource →
      verifies (.imgVerify fn host) (imgFirstFail src (s.signedBy src (imgLen src))) 1 3 7 (imgLen src)) ∧
    (dOpc d = 2 → s.mgmtDenied (.ring fn) 2 = false → fromSource →
      verifies (.tsetVerify fn host) (tsetFirstFail src (s.signedBy src (tsLen src))) 2 4 8 (tsLen src)) ∧
    (dOpc d = 3 → s.mgmtDenied (.ring fn) 3 = false →
      let known := s.mgt.images.any fun x => x.handle == handle
      let status := if known = false then 1 else if s.handleUsed handle then 9 else 0
      ∃ t, exec (.handleRelease fn) s = .next t ∧
        t.mgt.images = (if status = 0 then s.mgt.images.filter fun x => x.handle != handle else s.mgt.images) ∧
        t.mem = s.mem ∧ t.job = s.job ∧ t.engines = s.engines ∧
        (let q := if fn = .pf1 then 65 else s.evqRing d
         status ≠ 0 ∨ dNorec d = false → ∃ x, (t.ring q).evq = (s.ring q).evq ++ [x] ∧ x.kind = 1 ∧ x.src = 0x1000 ∧
           x.tag = BitVec.ofNat 32 (dTag d) ∧ fieldAt x.body 8 2 = status))

/-- SET_CEILING sets the ceilings that are not zero and in range, and otherwise completes MALFORMED. WINDOW_SET sets
one window, through which the writes it covers then pass. JOBDOM_SET sets or clears exactly the IDs of its range. The
three extend MR5 with the digest of the Gatehouse state and change no memory. PORT_FENCE fences one port, PORT_UNFENCE
frees it and clears its violation count; a port already so completes ALREADY. Completes: setCeiling, portFence,
portUnfence, jobdomSet, windowSet. (R287, R356, R406, R462, R465, R466, R467, R468) -/
def Obligations.GatehouseAndPortCommands : Prop :=
  ∀ (p : Posted) (rest : List Posted) (s : State), s.shaped = true → s.mgrUp = true → s.mgt.recovery = false →
    (s.ring 64).posted = p :: rest → (s.ring 64).canTake = true → s.completionHeld 64 = false →
    s.sec.windows.length = 32 → s.sec.mr.length = 8 →
    let d := p.bytes
    let taken := s.modRing 64 fun g => { g with posted := rest, inHand := g.inHand + 1 }
    let answers := fun (i : Instr) (u : State) (status res0 : Nat) =>
      exec i s = .next (u.respond (.ring .pf1) d status 0 res0 [])
    let measured := fun (u : State) =>
      u.sec.mr = s.sec.mr.set 5 (shake256 (s.sec.mr.getD 5 [] ++ u.ghDigest)) ∧ u.mem = s.mem
    (dOpc d = 0x12 →
      let ceil := if mArg d 0 = 0 then s.pwr.ceil else mArg d 0
      let throttle := if mArg d 1 = 0 then s.pwr.throttleCeil else mArg d 1
      (ceilOk s.variant (mArg d 0) = true → ceilOk s.variant (mArg d 1) = true → ∃ u,
        answers (.setCeiling .pf1) u 0 (ceil + throttle * 2 ^ 16) ∧ u.pwr = { s.pwr with ceil, throttleCeil := throttle } ∧
        measured u ∧ u.sec.windows = s.sec.windows ∧
        u = { taken with pwr := u.pwr, sec := u.sec, rings := u.rings, hif := u.hif, seqs := u.seqs }) ∧
      (ceilOk s.variant (mArg d 0) = false ∨ ceilOk s.variant (mArg d 1) = false → answers (.setCeiling .pf1) taken 1 0)) ∧
    (dOpc d = 0x17 →
      let w := windowOf d
      (w.ok = true → ∃ u, answers (.windowSet .pf1) u 0 0 ∧ u.sec.windows = s.sec.windows.set (mArg d 0 % 32) w ∧
        u.sec.jobdom = s.sec.jobdom ∧ measured u ∧
        (∀ addr len pasid tr, w.covers addr len pasid tr = true → u.ghPass addr len pasid tr = true) ∧
        u = { taken with sec := u.sec, rings := u.rings, hif := u.hif, seqs := u.seqs }) ∧
      (w.ok = false → answers (.windowSet .pf1) taken 1 0)) ∧
    (dOpc d = 0x16 →
      let id := mArg d 0
      let n := mArg d 1
      (id + n ≤ 16384 → ∃ u, answers (.jobdomSet .pf1) u 0 (domainCount u.sec.jobdom) ∧
        (∀ i < 16384, u.sec.jobdom.getLsbD i =
          if id ≤ i ∧ i < id + n then bitOf (mArg d 2) 0 else s.sec.jobdom.getLsbD i) ∧
        u.sec.windows = s.sec.windows ∧ measured u ∧ u = { taken with sec := u.sec, fab := u.fab }) ∧
      (16384 < id + n → answers (.jobdomSet .pf1) taken 1 0)) ∧
    (dOpc d = 0x13 → s.variant.hasPort (mArg d 0) = true →
      ((s.port (mArg d 0)).fenced = false → ∃ u, answers (.portFence .pf1) u 0 0 ∧ (u.port (mArg d 0)).fenced = true ∧
        (∀ q, q ≠ mArg d 0 → (u.port q).fenced = (s.port q).fenced) ∧ u.mem = s.mem ∧ u.sec = s.sec) ∧
      ((s.port (mArg d 0)).fenced = true → answers (.portFence .pf1) taken 0xE 0)) ∧
    (dOpc d = 0x14 → s.variant.hasPort (mArg d 0) = true →
      ((s.port (mArg d 0)).fenced = true → ∃ u, answers (.portUnfence .pf1) u 0 0 ∧ (u.port (mArg d 0)).fenced = false ∧
        (u.port (mArg d 0)).violCnt = 0 ∧ (∀ q, q ≠ mArg d 0 → u.port q = s.port q) ∧
        u = { taken with fab := u.fab, rings := u.rings, hif := u.hif, seqs := u.seqs }) ∧
      ((s.port (mArg d 0)).fenced = false → answers (.portUnfence .pf1) taken 0xE 0)) ∧
    (∀ i, (dOpc d, i) ∈ [(0x13, Instr.portFence .pf1), (0x14, .portUnfence .pf1)] → s.variant.hasPort (mArg d 0) = false →
      answers i taken 1 0)

/-- FW_STAGE puts a package that verifies into the inactive slot and nothing else; one that does not completes
VERIFY_FAIL. FW_ACTIVATE asks for a hand-over to a filled slot and completes with it. RETIRE_READ and LOG_READ write
their bytes through the Gatehouse and complete with their counts, CLEAR frees only pinned entries that were written; a
write that the Gatehouse refuses halts the ring with cause 6 and keeps the descriptor. Completes: fwStage, fwActivate,
retireRead, logRead. (R276, R428, R433, R435, R436, R437, R517) -/
def Obligations.FirmwareSlotsAndHostBuffers : Prop :=
  ∀ (host : HostData) (p : Posted) (rest : List Posted) (src : List Byte) (s : State), s.shaped = true → s.mgrUp = true →
    (s.ring 64).posted = p :: rest → (s.ring 64).canTake = true → s.completionHeld 64 = false →
    let d := p.bytes
    let taken := s.modRing 64 fun g => { g with posted := rest, inHand := g.inHand + 1 }
    let read := if bitOf (mArg d 2) 0 then taken.touchRows (mArg d 0) (mArg d 1) else taken
    let fromSource := (bitOf (mArg d 2) 0 = true ∧ s.rangeAll Region.isHbm (mArg d 0) (mArg d 1) = true ∧
        s.stackHeld (mArg d 0) = false ∧ s.mem.flawed (mArg d 0) (mArg d 1) = [] ∧ src = s.mem.read (mArg d 0) (mArg d 1)) ∨
      (bitOf (mArg d 2) 0 = false ∧ s.hif.linkUp = true ∧ host.status = .ok ∧ src = hostBytes host (mArg d 0) (mArg d 1))
    let writes := fun (i : Instr) (bytes : List Byte) (res0 : Nat) (u : State) =>
      let pieces := tlpPieces (bytes.length + 1) (mArg d 0) bytes
      ((∀ x ∈ pieces, s.ghPass x.1 x.2.length none false = true) → exec i s = .next (State.respond
        { u with hif := { s.hif with tx := s.hif.tx ++ pieces.map fun x => .write .pf1 x.1 x.2 false false none false } }
        (.ring .pf1) d 0 0 res0 [])) ∧
      ((∃ x ∈ pieces, s.ghPass x.1 x.2.length none false = false) → ∃ t, exec i s = .next t ∧
        (t.ring 64).halted = true ∧ (t.ring 64).hcause = 6 ∧ (t.ring 64).held = some p ∧ t.rel = s.rel ∧ t.mem = s.mem)
    (dOpc d = 0x10 → fromSource → s.rel.handover = none →
      (pkgVerify src s.sec.fuseSvn = true → pkgCrcs src = true → exec (.fwStage .pf1 host) s = .next (State.respond
        { read with mgt := { s.mgt with fwImages := s.mgt.fwImages.set (1 - s.mgt.fwSlot) (some src),
                                         staged := some (1 - s.mgt.fwSlot) } }
        (.ring .pf1) d 0 0 (pkgVersion src) (pkgDigest src))) ∧
      (pkgVerify src s.sec.fuseSvn = false ∨ pkgCrcs src = false →
        exec (.fwStage .pf1 host) s = .next (read.respond (.ring .pf1) d 2 0 0 []))) ∧
    (dOpc d = 0x11 → s.mgt.recovery = false →
      let k := if bitOf (mArg d 0) 0 then 1 - s.mgt.fwSlot else s.mgt.staged.getD (1 - s.mgt.fwSlot)
      (k = s.mgt.fwSlot → exec (.fwActivate .pf1) s = .next (taken.respond (.ring .pf1) d 0xE 0 0 [])) ∧
      (∀ b, k ≠ s.mgt.fwSlot → s.halfFenced = false → s.rel.handover = none → s.mgt.fwImages.getD k none = some b →
        s.sec.fuseSvn ≤ pkgSvn b → exec (.fwActivate .pf1) s = .next { taken with rel := { s.rel with
          handover := some { slot := k, via := .ring .pf1, posted := p } } })) ∧
    (dOpc d = 0x15 → s.mgt.recovery = false → s.hif.linkUp = true → mArg d 1 % 8 = 0 →
      let out := (s.retireList.drop (mArg d 2)).take (mArg d 1 / 8)
      writes (.retireRead .pf1) (out.map fun x => toLe x 8).flatten (out.length + s.retireList.length * 2 ^ 32) taken) ∧
    (dOpc d = 0x18 → s.hif.linkUp = true → mArg d 2 % 4 = 0 → mArg d 1 ≠ 0 → mArg d 1 % 4096 = 0 →
      let out := ((mergedLog s.rel.pinned s.rel.log).filter fun e => decide (mArg d 3 ≤ e.lseq.toNat)).take
        ((mArg d 1 - 4096) / 64)
      let after := match out.getLast? with
        | some e => (e.lseq + 1).toNat
        | none => mArg d 3
      let pinned := if bitOf (mArg d 2) 8 then s.rel.pinned.filter fun e => !(out.any fun x => x.lseq == e.lseq)
        else s.rel.pinned
      writes (.logRead .pf1) (s.logHead ++ (out.map LogEntry.bytes).flatten) (out.length + after * 2 ^ 32)
        { taken with rel := { s.rel with pinned } })

/-- A descriptor with a wrong DCRC changes nothing; a malformed or denied one is answered so; any other is answered
with what its operation says. A message that is no descriptor is a control message, whose answer is the base
specification's (log entry 32). The answer is one 128-byte COMPLETION, over PCI Express in a message, over I3C in the
queue with the in-band interrupt raised. An I3C transfer that assigns the address stores it; one that writes a packet
is an MCTP request; a read takes the oldest response. After 60 us without SCL the packet that is being sent is dropped
and an error is logged. Completes: mctpRequest, i3cTransfer, i3cSclTimeout. (R273, R287, R511) -/
def Obligations.SidebandRequests : Prop :=
  ∀ (viaI3c : Bool) (d : List Byte) (host : HostData) (s : State), s.mgrUp = true → (viaI3c = true ∨ s.hostUp = true) →
    let i := Instr.mctpRequest viaI3c d host
    let via := Via.mctp viaI3c
    let answered := fun (status : Nat) => let t := s.respond via d status (descJobId 64 d)
      exec i s = .next t ∧ ∃ b : List Byte, b.length = 128 ∧
      (viaI3c = false → t.hif.tx = s.hif.tx ++ [.vdm b] ∧
        t = { s with hif := { s.hif with tx := s.hif.tx ++ [.vdm b] },
                                          seqs := (s.bumpSeq 0x1000).seqs, free := s.free + 1 }) ∧
      (viaI3c = true → t = { s with
        mgt := { s.mgt with mctp := s.mgt.mctp ++ [b] }, side := { s.side with i3cIbi := true },
        seqs := (s.bumpSeq 0x1000).seqs, free := s.free + 1 })
    (d.length ≠ 128 → exec i s = .next (s.sendMctp viaI3c (Config.mctpControl d))) ∧
    (d.length = 128 → crcOk d 124 = false → exec i s = .next s) ∧
    (d.length = 128 → crcOk d 124 = true → descriptorOk 64 d = false → answered 1) ∧
    (d.length = 128 → crcOk d 124 = true → descriptorOk 64 d = true → s.mgmtDenied via (dOpc d) = true → answered 0xF) ∧
    (d.length = 128 → crcOk d 124 = true → descriptorOk 64 d = true → s.mgmtDenied via (dOpc d) = false →
      ∀ op status id res0 ext t, mgmtOp (dOpc d) host = some op →
        op via { idx := dSeq d, bytes := d } s = .done status id res0 ext t →
        exec i s = .next (t.respond via d status id res0 ext)) ∧
    (∀ a, exec (.i3cTransfer (.assign a)) s = .next { s with side := { s.side with i3cBusy := false, i3cAddr := some a } }) ∧
    (s.side.i3cAddr.isSome = true → exec (.i3cTransfer (.writePacket d host)) s =
      exec (.mctpRequest true d host) { s with side := { s.side with i3cBusy := false } }) ∧
    (∀ b more, s.side.i3cAddr.isSome = true → s.mgt.mctp = b :: more → exec (.i3cTransfer .readResponse) s = .next { s with
      mgt := { s.mgt with mctp := more },
      side := { s.side with i3cBusy := true, i3cIbi := !more.isEmpty, i3cOut := s.side.i3cOut ++ [b] } }) ∧
    (s.side.i3cBusy = true → ∃ t, exec .i3cSclTimeout s = .next t ∧
      t.side = { s.side with i3cBusy := false, i3cOut := s.side.i3cOut.dropLast } ∧ t.rel.logNext = s.rel.logNext + 1 ∧
      t.mem = s.mem ∧ t.mgt = s.mgt)

/-- Discovery, certificates, log and report are answered on the mailbox that asked and change nothing but the host
interface; a GET_LOG of more than 500 entries is malformed. OWNER_CLAIM on PF1 of an unclaimed module stores the key's
digest, and is denied otherwise. SLOT_WRITE on PF1, signed by the owner, with a higher SVN, for a slot of 4 to 7 that
no stored file uses, sets that slot and no other and extends MR2. SVN_COMMIT raises FUSE_SVN to the running firmware's
and never lowers it. Completes: doeDiscovery, getCerts, getLog, report, ownerClaim, slotWrite, svnCommit. (R271, R273,
R454, R457, R461, R462, R463) -/
def Obligations.MailboxObjects : Prop :=
  ∀ (fn : PFn) (s : State), s.doeUp = true →
    let answers := fun (i : Instr) (t : State) (req status : Byte) => exec i s = .next t ∧
      ∃ obj more, t.hif.tx = s.hif.tx ++ .doe fn obj :: more ∧ bytesAt obj 8 2 = [req, status]
    let hostOnly := fun (t : State) => t = { s with hif := t.hif }
    (∀ n : Byte, ∃ t obj more, exec (.doeDiscovery fn n) s = .next t ∧ t.hif.tx = s.hif.tx ++ .doe fn obj :: more ∧
      hostOnly t ∧ (n = 0 → bytesAt obj 8 4 = [1, 0, 0, 1]) ∧ (n = 1 → bytesAt obj 10 2 = [1, 0]) ∧
      (2 ≤ n.toNat → bytesAt obj 8 4 = [0xFF, 0xFF, 0, 0])) ∧
    (∃ t, answers (.getCerts fn) t 1 0 ∧ hostOnly t) ∧
    (∀ first count : Word, ∃ t, answers (.getLog fn first count) t 2 (if 500 < count.toNat then 1 else 0) ∧ hostOnly t) ∧
    (∀ nonce, nonce.length = 32 → ∃ t, answers (.report fn nonce) t 3 0 ∧ hostOnly t) ∧
    (∀ key, (fn = .pf1 → s.claimed = false → ∃ t, answers (.ownerClaim fn key) t 4 0 ∧
        t.sec = { s.sec with ownerDigest := shake256 key, ownerKey := key } ∧ t = { s with hif := t.hif, sec := t.sec }) ∧
      (fn = .pf0 ∨ s.claimed = true → ∃ t, answers (.ownerClaim fn key) t 4 2 ∧ hostOnly t)) ∧
    (∀ b : List Byte, let k := fieldAt b 0 1
      (fn = .pf0 → ∃ t, answers (.slotWrite fn b) t 5 2 ∧ hostOnly t) ∧
      (fn = .pf1 → 4 ≤ k → k < 8 → zeroAt b 1 3 = true → s.sec.slots.length = 8 →
        (s.ownerSigned b = false ∨ fieldAt b 4 4 ≤ (s.sec.slots.getD k {}).svn.toNat →
          ∃ t, answers (.slotWrite fn b) t 5 4 ∧ hostOnly t) ∧
        (s.ownerSigned b = true → (s.sec.slots.getD k {}).svn.toNat < fieldAt b 4 4 →
          (s.mgt.images.any (fun x => x.slot == k) = true → ∃ t, answers (.slotWrite fn b) t 5 3 ∧ hostOnly t) ∧
          (s.mgt.images.any (fun x => x.slot == k) = false → ∃ t, answers (.slotWrite fn b) t 5 0 ∧
            (t.sec.slots.getD k {}).svn = BitVec.ofNat 32 (fieldAt b 4 4) ∧
            (∀ j, j ≠ k → t.sec.slots.getD j {} = s.sec.slots.getD j {}) ∧
            t.sec.mr = s.sec.mr.set 2 (shake256 (s.sec.mr.getD 2 [] ++ keyDigest (t.sec.slots.getD k {}).key)) ∧
            t.sec.ownerDigest = s.sec.ownerDigest ∧ t.sec.windows = s.sec.windows ∧ t = { s with hif := t.hif, sec := t.sec })))) ∧
    (fn = .pf1 → ∃ t, answers (.svnCommit fn) t 6 0 ∧ t = { s with hif := t.hif, sec := { s.sec with
      fuseSvn := max s.sec.fuseSvn s.sec.fwSvn } }) ∧
    (fn = .pf0 → ∃ t, answers (.svnCommit fn) t 6 2 ∧ hostOnly t)

/-- With no job running, the bank ready and the lease held, the descriptor at the head of the job ring is taken: a
cancelled JOB_ID completes CANCELLED, a FATAL module FAILED, a JOB_ID in use or a resume of no saved job MALFORMED, no
free area NO_SAVE_AREA, a missing table set TABLE_SET_MISSING. Otherwise the job holds an area: a resume waits to be
restored, and any other whose plan passes its checks starts at step 0 with its segments, with no unit of an engine in
use, its counters zero, and no byte of memory changed. A job that ran through, or was told its end, completes once
every engine stands at its boundary and no encode list runs: the record carries its status and TAG, no engine, half
mover, course or Praline unit holds work of it, saves that are not complete are dropped, pending pages are retired and
fenced stacks withdrawn, and memory stays where no BAR4 access waits for a fenced stack. Until then, and while no end
is known, nothing changes. Completes: job, jobCompletion. (R215, R236, R284, R293, R318, R423, R424, R288, R291, R427)
-/
def Obligations.JobsRun : Prop :=
  (∀ (host : HostData) (p : Posted) (rest : List Posted) (s : State), s.shaped = true → s.mgrUp = true → s.job.cur = none →
    s.pwr.bankReady = true → s.rel.pinActive.getD 3 false = false → s.rel.handover = none → s.mgt.resetPending = none →
    s.leadOk = true → s.halfUp s.leadHalf = true → (s.ring 0).posted = p :: rest → (s.ring 0).canTake = true →
    s.completionHeld 0 = false →
    let d := p.bytes
    let id := jId d
    let fromArea := jResume d && jResumeSrc d == 0
    let taken := s.modRing 0 fun g => { g with posted := rest, inHand := g.inHand + 1 }
    let job := fun (k : Nat) => ({ posted := p, jobMib := s.regs.jobMib, area := k,
                                   phase := if jResume d then .resuming else .running } : Job)
    let noTables := jTset d ≠ 0 ∧ s.storedOf (jTset d) 2 = none
    let went := fun (status : Nat) => exec (.job host) s = .next (taken.complete 0 d status id)
    (s.job.cancelled.contains (BitVec.ofNat 32 id) = true → ∃ u : State, exec (.job host) s = .next (u.complete 0 d 4 id) ∧
      u.job.cancelled = s.job.cancelled.filter (fun w => w.toNat ≠ id) ∧ u = { taken with job := u.job }) ∧
    (s.job.cancelled.contains (BitVec.ofNat 32 id) = false →
      (s.mgt.fatal = true ∨ s.mgt.noJobs = true → went 0xD) ∧
      (s.mgt.fatal = false → s.mgt.noJobs = false →
        (fromArea = true → s.areaOf id = none → went 1) ∧
        (fromArea = false → taken.idTaken id = true → went 1) ∧
        (fromArea = false → taken.idTaken id = false → s.freeArea = none → went 3) ∧
        (∀ k, (fromArea = true ∧ s.areaOf id = some k ∨
            fromArea = false ∧ taken.idTaken id = false ∧ s.freeArea = some k) →
          (noTables → went 7) ∧
          (¬ noTables → jResume d = true →
            exec (.job host) s = .next { taken with job := { s.job with cur := some (job k), lists := [] } }) ∧
          (¬ noTables → jResume d = false → ∀ segs s2,
            State.planOf (State.setUp { taken with job := { s.job with cur := some (job k), lists := [] } }
              s.regs.jobMib (jTset d)).retirePending host d = .ok segs s2 →
            ∃ t, exec (.job host) s = .next t ∧ (∃ j, t.job.cur = some j ∧ j.posted = p ∧ j.segs = segs ∧ j.area = k ∧
                j.step = 0 ∧ j.nextSeg = 0 ∧ j.inStep = false ∧ j.phase = .running) ∧
              (∀ x ∈ t.engines, x.claim = none ∧ x.run = none ∧ x.drain = none ∧ x.wbQ = [] ∧
                x.counters = List.replicate 16 0 ∧ x.stalls = List.replicate 32 0) ∧
              (∀ c ∈ t.courses, c.ranges = [] ∧ c.sort = none) ∧ t.regs.splitNow = s.regs.jobMib ∧
              t.job.areas = s.job.areas ∧ t.mem.cells = s.mem.cells))))) ∧
  (∀ (j : Job) (s : State), s.shaped = true → s.mgrUp = true → s.job.cur = some j →
    (∀ e, j.endOf = some e → s.allStopped = true → s.codecs.all (fun c => c.list.isNone) = true → s.leadOk = true →
      ∃ t, exec .jobCompletion s = .next t ∧ t.job.cur = none ∧
        t.job.areas = s.job.areas.map (fun a => a.bind fun (x : SaveArea) => if x.st = 2 then some x else none) ∧
        (∀ x ∈ t.engines, x.claim = none ∧ x.run = none ∧ x.drain = none ∧ x.wbQ = [] ∧ x.acc0 = [] ∧ x.acc1 = [] ∧
          x.fault = none) ∧
        (∀ m < 32, (t.mover m).cur = none ∧ (t.mover m).queue = [] ∧ (t.mover m).fault = none) ∧
        (∀ c ∈ t.courses, c.ranges = [] ∧ c.sort = none) ∧ (∀ k ∈ t.hbm, k.queue = [] ∧ k.status = []) ∧
        (∀ u ∈ t.rel.fenced, u.toNat / 0x1000 ≠ 8) ∧ (∀ u ∈ s.rel.fenced, u.toNat / 0x1000 = 8 → u ∈ t.rel.withdrawn) ∧
        (s.hif.barHeld = [] → t.mem = s.mem ∧ (∀ q ∈ t.rel.pages, q.2 ≠ 1) ∧
         let q := s.evqRing j.posted.bytes
         e.status ≠ 0 ∨ dNorec j.posted.bytes = false → ∃ x more, (t.ring q).evq = (s.ring q).evq ++ x :: more ∧
           x.kind = 1 ∧ x.tag = BitVec.ofNat 32 (dTag j.posted.bytes) ∧ fieldAt x.body 8 2 = e.status.toNat)) ∧
    (j.endOf = none → exec .jobCompletion s = .next s) ∧
    (s.allStopped = false → exec .jobCompletion s = .next s))

/-- PREEMPT of the running job asks for its pre-emption and completes only with the save; for another JOB_ID it
completes NO_JOB, and for one already asked for ALREADY. CANCEL of the running job gives it an end with CANCELLED, or
HOST_FAULT while a host-resolved fault is held; of a saved job it frees the area; of a queued one it notes the JOB_ID;
else it completes NO_JOB. The pre-emption signal leaves no engine with a claim, returns each value to its range, stops
the half movers and the sorts, and changes no memory. Completes: preempt, cancel, preemptionSignal. (R145, R287, R288,
R313, R314, R315) -/
def Obligations.PreemptAndCancel : Prop :=
  ∀ (fn : PFn) (p : Posted) (rest : List Posted) (s : State), s.shaped = true → s.mgrUp = true →
    let d := p.bytes
    let id := mArg d 0 % 2 ^ 32
    let taken := s.modRing (mgmtRing fn) fun g => { g with posted := rest, inHand := g.inHand + 1 }
    let answers := fun (i : Instr) (u : State) (status : Nat) => exec i s = .next (u.respond (.ring fn) d status id 0 [])
    ((s.ring (mgmtRing fn)).posted = p :: rest → (s.ring (mgmtRing fn)).canTake = true →
      s.completionHeld (mgmtRing fn) = false → s.mgt.recovery = false →
      (dOpc d = 4 →
        (bitOf (mArg d 1) 0 = true → mArg d 2 % 4096 ≠ 0 → answers (.preempt fn) taken 1) ∧
        ((bitOf (mArg d 1) 0 = false ∨ mArg d 2 % 4096 = 0) →
          (s.job.cur = none → answers (.preempt fn) taken 8) ∧
          (∀ j, s.job.cur = some j → (jId j.posted.bytes ≠ id ∨ j.ending.isSome = true) → answers (.preempt fn) taken 8) ∧
          (∀ j, s.job.cur = some j → jId j.posted.bytes = id → j.ending = none → j.preempt.isSome = true →
            answers (.preempt fn) taken 0xE) ∧
          (∀ j, s.job.cur = some j → jId j.posted.bytes = id → j.ending = none → j.preempt = none →
            ∃ w, exec (.preempt fn) s = .next { taken with job := { s.job with
                cur := some { j with preempt := some .command }, waitPre := some w } } ∧
              w.posted = p ∧ w.via = .ring fn ∧ w.exp = bitOf (mArg d 1) 0 ∧ w.saved = false))) ∧
      (dOpc d = 5 →
        (∀ j, s.job.cur = some j → jId j.posted.bytes = id → j.ending = none → ∃ u k e, answers (.cancel fn) u 0 ∧
          u.job.cur = some k ∧ k.ending = some e ∧
          e.status = (if s.hostFaultHeld = true then 0xB else 4) ∧ u.job.areas = s.job.areas ∧ u.mem = s.mem) ∧
        (∀ k, (∀ j, s.job.cur = some j → jId j.posted.bytes ≠ id) → s.areaOf id = some k → ∃ u,
          answers (.cancel fn) u 0 ∧ u.job.areas = s.job.areas.set k none ∧ u.job.cur = s.job.cur ∧ u.mem = s.mem) ∧
        ((∀ j, s.job.cur = some j → jId j.posted.bytes ≠ id) → s.areaOf id = none →
          ((s.ring 0).posted.any (fun q => jId q.bytes == id) = true → answers (.cancel fn) { taken with job := { s.job with
            cancelled := s.job.cancelled ++ [BitVec.ofNat 32 id] } } 0) ∧
          ((s.ring 0).posted.any (fun q => jId q.bytes == id) = false → answers (.cancel fn) taken 8)))) ∧
    (∀ j b, s.job.cur = some j → j.preempt = some b → j.signalled = false → j.ending = none → s.maySignal j = true →
      (j.phase ≠ .resuming → ∃ t k, exec .preemptionSignal s = .next t ∧ t.job.cur = some k ∧ k.signalled = true ∧
        k.preempt = some b ∧ k.ending = none ∧ (∀ x ∈ t.engines, x.claim = none ∧ x.loading = none) ∧
        (∀ e v, e < 64 → (s.engine e).claim = some v → ∀ r ∈ (t.course (e / 8)).ranges, r.holds v.value = true →
          (r.issued.any fun q => q.1 == r.offset v.value) = false) ∧
        (∀ m < 32, (t.mover m).wait = .none ∧ (t.mover m).hold = 0) ∧
        ((∀ k ∈ s.hbm, (∀ c ∈ k.queue, c.mover.val < 32) ∧ ∀ x ∈ k.status, x.mover.val < 32) → ∀ m, 32 ≤ m → t.mover m = s.mover m) ∧
        (∀ c ∈ t.courses, ∀ q, c.sort = some q → q.ranked = none) ∧ t.job.areas = s.job.areas ∧ t.mem = s.mem) ∧
      (j.phase = .resuming → ∃ t k e, exec .preemptionSignal s = .next t ∧ t.job.cur = some k ∧ k.signalled = true ∧
        k.ending = some e ∧ e.status = 5 ∧ t.job.areas = s.job.areas ∧ t.engines = s.engines ∧ t.mem = s.mem))

/-- Once every unit has stopped, SAVE writes the area that the job holds, valid, with the job's step and cursors, the
sorts, and the scratchpads' and dirty lines' bytes, and the job will complete PREEMPTED; every byte outside the area
stays, and a save asked for without export needs no more. RESUME from an area that is read back with a good header and
that fits restores step and cursors under the new descriptor, sorts, scratchpad bytes and work counters, leaves the
register files zero, and frees the area; one whose header is not good leaves the area, and the job leaves. Every byte
outside scratchpads and saved lines stays. Without an error in memory the area is restored as it was saved. Completes:
save, resume. (R62, R191, R316, R318, R326, R327) -/
def Obligations.SavesAndResumes : Prop :=
  ∀ (host : HostData) (j : Job) (s : State), s.shaped = true → s.mgrUp = true → s.job.cur = some j →
    s.halfUp 0 = true → s.halfUp 1 = true → s.stackHeld s.variant.fwBase = false → j.area < 8 → s.job.areas.length = 8 →
    (s.job.waitPre = none → j.signalled = true → j.ending = none →
      (s.stopUnits .abandoned false).allStopped = true → s.mem.synd = [] →
      ∃ t a k e, exec .save s = .next t ∧ t.job.areas = s.job.areas.set j.area (some a) ∧ a.st = 2 ∧ a.boot = s.mgt.boot ∧
        a.job.posted = j.posted ∧ a.job.step = j.step ∧ a.job.cursors = j.cursors ∧ a.doneCids = s.fab.doneCids ∧
        a.job.nextSeg = j.nextSeg ∧ (∀ b, inScratch b = true → a.scratch.byte b = s.mem.byte b) ∧
        (∀ b, inDirty a.dirty s.splitBytes b = true → a.lines.byte b = s.mem.byte b) ∧
        a.sorts = (s.stopUnits .abandoned false).courses.map (·.sort) ∧
        t.job.cur = some k ∧ k.ending = some e ∧ e.status = 5 ∧
        (∀ b, s.inArea j.area b = false → t.mem.byte b = s.mem.byte b)) ∧
    (∀ w, s.job.waitPre = some w → w.saved = true → w.exp = false → ∃ t, exec .save s = .next t ∧
      t.job.waitPre = none ∧ t.job.areas = s.job.areas ∧ t.job.cur = s.job.cur ∧ t.mem = s.mem) ∧
    (∀ a, j.phase = .resuming → s.jobStopping = false → s.copyHeld s.leadHalf = false → s.leadOk = true →
      jResumeSrc j.posted.bytes = 0 → s.job.areas.getD j.area none = some a →
      let d := j.posted.bytes
      let hdr := (s.loadArea j.area a).1
      let v := (s.loadArea j.area a).2
      let t0 := s.noteStretch (16 * s.leadHalf) (s.inArea j.area)
      (headerGood hdr (jId d) = false → ∃ t, exec (.resume host) s = .next t ∧
        t.job.cur = none ∧ t.job.areas = s.job.areas ∧ t.mem = s.mem) ∧
      (∀ m segs s2, headerGood hdr (jId d) = true → t0.mapHandles v.handles = .ok m → matchesSave d hdr v m = true →
        State.planOf (t0.setUp v.job.jobMib (jTset d)).retirePending host d = .ok segs s2 →
        (∀ rs ∈ v.ranges, rs = []) → s.mem.wf = true → v.scratch.wf = true →
        v.lines.wf = true → (∀ c ∈ v.scratch.cells, inScratch c.1 = true) →
        (∀ c ∈ v.lines.cells, inDirty v.dirty (v.job.jobMib * 0x100000) c.1 = true) →
        ∃ t k, exec (.resume host) s = .next t ∧ t.job.cur = some k ∧ k.posted = j.posted ∧ k.step = v.job.step ∧
          k.cursors = v.job.cursors ∧ k.segs = segs ∧ k.nextSeg = v.job.nextSeg ∧ k.preempt = none ∧ k.signalled = false ∧
          t.job.areas = s.job.areas.set j.area none ∧ t.fab.doneCids = v.doneCids ∧
          (∀ b, inScratch b = true → t.mem.byte b = v.scratch.byte b) ∧
          (∀ b, inScratch b = false → inDirty v.dirty (v.job.jobMib * 0x100000) b = false → t.mem.byte b = s.mem.byte b) ∧
          (∀ c < 8, (t.course c).sort = v.sorts.getD c none ∧ (t.course c).epoch = v.epochs.getD c 0) ∧
          (∀ n w, v.engines[n]? = some w → n < 64 → (t.engine n).drain = w.drain ∧ (t.engine n).wbQ = w.wbQ ∧
            (t.engine n).counters = w.counters ∧ (t.engine n).run = none ∧ (t.engine n).claim = none ∧
            (∀ b ∈ (t.engine n).bricks, b.rf = []))) ∧
      (s.mem.synd = [] → a.scratch.synd = [] → v.scratch = a.scratch ∧ v.lines = a.lines ∧ v.job = a.job ∧
        v.engines = a.engines ∧ v.movers = a.movers ∧ v.ranges = a.ranges))

/-- A RANGE segment whose range fits appends it, under the course's epoch, behind the live ranges, and copies its
descriptors to the steward area and no other byte; one that does not fit raises RANGE_BAD, and a fifth live range
waits. A MOVERS segment gives descriptor i of its list to half mover i modulo 16 and enters the list. A BARRIER passes
exactly when every earlier segment has retired or completed. A step command of the half that leads under its epoch
writes the lead record and opens the step with the job's sequences in ascending order of the bucket of their page
count, then of their index: bucket 0 holds one page or none, bucket b more than 2^(b-1) and at most 2^b; a page list
in a fenced stack keeps the step closed. Under an older epoch it is discarded and counted. Completes: range, movers,
barrier, stepCommand. (R19, R139, R222, R286, R301, R442) -/
def Obligations.SegmentsAppendWork : Prop :=
  (∀ p b : Nat, 1 ≤ b → (lengthBucket p = b ↔ 2 ^ (b - 1) < p ∧ p ≤ 2 ^ b)) ∧
  (∀ ps : List Nat, (∀ p ∈ ps, p ≤ 2 ^ 24) → (bucketOrder ps).Perm (List.range ps.length) ∧
    (bucketOrder ps).Pairwise fun i k => lengthBucket (ps.getD i 0) < lengthBucket (ps.getD k 0) ∨
      lengthBucket (ps.getD i 0) = lengthBucket (ps.getD k 0) ∧ i < k) ∧
  ∀ (host : HostData) (j : Job) (g : Seg) (bs : List Byte) (bad : Bool) (s s1 : State), s.shaped = true →
    (s.nextSeg = some (j, g) → g.course < 8 → g.half < 2 →
      let c := g.course
      let r : Range := { first := g.first, count := g.len + 1, epoch := (s.course c).epoch,
                         descBase := s.splitBytes + g.descBase, slotShift := g.slotShift, eclass := g.eclass,
                         affinity := g.affinity, src := g.src }
      let passed := fun (t : State) => ∃ k, t.job.cur = some k ∧ k.nextSeg = j.nextSeg + 1 ∧ k.inStep = true
      (g.kind = 1 → s.courseUp c = true → s.halfUp (c / 4) = true → (s.course c).counterFault = none →
        s.copyHeld (c / 4) = false →
        (4 ≤ (s.course c).ranges.length → exec (.range host) s = .next s) ∧
        ((s.course c).ranges.length < 4 → (s.course c).rangeOk r = false → ∃ t f, exec (.range host) s = .next t ∧
          (t.course c).counterFault = some f ∧ f.cause = 0x18 ∧ (t.course c).ranges = (s.course c).ranges ∧ t.mem = s.mem ∧
          t.job = s.job) ∧
        ((s.course c).ranges.length < 4 → (s.course c).rangeOk r = true → s.mem.wf = true →
          s.ctlRead (c / 4) (coreReader (srcSteward c)) host g.src.toNat (r.count * 2 ^ r.slotShift) = .ok bs bad s1 →
          ∃ t, exec (.range host) s = .next t ∧ (t.course c).ranges = (s.course c).ranges ++ [r] ∧ passed t ∧
            (∀ i < bs.length, t.mem.byte (courseBase c + r.descBase + i) = bs.getD i 0) ∧
            (∀ k, k < courseBase c + r.descBase ∨ courseBase c + r.descBase + bs.length ≤ k →
              t.mem.read k 1 = s.mem.read k 1) ∧
            t = { s1 with mem := t.mem, courses := t.courses, job := t.job })) ∧
      (g.kind = 2 → s.halfUp g.half = true → s.copyHeld g.half = false → bs.length = 128 * g.len →
        s.ctlRead g.half (coreReader (srcHalf g.half)) host g.src.toNat (128 * g.len) = .ok bs bad s1 →
        ∃ t, exec (.movers host) s = .next t ∧ passed t ∧ t.mem = s.mem ∧
          (∃ l, t.job.lists = s.job.lists ++ [l] ∧ l.id = j.nextSeg ∧ l.half = g.half ∧ l.total = g.len ∧ l.doneIdx = []) ∧
          (∀ i < g.len, s.isFenced (srcMover (16 * g.half + i % 16)) = false →
            ∃ k ∈ (t.mover (16 * g.half + i % 16)).queue, k.ring = none ∧ k.list = j.nextSeg ∧ k.dseq = i ∧
              k.bytes = bytesAt bs (128 * i) 128) ∧
          (∀ m, m / 16 ≠ g.half → t.mover m = s1.mover m)) ∧
      (g.kind = 4 → (s.stepQuiet = true → exec .barrier s = .next s.passSeg ∧ passed s.passSeg) ∧
        (s.stepQuiet = false → exec .barrier s = .next s))) ∧
    (∀ (h : HalfId) (e : Word), s.job.cur = some j → s.ioUp = true → s.halfUp h = true → (s.half h).leads = some e →
      j.phase = .running → j.inStep = false → s.jobStopping = false → s.rel.handover = none →
      (s.rel.lease.holder = h.val → s.rel.lease.epoch = e →
        let seen := fun (x : Half) => ({ x with newestEpoch := e } : Half)
        let s0 := State.modHalf (State.modHalf { s with rel := { s.rel with lease := { s.rel.lease with
          record := some (BitVec.ofNat 32 (jId j.posted.bytes), j.step, j.nextSeg) } } } 0 seen) 1 seen
        (∀ ps s2, pageCounts h (jNseq s.jobDesc) s0 = (some ps, s2) → exec (.stepCommand h e) s =
          .next (s2.modJob fun k => { k with inStep := true, order := bucketOrder ps })) ∧
        (∀ s2, pageCounts h (jNseq s.jobDesc) s0 = (none, s2) → exec (.stepCommand h e) s = .next s0) ∧
        (jNseq s.jobDesc = 0 → exec (.stepCommand h e) s =
          .next { s0 with job := { s.job with cur := some { j with inStep := true, order := [] } } })) ∧
      (s.rel.lease.holder ≠ h.val ∨ s.rel.lease.epoch ≠ e → ∃ t, exec (.stepCommand h e) s = .next t ∧ t.job = s.job ∧
        t.rel.lease = s.rel.lease ∧ t.rel.leaseStale = satAdd s.rel.leaseStale 1 ∧ t.mem = s.mem))

/-- Ranking permutes the pairs and leaves none behind a pair that it ranks before. A SORT segment takes its descriptor
and passes; a sort that waits is ranked once its descriptor is good and the gate serves its class, which debits the
class's cost, and raises SORT_DESC on a bad one. At completion the ranked pairs stand at the output address, poisoned
where a source word was bad; every other byte stays, and the unit is free. Completes: sort, sortComplete. (R188, R189,
R190, R191, R286) -/
def Obligations.SortsRank : Prop :=
  (∀ (fmt : Nat) (asc : Bool) (l : List Ranked), (rankAll fmt asc l).Perm l ∧
    (rankAll fmt asc l).Pairwise fun p q => ranksBefore fmt asc q p = false) ∧
  ∀ (c : CourseId) (q : SortRun) (host : HostData) (s : State), s.shaped = true → s.jobStopping = false →
    (s.waitingSort = some c → (s.course c).sort = some q →
      (sortDescOk q.desc = false → ∃ t f, exec (.sort host) s = .next t ∧ (t.course c).sortFault = some f ∧ f.cause = 0x19 ∧
        (t.course c).sort = some q ∧ t.mem = s.mem) ∧
      (sortDescOk q.desc = true → q.cost = 0 → s.gateOpen c (sdEclass q.desc) = true → s.mem.synd = [] →
        let src := s.mem.read (courseBase c + sdSrc q.desc) (8 * sdPairs q.desc)
        ∃ t r, exec (.sort host) s = .next t ∧ (t.course c).sort = some r ∧
          r.ranked = some ((chunksOf (8 * sdSegLen q.desc) (sdSegs q.desc) src).map (segOut q.desc), false) ∧
          (t.course c).bucket.toNat + (s.course c).costOf (sdEclass q.desc) = (s.course c).bucket.toNat ∧
          (t.course c).sortNan = satAdd (s.course c).sortNan (nanKeys q.desc src) ∧
          t = s.modCourse c fun _ => t.course c) ∧
      (sortDescOk q.desc = true → q.cost = 0 → s.gateOpen c (sdEclass q.desc) = false →
        exec (.sort host) s = .next (s.modCourse c fun x => { x with stalls := bumpStall x.stalls 0x06 }))) ∧
    (∀ j g bs bad s1, s.waitingSort = none → s.nextSeg = some (j, g) → g.kind = 3 → g.course = c.val →
      s.courseUp c = true → s.halfUp (c.val / 4) = true → (s.course c).sort = none → (s.course c).sortFault = none →
      s.copyHeld (c.val / 4) = false → s.splitBytes + g.descBase + 64 ≤ 0x4000000 →
      s.ctlRead (c.val / 4) (coreReader (srcSteward c)) host g.src.toNat 64 = .ok bs bad s1 →
      ∃ t r k, exec (.sort host) s = .next t ∧ (t.course c).sort = some r ∧ r.desc = bs ∧ r.src = g.src ∧
        t.job.cur = some k ∧ k.nextSeg = j.nextSeg + 1) ∧
    (∀ outs bad, s.courseUp c = true → (s.course c).sort = some q → q.ranked = some (outs, bad) → s.mem.wf = true →
      let a := courseBase c + sdDst q.desc
      ∃ t, exec (.sortComplete c) s = .next t ∧ (t.course c).sort = none ∧
        (∀ i < outs.flatten.length, t.mem.byte (a + i) = outs.flatten.getD i 0) ∧
        (bad = true → ∀ i < outs.flatten.length, t.mem.bad ((a + i) / 4) = true) ∧
        (∀ k, k < a ∨ a + outs.flatten.length ≤ k → t.mem.read k 1 = s.mem.read k 1) ∧
        t = { s with mem := t.mem, courses := t.courses })

/-- A step whose segments are all complete ends: every cursor advances by its manifest's count, TOKENS of a page list
by the tokens of the step, the step number rises by one, and the stream's lines go out through the Gatehouse, under
the job's PASID, before the segment passes and the step is closed. Where the link is down the step is counted but its
stream is held behind a fault, and the step stays open. A step with an outlier overflow under the fault policy ends
the job OUTLIER_FAULT instead. A step whose segments are not complete does not end. Completes: stepEnd. (R31, R117,
R221, R270, R319, R320, R321, R322) -/
def Obligations.StepsEnd : Prop :=
  ∀ (host : HostData) (j : Job) (g : Seg) (s : State), s.shaped = true → s.job.cur = some j →
    j.segs[j.nextSeg]? = some g → g.kind = 5 → j.phase = .running → j.inStep = true → s.jobStopping = false →
    j.preempt = none → j.handover = false → s.halfUp s.leadHalf = true → s.copyHeld s.leadHalf = false → s.leadOk = true →
    j.cursors.length = 4 → (List.range (jNseq s.jobDesc)).any (s.tokensHeld s.leadHalf) = false →
    (s.stepQuiet = false → exec (.stepEnd host) s = .next s) ∧
    (jNseq s.jobDesc = 0 → (s.closeStepEnd j g.man).mem = s.mem) ∧
    (∀ a s1, jNseq s.jobDesc = 1 → s.tokensAt s.leadHalf 0 = (.ok 0 a, s1) → s1.rangeAll Region.hostOk a 4 = true →
      j.poisTiles = 0 → s.mem.wf = true → s.mem.synd = [] → a % 4 = 0 →
      let n := (leNat (s.mem.read a 4) + Config.stepTokens g.man 0) % 2 ^ 32
      (∀ i < 4, (s.closeStepEnd j g.man).mem.byte (a + i) = (toLe n 4).getD i 0) ∧
      (∀ b, b < a ∨ a + 4 ≤ b → (s.closeStepEnd j g.man).mem.byte b = s.mem.byte b)) ∧
    (s.stepQuiet = true → j.ckptPending = false → j.outlier = true → ∃ t k e, exec (.stepEnd host) s = .next t ∧
      t.job.cur = some k ∧ k.ending = some e ∧ e.status = 6 ∧ k.step = j.step ∧ k.cursors = j.cursors ∧ t.mem = s.mem) ∧
    (∀ j1 mv rs s2, s.stepQuiet = true → j.ckptPending = false → j.outlier = false → s.rel.handover = none →
      (s.closeStepEnd j g.man).job.cur = some j1 → (s.closeStepEnd j g.man).copyMover s.leadHalf = some mv →
      gatherAll s.leadHalf { kind := 1, id := mv, owner := .job } host g.man (manCount g.man) 0 (s.closeStepEnd j g.man) =
        (none, true, rs, s2) →
      let ended := fun (k : Job) => k.step = j.step + 1 ∧
        ∀ i < 4, k.cursors.getD i 0 = j.cursors.getD i 0 + manAdv g.man i
      (s.hif.linkUp = true → (∀ l ∈ s2.checkpointLines j1 g.man rs, s2.ghPass l.addr l.bytes.length s2.jobPasid false = true) →
        ∃ t k more, exec (.stepEnd host) s = .next t ∧ t.job.cur = some k ∧ ended k ∧ k.nextSeg = j.nextSeg + 1 ∧
          k.inStep = false ∧ k.ckptPending = false ∧ t.hif.tx = s2.hif.tx ++
            ((s2.checkpointLines j1 g.man rs).map fun l => .write .pf0 l.addr l.bytes l.ro l.ep s2.jobPasid false) ++ more ∧
          t.mem = (s.closeStepEnd j g.man).mem) ∧
      (s.hif.linkUp = false → ∃ t k, exec (.stepEnd host) s = .next t ∧ t.job.cur = some k ∧ ended k ∧
        k.nextSeg = j.nextSeg ∧ k.inStep = true ∧ k.ckptPending = true ∧ t.hif.tx = s2.hif.tx ∧
        (∃ m f, (t.mover m).fault = some f ∧ f.cause = 0x08) ∧ t.mem = (s.closeStepEnd j g.man).mem))

/-- A MOVE of one row of at most one page, to backed device memory, by a mover that may run: a COPY writes the bytes
that its device source delivers, or zeros with MFLAGS.ZERO; a NOISE descriptor writes word i as draw cursor + NOFF + i
of its stream and sequence, raw or as a uniform FP32. Every other byte stays, no other mover changes, and the
descriptor is complete. A source outside HBM and the job parts raises ADDR_UNBACKED, one in a fenced stack holds the
mover under T2_FAIL, a list descriptor that breaks R303 raises MOVER_MALFORMED, and a mover that holds a fault or
waits stays so and counts it under its cause. Completes: moveCopy, moveNoise. (R235, R301, R302, R305, R308, R323,
R324, R303) -/
def Obligations.MoversMove : Prop :=
  ∀ (m : MoverId) (t : MTask) (s : State), s.shaped = true → s.variant.hasMover m = true → s.moverRuns m = true →
    s.nextTask m = some t →
    let d := t.bytes
    let src := mvSrc d
    let dst := mvDst d
    let n := mvRlen d
    let fresh := (s.mover m).cur = none ∧ (s.mover m).fault = none ∧ (s.mover m).wait = .none ∧ (t.ring = none → t.listOk = true)
    let fits := mvDstSpace d = 1 ∧ mvRows d = 1 ∧ 64 ≤ n ∧ n % 64 = 0 ∧ dst % 64 = 0 ∧ dst % 4096 + n ≤ 4096 ∧
      s.rangeAll Region.hostOk dst n = true ∧ s.stackHeld dst = false ∧ s.mem.wf = true
    let done := fun (u : State) => (u.mover m).cur = none ∧ (∀ k, k ≠ m.val → u.mover k = s.mover k) ∧
      (∀ k, k < dst ∨ dst + n ≤ k → u.mem.read k 1 = s.mem.read k 1) ∧
      (t.ring = none → u.rings = s.rings ∧ ∀ l ∈ u.job.lists, l.id = t.list → t.dseq ∈ l.doneIdx) ∧
      (∀ k, { u.stack k with rows := [] } = { s.stack k with rows := [] }) ∧
      u = { s with mem := u.mem, courses := u.courses, movers := u.movers, rings := u.rings, hif := u.hif, seqs := u.seqs,
                   hbm := u.hbm, job := { s.job with lists := u.job.lists } }
    (fresh → fits → mvKind d = 1 → src % 64 = 0 → src % 4096 + n ≤ 4096 →
      (mvZero d = true → ∃ u, exec (.moveCopy m) s = .next u ∧ done u ∧ u.mem.read dst n = zeros n) ∧
      (mvZero d = false → mvSrcSpace d = 1 →
        (s.rangeAll Region.hostOk src n = true → s.stackHeld src = false → s.mem.flawed src n = [] →
          ∃ u, exec (.moveCopy m) s = .next u ∧ done u ∧ u.mem.read dst n = s.mem.read src n) ∧
        (s.rangeAll Region.hostOk src n = false → t.ring = none → ∃ u f, exec (.moveCopy m) s = .next u ∧
          (u.mover m).fault = some f ∧ f.cause = 0x0A ∧ f.faddr = BitVec.ofNat 64 src ∧ (u.mover m).cur = some t ∧
          u.mem = s.mem) ∧
        (s.rangeAll Region.hostOk src n = true → s.stackHeld src = true → ∃ u, exec (.moveCopy m) s = .next u ∧
          (u.mover m).hold = 0x0D ∧ (u.mover m).cur = some t ∧ u.mem = s.mem))) ∧
    (fresh → fits → mvKind d = 3 →
      ∃ u, exec (.moveNoise m) s = .next u ∧ done u ∧
        ∀ i < n / 4,
          let cursor := match s.job.cur with
            | some j => (j.cursors.getD (mvNseqi d) 0).toNat
            | none => 0
          let w := noiseDraw (jKey s.jobDesc) (mvNseqi d) (mvStream d) ((cursor + mvNoff d + i) % 2 ^ 64)
          (mvNfmt d ≠ 1 → u.mem.read (dst + 4 * i) 4 = toLe w.toNat 4) ∧
          (mvNfmt d = 1 → u.mem.read (dst + 4 * i) 4 =
            toLe (fpRound (.fin false (2 * (w.toNat / 512) + 1) (-24))).toNat 4)) ∧
    ((s.mover m).cur = none → t.ring = none → t.listOk = false → ∀ i ∈ [Instr.moveCopy m, .moveNoise m, .movePraline m],
      ∃ u f, exec i s = .next u ∧ (u.mover m).fault = some f ∧ f.cause = 0x0C ∧ (u.mover m).cur = some t ∧
        u.mem = s.mem) ∧
    (∀ k i, (k, i) ∈ [(1, Instr.moveCopy m), (2, .movePraline m), (3, .moveNoise m)] → (s.mover m).cur = some t →
      mvKind d = k →
      (∀ f, (s.mover m).fault = some f → exec i s = .next (s.stallMover m (faultStall f.cause.toNat))) ∧
      ((s.mover m).fault = none → (s.mover m).wait ≠ .none →
        exec i s = .next (s.stallMover m (s.mover m).wait.cause)))

/-- A Praline descriptor of one command, whose operands translate, joins the queue of the stack that holds SRC0, with
the operation and dimensions of the command; the mover waits for one status, and no byte of memory changes. A queue of
32 holds the mover under PRALINE_BUSY. A status leaves the unit and its counts are added to the mover that sent the
command, which is open no more; the last one completes the descriptor; MALFORMED raises PRALINE_CMD at the mover,
whose restart point names the command. Completes: movePraline, pralineStatus. (R239, R241, R243, R256, R303, R307) -/
def Obligations.PralineCommandsGo : Prop :=
  (∀ (m : MoverId) (t : MTask) (st : Nat) (c : PCmd) (s s1 : State), s.shaped = true → s.variant.hasMover m = true →
    s.moverRuns m = true → s.nextTask m = some t → (s.mover m).cur = none → (s.mover m).fault = none →
    (s.mover m).wait = .none → (t.ring = none → t.listOk = true) → mvKind t.bytes = 2 →
    let cmd := praCmd t.bytes
    let s0 := s.startTask m t
    pcCount cmd = 1 → s0.expand m t 0 = .ok (st, c) s1 → st < 16 → (s.stack st).prFenced = false →
    (32 ≤ (s.stack st).queue.length → ∃ u, exec (.movePraline m) s = .next u ∧
      (∀ k, { u.stack k with rows := [] } = { s.stack k with rows := [] }) ∧
      (u.mover m).hold = 0x13 ∧ (u.mover m).cur = some t ∧ (u.mover m).prOpen = [] ∧ u.mem = s.mem) ∧
    ((s.stack st).queue.length < 32 → ∃ u, exec (.movePraline m) s = .next u ∧
      (u.stack st).queue = (s.stack st).queue ++ [c] ∧
      (∀ k, k ≠ st → { u.stack k with rows := [] } = { s.stack k with rows := [] }) ∧
      c.mover = m ∧ c.idx = 0 ∧ c.opc = pcOpc cmd ∧ c.mode = pcMode cmd ∧ c.fmt = pcFmt cmd ∧ c.ofmt = pcOfmt cmd ∧
      c.rows = pcRows cmd ∧ c.cols = pcCols cmd ∧ (c.bad = false → pcOk cmd = true) ∧
      (u.mover m).cur = some t ∧ (u.mover m).wait = .praline ∧ (u.mover m).prOpen = [0] ∧ (u.mover m).prNext = 1 ∧
      (u.mover m).restart.off = 0 ∧ u.mem = s.mem ∧
      u = { s1 with hbm := u.hbm, movers := u.movers }) ∧
    (∀ a s2, pcOk cmd = true → pcIsKv cmd = false → pcMf cmd = 0 →
      s0.translate (m / 16) (moverReader m t) (pcSrc0 cmd) false false = (.ok 0 a, s2) →
      c.src0 = a ∧ st = a / 0x1000000000)) ∧
  (∀ (st : StackId) (x : PStat) (rest : List PStat) (t : MTask) (s : State), s.shaped = true →
    s.variant.hasStack st = true → (s.stack st).status = x :: rest → (s.mover x.mover).cur = some t →
    (s.mover x.mover).fault = none →
    let g := s.mover x.mover
    (g.prOpen.erase x.idx ≠ [] → x.status = 0 → ∃ u, exec (.pralineStatus st) s = .next u ∧ (u.stack st).status = rest ∧
      (u.mover x.mover).prOpen = g.prOpen.erase x.idx ∧ (u.mover x.mover).prReturned = g.prReturned + 1 ∧
      (u.mover x.mover).prSat = min (2 ^ 24 - 1) (g.prSat + x.sat) ∧
      (u.mover x.mover).prZero = min (2 ^ 24 - 1) (g.prZero + x.zero) ∧
      (u.mover x.mover).prRect = min (2 ^ 24 - 1) (g.prRect + x.rect) ∧
      (u.mover x.mover).prOut = g.prOut + x.out ∧ (u.mover x.mover).poisoned = (g.poisoned || x.poison) ∧
      (u.mover x.mover).cur = some t ∧ (∀ k, k ≠ x.mover.val → u.mover k = s.mover k) ∧
      u = { s with hbm := u.hbm, movers := u.movers }) ∧
    (g.prOpen = [x.idx] → x.status = 0 → g.wait = .praline → s.moverRuns x.mover = true → t.ring = none →
      ∃ u, exec (.pralineStatus st) s = .next u ∧ (u.stack st).status = rest ∧ (u.mover x.mover).cur = none ∧
        (∀ l ∈ u.job.lists, l.id = t.list → t.dseq ∈ l.doneIdx) ∧
        u = { s with hbm := u.hbm, movers := u.movers, job := u.job }) ∧
    (x.status = 1 → t.ring = none → ∃ u f, exec (.pralineStatus st) s = .next u ∧ (u.stack st).status = rest ∧
      (u.mover x.mover).fault = some f ∧ f.cause = 0x1A ∧ (u.mover x.mover).prOpen = g.prOpen ∧
      (g.restart.rkind = 2 → f.restart.off = BitVec.ofNat 32 x.idx) ∧ u.mem = s.mem)) ∧
  (∀ (st : StackId) (s : State), s.variant.hasStack st = true → (s.stack st).status = [] →
    exec (.pralineStatus st) s = .next s)

/-- Over memory without flaws, a unit that may run takes its oldest command. MV writes row r as the exact INT8 dot
product scaled twice, with the row's own scale, or the scale record of the frame part. STATS writes one merged record
a row. EADD and EMUL write each element rounded to FP32 and converted to the output format, and their status counts
the saturated ones. The command leaves, its status joins the unit's, every other byte of memory stays. A malformed
command of any operation writes nothing and raises PRALINE_CMD; a held fault holds the unit under FAULT_WAIT and a
fenced stack, its own or an operand's, under T2_FAIL. Completes: mvDense, mvKFrame, mvVFrame, statsRows, statsMerge,
pralineEadd, emul, append, gather, encode, decode. (R177, R178, R242, R243, R247, R248, R251, R252, R260) -/
def Obligations.PralineMatrices : Prop :=
  ∀ (st : StackId) (c : PCmd) (rest : List PCmd) (s : State), s.shaped = true → s.variant.hasStack st = true →
    s.regionUp (st / 8) = true → (s.stack st).selfRefresh = false → (s.stack st).queue = c :: rest →
    let runs := (s.stack st).fault = none ∧ s.isFenced (srcPraline st) = false ∧ s.cmdHeld c = false
    let clean := c.bad = false ∧ c.mf = none ∧ s.mem.synd = [] ∧ s.mem.wf = true ∧ 0 < c.cols
    let ended := fun (u : State) (x : PStat) => x.mover = c.mover ∧ x.status = 0 ∧ (u.stack st).queue = rest ∧
      (u.stack st).status = (s.stack st).status ++ [x]
    let wrote := fun (u : State) (a n : Nat) =>
      (∀ k, k ≠ st.val → { u.stack k with rows := [] } = { s.stack k with rows := [] }) ∧
      (∀ k, k < a ∨ a + n ≤ k → u.mem.byte k = s.mem.byte k) ∧
      u = { s with mem := u.mem, courses := u.courses, hbm := u.hbm }
    let word := fun (a i : Nat) => BitVec.ofNat 32 (leNat (s.mem.read (a + 4 * i) 4))
    let dot := fun (r w : Nat) => fpOfInt (dotInt8 (s.mem.read (c.src0 + r * w) w) (s.mem.read c.src1 w))
    let stored := fun (u : State) (a : Nat) (bs : List Byte) => ∀ i < bs.length, u.mem.byte (a + i) = bs.getD i 0
    let es := elemBits c.fmt / 8
    let os := elemBits c.ofmt / 8
    let elem := fun (a i : Nat) => fpRound (elemVal c.fmt (leNat (s.mem.read (a + i * es) es)))
    (runs → clean → c.opc = 1 → c.mode = 0 → ∃ u x, exec (.mvDense st) s = .next u ∧ ended u x ∧
      wrote u c.dst (4 * c.rows) ∧
      ∀ r < c.rows, stored u (c.dst + 4 * r)
        (toLe (fpMul (fpMul (dot r c.cols) (word c.src2 0)) (word c.src2 (r + 1))).toNat 4)) ∧
    (runs → clean → c.opc = 1 → c.mode = 1 → 0 < c.d → ∃ u x, exec (.mvKFrame st) s = .next u ∧ ended u x ∧
      wrote u c.dst 1024 ∧
      ∀ r < 256, stored u (c.dst + 4 * r) (toLe (fpMul (fpMul (dot r c.d) (word c.src2 0)) c.ks).toNat 4)) ∧
    (runs → clean → c.opc = 1 → c.mode = 2 → ∃ u x, exec (.mvVFrame st) s = .next u ∧ ended u x ∧
      wrote u c.dst (4 * c.d) ∧
      ∀ r < c.d, stored u (c.dst + 4 * r) (toLe (fpMul (fpMul (dot r 256) (word c.src2 0)) c.ks).toNat 4)) ∧
    (runs → clean → c.opc = 2 → c.mode = 0 → c.fmt ≤ 1 → ∃ u x, exec (.statsRows st) s = .next u ∧ ended u x ∧
      wrote u c.dst (16 * c.rows) ∧
      ∀ r < c.rows, stored u (c.dst + 16 * r) (rowStat (sfuRcp s.jobTables)
        ((List.range c.cols).map fun j => elem c.src0 (r * c.cols + j))).bytes) ∧
    (runs → clean → c.opc = 2 → c.mode = 1 → ∃ u x, exec (.statsMerge st) s = .next u ∧ ended u x ∧
      wrote u c.dst (16 * c.rows) ∧
      ∀ r < c.rows, stored u (c.dst + 16 * r) (mergeTree (sfuRcp s.jobTables) c.cols ((List.range c.cols).map fun j =>
        StatRec.ofBytes (s.mem.read (c.src0 + 16 * (r * c.cols + j)) 16))).bytes) ∧
    (∀ (i : Instr) (op : Word → Word → Word), (i = .pralineEadd st ∧ op = fpAdd ∧ c.opc = 3) ∨
        (i = .emul st ∧ op = fpMul ∧ c.opc = 4) → runs → clean → c.mode = 0 → c.fmt ≤ 1 →
      c.ofmt ≤ 1 ∨ c.ofmt = 6 ∨ c.ofmt = 7 →
      let z := (List.range (c.rows * c.cols)).map fun k =>
        convert c.ofmt (op (elem c.src0 k) (elem c.src1 (if c.bcast then k % c.cols else k)))
      ∃ u x, exec i s = .next u ∧ ended u x ∧ wrote u c.dst (c.rows * c.cols * os) ∧
        x.sat = min (z.filter (·.sat)).length (2 ^ 24 - 1) ∧
        ∀ k < c.rows * c.cols, ∀ v, z[k]? = some v → stored u (c.dst + k * os) (toLe v.bits os)) ∧
    (∀ i ∈ [Instr.mvDense st, .mvKFrame st, .mvVFrame st, .statsRows st, .statsMerge st, .pralineEadd st, .emul st,
        .append st, .gather st, .encode st, .decode st], c.bad = true →
      (runs → ∃ u f x, exec i s = .next u ∧ (u.stack st).fault = some f ∧ f.cause = 0x1A ∧ (u.stack st).queue = rest ∧
        (u.stack st).status = (s.stack st).status ++ [x] ∧ x.status = 1 ∧ u.mem = s.mem) ∧
      ((s.stack st).fault.isSome = true →
        exec i s = .next (s.modStack st fun x => { x with stalls := bumpStall x.stalls 0x07 })) ∧
      ((s.stack st).fault = none → s.isFenced (srcPraline st) = true ∨ s.cmdHeld c = true →
        exec i s = .next (s.modStack st fun x => { x with stalls := bumpStall x.stalls 0x0D })))

/-- Over memory without flaws: APPEND writes each element's code at its token's place (K token-major, V transposed), a
fresh part is zero elsewhere, and the scale record takes the scale, the fill and the saturations; GATHER copies the
rows of a part; ENCODE writes the stream's pieces and reports its lines, saturations and rectified elements; DECODE
writes each slot's elements and reports a malformed slot. The command leaves, its status joins the unit's, and every
other byte of memory stays. Completes: append, gather, encode, decode. (R201, R220, R253, R254, R255) -/
def Obligations.PralineFrames : Prop :=
  ∀ (st : StackId) (c : PCmd) (rest : List PCmd) (s : State), s.shaped = true → s.variant.hasStack st = true →
    s.regionUp (st / 8) = true → (s.stack st).selfRefresh = false → (s.stack st).queue = c :: rest →
    (s.stack st).fault = none → s.isFenced (srcPraline st) = false → s.cmdHeld c = false → c.bad = false → s.mem.synd = [] → s.mem.wf = true →
    let ended := fun (u : State) (x : PStat) => x.mover = c.mover ∧ x.status = 0 ∧ (u.stack st).queue = rest ∧
      (u.stack st).status = (s.stack st).status ++ [x] ∧
      (∀ k, k ≠ st.val → { u.stack k with rows := [] } = { s.stack k with rows := [] }) ∧
      u = { s with mem := u.mem, courses := u.courses, hbm := u.hbm }
    (c.opc = 5 → c.mode = 0 → c.fmt ≤ 1 → c.part < 2 → 0 < c.ntok → c.tok + c.ntok ≤ 256 → 0 < c.d →
      c.scale + 16 ≤ c.dst ∨ c.dst + 256 * c.d ≤ c.scale →
      let es := elemBits c.fmt / 8
      let vs := (List.range (c.ntok * c.d)).map fun i =>
        fpRound (elemVal c.fmt (leNat (s.mem.read (c.src1 + i * es) es)))
      let scale := if c.tok = 0 then appendScale c.headroom (vs.map fpVal) else c.ks
      let place := fun (k e : Nat) => c.dst + if c.part = 0 then (c.tok + k) * c.d + e else 256 * e + c.tok + k
      ∃ u x, exec (.append st) s = .next u ∧ ended u x ∧
        (∀ k < c.ntok, ∀ e < c.d, ∀ v, vs[k * c.d + e]? = some v →
          u.mem.byte (place k e) = BitVec.ofNat 8 (wrapTo 8 (appendElem scale v).1)) ∧
        (∀ b, c.dst ≤ b → b < c.dst + 256 * c.d → (∀ k < c.ntok, ∀ e < c.d, b ≠ place k e) →
          u.mem.byte b = if c.tok = 0 then 0 else s.mem.byte b) ∧
        (let sats := (vs.filter fun v => (appendElem scale v).2.1).length
         let nan := vs.any fun v => (appendElem scale v).2.2
         x.sat = min sats (2 ^ 24 - 1) ∧ x.nan = (nan || c.nanIn) ∧
         u.mem.read c.scale 16 = newScaleRec (s.mem.read c.scale 16) c.part c.tok c.ntok scale sats nan) ∧
        (∀ b, b < c.dst ∨ c.dst + 256 * c.d ≤ b → b < c.scale ∨ c.scale + 16 ≤ b → u.mem.byte b = s.mem.byte b)) ∧
    (c.opc = 6 → c.mode = 0 → c.ntok ≤ 256 → c.ntok ≤ c.tok → 0 < c.ntok → 0 < c.d →
      let len := if c.part = 0 then c.ntok * c.d else c.tok * c.d
      c.src0 + 256 * c.d ≤ c.dst ∨ c.dst + len ≤ c.src0 →
      ∃ u x, exec (.gather st) s = .next u ∧ ended u x ∧
        (c.part = 0 → ∀ i < c.ntok * c.d, u.mem.byte (c.dst + i) = s.mem.byte (c.src0 + i)) ∧
        (c.part ≠ 0 → ∀ e < c.d, (∀ i < c.ntok, u.mem.byte (c.dst + c.tok * e + i) = s.mem.byte (c.src0 + 256 * e + i)) ∧
          ∀ i, c.ntok ≤ i → i < c.tok → u.mem.byte (c.dst + c.tok * e + i) = s.mem.byte (c.dst + c.tok * e + i)) ∧
        (∀ b, b < c.dst ∨ c.dst + len ≤ b → u.mem.byte b = s.mem.byte b)) ∧
    (c.opc = 7 → c.mode = 0 →
      let e := encodeStream c.cfw.toNat (s.mem.read c.src0 (c.cols * cfSize (cfSrc c.cfw.toNat)))
      ∃ u x, exec (.encode st) s = .next u ∧ ended u x ∧
        u.mem = e.parts.foldl (fun (m : Memory) p => m.write (c.dst + p.1) p.2) s.mem ∧ x.out = e.outBytes ∧
        x.sat = min e.sat (2 ^ 24 - 1) ∧ x.rect = min e.rect (2 ^ 24 - 1)) ∧
    (c.opc = 8 → c.mode = 0 →
      let w := c.cfw.toNat
      let outs := (streamSlots w c.cols).map fun x => decodeSlot w (s.mem.read (c.src0 + x.1) x.2.1) x.2.2
      let bs := (outs.map (·.bytes)).flatten.take (c.cols * cfSize (cfSrc w))
      ∃ u x, exec (.decode st) s = .next u ∧ ended u x ∧ (∀ i < bs.length, u.mem.byte (c.dst + i) = bs.getD i 0) ∧
        x.malf = outs.any (·.malf) ∧ x.poison = outs.any (·.malf) ∧
        (∀ b, b < c.dst ∨ c.dst + bs.length ≤ b → u.mem.byte b = s.mem.byte b))

/-- The manager takes the RESOLVE of a ring: one that names no held fault completes ALREADY; RETRY of a host-resolved
fault frees the unit, forgets the cached translations of its address and completes OK; CANCEL of a DMA ring's
descriptor ends it; anything else completes MALFORMED and the unit holds on. Firmware, at the level that owns the
unit, leaves a host-resolved fault alone; it contains with a rung-2 error, after which the unit waits for the job's
end; it frees the unit on a first retry, on a reload, and when the link is back. No byte of memory changes, but for a
restaged table set. Completes: firmwareResolve, resolve. (R215, R308, R310, R312, R329, R352) -/
def Obligations.FaultsResolve : Prop :=
  (∀ (ring : RingId) (p : Posted) (s : State), s.shaped = true → s.mgrUp = true → 2 ≤ ring.val → ring.val ≤ 17 →
    s.completionHeld ring = false →
    (s.ring ring).posted.find? (fun p => dOpc p.bytes == 2) = some p →
    let taken := s.modRing ring fun g => { g with posted := g.posted.filter fun q => q.idx ≠ p.idx }
    let ends := fun (v : State) (status : Nat) => exec (.resolve ring) s = .next (v.completeNow ring p.bytes status)
    let action := rvAction p.bytes
    (s.holderOf (rvSrc p.bytes) (rvSeq p.bytes) = none → ends taken 0xE) ∧
    (∀ u f, s.holderOf (rvSrc p.bytes) (rvSeq p.bytes) = some (u, f) → (∀ m, u = .mover m → (s.mover m).coll = none) →
      (∀ e, u = .engine e → (s.engine e).fault2 = none) →
      (action = 1 → f.host = true → ∃ v, ends v 0 ∧ v.faultOf u = none ∧ v.mem = s.mem ∧
        (f.space = 0 → ∀ h < 2, ∀ t ∈ (v.half h).tcache, t.hits f.faddr.toNat = false) ∧
        v = { taken with halves := v.halves, rings := v.rings, hif := v.hif, seqs := v.seqs, movers := v.movers,
                         engines := v.engines, courses := v.courses, hbm := v.hbm, fab := v.fab }) ∧
      (∀ m, u = .mover m → action = 2 → f.host = true → f.ofJob = false → ∃ v, ends v 0 ∧ v.faultOf u = none ∧
        ((s.mover m).cur.isSome = true → (v.mover m).cur = none) ∧ v.mem = s.mem) ∧
      (f.host = false ∨ (action ≠ 1 ∧ (action ≠ 2 ∨ f.ofJob = true)) → ends taken 1))) ∧
  (∀ (u : FaultUnit) (host : HostData) (f : HeldFault) (s : State), s.shaped = true → s.mgrUp = true →
    s.faultOf u = some f → f.escalated = false → s.ownerUp u = true →
    (∀ m, u = .mover m → (s.mover m).coll = none) → (∀ e, u = .engine e → (s.engine e).fault2 = none) →
    s.rel.queue.length < 16 →
    let fw := exec (.firmwareResolve u host) s
    let contained := ∃ v q, fw = .next v ∧ v.rel.queue = s.rel.queue ++ [q] ∧ q.a.rung = 2 ∧ q.a.code = f.cause ∧
      v.faultOf u = some { f with escalated := true } ∧ v.mem = s.mem
    let freed := ∃ v, fw = .next v ∧ v.faultOf u = none ∧ v.rel.queue = s.rel.queue ∧ v.mem = s.mem
    (f.host = true → fw = .next s) ∧
    (f.host = false →
      (fwPolicy f.cause.toNat = .contain → contained) ∧
      (fwPolicy f.cause.toNat = .outlier → ∃ v q, fw = .next v ∧ v.rel.queue = s.rel.queue ++ [q] ∧ q.a.rung = 2 ∧
        v.faultOf u = none ∧ v.mem = s.mem) ∧
      (fwPolicy f.cause.toNat = .whenLinkUp → (s.linkBack u f = true → freed) ∧ (s.linkBack u f = false → fw = .next s)) ∧
      (fwPolicy f.cause.toNat = .retryOnce → ((s.lastRestart u).isSome = true → contained) ∧
        (s.lastRestart u = none → (∀ e, u ≠ .engine e) → (∀ c, u ≠ .sorter c) → freed)) ∧
      (fwPolicy f.cause.toNat = .reload → ∃ v q, fw = .next v ∧ v.faultOf u = none ∧
        v.rel.queue = s.rel.queue ++ [q] ∧ q.a.rung = 1 ∧ (f.cause.toNat = 0x15 → v.mem = s.mem))))

/-- A read of words without flaws opens the row of each 64-byte granule that it touches and changes nothing else. An
upset of one stored bit is a corrected error: the word still delivers its data, MEM_CE_CNT counts it, and no other
word changes. A refresh closes every row of its stack. A walk whose translation fails leaves the unit holding the
fault of its cause, level, entry and address; one that succeeds, or that holds for a table in a fenced stack, leaves
no fault; none changes memory. Completes: hbmRead, refresh, pageWalk. (R210, R211, R214, R216, R225, R226, R228) -/
def Obligations.MemoryServes : Prop :=
  (∀ (addr : Addr) (len : Nat) (reader : Byte) (id : BitVec 16) (s : State), s.shaped = true → s.mem.wf = true →
    let a := addr.toNat
    let n := a / 0x1000000000
    s.variant.hasStack n = true → s.stackUp n = true → s.stackHeld a = false → s.mem.flawed a len = [] →
    (∃ t, exec (.hbmRead addr len reader id []) s = .next t ∧ t.stack n = (s.stack n).touch a len ∧
      (0 < len → a % 64 + len ≤ 64 → (t.stack n).openRow (hbmBank a) = some (hbmRow a) ∧
        ∀ b, b ≠ hbmBank a → (t.stack n).openRow b = (s.stack n).openRow b) ∧
      (∀ k, k ≠ n → t.stack k = s.stack k) ∧ t = { s with hbm := t.hbm }) ∧
    (∀ w j, w ∈ wordsOf a len → j < 39 → ∃ t, exec (.hbmRead addr len reader id [(w, BitVec.twoPow 39 j)]) s = .next t ∧
      t.mem.deliver w = s.mem.deliver w ∧ synClass (t.mem.syn w) = .ce j ∧
      (∀ v, v ≠ w → t.mem.syn v = s.mem.syn v ∧ t.mem.stored v = s.mem.stored v) ∧
      t.regs.ceCnt = satAdd s.regs.ceCnt 1 ∧ t.regs.ueCnt = s.regs.ueCnt ∧
      (a % 64 + len ≤ 64 → (t.stack n).openRow (hbmBank a) = some (hbmRow a)))) ∧
  (∀ (st : StackId) (s : State), s.shaped = true → s.variant.hasStack st = true → s.stackUp st = true →
    ∃ t, exec (.refresh st) s = .next t ∧ (∀ b, (t.stack st).openRow b = none) ∧
      t = s.modStack st fun _ => { s.stack st with rows := [] }) ∧
  (∀ (h : HalfId) (u : FaultUnit) (ja : Addr) (isWrite staging : Bool) (s : State), s.shaped = true →
    s.job.cur.isSome = true → s.regionUp h = true → halfOf u = some h.val → s.faultOf u = none →
    (∀ tgt a s1, s.translate h (walkReader u) ja.toNat isWrite staging = (.ok tgt a, s1) →
      exec (.pageWalk h u ja isWrite staging) s = .next s1 ∧ s1.faultOf u = none ∧ s1.mem = s.mem) ∧
    (∀ s1, s.translate h (walkReader u) ja.toNat isWrite staging = (.held, s1) →
      exec (.pageWalk h u ja isWrite staging) s = .next s1 ∧ s1.faultOf u = none ∧ s1.mem = s.mem) ∧
    (∀ c level e ea s1, s.translate h (walkReader u) ja.toNat isWrite staging = (.bad c level e ea, s1) →
      ∃ t f, exec (.pageWalk h u ja isWrite staging) s = .next t ∧ t.faultOf u = some f ∧ f.cause = BitVec.ofNat 16 c ∧
        f.faddr = ja.setWidth 64 ∧ f.entry = BitVec.ofNat 64 e ∧ f.eaddr = BitVec.ofNat 64 ea ∧
        f.restart.walk = BitVec.ofNat 8 level ∧ f.host = hostResolved c ∧ t.mem = s.mem))

/-- A write of part of a word merges its bytes with the word read: with a CE the other bytes are the corrected ones
and the check bits are right; with a UE or poison they stay as stored and the word carries the poison pattern. A
demand read leaves memory as it is. A scrub that may run rewrites every word with a CE of a granule without a UE as
its corrected data with right check bits, and changes no word's delivered data. Completes: scrub. (R226) -/
def Obligations.PartialWordsMerge : Prop :=
  (∀ (m : Memory) (w off : Nat) (bs : List Byte), m.wf = true → bs ≠ [] → bs.length < 4 → off + bs.length ≤ 4 →
    let t := m.write (4 * w + off) bs
    let merged := fun (old : List Byte) => ∀ i < 4, t.byte (4 * w + i) =
      if off ≤ i ∧ i < off + bs.length then bs.getD (i - off) 0 else old.getD i 0
    (synClass (m.syn w) = .clean → t.syn w = 0 ∧ merged (m.stored w)) ∧
    (∀ b, synClass (m.syn w) = .ce b → t.syn w = 0 ∧ merged (m.deliver w)) ∧
    (synClass (m.syn w) = .ue ∨ synClass (m.syn w) = .poison → t.syn w = 0x7F ∧ merged (m.stored w)) ∧
    (∀ k, k / 4 ≠ w → t.byte k = m.byte k ∧ t.syn (k / 4) = m.syn (k / 4))) ∧
  (∀ (rd : Reader) (a len : Nat) (s : State), (s.readMem rd a len).2.2.mem = s.mem ∧
    (s.readMem rd a len).1 = s.mem.read a len) ∧
  (∀ (st : StackId) (s : State), s.shaped = true → s.mem.wf = true → s.variant.hasStack st = true →
    s.stackUp st = true → s.regs.scrubEn = true → s.stackHeld (s.scrubAt st) = false →
    let first := s.scrubAt st / 4
    let sameGranule := fun (v w : Nat) => v / 16 = w / 16
    ∃ t, exec (.scrub st) s = .next t ∧ (∀ w, t.mem.deliver w = s.mem.deliver w) ∧
      (∀ w b, first ≤ w → w < first + 1024 → synClass (s.mem.syn w) = .ce b →
        (∀ v, sameGranule v w → synClass (s.mem.syn v) ≠ .ue) → t.mem.syn w = 0 ∧ t.mem.stored w = s.mem.deliver w) ∧
      (∀ w, w < first ∨ first + 1024 ≤ w ∨ (∃ v, sameGranule v w ∧ synClass (s.mem.syn v) = .ue) →
        t.mem.syn w = s.mem.syn w ∧ t.mem.stored w = s.mem.stored w) ∧
      (t.stack st).scrubPtr = ((s.stack st).scrubPtr + 1) % 0x1000000)

/-- A collective whose body, group table and neighbours are right is taken up, not started, and its CID is no longer
done; a wrong one raises MOVER_MALFORMED. SHIFT, ALLREDUCE, REDUCE_SCATTER and STATS_COMBINE start without an access
and complete at once where they have no ring step; ALLGATHER copies its own shard to its place in DST; BARRIER sends
its position downstream; ADD64 adds in local memory and returns the old value, or sends one ATOMIC_ADD to the member
at position UNITS; FONDANT copies its entries. At the start the messages held for the CID return to their ports.
Completes: moveColl, shift, allreduce, reduceScatter, allgather, statsCombine, fondant, collBarrier, add64. (R358,
R359, R363, R365, R366, R367, R369) -/
def Obligations.CollectivesStart : Prop :=
  ∀ (m : MoverId) (t : MTask) (s : State), s.shaped = true → s.variant.hasMover m = true → s.moverRuns m = true →
    (∀ hd fl s1 es fl2 s2, s.nextTask m = some t → (s.mover m).cur = none → (s.mover m).fault = none →
      (s.mover m).wait = .none → (t.ring = none → t.listOk = true) → mvKind t.bytes = 4 →
      let n := fieldAt hd 0 2
      let c := collOfTask t.bytes (hd ++ es)
      let good := groupOk s.moduleId (hd ++ es) = true ∧ (s.collDirs c).isSome = true ∧ c.rangesOk = true ∧
        (∀ k < 48, k ≠ m.val → ∀ q, (s.mover k).coll = some q → q.cid ≠ c.cid) ∧ (c.cop = 8 → c.units < c.size)
      let malformed := ∃ u f, exec (.moveColl m) s = .next u ∧ (u.mover m).fault = some f ∧ f.cause = 0x0C ∧
        (u.mover m).coll = none ∧ u.mem = s.mem
      (t.ring = none → collBodyOk t.bytes = false → malformed) ∧
      (collBodyOk t.bytes = true → (s.startTask m t).jobGet m t (coGroup t.bytes) 16 = .ok (hd, fl) s1 →
        (t.ring = none → n = 0 ∨ 1024 < n → malformed) ∧
        (0 < n → n ≤ 1024 → s1.jobGet m t (coGroup t.bytes + 16) (4 * n) = .ok (es, fl2) s2 →
          (t.ring = none → ¬ good → malformed) ∧
          (good → ∃ u, exec (.moveColl m) s = .next u ∧ (u.mover m).coll = some { c with nsteps := c.steps } ∧
            (u.mover m).wait = .coll ∧ (u.mover m).cur = some t ∧ c.cid ∉ u.fab.doneCids ∧ u.mem = s.mem ∧
            u = { s2 with movers := u.movers, fab := { s2.fab with doneCids := u.fab.doneCids } })))) ∧
    (∀ c, (s.mover m).cur = some t → (s.mover m).coll = some c → c.started = false → (s.mover m).fault = none →
      (s.mover m).wait = .coll →
      let freed := fun (u : State) => (∀ x ∈ u.fab.held, hCid x.2.hdr ≠ c.cid) ∧
        ∀ q x, q < 8 → (q, x) ∈ s.fab.held → hCid x.hdr = c.cid → (vcOf (hType x.hdr) 0, x) ∈ (u.port q).rxMsgs
      let completed := fun (u : State) => (u.mover m).cur = none ∧ c.cid ∈ u.fab.doneCids
      (∀ i ∈ [(1, Instr.shift m), (2, .allreduce m), (3, .reduceScatter m), (5, .statsCombine m)],
        (c.cop ≠ i.1 → exec i.2 s = .next s) ∧
        (c.cop = i.1 → c.recvStep < c.nsteps → ∃ u, exec i.2 s = .next u ∧
          (u.mover m).coll = some { c with started := true } ∧ (u.mover m).cur = some t ∧ freed u ∧
          (∀ k, k ≠ m.val → u.mover k = s.mover k) ∧ u = { s with movers := u.movers, fab := u.fab }) ∧
        (c.cop = i.1 → c.nsteps = 0 → c.sendStep = 0 → c.recvStep = 0 → ∃ u, exec i.2 s = .next u ∧ completed u ∧
          freed u ∧ u.mem = s.mem)) ∧
      (∀ i ∈ [(4, Instr.allgather m, startGather m t c s), (6, .fondant m, startFondant m t c s),
          (7, .collBarrier m, startBarrier m t c s), (8, .add64 m, startAdd m t c s)],
        (c.cop ≠ i.1 → exec i.2.1 s = .next s) ∧
        (∀ s1, c.cop = i.1 → i.2.2 = .stop s1 → exec i.2.1 s = .next s1) ∧
        (∀ s1, c.cop = i.1 → i.2.2 = .ok () s1 → ∃ u, exec i.2.1 s = .next u ∧ u.mem = s1.mem ∧
          (∀ x ∈ u.fab.held, hCid x.2.hdr ≠ c.cid) ∧
          (completed u ∨ ∃ k, (u.mover m).coll = some k ∧ k.started = true ∧ k.cop = c.cop ∧ k.cid = c.cid))) ∧
      (∀ a b s1 s2, c.cop = 4 → c.widens = false → s.mem.wf = true →
        let n := c.shardLen c.pos
        let dst := c.dst + c.shardOff c.pos
        0 < n → c.src % 4096 + n ≤ 4096 → dst % 4096 + n ≤ 4096 →
        s.translate (m / 16) (moverReader m t) c.src false false = (.ok 0 a, s1) → s1.rangeAll Region.hostOk a n = true →
        s1.stackHeld a = false → s.mem.flawed a n = [] →
        s1.translate (m / 16) (moverReader m t) dst true false = (.ok 0 b, s2) → s2.rangeAll Region.hostOk b n = true →
        s2.stackHeld b = false →
        ∃ u, exec (.allgather m) s = .next u ∧ u.mem.read b n = s.mem.read a n ∧
          ∀ k, k < b ∨ b + n ≤ k → u.mem.read k 1 = s.mem.read k 1) ∧
      (∀ down up p rest, c.cop = 7 → s.collDirs c = some (down, up) → s.inDomain c.down = true →
        s.dirPorts down = p :: rest → p < 8 → (s.port p).fenced = false → (s.port p).state ≠ 4 →
        (s.port p).txQ.length = 8 →
        ∃ u, exec (.collBarrier m) s = .next u ∧ u.mem = s.mem ∧ (u.port p).txQ.getD 5 [] =
          (s.port p).txQ.getD 5 [] ++ [msgHeader 0xA 0 0 c.down s.moduleId c.cid c.pos 0]) ∧
      (∀ old fl s1 s2 s3 s4, c.cop = 8 → c.units = c.pos → s.jobGet m t c.dst 8 = .ok (old, fl) s1 →
        fl.any id = false → s1.jobPut m t c.src old (List.replicate 8 false) = .ok () s2 →
        s2.jobPut m t c.dst (toLe ((leNat old + c.arg.toNat) % 2 ^ 64) 8) (List.replicate 8 false) = .ok () s3 →
        s3.jobPut m t c.src old (List.replicate 8 false) = .ok () s4 →
        ∃ u, exec (.add64 m) s = .next u ∧ u.mem = s4.mem) ∧
      (∀ p s1, c.cop = 8 → c.units ≠ c.pos →
        let tgt := c.group.getD c.units 0
        s.originate 5 0 64 tgt c.dst s.fab.nextTag.toNat 0 (padTo (toLe c.arg.toNat 8) 64) = (.ok p, s1) →
        ∃ u, exec (.add64 m) s = .next u ∧ u.mem = s.mem ∧ (u.mover m).cur = some t ∧ u.fab.ops = s.fab.ops ++
          [({ tag := s.fab.nextTag, mover := some m, mtype := 5, addr := BitVec.ofNat 64 c.dst, len := 64, dst := tgt,
              port := p, job := t.jobOf s } : PeerOp)]))

/-- A send step whose chunks and SENT leave counts as sent; it waits for DONE of the step before; a mover that may not
send counts T3_PEER_LATE, and one that holds a fault counts its cause. A CHUNK of the current receive step is written,
or reduced with the member's own bytes; one of a later step waits, one of an earlier is stale, one out of range is
answered with NAK. SENT is noted for its port, and the last port's closes the step; DONE is noted; BARRIER counts, and
goes on downstream unless its origin is the next position. Messages of a collective not started are held, and of one
that is done counted as stale. Completes: ringStepSend, chunk, sent, done, msgBarrier. (R361, R351, R362, R365, R366,
R369) -/
def Obligations.CollectiveStepsExchange : Prop :=
  (∀ (m : MoverId) (t : MTask) (c : Coll) (s : State), s.shaped = true → s.variant.hasMover m = true →
    s.moverRuns m = true → (s.mover m).cur = some t → (s.mover m).coll = some c →
    (c.started = false ∨ c.nsteps = 0 ∨ (s.mover m).wait ≠ .coll → exec (.ringStepSend m) s = .next s) ∧
    (c.started = true → c.nsteps ≠ 0 → (s.mover m).wait = .coll →
      (∀ f, (s.mover m).fault = some f →
        exec (.ringStepSend m) s = .next (s.stallMover m (faultStall f.cause.toNat))) ∧
      ((s.mover m).fault = none → c.maySend = false → exec (.ringStepSend m) s = .next (s.stallMover m 0x0F)) ∧
      (∀ down up s1 s2, c.maySend = true → (s.mover m).fault = none → s.collDirs c = some (down, up) → c.cop < 6 →
        c.recvStep < c.nsteps →
        let x := c.sends c.sendStep
        chunkLoop m t c down c.sendStep x.2.2.2 x.1 (x.2.2.1 / 64 + 1) (x.2.1 + c.sendOff) (x.2.2.1 - c.sendOff) s =
          .ok () s1 →
        s1.sendSent m t c down c.sendStep = .ok () s2 → ∃ u, exec (.ringStepSend m) s = .next u ∧
          (u.mover m).coll = some { c with sendStep := c.sendStep + 1, sendOff := 0 } ∧ (u.mover m).cur = some t ∧
          u.mem = s.mem))) ∧
  (∀ (p : PortId) (vc : Nat) (x : Msg) (s : State), s.shaped = true → s.variant.hasPort p = true → s.regionUp 3 = true →
    let left := fun (u : State) => (u.port p).rxMsgs = dropMsg vc (s.port p).rxMsgs
    let step := hStep x.hdr
    let cid := hCid x.hdr
    (∀ i ∈ [(7, Instr.chunk p), (8, .sent p), (0xA, .msgBarrier p)], s.headMsg p i.1 = some (vc, x) →
      (s.collFate cid = .wait → exec i.2 s = .next s) ∧
      (s.collFate cid = .hold → ∃ u, exec i.2 s = .next u ∧ left u ∧ u.fab.held = s.fab.held ++ [(p.val, x)] ∧
        u = { s with fab := u.fab }) ∧
      (s.collFate cid = .stale → ∃ u, exec i.2 s = .next u ∧ left u ∧ (u.port p).stale = satAdd (s.port p).stale 1 ∧
        u = { s with fab := u.fab })) ∧
    (∀ m t c, s.collFate cid = .take m t c →
      let r := c.receives c.recvStep
      let off := hAddr x.hdr / 0x10000
      let inside := r.2.1 ≤ off ∧ off + x.data.length ≤ r.2.1 + r.2.2.1
      (s.headMsg p 7 = some (vc, x) →
        (step < c.recvStep ∨ c.nsteps ≤ c.recvStep → ∃ u, exec (.chunk p) s = .next u ∧ left u ∧
          (u.port p).stale = satAdd (s.port p).stale 1 ∧ u = { s with fab := u.fab }) ∧
        (c.recvStep < step → c.recvStep < c.nsteps → exec (.chunk p) s = .next s) ∧
        (step = c.recvStep → step < c.nsteps → ¬ inside → ∃ u, exec (.chunk p) s = .next u ∧
          (u.port p).nakCnt = satAdd (s.port p).nakCnt 1 ∧ (u.mover m).coll = some c ∧ u.mem = s.mem) ∧
        (∀ s1, step = c.recvStep → step < c.nsteps → inside → c.reducing step = false →
          s.jobPut m t (r.1 + off) x.data (byteMarks (marksOfPmap x.hdr x.data.length)) = .ok () s1 →
          exec (.chunk p) s = .next (s1.finishMsg p vc x)) ∧
        (∀ loc fl s1 s2, step = c.recvStep → step < c.nsteps → inside → c.reducing step = true →
          s.jobGet m t (c.src + off) x.data.length = .ok (loc, fl) s1 →
          let out := reduceBytes c.rop s1.jobTables x.data loc
          s1.jobPut m t (r.1 + off) out.1 (List.replicate out.1.length false) = .ok () s2 →
          ∃ u, exec (.chunk p) s = .next u ∧ u.mem = s2.mem ∧ u.fab.collOvf = satAdd s2.fab.collOvf out.2)) ∧
      (∀ down up, s.headMsg p 8 = some (vc, x) → s.collDirs c = some (down, up) → c.cop < 6 →
        let seen := c.sentSeen ++ [(step, p.val)]
        (step < c.recvStep → ∃ u, exec (.sent p) s = .next u ∧ (u.port p).stale = satAdd (s.port p).stale 1 ∧
          (u.mover m).coll = some c ∧ u.mem = s.mem) ∧
        (c.recvStep < step → exec (.sent p) s = .next s) ∧
        (step = c.recvStep → (∃ q ∈ s.dirPorts up, (step, q) ∉ seen) → ∃ u, exec (.sent p) s = .next u ∧ left u ∧
          (u.mover m).coll = some { c with sentSeen := seen } ∧ u.mem = s.mem) ∧
        (step = c.recvStep → (∀ q ∈ s.dirPorts up, (step, q) ∈ seen) → c.widens = false → c.recvStep + 1 < c.nsteps →
          ∃ u k, exec (.sent p) s = .next u ∧ (u.mover m).coll = some k ∧ k.recvStep = c.recvStep + 1 ∧
            k.sendStep = c.sendStep ∧ (∀ q, (step, q) ∉ k.sentSeen) ∧ u.mem = s.mem)) ∧
      (∀ down up, s.headMsg p 0xA = some (vc, x) → s.collDirs c = some (down, up) → c.cop = 7 →
        let origin := hTag x.hdr % 0x10000
        let counted := fun (u : State) => u.mem = s.mem ∧
          (c.barriers + 2 < c.size → (u.mover m).coll = some { c with barriers := c.barriers + 1 }) ∧
          (c.size ≤ c.barriers + 2 → (u.mover m).cur = none ∧ c.cid ∈ u.fab.doneCids)
        (origin = (c.pos + 1) % c.size → ∃ u, exec (.msgBarrier p) s = .next u ∧ counted u) ∧
        (∀ q s1, origin ≠ (c.pos + 1) % c.size → s.sendNear down 0 0xA c.cid origin 0 0 c.down [] = (.ok q, s1) →
          ∃ u, exec (.msgBarrier p) s = .next u ∧ counted u))) ∧
    (s.headMsg p 9 = some (vc, x) →
      (s.jobAway = true → exec (.done p) s = .next s) ∧
      (s.jobAway = false → s.collOf cid = none → exec (.done p) s = .next (s.finishMsg p vc x)) ∧
      (∀ m c, s.jobAway = false → s.collOf cid = some m → (s.mover m).coll = some c → c.cop < 6 → c.recvStep < c.nsteps →
        ∃ u, exec (.done p) s = .next u ∧ left u ∧ u.mem = s.mem ∧
          (u.mover m).coll = some { c with doneSeen := insertNat step c.doneSeen })))

/-- A port in TRAIN that locks all lanes, or one half where ALLOW_X4 lets it, enters the PARAM exchange and sends
PARAM; a time-out starts training again; a lost lock retrains an ACTIVE port, which keeps its unacknowledged flits. A
PARAM of the expected neighbour, facing this way, with SEEN makes the port ACTIVE; one of another partner holds it
MISWIRED; a new boot count of the partner empties the retry buffer and loses the port's operations. The first PARAM
sets the credits. A PARAM with a reserved bit set shows nothing and is counted as a violation. No byte of memory
changes. Completes: portTraining, trainTimeout, lockLost, param. (R332, R333, R334, R339, R352, R354) -/
def Obligations.PortsTrain : Prop :=
  ∀ (p : PortId) (s : State), s.shaped = true → s.variant.hasPort p = true → s.regionUp 3 = true →
    let g := s.port p
    let posts := fun (u : State) => u = { s with fab := u.fab, rings := u.rings, hif := u.hif, seqs := u.seqs } ∧
      ∀ k, k ≠ p.val → u.port k = s.port k
    let sentParam := fun (u : State) (seen : Nat) => ∃ f, (u.port p).out = g.out ++ [f] ∧ isControl f 0 4 = true ∧
      fieldAt (fBody f) 8 1 = seen ∧ fieldAt (fBody f) 10 2 = 128 ∧ fieldAt (fBody f) 24 2 = 32
    (g.state = 1 → s.fab.portEn.getLsbD p = true → g.fenced = false →
      (∃ u, exec (.portTraining p .all) s = .next u ∧ (u.port p).state = 2 ∧ (u.port p).lanes = 8 ∧ sentParam u 0 ∧
        u = s.modPort p fun _ => u.port p) ∧
      (∀ lock, lock = .low ∨ lock = .high →
        (s.fab.allowX4 = true → ∃ u, exec (.portTraining p lock) s = .next u ∧ (u.port p).state = 2 ∧
          (u.port p).lanes = 4 ∧ sentParam u 0 ∧ posts u) ∧
        (s.fab.allowX4 = false → exec (.portTraining p lock) s = .next s)) ∧
      exec (.portTraining p .none) s = .next s) ∧
    (g.state ≠ 1 ∨ s.fab.portEn.getLsbD p = false ∨ g.fenced = true → ∀ lock, exec (.portTraining p lock) s = .next s) ∧
    (g.state = 1 ∨ g.state = 2 → ∃ u, exec (.trainTimeout p) s = .next u ∧ (u.port p).state = 1 ∧ posts u) ∧
    (g.state ≠ 1 → g.state ≠ 2 → exec (.trainTimeout p) s = .next s) ∧
    (g.state = 4 → ∃ u, exec (.lockLost p) s = .next u ∧ (u.port p).state = 1 ∧ (u.port p).lanes = 0 ∧
      (u.port p).unacked = g.unacked ∧ (u.port p).txNext = g.txNext ∧ posts u) ∧
    (g.state ≠ 4 → exec (.lockLost p) s = .next s) ∧
    (∀ flit, isControl flit 0 4 = true →
      let b := fBody flit
      let id := fieldAt b 1 2 % 2 ^ 14
      let boot := BitVec.ofNat 16 (fieldAt b 6 2)
      let expected := ∃ d, s.portDir p = some d ∧ s.neighbour d = some id ∧ fieldAt b 4 1 = opposite d
      let sameBoot := g.paired = false ∨ g.peerBoot = boot
      let ackOk := (fAck flit + 1024 - g.acked) % 1024 ≤ g.unacked.length
      (g.state ≠ 2 → g.state ≠ 3 → exec (.param p flit) s = .next s) ∧
      (g.state = 2 ∨ g.state = 3 → flitClean flit = false → ackOk → ∃ u, exec (.param p flit) s = .next u ∧
        (u.port p).violCnt = satAdd g.violCnt 1 ∧ (u.port p).state = g.state ∧ (u.port p).peer = g.peer ∧
        (u.port p).paired = g.paired ∧ (u.port p).gotParam = g.gotParam ∧ (u.port p).gotSeen = g.gotSeen ∧
        u.mem = s.mem) ∧
      (g.state = 2 ∨ g.state = 3 → flitClean flit = true → ackOk → sameBoot →
        (expected → fieldAt b 8 1 = 1 → ∃ u, exec (.param p flit) s = .next u ∧ (u.port p).state = 4 ∧
          (u.port p).paired = true ∧ (u.port p).peer.toNat = id ∧ (u.port p).peerBoot = boot ∧ posts u ∧
          ((∀ v, g.txQ.getD v [] = []) →
            (g.paired = false → (u.port p).txCredits = (List.range 8).map fun v => fieldAt b (10 + 2 * v) 2) ∧
            (g.paired = true → (u.port p).txCredits = g.txCredits))) ∧
        (expected → fieldAt b 8 1 ≠ 1 → g.gotSeen = false → ∃ u, exec (.param p flit) s = .next u ∧
          (u.port p).state = 2 ∧ sentParam u 1 ∧ u = s.modPort p fun _ => u.port p) ∧
        (¬ expected → ∃ u, exec (.param p flit) s = .next u ∧ (u.port p).state = 3 ∧ sentParam u 1 ∧ posts u)) ∧
      (g.state = 2 ∨ g.state = 3 → flitClean flit = true → g.paired = true → g.peerBoot ≠ boot → expected →
        fieldAt b 8 1 ≠ 1 → g.gotSeen = false → ∃ u, exec (.param p flit) s = .next u ∧ (u.port p).state = 2 ∧
          (u.port p).unacked = [] ∧ (u.port p).txNext = 0 ∧ (u.port p).rxNext = 0 ∧
          (∀ o ∈ u.fab.ops, o.port ≠ p.val ∧ s.opUses p o = false) ∧ u.mem = s.mem))

/-- At an ACTIVE port: IDLE and NOP act on ACK, and IDLE, VIOLATION and VC_RESYNC in order advance the expected FSEQ;
a flit with a wrong FCRC is discarded and asks for a replay from the expected FSEQ; FTYPE 3 is counted as a violation;
a fenced port sends neither the request nor VC_RESYNC. RETRY_REQ and RETRY_TIMEOUT resend the retry buffer from the
flit asked for, with the present ACK, unless FAB_RETRY.LIMIT replays went by without progress: then the port retrains
and keeps its buffer. VIOLATION is counted, and for a code that broke a channel VC_RESYNC answers; VC_RESYNC ends the
channel's framing loss. No byte of memory changes. Completes: sequencedFlit, retryReq, retryTimeout, idle, nop,
violation, vcResync. (R336, R337, R338, R354, R355, R356) -/
def Obligations.FlitsRetry : Prop :=
  ∀ (p : PortId) (flit : List Byte) (s : State), s.shaped = true → s.variant.hasPort p = true → s.portActive p = true →
    let g := s.port p
    let n := (fAck flit + 1024 - g.acked) % 1024
    let portOnly := fun (u : State) => u = s.modPort p fun _ => u.port p
    let posts := fun (u : State) => u = { s with fab := u.fab, rings := u.rings, hif := u.hif, seqs := u.seqs }
    let acked := fun (u : State) => (u.port p).acked = fAck flit ∧ ∃ more, (u.port p).unacked = g.unacked.drop n ++ more
    let inOrder := g.rxNext < 1024 ∧ fSeq flit = g.rxNext ∧ n ≤ g.unacked.length ∧ flitClean flit = true
    let moved := fun (u : State) => (u.port p).rxNext = (g.rxNext + 1) % 1024 ∧ (u.port p).rejecting = false ∧ acked u
    let advanced := fun (u : State) => moved u ∧ portOnly u
    let resent := g.unacked.map fun x =>
      flitBytes (fType x.2) (fBvc x.2) x.1 g.ackNow (fCrvc x.2) (fCrcnt x.2) (fBody x.2)
    (∀ ce ue, crcOk flit 252 = false → g.rxNext < 1024 → ∃ u, exec (.sequencedFlit p flit ce ue) s = .next u ∧
      (u.port p).rxNext = g.rxNext ∧ (u.port p).acked = g.acked ∧
      (u.port p).fecCe = satAdd g.fecCe ce ∧ (u.port p).fecUe = satAdd g.fecUe ue ∧ portOnly u ∧
      (g.fenced = true → (u.port p).rejecting = g.rejecting) ∧
      (g.fenced = false → (u.port p).rejecting = true ∧ (g.rejecting = false →
        ∃ f more, (u.port p).out = g.out ++ f :: more ∧ isControl f 0 2 = true ∧ fieldAt (fBody f) 1 2 = g.rxNext))) ∧
    (crcOk flit 252 = true → fType flit = 3 → n ≤ g.unacked.length → ∃ u, exec (.sequencedFlit p flit 0 0) s = .next u ∧
      (u.port p).violCnt = satAdd g.violCnt 1 ∧ (u.port p).rxNext = g.rxNext ∧ u.mem = s.mem) ∧
    (inOrder → isControl flit 1 1 = true → ∀ i ∈ [Instr.idle p flit, .sequencedFlit p flit 0 0], ∃ u,
      exec i s = .next u ∧ advanced u ∧ ((∀ v, g.txQ.getD v [] = []) →
        (u.port p).txCredits = modifyNth (· + fCrcnt flit) g.txCredits (fCrvc flit))) ∧
    (isControl flit 0 3 = true → flitClean flit = true → n ≤ g.unacked.length → ∃ u, exec (.nop p flit) s = .next u ∧
      (u.port p).rxNext = g.rxNext ∧ acked u ∧ portOnly u) ∧
    (isControl flit 0 2 = true → flitClean flit = true → n = 0 →
      (g.replays < s.fab.retryLimit → ∃ u more, exec (.retryReq p flit) s = .next u ∧ (u.port p).state = 4 ∧
        (u.port p).replays = g.replays + 1 ∧ (u.port p).replay = satAdd g.replay 1 ∧ portOnly u ∧
        (u.port p).out = g.out ++ resent.drop (g.unacked.takeWhile fun x => x.1 ≠ fieldAt flit 5 2).length ++ more) ∧
      (s.fab.retryLimit ≤ g.replays → ∃ u, exec (.retryReq p flit) s = .next u ∧ (u.port p).state = 1 ∧
        (u.port p).unacked = g.unacked ∧ posts u)) ∧
    (g.unacked = [] → exec (.retryTimeout p) s = .next s) ∧
    (g.unacked ≠ [] → g.replays < s.fab.retryLimit → ∃ u, exec (.retryTimeout p) s = .next u ∧ portOnly u ∧
      (u.port p).out = g.out ++ resent ∧ (u.port p).replays = g.replays + 1 ∧ (u.port p).unacked = g.unacked) ∧
    (g.unacked ≠ [] → s.fab.retryLimit ≤ g.replays → ∃ u, exec (.retryTimeout p) s = .next u ∧ posts u ∧
      (u.port p).state = 1 ∧ (u.port p).unacked = g.unacked) ∧
    (inOrder → isControl flit 1 5 = true → ∃ u, exec (.violation p flit) s = .next u ∧ advanced u ∧
      (u.port p).violRx = satAdd g.violRx 1 ∧
      (fieldAt flit 5 1 = 2 ∨ fieldAt flit 5 1 = 4 → g.fenced = false → g.ctrlQ = [] → g.unacked.length < 512 →
        g.txNext < 1024 → ∃ f more, (u.port p).out = g.out ++ f :: more ∧ isControl f 1 6 = true ∧
          fieldAt (fBody f) 1 1 = fieldAt flit 6 1 % 8)) ∧
    (inOrder → isControl flit 1 6 = true →
      let vc := fieldAt flit 5 1 % 8
      ∃ u, exec (.vcResync p flit) s = .next u ∧ moved u ∧ u = { s with fab := u.fab } ∧
        (g.passing.getD vc none = none → portOnly u) ∧ (u.port p).framing.getD vc false = false ∧
        (u.port p).rxStream.getD vc [] = [])

/-- At a port that serves: READ_REQ of HBM is answered with the bytes read, and of any other address with NAK; WRITE
stores its data and ATOMIC_ADD adds modulo 2^64 where the running job's table leads, without a job or a translation
they are refused with NAK, and while the job is away they wait; a response that matches an outstanding operation ends
it and READ_RSP writes its data, ATOMIC_RSP the old value, while one that matches none, or a READ_RSP of another
length than asked for, is a violation; an ATOMIC_RSP whose job is away is kept with its operation (log entry 55); a
request whose translation holds waits; MGMT is taken only with MGMT_IN; a message for another module goes on towards
it. Every other byte stays. Completes: readReq, readRsp, msgWrite, writeAck, atomicAdd, atomicRsp, mgmt, mgmtRsp,
messageForward. (R344, R347, R348, R349, R354, R366) -/
def Obligations.PeerMessages : Prop :=
  ∀ (p : PortId) (vc : Nat) (x : Msg) (s : State), s.shaped = true → s.variant.hasPort p = true → s.regionUp 3 = true →
    s.mem.wf = true →
    let h := x.hdr
    let left := fun (u : State) => (u.port p).rxMsgs = dropMsg vc (s.port p).rxMsgs
    let naks := fun (i : Instr) => ∃ u, exec i s = .next u ∧ left u ∧ (u.port p).nakCnt = satAdd (s.port p).nakCnt 1 ∧
      u.mem = s.mem ∧ u.job = s.job
    let unmatched := fun (i : Instr) => ∃ u, exec i s = .next u ∧ (u.port p).violCnt = satAdd (s.port p).violCnt 1 ∧
      u.mem = s.mem
    let ended := fun (u : State) (o : PeerOp) => left u ∧ u.fab.ops = s.fab.ops.filter fun y => y.tag ≠ o.tag
    -- an answer of a type can leave, or the Gatehouse keeps it back
    let answers := fun (mtype : Nat) => s.inDomain (hSrc h) = false ∨
      ∃ d dir q, s.nextHop (hSrc h) = some (d, dir) ∧ s.pickPort dir mtype (hAddr h) = some q ∧ (s.port q).fenced = false
    (s.headMsg p 1 = some (vc, x) →
      let a := hAddr h
      let n := hLen h
      (s.rangeAll Region.isHbm a n = false → naks (.readReq p)) ∧
      (s.rangeAll Region.isHbm a n = true → s.stackHeld a = true → exec (.readReq p) s = .next s) ∧
      (∀ r s1, s.rangeAll Region.isHbm a n = true → s.stackHeld a = false → s.mem.flawed a n = [] → r ≠ .noRoute →
        (s.touchRows a n).originate 2 0 n (hSrc h) a (hTag h) (pmapOf (s.badLines a n)) (s.mem.read a n) = (r, s1) →
        exec (.readReq p) s = .next (s1.finishMsg p vc x) ∧ s1.mem = s.mem)) ∧
    (s.headMsg p 2 = some (vc, x) →
      (s.matchOp 1 h = none → unmatched (.readRsp p)) ∧
      (∀ o, s.matchOp 1 h = some o → o.len ≠ hLen h → unmatched (.readRsp p)) ∧
      (∀ o m t, s.matchOp 1 h = some o → o.len = hLen h → o.mover = some m → (s.mover m).cur = some t →
        (s.mover m).fault = none → (s.mover m).wait = .peer o.tag → s.moverRuns m = true → hPmap h = 0 → x.data.length % 64 = 0 →
        mvDstSpace t.bytes = 1 →
        let a := t.dstAt (s.mover m).restart
        a % 4 = 0 → s.rangeAll Region.hostOk a x.data.length = true → s.stackHeld a = false →
        ∃ u, exec (.readRsp p) s = .next u ∧ ended u o ∧ u.mem.read a x.data.length = x.data ∧
          ∀ k, k < a ∨ a + x.data.length ≤ k → u.mem.read k 1 = s.mem.read k 1)) ∧
    (∀ i ∈ [(3, Instr.msgWrite p), (5, .atomicAdd p)], s.headMsg p i.1 = some (vc, x) →
      (s.jobAway = true → exec i.2 s = .next s) ∧
      (s.jobAway = false → s.job.cur = none → naks i.2) ∧
      (s.jobAway = false → s.job.cur.isSome = true → s.peerHeld p (hAddr h) = true → exec i.2 s = .next s) ∧
      (s.jobAway = false → s.job.cur.isSome = true → s.peerHeld p (hAddr h) = false →
        (s.peerTarget p (hAddr h)).1 = none → ∃ u, exec i.2 s = .next u ∧ left u ∧ (u.port p).nakCnt = satAdd (s.port p).nakCnt 1 ∧ u.mem = s.mem)) ∧
    (∀ a s1, s.jobAway = false → s.job.cur.isSome = true → s.peerTarget p (hAddr h) = (some a, s1) →
      s.stackHeld a = false → hPmap h = 0 →
      (s.headMsg p 3 = some (vc, x) → answers 4 → x.data.length % 64 = 0 → ∃ u, exec (.msgWrite p) s = .next u ∧ left u ∧
        u.mem.read a x.data.length = x.data ∧
        ∀ k, k < a ∨ a + x.data.length ≤ k → u.mem.read k 1 = s.mem.read k 1) ∧
      (s.headMsg p 5 = some (vc, x) → answers 6 → ∃ u, exec (.atomicAdd p) s = .next u ∧ left u ∧
        u.mem.read a 8 = toLe ((leNat (s.mem.read a 8) + fieldAt x.data 0 8) % 2 ^ 64) 8 ∧
        ∀ k, k < a ∨ a + 8 ≤ k → u.mem.read k 1 = s.mem.read k 1)) ∧
    (s.headMsg p 4 = some (vc, x) →
      (s.matchOp 3 h = none → unmatched (.writeAck p)) ∧
      (∀ o, s.matchOp 3 h = some o → ∃ u, exec (.writeAck p) s = .next u ∧ ended u o ∧ u.mem = s.mem)) ∧
    (s.headMsg p 6 = some (vc, x) →
      (s.matchOp 5 h = none → unmatched (.atomicRsp p)) ∧
      (∀ o, s.matchOp 5 h = some o → o.away = true → ∃ u, exec (.atomicRsp p) s = .next u ∧ left u ∧ u.mem = s.mem ∧
        u.fab.ops = s.fab.ops.map fun y =>
          if y.tag = o.tag then { o with answer := some (x.data.take 8, bitOf (hPmap h) 0) } else y) ∧
      (∀ o m t c s1, s.matchOp 5 h = some o → o.away = false → o.mover = some m → (s.mover m).cur = some t →
        (s.mover m).coll = some c → (s.mover m).fault = none → s.moverRuns m = true → bitOf (hPmap h) 0 = false →
        s.jobPut m t c.src (x.data.take 8) (List.replicate 8 false) = .ok () s1 →
        ∃ u, exec (.atomicRsp p) s = .next u ∧ ended u o ∧ u.mem = s1.mem)) ∧
    (s.headMsg p 0xB = some (vc, x) →
      (s.fab.mgmtIn = false → naks (.mgmt p)) ∧
      (s.fab.mgmtIn = true → ∃ u, exec (.mgmt p) s = .next u ∧ left u ∧ u.fab.mgmtIn' = s.fab.mgmtIn' ++ [x] ∧
        u = { s with fab := u.fab })) ∧
    (s.headMsg p 0xC = some (vc, x) →
      (s.matchOp 0xB h = none → unmatched (.mgmtRsp p)) ∧
      (∀ o, s.matchOp 0xB h = some o → ∃ u, exec (.mgmtRsp p) s = .next u ∧ ended u o ∧
        u.fab.mgmtIn' = s.fab.mgmtIn' ++ [x] ∧ u = { s with fab := u.fab })) ∧
    (firstMsg (fun _ m => hDst m.hdr != s.moduleId) [] (s.port p).rxMsgs = some (vc, x) →
      ∀ d dir q, s.nextHop (hDst h) = some (d, dir) → s.pickPort dir (hType h) (hAddr h) = some q →
        let turned := (s.portDir p).map (· / 2) ≠ some d
        let cls := if s.crossesDateline d dir then 1 else if turned ∨ vcOf (hType h) 0 = vc then 0 else 1
        let out := vcOf (hType h) cls
        q < 8 → (s.port p).passing.getD vc none = none → (s.port q).fenced = false →
        ∃ u, exec (.messageForward p) s = .next u ∧ left u ∧ u = { s with fab := u.fab } ∧
          ((s.port q).state ≠ 4 → out < (s.port q).txQ.length →
            (u.port q).txQ.getD out [] = (s.port q).txQ.getD out [] ++ [h ++ x.data]))

/-- A NAK for an outstanding operation of a mover, or for a message of its collective, leaves the mover holding fault
cause 0x1D, host-resolved as XL_MALFORMED is, with the NAK code, the refused address and space 3; and where its event
ring has room, a FAULT record joins that ring with the code at byte 0x31, the address in FADDR and 3 in SPACE.
Completes: nak. (R353) -/
def Obligations.PeerNakRaises : Prop :=
  ∀ (p : PortId) (vc : Nat) (x : Msg) (m : MoverId) (t : MTask) (s : State), s.shaped = true →
    s.variant.hasPort p = true → s.regionUp 3 = true → s.headMsg p 0xD = some (vc, x) → (s.mover m).cur = some t →
    (s.mover m).fault = none →
    let found := s.fab.ops.find? fun o => o.tag.toNat == hTag x.hdr && o.addr.toNat == hAddr x.hdr
    (∃ o, found = some o ∧ o.mover = some m ∧ o.away = false) ∨ (found = none ∧ s.nakedColl x.hdr = some m) →
    hostResolved 0x1D = hostResolved 0x02 ∧
    ∃ u f, exec (.nak p) s = .next u ∧ (u.mover m).fault = some f ∧ f.cause = 0x1D ∧ f.host = hostResolved 0x02 ∧
      f.nak.toNat = hFlags x.hdr ∧ f.faddr.toNat = hAddr x.hdr ∧ f.space = 3 ∧ (u.mover m).cur = some t ∧ u.mem = s.mem ∧
      (∀ q ∈ s.destinations 0x20 t.owner, (s.ring q).evq.length < 64 → ∃ r, (u.ring q).evq = (s.ring q).evq ++ [r] ∧
        r.kind = 0x20 ∧ r.src = BitVec.ofNat 16 (srcMover m) ∧ fieldAt r.body 0 2 = 0x1D ∧ fieldAt r.body 0x11 1 = hFlags x.hdr ∧
        fieldAt r.body 8 8 = hAddr x.hdr ∧ fieldAt r.body 0x10 1 = 3)

/-- POOL_SET takes a good table and clears the marks, and is BUSY with a context open. OPEN opens a context once.
CLOSE drops its reference marks and keeps OUT; RELEASE clears OUT in the buffers named that have it and returns them;
FLUSH sets OUT in every picture that waits. A frame coded, or a unit decoded, completes its descriptor with what the
codec gives, and moves its context on; a pipeline without a free buffer holds and counts once, or completes BUSY; one
that holds goes on with POOL_WAIT. An encode list runs descriptor by descriptor after the job's last step and ends
with CLOSE. A paced context starts no frame before its time. Completes: encodeList, poolSet, codecOpen, encFrame,
decUnit, flush, release, codecClose, framePacing, poolWait. (R379, R380, R382, R383, R384, R385, R392, R394, R396,
R397, R398, R401) -/
def Obligations.CodecsRun : Prop :=
  (∀ (ring : RingId) (p : Posted) (rest : List Posted) (host : HostData) (s : State), s.shaped = true →
    18 ≤ ring.val → ring.val ≤ 21 →
    let e := codecOf ring
    s.variant.hasCodec e = true → s.codecUp e = true → (s.ring ring).posted = p :: rest → (s.ring ring).canTake = true →
    s.completionHeld ring = false → (encRing ring = true → (s.codec e).list = none) →
    let d := p.bytes
    let i := cCtx d
    let taken := s.modRing ring fun g => { g with posted := rest, inHand := g.inHand + 1 }
    let ends := fun (c : Instr) (u : State) (status res0 : Nat) => exec c s = .next (u.complete ring d status 0 res0)
    let inCodec := fun (u : State) => u = taken.modCodec e fun _ => u.codec e
    (dOpc d = 1 →
      let n := fieldAt d 0x28 1
      let a := fieldAt d 0x20 8
      ((s.codec e).ctxs.any (·.isSome) = true → ends (.poolSet ring) taken 9 0) ∧
      ((s.codec e).ctxs.any (·.isSome) = false → s.rangeAll Region.hostOk a (16 * n) = false →
        ends (.poolSet ring) taken 1 0) ∧
      ((s.codec e).ctxs.any (·.isSome) = false → s.rangeAll Region.hostOk a (16 * n) = true → s.stackHeld a = true →
        exec (.poolSet ring) s = .next s) ∧
      ((s.codec e).ctxs.any (·.isSome) = false → s.rangeAll Region.hostOk a (16 * n) = true → s.stackHeld a = false →
        s.mem.flawed a (16 * n) = [] →
        let table := s.mem.read a (16 * n)
        let read := (s.touchRows a (16 * n)).modRing ring fun g => { g with posted := rest, inHand := g.inHand + 1 }
        (s.poolOk table n = false → ends (.poolSet ring) read 1 0) ∧
        (s.poolOk table n = true → ∃ u, ends (.poolSet ring) u 0 0 ∧ u = read.modCodec e (fun _ => u.codec e) ∧
          (u.codec e).pool = (List.range n).map (poolEntry table) ∧ (∀ b, (u.codec e).mark b = 0)))) ∧
    (dOpc d = 2 → i < (s.codec e).ctxs.length →
      (((s.codec e).ctx i).isSome = true → ends (.codecOpen ring) taken 0xE 0) ∧
      ((s.codec e).ctx i = none →
        let owner := Owner.desc ring d
        let none' : HostData := { cells := [], status := .ok }
        (∀ s1, s.openCtx e ring owner false none' d = .bad s1 → ∃ u, ends (.codecOpen ring) u 1 0 ∧
          u.codecs = s.codecs ∧ u.mem = s.mem) ∧
        (∀ y s1, s.openCtx e ring owner false none' d = .ok y s1 → ∃ u, ends (.codecOpen ring) u 0 0 ∧
          (u.codec e).ctx i = some y ∧ y.ring = ring ∧ y.codec = fieldAt d 0x21 1 ∧ y.frames = 0 ∧
          (∀ k, k ≠ i → (u.codec e).ctx k = (s.codec e).ctx k) ∧ (u.codec e).marks = (s.codec e).marks ∧ u.mem = s.mem))) ∧
    ((s.codec e).openOn i ring = none →
      (dOpc d = 3 → (s.codec e).encHeld = false → ends (.encFrame ring host) taken 1 0) ∧
      (dOpc d = 4 → (s.codec e).decHeld = false → ends (.decUnit ring host) taken 1 0) ∧
      (dOpc d = 5 → ends (.flush ring) taken 1 0) ∧ (dOpc d = 7 → ends (.codecClose ring) taken 1 0)) ∧
    (dOpc d = 6 → (s.codec e).marks.length = 32 →
      let mask := fieldAt d 0x20 4
      let hit := (List.range 32).filter fun b => bitOf mask b && mkOut ((s.codec e).mark b)
      ∃ u, ends (.release ring) u 0 (hit.map fun b => 2 ^ b).sum ∧ inCodec u ∧
        ∀ b < 32, mkOut ((u.codec e).mark b) = (mkOut ((s.codec e).mark b) && !bitOf mask b) ∧
          (bitOf mask b = false → (u.codec e).mark b = (s.codec e).mark b)) ∧
    (∀ y, (s.codec e).openOn i ring = some y → (s.codec e).marks.length = 32 →
      (dOpc d = 5 → ∃ (u : State) (res0 : Nat) (ext : List Byte), exec (.flush ring) s = .next (u.complete ring d 0 0 res0 ext) ∧ inCodec u ∧
        (u.codec e).ctx i = some { y with waiting := [] } ∧ bitsOf res0 8 8 = min 16 y.waiting.length ∧
        ∀ b < 32, mkOut ((u.codec e).mark b) = (mkOut ((s.codec e).mark b) || y.waiting.contains b)) ∧
      (dOpc d = 7 → ∃ u, ends (.codecClose ring) u 0 0 ∧ inCodec u ∧ (u.codec e).ctx i = none ∧
        ∀ b < 32, mkOut ((u.codec e).mark b) = mkOut ((s.codec e).mark b) ∧
          (mkOwned ((s.codec e).mark b) = true → mkCtx ((s.codec e).mark b) = i →
            mkRef ((u.codec e).mark b) = 0 ∧ mkOwned ((u.codec e).mark b) = false)) ∧
      (dOpc d = 3 → encRing ring = true → (s.codec e).encHeld = false →
        let framed := s.encodeFrame e y d host (.desc ring d) false
        (framed = .wait → exec (.encFrame ring host) s = .next s) ∧
        (epPace y.param ≠ 0 → 0 < y.frames → y.paced = false → framed = .wait) ∧
        (framed = .noBuffer → ∃ u, exec (.encFrame ring host) s = .next u ∧ (u.codec e).encHeld = true ∧
          (u.codec e).poolWait = satAdd (s.codec e).poolWait 1 ∧ u = s.modCodec e fun _ => u.codec e) ∧
        (framed = .busy → ∃ u, ends (.encFrame ring host) u 9 0 ∧ (u.codec e).ctx i = some y ∧ u.mem = s.mem) ∧
        (∀ res0 ext n s1, framed = .ok res0 ext n s1 → ∃ (u : State) (z : Ctx), exec (.encFrame ring host) s =
            .next (u.complete ring d 0 0 res0 ext) ∧ (u.codec e).ctx i = some z ∧ z.frames = y.frames + 1 ∧
          z.paced = false ∧ z.param = y.param ∧ z.ring = ring ∧ (u.ring ring).posted = rest ∧ u.mem = s1.mem)) ∧
      (dOpc d = 4 → encRing ring = false → (s.codec e).decHeld = false →
        let decoded := s.decodeUnit e y d host (.desc ring d)
        (decoded = .wait → exec (.decUnit ring host) s = .next s) ∧
        (decoded = .noBuffer → (s.codec e).mayFree = true → ∃ u, exec (.decUnit ring host) s = .next u ∧
          (u.codec e).decHeld = true ∧ (u.codec e).poolWait = satAdd (s.codec e).poolWait 1 ∧
          u = s.modCodec e fun _ => u.codec e) ∧
        (decoded = .noBuffer → (s.codec e).mayFree = false → ∃ u, ends (.decUnit ring host) u 9 0 ∧
          (u.codec e).ctx i = some y ∧ u.mem = s.mem) ∧
        (∀ res0 ext s1, decoded = .done 0 res0 0 ext s1 → ∃ (u : State) (z : Ctx), exec (.decUnit ring host) s =
            .next (u.complete ring d 0 0 res0 ext) ∧ (u.codec e).ctx i = some z ∧ z.frames = y.frames + 1 ∧
          (u.ring ring).posted = rest ∧ u.mem = s1.mem)))) ∧
  (∀ (c : CodecId) (ctx : Fin 4) (s : State), s.shaped = true → s.variant.hasCodec c = true → s.regionUp 3 = true →
    (s.codec c).ctxs.length = 4 → ∃ u, exec (.framePacing c ctx) s = .next u ∧
      (u.codec c).ctx ctx = ((s.codec c).ctx ctx).map (fun x => { x with paced := true }) ∧
      (∀ k : Fin 4, k ≠ ctx → (u.codec c).ctx k = (s.codec c).ctx k) ∧ u = s.modCodec c fun _ => u.codec c) ∧
  (∀ (c : CodecId) (host : HostData) (p : Posted) (rest : List Posted) (y : Ctx) (s : State), s.shaped = true →
    s.variant.hasCodec c = true → s.codecUp c = true →
    ((s.codec c).encHeld = false → exec (.poolWait c true host) s = .next s) ∧
    ((s.codec c).decHeld = false → exec (.poolWait c false host) s = .next s) ∧
    (let ring : RingId := Fin.ofNat 66 (18 + 2 * c.val)
     (s.ring ring).posted = p :: rest → (s.ring ring).canTake = true → s.completionHeld ring = false →
     dOpc p.bytes = 3 → (s.codec c).list = none →
     (s.codec c).openOn (cCtx p.bytes) ring = some y → (s.codec c).encHeld = true →
     let framed := s.encodeFrame c y p.bytes host (.desc ring p.bytes) false
     (framed = .noBuffer → exec (.poolWait c true host) s = .next s) ∧
     (∀ res0 ext n s1, framed = .ok res0 ext n s1 → ∃ u : State, exec (.poolWait c true host) s =
       .next (u.complete ring p.bytes 0 0 res0 ext) ∧ (u.codec c).encHeld = false ∧ (u.ring ring).posted = rest ∧
       u.mem = s1.mem))) ∧
  (∀ (host : HostData) (j : Job) (s : State), s.shaped = true → s.mgrUp = true → s.job.cur = some j →
    (j.phase ≠ .encoding → exec (.encodeList host) s = .next s) ∧
    (j.phase = .encoding → j.ending = none → j.preempt = none → j.signalled = false → s.leadOk = true →
      (∀ e ds s1, s.listEngine = none → s.readEncList host = .ok e ds s1 → e < 2 → s1.isFenced (srcCodec e) = false →
        (s1.codec e).encHeld = false → (s1.codec e).ctx (cCtx (ds.headD [])) = none → ∃ u, exec (.encodeList host) s = .next u ∧
          (u.codec e).list = some { descs := ds } ∧ u.mem = s.mem) ∧
      (∀ e l d, s.listEngine = some e → s.codecUp e = true → (s.codec e).encHeld = false → (s.codec e).list = some l →
        l.descs[l.next]? = some d →
        (∀ y s1, dOpc d = 2 → cCtx d < (s.codec e).ctxs.length → (s.codec e).ctx (cCtx d) = none →
          s.openCtx e (Fin.ofNat 66 (18 + 2 * e)) (.desc 0 j.posted.bytes) true host d = .ok y s1 →
          ∃ u, exec (.encodeList host) s = .next u ∧ (u.codec e).ctx (cCtx d) = some y ∧
            (u.codec e).list = some { l with next := l.next + 1 } ∧ u.mem = s.mem) ∧
        (∀ y res0 ext n s1, dOpc d = 3 → (s.codec e).ctx (cCtx d) = some y →
          s.encodeFrame e y d host (.desc 0 j.posted.bytes) true = .ok res0 ext n s1 →
          ∃ u, exec (.encodeList host) s = .next u ∧ u.mem = s1.mem ∧
            (u.codec e).list = some { l with next := l.next + 1, frames := l.frames + 1, bytes := l.bytes + n }) ∧
        (dOpc d = 7 → ∃ u k v, exec (.encodeList host) s = .next u ∧ (u.codec e).list = none ∧ u.job.cur = some k ∧
          k.ending = some v ∧ v.status = BitVec.ofNat 16 j.goodEnd.status.toNat ∧ u.mem = s.mem))) ∧
    (j.phase = .encoding → j.ending.isSome = true → ∀ e, s.listEngine = some e →
      ∃ u, exec (.encodeList host) s = .next u ∧ (u.codec e).list = none ∧ u.job = s.job ∧ u.mem = s.mem))
end

