-- ==== Sys2Proof/Laws/Tables.lean ====
section
/-! SUPPORT. Lists by number and keyed tables: what one change of an entry does, and that it keeps the canonical form. -/

namespace Sys2Proof.Laws

open Sys2Proof.Machine

/-! ### Entries by number -/

@[simp] theorem modifyNth_length {α : Type} (f : α → α) (l : List α) (i : Nat) : (modifyNth f l i).length = l.length := by
  induction l generalizing i with
  | nil => simp [modifyNth]
  | cons a as ih => cases i <;> simp [modifyNth, ih]

theorem modifyNth_getElem? {α : Type} (f : α → α) (l : List α) (i j : Nat) :
    (modifyNth f l i)[j]? = if i = j then l[j]?.map f else l[j]? := by
  induction l generalizing i j with
  | nil => simp [modifyNth]
  | cons a as ih => cases i <;> cases j <;> simp [modifyNth, ih]

theorem modifyNth_getD_same {α : Type} (f : α → α) (l : List α) (i : Nat) (d : α) (h : i < l.length) :
    (modifyNth f l i).getD i d = f (l.getD i d) := by
  rw [List.getD_eq_getElem?_getD, modifyNth_getElem?]
  simp [h]

theorem modifyNth_getD_other {α : Type} (f : α → α) (l : List α) (i j : Nat) (d : α) (h : i ≠ j) :
    (modifyNth f l i).getD j d = l.getD j d := by
  rw [List.getD_eq_getElem?_getD, modifyNth_getElem?, if_neg h, List.getD_eq_getElem?_getD]

/-- A change that keeps an entry keeps the list. -/
theorem modifyNth_fixed {α : Type} (f : α → α) (l : List α) (i : Nat) (d : α) (h : f (l.getD i d) = l.getD i d) :
    modifyNth f l i = l := by
  induction l generalizing i with
  | nil => simp [modifyNth]
  | cons a as ih => cases i <;> simp_all [modifyNth]

/-! ### Keyed tables -/

theorem tableOk_cons {α : Type} [DecidableEq α] (d : α) (k : Nat) (v : α) (t : List (Nat × α)) :
    tableOk d ((k, v) :: t) = true ↔ v ≠ d ∧ (∀ x ∈ t.head?, k < x.1) ∧ tableOk d t = true := by
  cases t with
  | nil => simp [tableOk]
  | cons x t => obtain ⟨k', v'⟩ := x; simp [tableOk, and_assoc]

theorem tableOk_tail {α : Type} [DecidableEq α] {d : α} {x : Nat × α} {t : List (Nat × α)}
    (h : tableOk d (x :: t) = true) : tableOk d t = true := ((tableOk_cons d x.1 x.2 t).1 h).2.2

/-- A key at or below the first key of a canonical table has the default in its tail. -/
theorem look_below {α : Type} [DecidableEq α] (d : α) (t : List (Nat × α)) (k key : Nat) (v : α)
    (h : tableOk d ((k, v) :: t) = true) (hk : key ≤ k) : look d t key = d := by
  induction t generalizing k v with
  | nil => rfl
  | cons x t ih =>
    obtain ⟨k', v'⟩ := x
    obtain ⟨-, h2, h3⟩ := (tableOk_cons _ _ _ _).1 h
    have h4 : k < k' := h2 (k', v') (by simp)
    have h5 : k' ≠ key := by omega
    simp only [look, if_neg h5]
    exact ih k' v' h3 (by omega)

/-- Storing an entry keeps the canonical form. -/
theorem store_ok {α : Type} [DecidableEq α] (d : α) (t : List (Nat × α)) (key : Nat) (v : α)
    (h : tableOk d t = true) : tableOk d (store d t key v) = true ∧
      ∀ k w, tableOk d ((k, w) :: t) = true → k < key → tableOk d ((k, w) :: store d t key v) = true := by
  induction t with
  | nil =>
    constructor
    · unfold store; split <;> simp_all [tableOk]
    · intro k w hw hk
      unfold store
      split
      · exact hw
      · simp_all [tableOk]
  | cons x t ih =>
    obtain ⟨k', v'⟩ := x
    obtain ⟨h1, h2, h3⟩ := (tableOk_cons _ _ _ _).1 h
    have ih := ih h3
    have key_case : ∀ k w, w ≠ d → k < key → k < k' → tableOk d (store d ((k', v') :: t) key v) = true →
        tableOk d ((k, w) :: store d ((k', v') :: t) key v) = true := by
      intro k w hw hk hk' hs
      refine (tableOk_cons _ _ _ _).2 ⟨hw, ?_, hs⟩
      intro x hx
      simp only [store] at hx
      split at hx
      · split at hx
        · simp at hx; subst hx; exact hk'
        · simp at hx; subst hx; exact hk
      · split at hx
        · split at hx
          · have := h2 x hx; omega
          · simp at hx; subst hx; exact hk
        · simp at hx; subst hx; exact hk'
    have main : tableOk d (store d ((k', v') :: t) key v) = true := by
      simp only [store]
      split
      · split
        · exact h
        · refine (tableOk_cons _ _ _ _).2 ⟨‹_›, ?_, h⟩
          intro x hx; simp at hx; subst hx; assumption
      · split
        · split
          · exact h3
          · refine (tableOk_cons _ _ _ _).2 ⟨‹_›, ?_, h3⟩
            intro x hx; have := h2 x hx; omega
        · exact ih.2 k' v' h (by omega)
    refine ⟨main, fun k w hw hk => ?_⟩
    obtain ⟨g1, g2, -⟩ := (tableOk_cons _ _ _ _).1 hw
    exact key_case k w g1 hk (g2 (k', v') (by simp)) main

/-- What a table answers after a store. -/
theorem look_store {α : Type} [DecidableEq α] (d : α) (t : List (Nat × α)) (key k : Nat) (v : α)
    (h : tableOk d t = true) : look d (store d t key v) k = if k = key then v else look d t k := by
  induction t with
  | nil =>
    unfold store
    by_cases e : k = key
    · subst e; split <;> simp_all [look]
    · have e' : key ≠ k := fun x => e x.symm
      split <;> simp [look, e']
  | cons x t ih =>
    obtain ⟨k', v'⟩ := x
    have h3 := tableOk_tail h
    have ih := ih h3
    simp only [store]
    split
    · rename_i hlt
      have hd : look d ((k', v') :: t) key = d := by
        have e : k' ≠ key := by omega
        simp only [look, if_neg e]
        exact look_below d t k' key v' h (by omega)
      split
      · by_cases e : k = key
        · subst e; simp_all
        · simp [e]
      · by_cases e : k = key
        · subst e; simp [look]
        · have e' : key ≠ k := fun x => e x.symm
          simp [look, e, e']
    · split
      · rename_i _ he
        subst he
        have hd : look d t key = d := look_below d t key key v' h (by omega)
        split
        · by_cases e : k = key
          · subst e; simp_all
          · have e' : key ≠ k := fun x => e x.symm
            simp [look, e, e']
        · by_cases e : k = key
          · subst e; simp [look]
          · have e' : key ≠ k := fun x => e x.symm
            simp [look, e, e']
      · rename_i hn hne
        by_cases e : k' = k
        · subst e
          have : ¬ k' = key := fun x => hne x.symm
          simp [look, this]
        · simp only [look, if_neg e]
          exact ih

end Sys2Proof.Laws
end

