-- ==== Sys2Proof/Laws/Memory.lean ====
section
/-! SUPPORT. Memory: every operation keeps the canonical form, a read after a write, and what a write leaves alone. -/

namespace Sys2Proof.Laws

open Sys2Proof.Machine

theorem wf_iff (m : Memory) : m.wf = true ↔ tableOk 0 m.cells = true ∧ tableOk 0 m.synd = true := by
  simp [Memory.wf]

theorem empty_wf : ({} : Memory).wf = true := by decide

theorem reset_mem_wf : State.reset.mem.wf = true := by decide

/-! ### The canonical form -/

theorem setByte_wf (m : Memory) (a : Nat) (b : Byte) (h : m.wf = true) : (m.setByte a b).wf = true := by
  rw [wf_iff] at h ⊢
  exact ⟨(store_ok 0 _ a b h.1).1, h.2⟩

theorem setSyn_wf (m : Memory) (w : Nat) (y : BitVec 7) (h : m.wf = true) : (m.setSyn w y).wf = true := by
  rw [wf_iff] at h ⊢
  exact ⟨h.1, (store_ok 0 _ w y h.2).1⟩

theorem setBytes_wf (m : Memory) (a : Nat) (bs : List Byte) (h : m.wf = true) : (m.setBytes a bs).wf = true := by
  induction bs generalizing m a with
  | nil => exact h
  | cons b bs ih => exact ih _ _ (setByte_wf m a b h)

theorem mergeWord_wf (m : Memory) (a : Nat) (bs : List Byte) (p : Bool) (h : m.wf = true) :
    (m.mergeWord a bs p).wf = true := by
  unfold Memory.mergeWord
  refine setSyn_wf _ _ _ (setBytes_wf _ _ _ ?_)
  split
  · exact h
  · exact setBytes_wf _ _ _ h

theorem writeFuel_wf (p : Bool) (n : Nat) (m : Memory) (a : Nat) (bs : List Byte) (h : m.wf = true) :
    (Memory.writeFuel p n m a bs).wf = true := by
  induction n generalizing m a bs with
  | zero => exact h
  | succ n ih =>
    unfold Memory.writeFuel
    split
    · exact h
    · exact ih _ _ _ (mergeWord_wf _ _ _ _ h)

theorem write_wf (m : Memory) (a : Nat) (bs : List Byte) (p : Bool) (h : m.wf = true) : (m.write a bs p).wf = true :=
  writeFuel_wf _ _ _ _ _ h

theorem writeMarked_wf (ps : List Bool) (m : Memory) (a : Nat) (bs : List Byte) (h : m.wf = true) :
    (Memory.writeMarked ps m a bs).wf = true := by
  induction ps generalizing m a bs with
  | nil => exact h
  | cons p ps ih =>
    unfold Memory.writeMarked
    split
    · exact h
    · exact ih _ _ _ (mergeWord_wf _ _ _ _ h)

theorem upset_wf (m : Memory) (w : Nat) (f : BitVec 39) (h : m.wf = true) : (m.upset w f).wf = true :=
  setSyn_wf _ _ _ (setBytes_wf _ _ _ h)

/-! ### One byte and one syndrome -/

@[simp] theorem setSyn_byte (m : Memory) (w a : Nat) (y : BitVec 7) : (m.setSyn w y).byte a = m.byte a := rfl
@[simp] theorem setByte_syn (m : Memory) (a w : Nat) (b : Byte) : (m.setByte a b).syn w = m.syn w := rfl

theorem setByte_byte (m : Memory) (a x : Nat) (b : Byte) (h : m.wf = true) :
    (m.setByte a b).byte x = if x = a then b else m.byte x :=
  look_store 0 m.cells a x b ((wf_iff m).1 h).1

theorem setSyn_syn (m : Memory) (w x : Nat) (y : BitVec 7) (h : m.wf = true) :
    (m.setSyn w y).syn x = if x = w then y else m.syn x :=
  look_store 0 m.synd w x y ((wf_iff m).1 h).2

@[simp] theorem setBytes_syn (m : Memory) (a w : Nat) (bs : List Byte) : (m.setBytes a bs).syn w = m.syn w := by
  induction bs generalizing m a with
  | nil => rfl
  | cons b bs ih => exact ih _ _

/-- A byte after bytes are stored: the one stored there, else the one before. -/
theorem setBytes_byte (m : Memory) (a x : Nat) (bs : List Byte) (h : m.wf = true) :
    (m.setBytes a bs).byte x = if a ≤ x ∧ x < a + bs.length then bs.getD (x - a) 0 else m.byte x := by
  induction bs generalizing m a with
  | nil =>
    have : ¬ (a ≤ x ∧ x < a + ([] : List Byte).length) := by simp
    rw [if_neg this]; rfl
  | cons b bs ih =>
    have e := ih (m.setByte a b) (a + 1) (setByte_wf m a b h)
    have e1 : (m.setBytes a (b :: bs)).byte x = ((m.setByte a b).setBytes (a + 1) bs).byte x := rfl
    rw [e1, e, setByte_byte m a x b h]
    by_cases h1 : x = a
    · subst h1
      rw [if_neg (by omega), if_pos (by simp)]
      simp
    · by_cases h2 : a + 1 ≤ x ∧ x < a + 1 + bs.length
      · have h3 : a ≤ x ∧ x < a + (b :: bs).length := by simp; omega
        have h4 : x - a = (x - (a + 1)) + 1 := by omega
        rw [if_pos h2, if_pos h3, h4, List.getD_cons_succ]
      · have h3 : ¬ (a ≤ x ∧ x < a + (b :: bs).length) := by simp; omega
        rw [if_neg h2, if_neg h3, if_neg h1]

/-! ### Writes leave other words alone -/

theorem stored_length (m : Memory) (w : Nat) : (m.stored w).length = 4 := by simp [Memory.stored]

theorem toLe_length (n len : Nat) : (toLe n len).length = len := by
  induction len generalizing n with
  | zero => rfl
  | succ len ih => simp [toLe, ih]

theorem deliver_length (m : Memory) (w : Nat) : (m.deliver w).length = 4 := by
  unfold Memory.deliver
  split
  · split
    · exact toLe_length _ _
    · exact stored_length _ _
  · exact stored_length _ _

/-- A write within a word changes no byte and no syndrome of another word. -/
theorem mergeWord_other (m : Memory) (a : Nat) (bs : List Byte) (p : Bool) (h : m.wf = true)
    (hb : bs.length ≤ 4 - a % 4) (x : Nat) (hx : x / 4 ≠ a / 4) :
    (m.mergeWord a bs p).byte x = m.byte x ∧ (m.mergeWord a bs p).syn (x / 4) = m.syn (x / 4) := by
  unfold Memory.mergeWord
  have hout : ∀ n : Memory, n.wf = true → (n.setBytes a bs).byte x = n.byte x := by
    intro n hn
    rw [setBytes_byte n a x bs hn, if_neg (by omega)]
  have hw : (m.setBytes (4 * (a / 4)) (m.deliver (a / 4))).byte x = m.byte x := by
    rw [setBytes_byte m _ x _ h, if_neg (by rw [deliver_length]; omega)]
  have hwf : (m.setBytes (4 * (a / 4)) (m.deliver (a / 4))).wf = true := setBytes_wf _ _ _ h
  constructor
  · rw [setSyn_byte]
    split
    · exact hout m h
    · rw [hout _ hwf]; exact hw
  · rw [setSyn_syn, if_neg hx]
    · rw [setBytes_syn]
      split <;> simp
    · apply setBytes_wf
      split
      · exact h
      · exact hwf

/-- Words that a write does not touch keep bytes and syndrome. -/
theorem writeFuel_other (p : Bool) (n : Nat) (m : Memory) (a : Nat) (bs : List Byte) (h : m.wf = true) (x : Nat)
    (hx : x / 4 < a / 4 ∨ a + bs.length ≤ 4 * (x / 4)) :
    (Memory.writeFuel p n m a bs).byte x = m.byte x ∧ (Memory.writeFuel p n m a bs).syn (x / 4) = m.syn (x / 4) := by
  induction n generalizing m a bs with
  | zero => exact ⟨rfl, rfl⟩
  | succ n ih =>
    unfold Memory.writeFuel
    split
    · exact ⟨rfl, rfl⟩
    · rename_i hne
      have hl : 0 < bs.length := by
        cases bs with
        | nil => simp at hne
        | cons => simp
      have hm := mergeWord_other m a (bs.take (4 - a % 4)) p h (by rw [List.length_take]; omega) x (by omega)
      have hi := ih (m.mergeWord a (bs.take (4 - a % 4)) p) (a + (4 - a % 4)) (bs.drop (4 - a % 4))
        (mergeWord_wf _ _ _ _ h) (by rw [List.length_drop]; omega)
      exact ⟨hi.1.trans hm.1, hi.2.trans hm.2⟩

theorem write_other (m : Memory) (a : Nat) (bs : List Byte) (p : Bool) (h : m.wf = true) (x : Nat)
    (hx : x / 4 < a / 4 ∨ a + bs.length ≤ 4 * (x / 4)) :
    (m.write a bs p).byte x = m.byte x ∧ (m.write a bs p).syn (x / 4) = m.syn (x / 4) :=
  writeFuel_other p _ m a bs h x hx

/-! ### Whole words -/

/-- A whole word written holds the bytes written, with correct check bits or the poison pattern (R225). -/
theorem mergeWord_whole (m : Memory) (a : Nat) (bs : List Byte) (p : Bool) (h : m.wf = true)
    (hb : bs.length = 4) :
    (∀ i, i < 4 → (m.mergeWord a bs p).byte (a + i) = bs.getD i 0) ∧
    (m.mergeWord a bs p).syn (a / 4) = if p then poisonSyn else 0 := by
  unfold Memory.mergeWord
  simp only [hb]
  constructor
  · intro i hi
    rw [setSyn_byte]
    simp only [beq_self_eq_true, if_true]
    rw [setBytes_byte _ _ _ _ h, if_pos (by omega)]
    congr 1; omega
  · rw [setSyn_syn _ _ _ _ (by simpa using setBytes_wf _ _ _ h)]
    simp

/-! ### Memory in the state -/

@[simp] theorem markDirty_mem (s : State) (a n : Nat) : (markDirty s a n).mem = s.mem := by
  unfold markDirty; split <;> rfl

/-- Marking lines dirty changes the courses alone. -/
theorem markDirty_frame (s : State) (a n : Nat) : markDirty s a n = { s with courses := (markDirty s a n).courses } := by
  unfold markDirty; split <;> rfl

@[simp] theorem touchRows_mem (s : State) (a n : Nat) : (s.touchRows a n).mem = s.mem := by
  unfold State.touchRows; split <;> rfl

/-- Opening rows changes the stacks alone. -/
theorem touchRows_frame (s : State) (a n : Nat) : s.touchRows a n = { s with hbm := (s.touchRows a n).hbm } := by
  unfold State.touchRows; split <;> rfl

/-- An access outside HBM opens no row. -/
theorem touchRows_local (s : State) (a n : Nat) (h : 0x10000000000 ≤ a) : s.touchRows a n = s := by
  unfold State.touchRows; rw [if_neg (by omega)]

@[simp] theorem writeMem_mem (s : State) (a : Nat) (bs : List Byte) (p : Bool) :
    (s.writeMem a bs p).mem = s.mem.write a bs p := by
  simp [State.writeMem]

/-- What marks rows and lines: memory as given, the courses' dirty lines and the stacks' rows. -/
theorem mark_frame (s : State) (a n b k : Nat) :
    markDirty (s.touchRows a n) b k =
      { s with courses := (markDirty (s.touchRows a n) b k).courses, hbm := (markDirty (s.touchRows a n) b k).hbm } := by
  unfold markDirty State.touchRows
  split <;> split <;> rfl

/-- A store changes memory, the dirty lines of the courses and the open rows of the stacks, and nothing else. -/
theorem writeMem_frame (s : State) (a : Nat) (bs : List Byte) (p : Bool) :
    s.writeMem a bs p = { s with mem := s.mem.write a bs p, courses := (s.writeMem a bs p).courses,
                                 hbm := (s.writeMem a bs p).hbm } :=
  mark_frame { s with mem := s.mem.write a bs p } a bs.length a bs.length

@[simp] theorem writeMarked_mem (s : State) (a : Nat) (bs : List Byte) (ps : List Bool) :
    (s.writeMarked a bs ps).mem = s.mem.writeMarked ps a bs := by
  simp [State.writeMarked]

theorem writeMarked_frame (s : State) (a : Nat) (bs : List Byte) (ps : List Bool) :
    s.writeMarked a bs ps =
      { s with mem := s.mem.writeMarked ps a bs, courses := (s.writeMarked a bs ps).courses,
               hbm := (s.writeMarked a bs ps).hbm } :=
  mark_frame { s with mem := s.mem.writeMarked ps a bs } a bs.length a bs.length

end Sys2Proof.Laws
end

