-- ==== Sys2Proof/Laws/State.lean ====
section
/-! SUPPORT. One lemma for each field under each update of State, and for each unit under the update of a unit. -/

namespace Sys2Proof.Laws

open Sys2Proof.Machine

/-! ### State.modRing -/

@[simp] theorem modRing_pending (s : State) (r : Nat) (f : Ring → Ring) : (s.modRing r f).pending = s.pending := rfl
@[simp] theorem modRing_variant (s : State) (r : Nat) (f : Ring → Ring) : (s.modRing r f).variant = s.variant := rfl
@[simp] theorem modRing_mem (s : State) (r : Nat) (f : Ring → Ring) : (s.modRing r f).mem = s.mem := rfl
@[simp] theorem modRing_regs (s : State) (r : Nat) (f : Ring → Ring) : (s.modRing r f).regs = s.regs := rfl
@[simp] theorem modRing_hif (s : State) (r : Nat) (f : Ring → Ring) : (s.modRing r f).hif = s.hif := rfl
@[simp] theorem modRing_job (s : State) (r : Nat) (f : Ring → Ring) : (s.modRing r f).job = s.job := rfl
@[simp] theorem modRing_movers (s : State) (r : Nat) (f : Ring → Ring) : (s.modRing r f).movers = s.movers := rfl
@[simp] theorem modRing_engines (s : State) (r : Nat) (f : Ring → Ring) : (s.modRing r f).engines = s.engines := rfl
@[simp] theorem modRing_courses (s : State) (r : Nat) (f : Ring → Ring) : (s.modRing r f).courses = s.courses := rfl
@[simp] theorem modRing_halves (s : State) (r : Nat) (f : Ring → Ring) : (s.modRing r f).halves = s.halves := rfl
@[simp] theorem modRing_hbm (s : State) (r : Nat) (f : Ring → Ring) : (s.modRing r f).hbm = s.hbm := rfl
@[simp] theorem modRing_fab (s : State) (r : Nat) (f : Ring → Ring) : (s.modRing r f).fab = s.fab := rfl
@[simp] theorem modRing_codecs (s : State) (r : Nat) (f : Ring → Ring) : (s.modRing r f).codecs = s.codecs := rfl
@[simp] theorem modRing_pwr (s : State) (r : Nat) (f : Ring → Ring) : (s.modRing r f).pwr = s.pwr := rfl
@[simp] theorem modRing_rel (s : State) (r : Nat) (f : Ring → Ring) : (s.modRing r f).rel = s.rel := rfl
@[simp] theorem modRing_sec (s : State) (r : Nat) (f : Ring → Ring) : (s.modRing r f).sec = s.sec := rfl
@[simp] theorem modRing_mgt (s : State) (r : Nat) (f : Ring → Ring) : (s.modRing r f).mgt = s.mgt := rfl
@[simp] theorem modRing_side (s : State) (r : Nat) (f : Ring → Ring) : (s.modRing r f).side = s.side := rfl
@[simp] theorem modRing_seqs (s : State) (r : Nat) (f : Ring → Ring) : (s.modRing r f).seqs = s.seqs := rfl
@[simp] theorem modRing_free (s : State) (r : Nat) (f : Ring → Ring) : (s.modRing r f).free = s.free := rfl

/-! ### State.modMover -/

@[simp] theorem modMover_pending (s : State) (m : Nat) (f : Mover → Mover) : (s.modMover m f).pending = s.pending := rfl
@[simp] theorem modMover_variant (s : State) (m : Nat) (f : Mover → Mover) : (s.modMover m f).variant = s.variant := rfl
@[simp] theorem modMover_mem (s : State) (m : Nat) (f : Mover → Mover) : (s.modMover m f).mem = s.mem := rfl
@[simp] theorem modMover_regs (s : State) (m : Nat) (f : Mover → Mover) : (s.modMover m f).regs = s.regs := rfl
@[simp] theorem modMover_hif (s : State) (m : Nat) (f : Mover → Mover) : (s.modMover m f).hif = s.hif := rfl
@[simp] theorem modMover_rings (s : State) (m : Nat) (f : Mover → Mover) : (s.modMover m f).rings = s.rings := rfl
@[simp] theorem modMover_job (s : State) (m : Nat) (f : Mover → Mover) : (s.modMover m f).job = s.job := rfl
@[simp] theorem modMover_engines (s : State) (m : Nat) (f : Mover → Mover) : (s.modMover m f).engines = s.engines := rfl
@[simp] theorem modMover_courses (s : State) (m : Nat) (f : Mover → Mover) : (s.modMover m f).courses = s.courses := rfl
@[simp] theorem modMover_halves (s : State) (m : Nat) (f : Mover → Mover) : (s.modMover m f).halves = s.halves := rfl
@[simp] theorem modMover_hbm (s : State) (m : Nat) (f : Mover → Mover) : (s.modMover m f).hbm = s.hbm := rfl
@[simp] theorem modMover_fab (s : State) (m : Nat) (f : Mover → Mover) : (s.modMover m f).fab = s.fab := rfl
@[simp] theorem modMover_codecs (s : State) (m : Nat) (f : Mover → Mover) : (s.modMover m f).codecs = s.codecs := rfl
@[simp] theorem modMover_pwr (s : State) (m : Nat) (f : Mover → Mover) : (s.modMover m f).pwr = s.pwr := rfl
@[simp] theorem modMover_rel (s : State) (m : Nat) (f : Mover → Mover) : (s.modMover m f).rel = s.rel := rfl
@[simp] theorem modMover_sec (s : State) (m : Nat) (f : Mover → Mover) : (s.modMover m f).sec = s.sec := rfl
@[simp] theorem modMover_mgt (s : State) (m : Nat) (f : Mover → Mover) : (s.modMover m f).mgt = s.mgt := rfl
@[simp] theorem modMover_side (s : State) (m : Nat) (f : Mover → Mover) : (s.modMover m f).side = s.side := rfl
@[simp] theorem modMover_seqs (s : State) (m : Nat) (f : Mover → Mover) : (s.modMover m f).seqs = s.seqs := rfl
@[simp] theorem modMover_free (s : State) (m : Nat) (f : Mover → Mover) : (s.modMover m f).free = s.free := rfl

/-! ### State.modEngine -/

@[simp] theorem modEngine_pending (s : State) (e : Nat) (f : Engine → Engine) : (s.modEngine e f).pending = s.pending := rfl
@[simp] theorem modEngine_variant (s : State) (e : Nat) (f : Engine → Engine) : (s.modEngine e f).variant = s.variant := rfl
@[simp] theorem modEngine_mem (s : State) (e : Nat) (f : Engine → Engine) : (s.modEngine e f).mem = s.mem := rfl
@[simp] theorem modEngine_regs (s : State) (e : Nat) (f : Engine → Engine) : (s.modEngine e f).regs = s.regs := rfl
@[simp] theorem modEngine_hif (s : State) (e : Nat) (f : Engine → Engine) : (s.modEngine e f).hif = s.hif := rfl
@[simp] theorem modEngine_rings (s : State) (e : Nat) (f : Engine → Engine) : (s.modEngine e f).rings = s.rings := rfl
@[simp] theorem modEngine_job (s : State) (e : Nat) (f : Engine → Engine) : (s.modEngine e f).job = s.job := rfl
@[simp] theorem modEngine_movers (s : State) (e : Nat) (f : Engine → Engine) : (s.modEngine e f).movers = s.movers := rfl
@[simp] theorem modEngine_courses (s : State) (e : Nat) (f : Engine → Engine) : (s.modEngine e f).courses = s.courses := rfl
@[simp] theorem modEngine_halves (s : State) (e : Nat) (f : Engine → Engine) : (s.modEngine e f).halves = s.halves := rfl
@[simp] theorem modEngine_hbm (s : State) (e : Nat) (f : Engine → Engine) : (s.modEngine e f).hbm = s.hbm := rfl
@[simp] theorem modEngine_fab (s : State) (e : Nat) (f : Engine → Engine) : (s.modEngine e f).fab = s.fab := rfl
@[simp] theorem modEngine_codecs (s : State) (e : Nat) (f : Engine → Engine) : (s.modEngine e f).codecs = s.codecs := rfl
@[simp] theorem modEngine_pwr (s : State) (e : Nat) (f : Engine → Engine) : (s.modEngine e f).pwr = s.pwr := rfl
@[simp] theorem modEngine_rel (s : State) (e : Nat) (f : Engine → Engine) : (s.modEngine e f).rel = s.rel := rfl
@[simp] theorem modEngine_sec (s : State) (e : Nat) (f : Engine → Engine) : (s.modEngine e f).sec = s.sec := rfl
@[simp] theorem modEngine_mgt (s : State) (e : Nat) (f : Engine → Engine) : (s.modEngine e f).mgt = s.mgt := rfl
@[simp] theorem modEngine_side (s : State) (e : Nat) (f : Engine → Engine) : (s.modEngine e f).side = s.side := rfl
@[simp] theorem modEngine_seqs (s : State) (e : Nat) (f : Engine → Engine) : (s.modEngine e f).seqs = s.seqs := rfl
@[simp] theorem modEngine_free (s : State) (e : Nat) (f : Engine → Engine) : (s.modEngine e f).free = s.free := rfl

/-! ### State.modCourse -/

@[simp] theorem modCourse_pending (s : State) (c : Nat) (f : Course → Course) : (s.modCourse c f).pending = s.pending := rfl
@[simp] theorem modCourse_variant (s : State) (c : Nat) (f : Course → Course) : (s.modCourse c f).variant = s.variant := rfl
@[simp] theorem modCourse_mem (s : State) (c : Nat) (f : Course → Course) : (s.modCourse c f).mem = s.mem := rfl
@[simp] theorem modCourse_regs (s : State) (c : Nat) (f : Course → Course) : (s.modCourse c f).regs = s.regs := rfl
@[simp] theorem modCourse_hif (s : State) (c : Nat) (f : Course → Course) : (s.modCourse c f).hif = s.hif := rfl
@[simp] theorem modCourse_rings (s : State) (c : Nat) (f : Course → Course) : (s.modCourse c f).rings = s.rings := rfl
@[simp] theorem modCourse_job (s : State) (c : Nat) (f : Course → Course) : (s.modCourse c f).job = s.job := rfl
@[simp] theorem modCourse_movers (s : State) (c : Nat) (f : Course → Course) : (s.modCourse c f).movers = s.movers := rfl
@[simp] theorem modCourse_engines (s : State) (c : Nat) (f : Course → Course) : (s.modCourse c f).engines = s.engines := rfl
@[simp] theorem modCourse_halves (s : State) (c : Nat) (f : Course → Course) : (s.modCourse c f).halves = s.halves := rfl
@[simp] theorem modCourse_hbm (s : State) (c : Nat) (f : Course → Course) : (s.modCourse c f).hbm = s.hbm := rfl
@[simp] theorem modCourse_fab (s : State) (c : Nat) (f : Course → Course) : (s.modCourse c f).fab = s.fab := rfl
@[simp] theorem modCourse_codecs (s : State) (c : Nat) (f : Course → Course) : (s.modCourse c f).codecs = s.codecs := rfl
@[simp] theorem modCourse_pwr (s : State) (c : Nat) (f : Course → Course) : (s.modCourse c f).pwr = s.pwr := rfl
@[simp] theorem modCourse_rel (s : State) (c : Nat) (f : Course → Course) : (s.modCourse c f).rel = s.rel := rfl
@[simp] theorem modCourse_sec (s : State) (c : Nat) (f : Course → Course) : (s.modCourse c f).sec = s.sec := rfl
@[simp] theorem modCourse_mgt (s : State) (c : Nat) (f : Course → Course) : (s.modCourse c f).mgt = s.mgt := rfl
@[simp] theorem modCourse_side (s : State) (c : Nat) (f : Course → Course) : (s.modCourse c f).side = s.side := rfl
@[simp] theorem modCourse_seqs (s : State) (c : Nat) (f : Course → Course) : (s.modCourse c f).seqs = s.seqs := rfl
@[simp] theorem modCourse_free (s : State) (c : Nat) (f : Course → Course) : (s.modCourse c f).free = s.free := rfl

/-! ### State.modHalf -/

@[simp] theorem modHalf_pending (s : State) (h : Nat) (f : Half → Half) : (s.modHalf h f).pending = s.pending := rfl
@[simp] theorem modHalf_variant (s : State) (h : Nat) (f : Half → Half) : (s.modHalf h f).variant = s.variant := rfl
@[simp] theorem modHalf_mem (s : State) (h : Nat) (f : Half → Half) : (s.modHalf h f).mem = s.mem := rfl
@[simp] theorem modHalf_regs (s : State) (h : Nat) (f : Half → Half) : (s.modHalf h f).regs = s.regs := rfl
@[simp] theorem modHalf_hif (s : State) (h : Nat) (f : Half → Half) : (s.modHalf h f).hif = s.hif := rfl
@[simp] theorem modHalf_rings (s : State) (h : Nat) (f : Half → Half) : (s.modHalf h f).rings = s.rings := rfl
@[simp] theorem modHalf_job (s : State) (h : Nat) (f : Half → Half) : (s.modHalf h f).job = s.job := rfl
@[simp] theorem modHalf_movers (s : State) (h : Nat) (f : Half → Half) : (s.modHalf h f).movers = s.movers := rfl
@[simp] theorem modHalf_engines (s : State) (h : Nat) (f : Half → Half) : (s.modHalf h f).engines = s.engines := rfl
@[simp] theorem modHalf_courses (s : State) (h : Nat) (f : Half → Half) : (s.modHalf h f).courses = s.courses := rfl
@[simp] theorem modHalf_hbm (s : State) (h : Nat) (f : Half → Half) : (s.modHalf h f).hbm = s.hbm := rfl
@[simp] theorem modHalf_fab (s : State) (h : Nat) (f : Half → Half) : (s.modHalf h f).fab = s.fab := rfl
@[simp] theorem modHalf_codecs (s : State) (h : Nat) (f : Half → Half) : (s.modHalf h f).codecs = s.codecs := rfl
@[simp] theorem modHalf_pwr (s : State) (h : Nat) (f : Half → Half) : (s.modHalf h f).pwr = s.pwr := rfl
@[simp] theorem modHalf_rel (s : State) (h : Nat) (f : Half → Half) : (s.modHalf h f).rel = s.rel := rfl
@[simp] theorem modHalf_sec (s : State) (h : Nat) (f : Half → Half) : (s.modHalf h f).sec = s.sec := rfl
@[simp] theorem modHalf_mgt (s : State) (h : Nat) (f : Half → Half) : (s.modHalf h f).mgt = s.mgt := rfl
@[simp] theorem modHalf_side (s : State) (h : Nat) (f : Half → Half) : (s.modHalf h f).side = s.side := rfl
@[simp] theorem modHalf_seqs (s : State) (h : Nat) (f : Half → Half) : (s.modHalf h f).seqs = s.seqs := rfl
@[simp] theorem modHalf_free (s : State) (h : Nat) (f : Half → Half) : (s.modHalf h f).free = s.free := rfl

/-! ### State.modStack -/

@[simp] theorem modStack_pending (s : State) (n : Nat) (f : Stack → Stack) : (s.modStack n f).pending = s.pending := rfl
@[simp] theorem modStack_variant (s : State) (n : Nat) (f : Stack → Stack) : (s.modStack n f).variant = s.variant := rfl
@[simp] theorem modStack_mem (s : State) (n : Nat) (f : Stack → Stack) : (s.modStack n f).mem = s.mem := rfl
@[simp] theorem modStack_regs (s : State) (n : Nat) (f : Stack → Stack) : (s.modStack n f).regs = s.regs := rfl
@[simp] theorem modStack_hif (s : State) (n : Nat) (f : Stack → Stack) : (s.modStack n f).hif = s.hif := rfl
@[simp] theorem modStack_rings (s : State) (n : Nat) (f : Stack → Stack) : (s.modStack n f).rings = s.rings := rfl
@[simp] theorem modStack_job (s : State) (n : Nat) (f : Stack → Stack) : (s.modStack n f).job = s.job := rfl
@[simp] theorem modStack_movers (s : State) (n : Nat) (f : Stack → Stack) : (s.modStack n f).movers = s.movers := rfl
@[simp] theorem modStack_engines (s : State) (n : Nat) (f : Stack → Stack) : (s.modStack n f).engines = s.engines := rfl
@[simp] theorem modStack_courses (s : State) (n : Nat) (f : Stack → Stack) : (s.modStack n f).courses = s.courses := rfl
@[simp] theorem modStack_halves (s : State) (n : Nat) (f : Stack → Stack) : (s.modStack n f).halves = s.halves := rfl
@[simp] theorem modStack_fab (s : State) (n : Nat) (f : Stack → Stack) : (s.modStack n f).fab = s.fab := rfl
@[simp] theorem modStack_codecs (s : State) (n : Nat) (f : Stack → Stack) : (s.modStack n f).codecs = s.codecs := rfl
@[simp] theorem modStack_pwr (s : State) (n : Nat) (f : Stack → Stack) : (s.modStack n f).pwr = s.pwr := rfl
@[simp] theorem modStack_rel (s : State) (n : Nat) (f : Stack → Stack) : (s.modStack n f).rel = s.rel := rfl
@[simp] theorem modStack_sec (s : State) (n : Nat) (f : Stack → Stack) : (s.modStack n f).sec = s.sec := rfl
@[simp] theorem modStack_mgt (s : State) (n : Nat) (f : Stack → Stack) : (s.modStack n f).mgt = s.mgt := rfl
@[simp] theorem modStack_side (s : State) (n : Nat) (f : Stack → Stack) : (s.modStack n f).side = s.side := rfl
@[simp] theorem modStack_seqs (s : State) (n : Nat) (f : Stack → Stack) : (s.modStack n f).seqs = s.seqs := rfl
@[simp] theorem modStack_free (s : State) (n : Nat) (f : Stack → Stack) : (s.modStack n f).free = s.free := rfl

/-! ### State.modPort -/

@[simp] theorem modPort_pending (s : State) (p : Nat) (f : Port → Port) : (s.modPort p f).pending = s.pending := rfl
@[simp] theorem modPort_variant (s : State) (p : Nat) (f : Port → Port) : (s.modPort p f).variant = s.variant := rfl
@[simp] theorem modPort_mem (s : State) (p : Nat) (f : Port → Port) : (s.modPort p f).mem = s.mem := rfl
@[simp] theorem modPort_regs (s : State) (p : Nat) (f : Port → Port) : (s.modPort p f).regs = s.regs := rfl
@[simp] theorem modPort_hif (s : State) (p : Nat) (f : Port → Port) : (s.modPort p f).hif = s.hif := rfl
@[simp] theorem modPort_rings (s : State) (p : Nat) (f : Port → Port) : (s.modPort p f).rings = s.rings := rfl
@[simp] theorem modPort_job (s : State) (p : Nat) (f : Port → Port) : (s.modPort p f).job = s.job := rfl
@[simp] theorem modPort_movers (s : State) (p : Nat) (f : Port → Port) : (s.modPort p f).movers = s.movers := rfl
@[simp] theorem modPort_engines (s : State) (p : Nat) (f : Port → Port) : (s.modPort p f).engines = s.engines := rfl
@[simp] theorem modPort_courses (s : State) (p : Nat) (f : Port → Port) : (s.modPort p f).courses = s.courses := rfl
@[simp] theorem modPort_halves (s : State) (p : Nat) (f : Port → Port) : (s.modPort p f).halves = s.halves := rfl
@[simp] theorem modPort_hbm (s : State) (p : Nat) (f : Port → Port) : (s.modPort p f).hbm = s.hbm := rfl
@[simp] theorem modPort_codecs (s : State) (p : Nat) (f : Port → Port) : (s.modPort p f).codecs = s.codecs := rfl
@[simp] theorem modPort_pwr (s : State) (p : Nat) (f : Port → Port) : (s.modPort p f).pwr = s.pwr := rfl
@[simp] theorem modPort_rel (s : State) (p : Nat) (f : Port → Port) : (s.modPort p f).rel = s.rel := rfl
@[simp] theorem modPort_sec (s : State) (p : Nat) (f : Port → Port) : (s.modPort p f).sec = s.sec := rfl
@[simp] theorem modPort_mgt (s : State) (p : Nat) (f : Port → Port) : (s.modPort p f).mgt = s.mgt := rfl
@[simp] theorem modPort_side (s : State) (p : Nat) (f : Port → Port) : (s.modPort p f).side = s.side := rfl
@[simp] theorem modPort_seqs (s : State) (p : Nat) (f : Port → Port) : (s.modPort p f).seqs = s.seqs := rfl
@[simp] theorem modPort_free (s : State) (p : Nat) (f : Port → Port) : (s.modPort p f).free = s.free := rfl

/-! ### State.modCodec -/

@[simp] theorem modCodec_pending (s : State) (c : Nat) (f : Codec → Codec) : (s.modCodec c f).pending = s.pending := rfl
@[simp] theorem modCodec_variant (s : State) (c : Nat) (f : Codec → Codec) : (s.modCodec c f).variant = s.variant := rfl
@[simp] theorem modCodec_mem (s : State) (c : Nat) (f : Codec → Codec) : (s.modCodec c f).mem = s.mem := rfl
@[simp] theorem modCodec_regs (s : State) (c : Nat) (f : Codec → Codec) : (s.modCodec c f).regs = s.regs := rfl
@[simp] theorem modCodec_hif (s : State) (c : Nat) (f : Codec → Codec) : (s.modCodec c f).hif = s.hif := rfl
@[simp] theorem modCodec_rings (s : State) (c : Nat) (f : Codec → Codec) : (s.modCodec c f).rings = s.rings := rfl
@[simp] theorem modCodec_job (s : State) (c : Nat) (f : Codec → Codec) : (s.modCodec c f).job = s.job := rfl
@[simp] theorem modCodec_movers (s : State) (c : Nat) (f : Codec → Codec) : (s.modCodec c f).movers = s.movers := rfl
@[simp] theorem modCodec_engines (s : State) (c : Nat) (f : Codec → Codec) : (s.modCodec c f).engines = s.engines := rfl
@[simp] theorem modCodec_courses (s : State) (c : Nat) (f : Codec → Codec) : (s.modCodec c f).courses = s.courses := rfl
@[simp] theorem modCodec_halves (s : State) (c : Nat) (f : Codec → Codec) : (s.modCodec c f).halves = s.halves := rfl
@[simp] theorem modCodec_hbm (s : State) (c : Nat) (f : Codec → Codec) : (s.modCodec c f).hbm = s.hbm := rfl
@[simp] theorem modCodec_fab (s : State) (c : Nat) (f : Codec → Codec) : (s.modCodec c f).fab = s.fab := rfl
@[simp] theorem modCodec_pwr (s : State) (c : Nat) (f : Codec → Codec) : (s.modCodec c f).pwr = s.pwr := rfl
@[simp] theorem modCodec_rel (s : State) (c : Nat) (f : Codec → Codec) : (s.modCodec c f).rel = s.rel := rfl
@[simp] theorem modCodec_sec (s : State) (c : Nat) (f : Codec → Codec) : (s.modCodec c f).sec = s.sec := rfl
@[simp] theorem modCodec_mgt (s : State) (c : Nat) (f : Codec → Codec) : (s.modCodec c f).mgt = s.mgt := rfl
@[simp] theorem modCodec_side (s : State) (c : Nat) (f : Codec → Codec) : (s.modCodec c f).side = s.side := rfl
@[simp] theorem modCodec_seqs (s : State) (c : Nat) (f : Codec → Codec) : (s.modCodec c f).seqs = s.seqs := rfl
@[simp] theorem modCodec_free (s : State) (c : Nat) (f : Codec → Codec) : (s.modCodec c f).free = s.free := rfl

/-! ### State.modJob -/

@[simp] theorem modJob_pending (s : State) (f : Job → Job) : (s.modJob f).pending = s.pending := rfl
@[simp] theorem modJob_variant (s : State) (f : Job → Job) : (s.modJob f).variant = s.variant := rfl
@[simp] theorem modJob_mem (s : State) (f : Job → Job) : (s.modJob f).mem = s.mem := rfl
@[simp] theorem modJob_regs (s : State) (f : Job → Job) : (s.modJob f).regs = s.regs := rfl
@[simp] theorem modJob_hif (s : State) (f : Job → Job) : (s.modJob f).hif = s.hif := rfl
@[simp] theorem modJob_rings (s : State) (f : Job → Job) : (s.modJob f).rings = s.rings := rfl
@[simp] theorem modJob_movers (s : State) (f : Job → Job) : (s.modJob f).movers = s.movers := rfl
@[simp] theorem modJob_engines (s : State) (f : Job → Job) : (s.modJob f).engines = s.engines := rfl
@[simp] theorem modJob_courses (s : State) (f : Job → Job) : (s.modJob f).courses = s.courses := rfl
@[simp] theorem modJob_halves (s : State) (f : Job → Job) : (s.modJob f).halves = s.halves := rfl
@[simp] theorem modJob_hbm (s : State) (f : Job → Job) : (s.modJob f).hbm = s.hbm := rfl
@[simp] theorem modJob_fab (s : State) (f : Job → Job) : (s.modJob f).fab = s.fab := rfl
@[simp] theorem modJob_codecs (s : State) (f : Job → Job) : (s.modJob f).codecs = s.codecs := rfl
@[simp] theorem modJob_pwr (s : State) (f : Job → Job) : (s.modJob f).pwr = s.pwr := rfl
@[simp] theorem modJob_rel (s : State) (f : Job → Job) : (s.modJob f).rel = s.rel := rfl
@[simp] theorem modJob_sec (s : State) (f : Job → Job) : (s.modJob f).sec = s.sec := rfl
@[simp] theorem modJob_mgt (s : State) (f : Job → Job) : (s.modJob f).mgt = s.mgt := rfl
@[simp] theorem modJob_side (s : State) (f : Job → Job) : (s.modJob f).side = s.side := rfl
@[simp] theorem modJob_seqs (s : State) (f : Job → Job) : (s.modJob f).seqs = s.seqs := rfl
@[simp] theorem modJob_free (s : State) (f : Job → Job) : (s.modJob f).free = s.free := rfl

/-! ### State.drawn -/

@[simp] theorem drawn_pending (s : State) : (s.drawn).pending = s.pending := rfl
@[simp] theorem drawn_variant (s : State) : (s.drawn).variant = s.variant := rfl
@[simp] theorem drawn_mem (s : State) : (s.drawn).mem = s.mem := rfl
@[simp] theorem drawn_regs (s : State) : (s.drawn).regs = s.regs := rfl
@[simp] theorem drawn_hif (s : State) : (s.drawn).hif = s.hif := rfl
@[simp] theorem drawn_rings (s : State) : (s.drawn).rings = s.rings := rfl
@[simp] theorem drawn_job (s : State) : (s.drawn).job = s.job := rfl
@[simp] theorem drawn_movers (s : State) : (s.drawn).movers = s.movers := rfl
@[simp] theorem drawn_engines (s : State) : (s.drawn).engines = s.engines := rfl
@[simp] theorem drawn_courses (s : State) : (s.drawn).courses = s.courses := rfl
@[simp] theorem drawn_halves (s : State) : (s.drawn).halves = s.halves := rfl
@[simp] theorem drawn_hbm (s : State) : (s.drawn).hbm = s.hbm := rfl
@[simp] theorem drawn_fab (s : State) : (s.drawn).fab = s.fab := rfl
@[simp] theorem drawn_codecs (s : State) : (s.drawn).codecs = s.codecs := rfl
@[simp] theorem drawn_pwr (s : State) : (s.drawn).pwr = s.pwr := rfl
@[simp] theorem drawn_rel (s : State) : (s.drawn).rel = s.rel := rfl
@[simp] theorem drawn_sec (s : State) : (s.drawn).sec = s.sec := rfl
@[simp] theorem drawn_mgt (s : State) : (s.drawn).mgt = s.mgt := rfl
@[simp] theorem drawn_side (s : State) : (s.drawn).side = s.side := rfl
@[simp] theorem drawn_seqs (s : State) : (s.drawn).seqs = s.seqs := rfl

/-! ### State.bumpSeq -/

@[simp] theorem bumpSeq_pending (s : State) (src : Nat) : (s.bumpSeq src).pending = s.pending := rfl
@[simp] theorem bumpSeq_variant (s : State) (src : Nat) : (s.bumpSeq src).variant = s.variant := rfl
@[simp] theorem bumpSeq_mem (s : State) (src : Nat) : (s.bumpSeq src).mem = s.mem := rfl
@[simp] theorem bumpSeq_regs (s : State) (src : Nat) : (s.bumpSeq src).regs = s.regs := rfl
@[simp] theorem bumpSeq_hif (s : State) (src : Nat) : (s.bumpSeq src).hif = s.hif := rfl
@[simp] theorem bumpSeq_rings (s : State) (src : Nat) : (s.bumpSeq src).rings = s.rings := rfl
@[simp] theorem bumpSeq_job (s : State) (src : Nat) : (s.bumpSeq src).job = s.job := rfl
@[simp] theorem bumpSeq_movers (s : State) (src : Nat) : (s.bumpSeq src).movers = s.movers := rfl
@[simp] theorem bumpSeq_engines (s : State) (src : Nat) : (s.bumpSeq src).engines = s.engines := rfl
@[simp] theorem bumpSeq_courses (s : State) (src : Nat) : (s.bumpSeq src).courses = s.courses := rfl
@[simp] theorem bumpSeq_halves (s : State) (src : Nat) : (s.bumpSeq src).halves = s.halves := rfl
@[simp] theorem bumpSeq_hbm (s : State) (src : Nat) : (s.bumpSeq src).hbm = s.hbm := rfl
@[simp] theorem bumpSeq_fab (s : State) (src : Nat) : (s.bumpSeq src).fab = s.fab := rfl
@[simp] theorem bumpSeq_codecs (s : State) (src : Nat) : (s.bumpSeq src).codecs = s.codecs := rfl
@[simp] theorem bumpSeq_pwr (s : State) (src : Nat) : (s.bumpSeq src).pwr = s.pwr := rfl
@[simp] theorem bumpSeq_rel (s : State) (src : Nat) : (s.bumpSeq src).rel = s.rel := rfl
@[simp] theorem bumpSeq_sec (s : State) (src : Nat) : (s.bumpSeq src).sec = s.sec := rfl
@[simp] theorem bumpSeq_mgt (s : State) (src : Nat) : (s.bumpSeq src).mgt = s.mgt := rfl
@[simp] theorem bumpSeq_side (s : State) (src : Nat) : (s.bumpSeq src).side = s.side := rfl
@[simp] theorem bumpSeq_free (s : State) (src : Nat) : (s.bumpSeq src).free = s.free := rfl

/-! ### State.send -/

@[simp] theorem send_pending (s : State) (t : Tlp) : (s.send t).pending = s.pending := rfl
@[simp] theorem send_variant (s : State) (t : Tlp) : (s.send t).variant = s.variant := rfl
@[simp] theorem send_mem (s : State) (t : Tlp) : (s.send t).mem = s.mem := rfl
@[simp] theorem send_regs (s : State) (t : Tlp) : (s.send t).regs = s.regs := rfl
@[simp] theorem send_rings (s : State) (t : Tlp) : (s.send t).rings = s.rings := rfl
@[simp] theorem send_job (s : State) (t : Tlp) : (s.send t).job = s.job := rfl
@[simp] theorem send_movers (s : State) (t : Tlp) : (s.send t).movers = s.movers := rfl
@[simp] theorem send_engines (s : State) (t : Tlp) : (s.send t).engines = s.engines := rfl
@[simp] theorem send_courses (s : State) (t : Tlp) : (s.send t).courses = s.courses := rfl
@[simp] theorem send_halves (s : State) (t : Tlp) : (s.send t).halves = s.halves := rfl
@[simp] theorem send_hbm (s : State) (t : Tlp) : (s.send t).hbm = s.hbm := rfl
@[simp] theorem send_fab (s : State) (t : Tlp) : (s.send t).fab = s.fab := rfl
@[simp] theorem send_codecs (s : State) (t : Tlp) : (s.send t).codecs = s.codecs := rfl
@[simp] theorem send_pwr (s : State) (t : Tlp) : (s.send t).pwr = s.pwr := rfl
@[simp] theorem send_rel (s : State) (t : Tlp) : (s.send t).rel = s.rel := rfl
@[simp] theorem send_sec (s : State) (t : Tlp) : (s.send t).sec = s.sec := rfl
@[simp] theorem send_mgt (s : State) (t : Tlp) : (s.send t).mgt = s.mgt := rfl
@[simp] theorem send_side (s : State) (t : Tlp) : (s.send t).side = s.side := rfl
@[simp] theorem send_seqs (s : State) (t : Tlp) : (s.send t).seqs = s.seqs := rfl
@[simp] theorem send_free (s : State) (t : Tlp) : (s.send t).free = s.free := rfl

/-! ### State.countRefuse -/

@[simp] theorem countRefuse_pending (s : State) : (s.countRefuse).pending = s.pending := rfl
@[simp] theorem countRefuse_variant (s : State) : (s.countRefuse).variant = s.variant := rfl
@[simp] theorem countRefuse_mem (s : State) : (s.countRefuse).mem = s.mem := rfl
@[simp] theorem countRefuse_regs (s : State) : (s.countRefuse).regs = s.regs := rfl
@[simp] theorem countRefuse_hif (s : State) : (s.countRefuse).hif = s.hif := rfl
@[simp] theorem countRefuse_rings (s : State) : (s.countRefuse).rings = s.rings := rfl
@[simp] theorem countRefuse_job (s : State) : (s.countRefuse).job = s.job := rfl
@[simp] theorem countRefuse_movers (s : State) : (s.countRefuse).movers = s.movers := rfl
@[simp] theorem countRefuse_engines (s : State) : (s.countRefuse).engines = s.engines := rfl
@[simp] theorem countRefuse_courses (s : State) : (s.countRefuse).courses = s.courses := rfl
@[simp] theorem countRefuse_halves (s : State) : (s.countRefuse).halves = s.halves := rfl
@[simp] theorem countRefuse_hbm (s : State) : (s.countRefuse).hbm = s.hbm := rfl
@[simp] theorem countRefuse_fab (s : State) : (s.countRefuse).fab = s.fab := rfl
@[simp] theorem countRefuse_codecs (s : State) : (s.countRefuse).codecs = s.codecs := rfl
@[simp] theorem countRefuse_pwr (s : State) : (s.countRefuse).pwr = s.pwr := rfl
@[simp] theorem countRefuse_rel (s : State) : (s.countRefuse).rel = s.rel := rfl
@[simp] theorem countRefuse_mgt (s : State) : (s.countRefuse).mgt = s.mgt := rfl
@[simp] theorem countRefuse_side (s : State) : (s.countRefuse).side = s.side := rfl
@[simp] theorem countRefuse_seqs (s : State) : (s.countRefuse).seqs = s.seqs := rfl
@[simp] theorem countRefuse_free (s : State) : (s.countRefuse).free = s.free := rfl

/-! ### What an update writes -/

@[simp] theorem drawn_free (s : State) : s.drawn.free = s.free + 1 := rfl
@[simp] theorem send_tx (s : State) (t : Tlp) : (s.send t).hif.tx = s.hif.tx ++ [t] := rfl
@[simp] theorem countRefuse_count (s : State) : s.countRefuse.sec.ghRefuse = satAdd s.sec.ghRefuse 1 := rfl
@[simp] theorem modJob_cur (s : State) (f : Job → Job) : (s.modJob f).job.cur = s.job.cur.map f := rfl
@[simp] theorem modJob_areas (s : State) (f : Job → Job) : (s.modJob f).job.areas = s.job.areas := rfl
@[simp] theorem modJob_lists (s : State) (f : Job → Job) : (s.modJob f).job.lists = s.job.lists := rfl

/-! ### Units by number -/

theorem ring_modRing_same (s : State) (r : Nat) (f : Ring → Ring) (hn : r < s.rings.length) :
    (s.modRing r f).ring r = f (s.ring r) := modifyNth_getD_same f _ _ _ hn

theorem ring_modRing_other (s : State) (r k : Nat) (f : Ring → Ring) (hn : r ≠ k) :
    (s.modRing r f).ring k = s.ring k := modifyNth_getD_other f _ _ _ _ hn

/-- A change that keeps the unit keeps the state. -/
theorem modRing_fixed (s : State) (r : Nat) (f : Ring → Ring) (hf : f (s.ring r) = s.ring r) : s.modRing r f = s := by
  have e : modifyNth f s.rings r = s.rings := modifyNth_fixed f _ _ _ hf
  unfold State.modRing
  rw [e]

@[simp] theorem mover_modRing (s : State) (r k : Nat) (f : Ring → Ring) : (s.modRing r f).mover k = s.mover k := rfl
@[simp] theorem engine_modRing (s : State) (r k : Nat) (f : Ring → Ring) : (s.modRing r f).engine k = s.engine k := rfl
@[simp] theorem course_modRing (s : State) (r k : Nat) (f : Ring → Ring) : (s.modRing r f).course k = s.course k := rfl
@[simp] theorem half_modRing (s : State) (r k : Nat) (f : Ring → Ring) : (s.modRing r f).half k = s.half k := rfl
@[simp] theorem stack_modRing (s : State) (r k : Nat) (f : Ring → Ring) : (s.modRing r f).stack k = s.stack k := rfl
@[simp] theorem codec_modRing (s : State) (r k : Nat) (f : Ring → Ring) : (s.modRing r f).codec k = s.codec k := rfl
@[simp] theorem port_modRing (s : State) (r k : Nat) (f : Ring → Ring) : (s.modRing r f).port k = s.port k := rfl

theorem mover_modMover_same (s : State) (m : Nat) (f : Mover → Mover) (hn : m < s.movers.length) :
    (s.modMover m f).mover m = f (s.mover m) := modifyNth_getD_same f _ _ _ hn

theorem mover_modMover_other (s : State) (m k : Nat) (f : Mover → Mover) (hn : m ≠ k) :
    (s.modMover m f).mover k = s.mover k := modifyNth_getD_other f _ _ _ _ hn

/-- A change that keeps the unit keeps the state. -/
theorem modMover_fixed (s : State) (m : Nat) (f : Mover → Mover) (hf : f (s.mover m) = s.mover m) : s.modMover m f = s := by
  have e : modifyNth f s.movers m = s.movers := modifyNth_fixed f _ _ _ hf
  unfold State.modMover
  rw [e]

@[simp] theorem ring_modMover (s : State) (m k : Nat) (f : Mover → Mover) : (s.modMover m f).ring k = s.ring k := rfl
@[simp] theorem engine_modMover (s : State) (m k : Nat) (f : Mover → Mover) : (s.modMover m f).engine k = s.engine k := rfl
@[simp] theorem course_modMover (s : State) (m k : Nat) (f : Mover → Mover) : (s.modMover m f).course k = s.course k := rfl
@[simp] theorem half_modMover (s : State) (m k : Nat) (f : Mover → Mover) : (s.modMover m f).half k = s.half k := rfl
@[simp] theorem stack_modMover (s : State) (m k : Nat) (f : Mover → Mover) : (s.modMover m f).stack k = s.stack k := rfl
@[simp] theorem codec_modMover (s : State) (m k : Nat) (f : Mover → Mover) : (s.modMover m f).codec k = s.codec k := rfl
@[simp] theorem port_modMover (s : State) (m k : Nat) (f : Mover → Mover) : (s.modMover m f).port k = s.port k := rfl

theorem engine_modEngine_same (s : State) (e : Nat) (f : Engine → Engine) (hn : e < s.engines.length) :
    (s.modEngine e f).engine e = f (s.engine e) := modifyNth_getD_same f _ _ _ hn

theorem engine_modEngine_other (s : State) (e k : Nat) (f : Engine → Engine) (hn : e ≠ k) :
    (s.modEngine e f).engine k = s.engine k := modifyNth_getD_other f _ _ _ _ hn

/-- A change that keeps the unit keeps the state. -/
theorem modEngine_fixed (s : State) (e : Nat) (f : Engine → Engine) (hf : f (s.engine e) = s.engine e) : s.modEngine e f = s := by
  have e : modifyNth f s.engines e = s.engines := modifyNth_fixed f _ _ _ hf
  unfold State.modEngine
  rw [e]

@[simp] theorem ring_modEngine (s : State) (e k : Nat) (f : Engine → Engine) : (s.modEngine e f).ring k = s.ring k := rfl
@[simp] theorem mover_modEngine (s : State) (e k : Nat) (f : Engine → Engine) : (s.modEngine e f).mover k = s.mover k := rfl
@[simp] theorem course_modEngine (s : State) (e k : Nat) (f : Engine → Engine) : (s.modEngine e f).course k = s.course k := rfl
@[simp] theorem half_modEngine (s : State) (e k : Nat) (f : Engine → Engine) : (s.modEngine e f).half k = s.half k := rfl
@[simp] theorem stack_modEngine (s : State) (e k : Nat) (f : Engine → Engine) : (s.modEngine e f).stack k = s.stack k := rfl
@[simp] theorem codec_modEngine (s : State) (e k : Nat) (f : Engine → Engine) : (s.modEngine e f).codec k = s.codec k := rfl
@[simp] theorem port_modEngine (s : State) (e k : Nat) (f : Engine → Engine) : (s.modEngine e f).port k = s.port k := rfl

theorem course_modCourse_same (s : State) (c : Nat) (f : Course → Course) (hn : c < s.courses.length) :
    (s.modCourse c f).course c = f (s.course c) := modifyNth_getD_same f _ _ _ hn

theorem course_modCourse_other (s : State) (c k : Nat) (f : Course → Course) (hn : c ≠ k) :
    (s.modCourse c f).course k = s.course k := modifyNth_getD_other f _ _ _ _ hn

/-- A change that keeps the unit keeps the state. -/
theorem modCourse_fixed (s : State) (c : Nat) (f : Course → Course) (hf : f (s.course c) = s.course c) : s.modCourse c f = s := by
  have e : modifyNth f s.courses c = s.courses := modifyNth_fixed f _ _ _ hf
  unfold State.modCourse
  rw [e]

@[simp] theorem ring_modCourse (s : State) (c k : Nat) (f : Course → Course) : (s.modCourse c f).ring k = s.ring k := rfl
@[simp] theorem mover_modCourse (s : State) (c k : Nat) (f : Course → Course) : (s.modCourse c f).mover k = s.mover k := rfl
@[simp] theorem engine_modCourse (s : State) (c k : Nat) (f : Course → Course) : (s.modCourse c f).engine k = s.engine k := rfl
@[simp] theorem half_modCourse (s : State) (c k : Nat) (f : Course → Course) : (s.modCourse c f).half k = s.half k := rfl
@[simp] theorem stack_modCourse (s : State) (c k : Nat) (f : Course → Course) : (s.modCourse c f).stack k = s.stack k := rfl
@[simp] theorem codec_modCourse (s : State) (c k : Nat) (f : Course → Course) : (s.modCourse c f).codec k = s.codec k := rfl
@[simp] theorem port_modCourse (s : State) (c k : Nat) (f : Course → Course) : (s.modCourse c f).port k = s.port k := rfl

theorem half_modHalf_same (s : State) (h : Nat) (f : Half → Half) (hn : h < s.halves.length) :
    (s.modHalf h f).half h = f (s.half h) := modifyNth_getD_same f _ _ _ hn

theorem half_modHalf_other (s : State) (h k : Nat) (f : Half → Half) (hn : h ≠ k) :
    (s.modHalf h f).half k = s.half k := modifyNth_getD_other f _ _ _ _ hn

/-- A change that keeps the unit keeps the state. -/
theorem modHalf_fixed (s : State) (h : Nat) (f : Half → Half) (hf : f (s.half h) = s.half h) : s.modHalf h f = s := by
  have e : modifyNth f s.halves h = s.halves := modifyNth_fixed f _ _ _ hf
  unfold State.modHalf
  rw [e]

@[simp] theorem ring_modHalf (s : State) (h k : Nat) (f : Half → Half) : (s.modHalf h f).ring k = s.ring k := rfl
@[simp] theorem mover_modHalf (s : State) (h k : Nat) (f : Half → Half) : (s.modHalf h f).mover k = s.mover k := rfl
@[simp] theorem engine_modHalf (s : State) (h k : Nat) (f : Half → Half) : (s.modHalf h f).engine k = s.engine k := rfl
@[simp] theorem course_modHalf (s : State) (h k : Nat) (f : Half → Half) : (s.modHalf h f).course k = s.course k := rfl
@[simp] theorem stack_modHalf (s : State) (h k : Nat) (f : Half → Half) : (s.modHalf h f).stack k = s.stack k := rfl
@[simp] theorem codec_modHalf (s : State) (h k : Nat) (f : Half → Half) : (s.modHalf h f).codec k = s.codec k := rfl
@[simp] theorem port_modHalf (s : State) (h k : Nat) (f : Half → Half) : (s.modHalf h f).port k = s.port k := rfl

theorem stack_modStack_same (s : State) (n : Nat) (f : Stack → Stack) (hn : n < s.hbm.length) :
    (s.modStack n f).stack n = f (s.stack n) := modifyNth_getD_same f _ _ _ hn

theorem stack_modStack_other (s : State) (n k : Nat) (f : Stack → Stack) (hn : n ≠ k) :
    (s.modStack n f).stack k = s.stack k := modifyNth_getD_other f _ _ _ _ hn

/-- A change that keeps the unit keeps the state. -/
theorem modStack_fixed (s : State) (n : Nat) (f : Stack → Stack) (hf : f (s.stack n) = s.stack n) : s.modStack n f = s := by
  have e : modifyNth f s.hbm n = s.hbm := modifyNth_fixed f _ _ _ hf
  unfold State.modStack
  rw [e]

@[simp] theorem ring_modStack (s : State) (n k : Nat) (f : Stack → Stack) : (s.modStack n f).ring k = s.ring k := rfl
@[simp] theorem mover_modStack (s : State) (n k : Nat) (f : Stack → Stack) : (s.modStack n f).mover k = s.mover k := rfl
@[simp] theorem engine_modStack (s : State) (n k : Nat) (f : Stack → Stack) : (s.modStack n f).engine k = s.engine k := rfl
@[simp] theorem course_modStack (s : State) (n k : Nat) (f : Stack → Stack) : (s.modStack n f).course k = s.course k := rfl
@[simp] theorem half_modStack (s : State) (n k : Nat) (f : Stack → Stack) : (s.modStack n f).half k = s.half k := rfl
@[simp] theorem codec_modStack (s : State) (n k : Nat) (f : Stack → Stack) : (s.modStack n f).codec k = s.codec k := rfl
@[simp] theorem port_modStack (s : State) (n k : Nat) (f : Stack → Stack) : (s.modStack n f).port k = s.port k := rfl

theorem codec_modCodec_same (s : State) (c : Nat) (f : Codec → Codec) (hn : c < s.codecs.length) :
    (s.modCodec c f).codec c = f (s.codec c) := modifyNth_getD_same f _ _ _ hn

theorem codec_modCodec_other (s : State) (c k : Nat) (f : Codec → Codec) (hn : c ≠ k) :
    (s.modCodec c f).codec k = s.codec k := modifyNth_getD_other f _ _ _ _ hn

/-- A change that keeps the unit keeps the state. -/
theorem modCodec_fixed (s : State) (c : Nat) (f : Codec → Codec) (hf : f (s.codec c) = s.codec c) : s.modCodec c f = s := by
  have e : modifyNth f s.codecs c = s.codecs := modifyNth_fixed f _ _ _ hf
  unfold State.modCodec
  rw [e]

@[simp] theorem ring_modCodec (s : State) (c k : Nat) (f : Codec → Codec) : (s.modCodec c f).ring k = s.ring k := rfl
@[simp] theorem mover_modCodec (s : State) (c k : Nat) (f : Codec → Codec) : (s.modCodec c f).mover k = s.mover k := rfl
@[simp] theorem engine_modCodec (s : State) (c k : Nat) (f : Codec → Codec) : (s.modCodec c f).engine k = s.engine k := rfl
@[simp] theorem course_modCodec (s : State) (c k : Nat) (f : Codec → Codec) : (s.modCodec c f).course k = s.course k := rfl
@[simp] theorem half_modCodec (s : State) (c k : Nat) (f : Codec → Codec) : (s.modCodec c f).half k = s.half k := rfl
@[simp] theorem stack_modCodec (s : State) (c k : Nat) (f : Codec → Codec) : (s.modCodec c f).stack k = s.stack k := rfl
@[simp] theorem port_modCodec (s : State) (c k : Nat) (f : Codec → Codec) : (s.modCodec c f).port k = s.port k := rfl

theorem port_modPort_same (s : State) (p : Nat) (f : Port → Port) (hn : p < s.fab.ports.length) :
    (s.modPort p f).port p = f (s.port p) := modifyNth_getD_same f _ _ _ hn

theorem port_modPort_other (s : State) (p k : Nat) (f : Port → Port) (hn : p ≠ k) :
    (s.modPort p f).port k = s.port k := modifyNth_getD_other f _ _ _ _ hn

/-- A change that keeps the unit keeps the state. -/
theorem modPort_fixed (s : State) (p : Nat) (f : Port → Port) (hf : f (s.port p) = s.port p) : s.modPort p f = s := by
  have e : modifyNth f s.fab.ports p = s.fab.ports := modifyNth_fixed f _ _ _ hf
  unfold State.modPort
  rw [e]

@[simp] theorem ring_modPort (s : State) (p k : Nat) (f : Port → Port) : (s.modPort p f).ring k = s.ring k := rfl
@[simp] theorem mover_modPort (s : State) (p k : Nat) (f : Port → Port) : (s.modPort p f).mover k = s.mover k := rfl
@[simp] theorem engine_modPort (s : State) (p k : Nat) (f : Port → Port) : (s.modPort p f).engine k = s.engine k := rfl
@[simp] theorem course_modPort (s : State) (p k : Nat) (f : Port → Port) : (s.modPort p f).course k = s.course k := rfl
@[simp] theorem half_modPort (s : State) (p k : Nat) (f : Port → Port) : (s.modPort p f).half k = s.half k := rfl
@[simp] theorem stack_modPort (s : State) (p k : Nat) (f : Port → Port) : (s.modPort p f).stack k = s.stack k := rfl
@[simp] theorem codec_modPort (s : State) (p k : Nat) (f : Port → Port) : (s.modPort p f).codec k = s.codec k := rfl

end Sys2Proof.Laws
end

