-- ==== Sys2Proof/Laws/Events.lean ====
section
/-! SUPPORT. What the shared operations change: posting a record, an error's arrival, a host write, a completion, memory
reads, a translation, a fault raised. -/

namespace Sys2Proof.Laws

open Sys2Proof.Machine

/-- A ring apart from its device-side queue and what it counts there. -/
def bareRing (g : Ring) : Ring := { g with evq := [], dropped := 0 }

/-- `t` is `s` with records queued or dropped: only queues of rings, EVQ_HOLD, EVQ_DROP and sequence counters differ. -/
def Posted (s t : State) : Prop :=
  t = { s with rings := t.rings, hif := { s.hif with evqHold := t.hif.evqHold, evqDrop := t.hif.evqDrop }, seqs := t.seqs } ∧
  t.rings.map bareRing = s.rings.map bareRing

theorem Posted.refl (s : State) : Posted s s := ⟨rfl, rfl⟩

theorem Posted.trans {s t u : State} (h : Posted s t) (k : Posted t u) : Posted s u :=
  ⟨k.1.trans (by rw [h.1]), k.2.trans h.2⟩

theorem modifyNth_map {α β : Type} (g : α → β) (f : α → α) (h : ∀ a, g (f a) = g a) (l : List α) (i : Nat) :
    (modifyNth f l i).map g = l.map g := by
  induction l generalizing i with
  | nil => simp [modifyNth]
  | cons a as ih => cases i <;> simp [modifyNth, ih, h]

theorem enqueue_posted (s : State) (r : Nat) (x : Rec) : Posted s (s.enqueue r x) := by
  have key : ∀ (a b : Word) (f : Ring → Ring), (∀ g, bareRing (f g) = bareRing g) →
      Posted s (({ s with hif := { s.hif with evqHold := a, evqDrop := b } } : State).modRing r f) :=
    fun a b f hf => ⟨rfl, modifyNth_map _ _ hf _ _⟩
  unfold State.enqueue
  simp only
  split
  · split
    · exact key s.hif.evqHold s.hif.evqDrop _ fun _ => rfl
    · exact key (satAdd s.hif.evqHold 1) s.hif.evqDrop _ fun _ => rfl
  · split
    · exact key s.hif.evqHold s.hif.evqDrop _ fun _ => rfl
    · exact key s.hif.evqHold (satAdd s.hif.evqDrop 1) _ fun _ => rfl

theorem bumpSeq_posted (s : State) (src : Nat) : Posted s (s.bumpSeq src) := ⟨rfl, rfl⟩

theorem foldl_posted {α : Type} (f : State → α → State) (h : ∀ s a, Posted s (f s a)) (l : List α) (s : State) :
    Posted s (l.foldl f s) := by
  induction l generalizing s with
  | nil => exact Posted.refl s
  | cons a as ih => exact (h s a).trans (ih _)

/-- Posting a record changes only queues of rings, the two counters of the host interface and sequence counters. -/
theorem post_posted (s : State) (p : Post) : Posted s (s.post p) :=
  (foldl_posted _ (fun s r => enqueue_posted s r _) _ s).trans (bumpSeq_posted _ _)

theorem postError_posted (s : State) (e : LogEntry) : Posted s (s.postError e) := post_posted _ _

/-! ### What a record leaves alone -/

theorem Posted.mem {s t : State} (h : Posted s t) : t.mem = s.mem := by rw [h.1]
theorem Posted.job {s t : State} (h : Posted s t) : t.job = s.job := by rw [h.1]
theorem Posted.rel {s t : State} (h : Posted s t) : t.rel = s.rel := by rw [h.1]
theorem Posted.mgt {s t : State} (h : Posted s t) : t.mgt = s.mgt := by rw [h.1]
theorem Posted.sec {s t : State} (h : Posted s t) : t.sec = s.sec := by rw [h.1]
theorem Posted.pwr {s t : State} (h : Posted s t) : t.pwr = s.pwr := by rw [h.1]
theorem Posted.fab {s t : State} (h : Posted s t) : t.fab = s.fab := by rw [h.1]
theorem Posted.movers {s t : State} (h : Posted s t) : t.movers = s.movers := by rw [h.1]
theorem Posted.engines {s t : State} (h : Posted s t) : t.engines = s.engines := by rw [h.1]
theorem Posted.courses {s t : State} (h : Posted s t) : t.courses = s.courses := by rw [h.1]
theorem Posted.halves {s t : State} (h : Posted s t) : t.halves = s.halves := by rw [h.1]
theorem Posted.hbm {s t : State} (h : Posted s t) : t.hbm = s.hbm := by rw [h.1]
theorem Posted.codecs {s t : State} (h : Posted s t) : t.codecs = s.codecs := by rw [h.1]
theorem Posted.pending {s t : State} (h : Posted s t) : t.pending = s.pending := by rw [h.1]
theorem Posted.free {s t : State} (h : Posted s t) : t.free = s.free := by rw [h.1]
theorem Posted.tx {s t : State} (h : Posted s t) : t.hif.tx = s.hif.tx := by rw [h.1]

theorem Posted.length {s t : State} (h : Posted s t) : t.rings.length = s.rings.length := by
  simpa using congrArg List.length h.2

/-- A posted record changes no register of a ring. -/
theorem Posted.ring {s t : State} (h : Posted s t) (r : Nat) : bareRing (t.ring r) = bareRing (s.ring r) := by
  have e := congrArg (fun l : List Ring => l[r]?) h.2
  simp only [List.getElem?_map] at e
  unfold State.ring
  rw [List.getD_eq_getElem?_getD, List.getD_eq_getElem?_getD]
  cases h1 : t.rings[r]? <;> cases h2 : s.rings[r]? <;> rw [h1, h2] at e <;> simp_all

/-! ### Errors -/

/-- The error log and queue apart: what an arrival leaves of Rel. -/
def bareRel (x : Rel) : Rel :=
  { x with log := [], logNext := 0, logOver := 0, pinned := [], queue := [], summary := none, queueOvf := 0 }

/-- `t` is `s` with errors logged and queued and records posted. -/
def Reported (s t : State) : Prop :=
  Posted { s with rel := t.rel } t ∧ bareRel t.rel = bareRel s.rel

theorem Reported.refl (s : State) : Reported s s := ⟨Posted.refl s, rfl⟩

theorem Posted.reported {s t : State} (h : Posted s t) : Reported s t := by
  refine ⟨?_, by rw [h.rel]⟩
  have e : ({ s with rel := t.rel } : State) = s := by rw [h.rel]
  rw [e]; exact h

theorem Reported.trans {s t u : State} (h : Reported s t) (k : Reported t u) : Reported s u := by
  refine ⟨⟨?_, k.1.2.trans h.1.2⟩, k.2.trans h.2⟩
  have h1 := h.1.1
  refine k.1.1.trans ?_
  rw [h1]

theorem logAdd_reported (s : State) (e : LogEntry) : Reported s (s.logAdd e) := ⟨Posted.refl _, rfl⟩

/-- The arrival of an error writes the error log and queue, and may post a record. -/
theorem arrive_reported (s : State) (a : ErrArrival) (b : Bool) : Reported s (s.arrive a b) := by
  have key : ∀ t u : State, Reported s t → Posted t u → Reported s u := fun _ _ h k => h.trans k.reported
  unfold State.arrive
  simp only
  split
  · split
    · exact key _ _ (logAdd_reported _ _) (postError_posted _ _)
    · exact logAdd_reported _ _
  · split
    · exact (logAdd_reported _ _).trans ⟨Posted.refl _, rfl⟩
    · exact (key _ _ (logAdd_reported _ _) (postError_posted _ _)).trans ⟨Posted.refl _, rfl⟩

theorem Reported.mem {s t : State} (h : Reported s t) : t.mem = s.mem := h.1.mem
theorem Reported.job {s t : State} (h : Reported s t) : t.job = s.job := h.1.job
theorem Reported.mgt {s t : State} (h : Reported s t) : t.mgt = s.mgt := h.1.mgt
theorem Reported.sec {s t : State} (h : Reported s t) : t.sec = s.sec := h.1.sec
theorem Reported.pwr {s t : State} (h : Reported s t) : t.pwr = s.pwr := h.1.pwr
theorem Reported.fab {s t : State} (h : Reported s t) : t.fab = s.fab := h.1.fab
theorem Reported.movers {s t : State} (h : Reported s t) : t.movers = s.movers := h.1.movers
theorem Reported.engines {s t : State} (h : Reported s t) : t.engines = s.engines := h.1.engines
theorem Reported.courses {s t : State} (h : Reported s t) : t.courses = s.courses := h.1.courses
theorem Reported.halves {s t : State} (h : Reported s t) : t.halves = s.halves := h.1.halves
theorem Reported.hbm {s t : State} (h : Reported s t) : t.hbm = s.hbm := h.1.hbm
theorem Reported.fenced {s t : State} (h : Reported s t) : t.rel.fenced = s.rel.fenced := by
  have e := congrArg Rel.fenced h.2
  exact e
theorem Reported.withdrawn {s t : State} (h : Reported s t) : t.rel.withdrawn = s.rel.withdrawn := by
  have e := congrArg Rel.withdrawn h.2
  exact e
theorem Reported.pages {s t : State} (h : Reported s t) : t.rel.pages = s.rel.pages := by
  have e := congrArg Rel.pages h.2
  exact e
theorem Reported.lease {s t : State} (h : Reported s t) : t.rel.lease = s.rel.lease := by
  have e := congrArg Rel.lease h.2
  exact e
theorem Reported.ring {s t : State} (h : Reported s t) (r : Nat) : bareRing (t.ring r) = bareRing (s.ring r) :=
  h.1.ring r

/-! ### Host writes (R466) -/

/-- A host write puts one TLP into the transmit queue, or counts a refusal; nothing else changes. -/
theorem hostWrite_cases (s : State) (fn : PFn) (a : Nat) (d : List Byte) (ro ep : Bool) (pasid : Option (BitVec 20) := none) :
    (s.ghPass a d.length pasid false = true ∧
      s.hostWrite fn a d ro ep pasid = (true, s.send (.write fn a d ro ep pasid false))) ∨
    (s.ghPass a d.length pasid false = false ∧ s.hostWrite fn a d ro ep pasid = (false, s.countRefuse)) := by
  unfold State.hostWrite
  cases h : s.ghPass a d.length pasid false
  · right; simp
  · left; simp

/-- An interrupt sets its pending bit or puts one message into the transmit queue. -/
theorem signal_frame (s : State) (fn : PFn) (v : Nat) :
    s.signal fn v = { s with hif := { s.hif with pba := (s.signal fn v).hif.pba, tx := (s.signal fn v).hif.tx } } := by
  unfold State.signal
  cases fn <;> simp only <;> split <;> rfl

/-! ### Completions and halts -/

/-- A completion changes the ring's count in hand and posts at most one record. -/
theorem complete_posted (s : State) (r : Nat) (d : List Byte) (st j r0 : Nat) (ext : List Byte) :
    Posted (s.modRing r fun g => { g with inHand := g.inHand - 1 }) (s.complete r d st j r0 ext) := by
  unfold State.complete
  simp only
  split
  · exact Posted.refl _
  · exact post_posted _ _

/-- A halt marks the ring and posts RING_HALT where it has a destination (R278, R296). -/
theorem markHalt_posted (s : State) (r c n q : Nat) :
    Posted (s.modRing r fun g => { g with halted := true, hcause := BitVec.ofNat 3 c }) (s.markHalt r c n q) := by
  unfold State.markHalt
  simp only
  split
  · exact Posted.refl _
  · exact post_posted _ _

/-- Whatever a shadow write does, memory, job, movers, engines and the error state stay. -/
theorem writeShadow_frame (s : State) (r : Nat) :
    s.writeShadow r = { s with rings := (s.writeShadow r).rings, hif := (s.writeShadow r).hif,
                               sec := (s.writeShadow r).sec, seqs := (s.writeShadow r).seqs } := by
  unfold State.writeShadow
  simp only
  rcases hostWrite_cases s (fnOfRing r) (s.ring r).shadow.toNat (shadowBytes (s.ring r)) false false with h | h
  · rw [h.2]; rfl
  · rw [h.2]
    simp only
    split
    · rfl
    · have e := (markHalt_posted s.countRefuse r 6 (s.ring r).ci.toNat 0).1
      generalize (s.countRefuse.markHalt r 6 (s.ring r).ci.toNat 0) = t at e
      rw [e]; rfl

/-! ### Faults (R308) -/

/-- Setting a fault touches only the unit's own list. -/
theorem setFault_frame (s : State) (u : FaultUnit) (f : Option HeldFault) :
    s.setFault u f = { s with engines := (s.setFault u f).engines, movers := (s.setFault u f).movers,
                              courses := (s.setFault u f).courses, hbm := (s.setFault u f).hbm } := by
  cases u <;> rfl

/-- A fault raised posts one record and sets the unit's fault; memory, job and error state stay. -/
theorem raiseFault_frame (s : State) (u : FaultUnit) (f : HeldFault) (o : Owner) (c : Nat × Word) :
    ∃ t g, Posted s t ∧ s.raiseFault u f o c = t.setFault u (some g) ∧ g.cause = f.cause ∧ g.faddr = f.faddr ∧
      g.space = f.space ∧ g.ofJob = decide (o = .job) ∧ g.seq = s.seqOf (srcOf u) :=
  ⟨_, _, post_posted _ _, rfl, rfl, rfl, rfl, rfl, rfl⟩

/-! ### Reads and translations leave memory alone -/

theorem foldl_mem {α : Type} (f : State → α → State) (h : ∀ s a, (f s a).mem = s.mem) (l : List α) (s : State) :
    (l.foldl f s).mem = s.mem := by
  induction l generalizing s with
  | nil => rfl
  | cons a as ih => exact (ih _).trans (h s a)

@[simp] theorem post_mem (s : State) (p : Post) : (s.post p).mem = s.mem := (post_posted s p).mem
@[simp] theorem arrive_mem (s : State) (a : ErrArrival) (b : Bool) : (s.arrive a b).mem = s.mem :=
  (arrive_reported s a b).mem
@[simp] theorem pendPage_mem (s : State) (n : Nat) : (s.pendPage n).mem = s.mem := rfl

@[simp] theorem recordWord_mem (s : State) (rd : Reader) (v : WordEvent) (n : Nat) : (s.recordWord rd v n).mem = s.mem := by
  unfold State.recordWord
  simp only
  split
  · exact post_mem _ _
  · split <;> rfl

@[simp] theorem reportWord_mem (s : State) (rd : Reader) (v : WordEvent) (q : Word) : (s.reportWord rd v q).mem = s.mem := by
  unfold State.reportWord
  split <;> simp

@[simp] theorem wordEvent_mem (s : State) (rd : Reader) (v : WordEvent) : (s.wordEvent rd v).mem = s.mem := by
  unfold State.wordEvent
  simp only
  split <;> split <;> simp

/-- Noting a flawed word changes no byte and no check bit. -/
@[simp] theorem noteWord_mem (s : State) (rd : Reader) (sc : Bool) (w : Nat) : (s.noteWord rd sc w).mem = s.mem := by
  unfold State.noteWord
  simp only
  split
  · rfl
  · rw [wordEvent_mem]
  · rw [wordEvent_mem]
  · split
    · rfl
    · rw [wordEvent_mem]

/-- A read delivers what the memory holds and leaves it as it is. -/
@[simp] theorem readMem_mem (s : State) (rd : Reader) (a n : Nat) : (s.readMem rd a n).2.2.mem = s.mem :=
  (foldl_mem _ (fun s w => noteWord_mem s rd false w) _ _).trans (touchRows_mem s a n)

theorem readMem_bytes (s : State) (rd : Reader) (a n : Nat) : (s.readMem rd a n).1 = s.mem.read a n := rfl

@[simp] theorem cacheLeaf_mem (s : State) (h ja l e ea : Nat) : (s.cacheLeaf h ja l e ea).mem = s.mem := by
  unfold State.cacheLeaf
  simp only
  split <;> rfl

@[simp] theorem walkEntry_mem (s : State) (rd : Reader) (ja : Nat) (w st : Bool) (l table : Nat) :
    (s.walkEntry rd ja w st l table).2.mem = s.mem := by
  unfold State.walkEntry
  split
  · rfl
  · exact readMem_mem _ _ _ _

@[simp] theorem walkLevels_mem (rd : Reader) (ja : Nat) (w st : Bool) (l table : Nat) (s : State) :
    (walkLevels rd ja w st l table s).2.2.mem = s.mem := by
  induction l generalizing table s with
  | zero =>
    unfold walkLevels
    have h := walkEntry_mem s rd ja w st 0 table
    split <;> rename_i e <;> rw [e] at h <;> exact h
  | succ l ih =>
    unfold walkLevels
    have h := walkEntry_mem s rd ja w st (l + 1) table
    split <;> rename_i e <;> rw [e] at h
    · exact h
    · exact (ih _ _).trans h

/-- A translation walks the table and fills the cache; memory stays. -/
@[simp] theorem translate_mem (s : State) (h : Nat) (rd : Reader) (ja : Nat) (w st : Bool) :
    (s.translate h rd ja w st).2.mem = s.mem := by
  unfold State.translate
  split
  · rfl
  · simp only
    split
    · rfl
    · split <;> simp

end Sys2Proof.Laws
end

