-- ==== Sys2Proof/Laws/MemoryMoves.lean ====
section
/-! SUPPORT. The operations that move, cut, scrub or spoil stretches of memory keep its canonical form. -/

namespace Sys2Proof.Laws

open Sys2Proof.Machine

/-- The canonical form, said of all entries at once. -/
theorem tableOk_iff {α : Type} [DecidableEq α] (d : α) (t : List (Nat × α)) :
    tableOk d t = true ↔ (∀ x ∈ t, x.2 ≠ d) ∧ t.Pairwise fun x y => x.1 < y.1 := by
  induction t with
  | nil => simp [tableOk]
  | cons x t ih =>
    rw [tableOk_cons, ih, List.pairwise_cons]
    constructor
    · rintro ⟨h1, h2, h3, h4⟩
      refine ⟨by simpa using ⟨h1, fun a b h => h3 (a, b) h⟩, fun y hy => ?_, h4⟩
      cases t with
      | nil => simp at hy
      | cons z t =>
        have hz : x.1 < z.1 := h2 z rfl
        rcases List.mem_cons.1 hy with rfl | hy
        · exact hz
        · exact Nat.lt_trans hz ((List.pairwise_cons.1 h4).1 y hy)
    · rintro ⟨h1, h2, h3⟩
      exact ⟨h1 _ List.mem_cons_self, fun y hy => h2 y (List.mem_of_mem_head? hy),
        fun y hy => h1 y (List.mem_cons_of_mem _ hy), h3⟩

/-- A part of a canonical table is canonical. -/
theorem filter_ok {α : Type} [DecidableEq α] (d : α) (p : Nat × α → Bool) (t : List (Nat × α)) (h : tableOk d t = true) :
    tableOk d (t.filter p) = true := by
  obtain ⟨h1, h2⟩ := (tableOk_iff d t).1 h
  exact (tableOk_iff d _).2 ⟨fun x hx => h1 x (List.mem_filter.1 hx).1, h2.filter _⟩

/-- Whatever keeps the form for each entry keeps it for a list of them. -/
theorem foldl_wf {α : Type} (f : Memory → α → Memory) (hf : ∀ m x, m.wf = true → (f m x).wf = true) (l : List α)
    (m : Memory) (h : m.wf = true) : (l.foldl f m).wf = true := by
  induction l generalizing m with
  | nil => exact h
  | cons x l ih => exact ih _ (hf _ _ h)

theorem part_wf (m : Memory) (p : Host.Cell → Bool) (q : Nat × BitVec 7 → Bool) (h : m.wf = true) :
    ({ cells := m.cells.filter p, synd := m.synd.filter q } : Memory).wf = true := by
  rw [wf_iff] at h ⊢
  exact ⟨filter_ok 0 _ _ h.1, filter_ok 0 _ _ h.2⟩

theorem cut_wf (m : Memory) (keep : Nat → Bool) (h : m.wf = true) : (m.cut keep).wf = true :=
  foldl_wf _ (fun _ _ k => setSyn_wf _ _ _ (setBytes_wf _ _ _ k)) _ _ (part_wf _ _ _ h)

theorem paste_wf (m : Memory) (keep : Nat → Bool) (p : Memory) (h : m.wf = true) : (m.paste keep p).wf = true :=
  foldl_wf _ (fun _ _ k => setSyn_wf _ _ _ k) _ _ (foldl_wf _ (fun _ _ k => setByte_wf _ _ _ k) _ _ (part_wf _ _ _ h))

theorem spoil_wf (m : Memory) (a n : Nat) (h : m.wf = true) : (m.spoil a n).wf = true :=
  setSyn_wf _ _ _ (setBytes_wf _ _ _ h)

theorem scrubGranule_wf (m : Memory) (a : Nat) (h : m.wf = true) : (m.scrubGranule a).wf = true := by
  unfold Memory.scrubGranule
  simp only
  split
  · exact h
  · exact foldl_wf _ (fun _ _ k => setSyn_wf _ _ _ (setBytes_wf _ _ _ k)) _ _ h

theorem restage_wf (s : State) (c h len : Nat) (k : s.mem.wf = true) : (s.restage c h len).mem.wf = true := by
  have k := (wf_iff _).1 k
  exact (wf_iff _).2 ⟨k.1, filter_ok 0 _ _ k.2⟩

theorem writeArea_wf (s : State) (k : Nat) (a : SaveArea) (h : s.mem.wf = true) : (s.writeArea k a).mem.wf = true :=
  paste_wf _ _ _ h

end Sys2Proof.Laws
end

