-- ==== Sys2Proof/Laws/SaveArea.lean ====
section
/-! SUPPORT. Byte fields and checksums, and a save area that is read back from memory without an error. -/

namespace Sys2Proof.Laws

open Sys2Proof.Machine

theorem leNat_toLe (n k : Nat) : leNat (toLe n k) = n % 256 ^ k := by
  induction k generalizing n with
  | zero => simp [toLe, leNat, Nat.mod_one]
  | succ k ih =>
    have h : (BitVec.ofNat 8 n).toNat = n % 256 := BitVec.toNat_ofNat n 8
    simp only [toLe, leNat, ih, h]
    rw [Nat.pow_succ, Nat.mul_comm (256 ^ k) 256, Nat.mod_mul]

/-- What withCrc appends is right. -/
theorem crcOk_withCrc (bs : List Byte) (n : Nat) (h : bs.length = n) : crcOk (withCrc bs) n = true := by
  subst h
  have hf : fieldAt (withCrc bs) bs.length 4 = (crc32c bs).toNat := by
    simp only [fieldAt, bytesAt, withCrc, List.drop_left]
    rw [List.take_of_length_le (by simp [toLe_length]), leNat_toLe]
    exact Nat.mod_eq_of_lt (crc32c bs).isLt
  rw [crcOk, hf]
  simp [withCrc]

theorem padTo_length (bs : List Byte) (n : Nat) : (padTo bs n).length = n := by simp [padTo, zeros]; omega

theorem withCrc_length (bs : List Byte) : (withCrc bs).length = bs.length + 4 := by simp [withCrc, toLe_length]

theorem header_crc (a : SaveArea) : crcOk a.header 0xFFC = true := crcOk_withCrc _ _ (padTo_length _ _)

theorem header_length (a : SaveArea) : a.header.length = 4096 := by rw [SaveArea.header, withCrc_length, padTo_length]

/-- Nothing has flipped where zeros are read. -/
theorem zipWith_zeros (bs r : List Byte) (h : bs.length ≤ r.length) (hz : ∀ x ∈ r, x = 0) : bs.zipWith (· ^^^ ·) r = bs := by
  induction bs generalizing r with
  | nil => rfl
  | cons b bs ih =>
    cases r with
    | nil => simp at h
    | cons y r =>
      have hy : y = 0 := hz y (by simp)
      subst hy
      rw [List.zipWith_cons_cons, ih r (by simpa using h) fun x hx => hz x (by simp [hx])]
      exact congrArg (· :: bs) (BitVec.xor_zero (x := b))

theorem look_above {α : Type} (d : α) (t : List (Nat × α)) (k : Nat) (h : ∀ c ∈ t, c.1 < k) : look d t k = d := by
  induction t with
  | nil => rfl
  | cons c t ih =>
    have hc : c.1 ≠ k := Nat.ne_of_lt (h c (by simp))
    simp only [look, hc, if_false]
    exact ih fun x hx => h x (by simp [hx])

/-- Words without an error, above every byte that is listed, read as zero. -/
theorem deliver_above (m : Memory) (w : Nat) (hs : m.synd = []) (h : ∀ c ∈ m.cells, c.1 < 4 * w) :
    ∀ x ∈ m.deliver w, x = 0 := by
  have hd : m.deliver w = m.stored w := by
    have : synClass (m.syn w) = .clean := by simp only [Memory.syn, hs, look]; decide
    simp [Memory.deliver, this]
  intro x hx
  rw [hd] at hx
  simp only [Memory.stored, List.mem_map, Memory.byte] at hx
  obtain ⟨i, -, rfl⟩ := hx
  exact look_above 0 _ _ fun c hc => Nat.lt_of_lt_of_le (h c hc) (Nat.le_add_right _ _)

theorem read_above (m : Memory) (a n : Nat) (hs : m.synd = []) (h : ∀ c ∈ m.cells, c.1 < a / 4 * 4) :
    ∀ x ∈ m.read a n, x = 0 := by
  intro x hx
  simp only [Memory.read] at hx
  have hx := List.mem_of_mem_drop (List.mem_of_mem_take hx)
  simp only [List.mem_flatten, List.mem_map] at hx
  obtain ⟨l, ⟨w, hw, rfl⟩, hx⟩ := hx
  refine deliver_above m w hs (fun c hc => ?_) x hx
  have : a / 4 ≤ w := by
    simp only [wordsOf] at hw
    split at hw
    · simp at hw
    · obtain ⟨i, -, rfl⟩ := List.mem_map.1 hw
      exact Nat.le_add_right _ _
  have := h c hc
  omega

theorem read_length (m : Memory) (a n : Nat) : (m.read a n).length = n := by
  have hf : ∀ ws : List Nat, ((ws.map fun w => m.deliver w).flatten).length = 4 * ws.length := by
    intro ws
    induction ws with
    | nil => rfl
    | cons w ws ih => simp only [List.map_cons, List.flatten_cons, List.length_append, ih, deliver_length, List.length_cons]; omega
  simp only [Memory.read, List.length_take, List.length_drop, hf, wordsOf]
  split
  · simp_all
  · simp only [List.length_map, List.length_range]; omega

/-- A save area whose memory lists nothing is read with the header that was written (R316). -/
theorem loadArea_header (s : State) (k : Nat) (a : SaveArea) (hs : s.mem.synd = [])
    (h : ∀ c ∈ s.mem.cells, c.1 < s.areaBase k / 4 * 4) : (s.loadArea k a).1 = a.header := by
  have hr : (s.loadArea k a).1 = s.areaRead k 0 a.header := rfl
  rw [hr, State.areaRead, Nat.add_zero]
  exact zipWith_zeros _ _ (by simp only [read_length, Nat.le_refl]) (read_above _ _ _ hs h)

end Sys2Proof.Laws
end

