-- ==== Sys2Proof/Machine/Pcs.lean ====
section
/-! DEFINITION. The Limfaette physical coding sublayer: blocks, scrambler, RS(544,514), codeword pairs and lanes (12 R331,
R332). What a port has put on its lanes is a function of the flits it has sent, `Port.wire`; flits that come in are the
commands' operands, decoded, with the codewords that the code corrected or could not. -/

namespace Sys2Proof.Machine

/-! ### RS(544,514) over GF(2^10)

The field polynomial x^10 + x^3 + 1 and the generator with roots α^0 to α^29 are those of IEEE 802.3 (PRESUMED, log entry
94). -/

/-- One step of a product: twice a field element. -/
def gfDouble (a : Nat) : Nat := if a < 512 then 2 * a else (2 * a) ^^^ 0x409

/-- The product of two field elements, bit by bit from the top of the second. -/
def gfMul (a b : Nat) : Nat :=
  (List.range 10).foldl (fun acc i => gfDouble acc ^^^ (if b.testBit (9 - i) then a else 0)) 0

/-- A polynomial, highest coefficient first, times x + r. -/
def polyStep (p : List Nat) (r : Nat) : List Nat := List.zipWith (· ^^^ ·) (p ++ [0]) (0 :: p.map fun c => gfMul c r)

/-- The generator polynomial of degree 30, highest coefficient first. -/
def rsGenerator : List Nat :=
  ((List.range 30).foldl (fun (acc : List Nat × Nat) _ => (polyStep acc.1 acc.2, gfDouble acc.2)) ([1], 1)).1

/-- The 30 parity symbols of 514 message symbols: the remainder by the generator. -/
def rsParity (msg : List Nat) : List Nat :=
  msg.foldl (fun r m =>
    let f := m ^^^ r.headD 0
    List.zipWith (fun x c => x ^^^ gfMul f c) (r.drop 1 ++ [0]) (rsGenerator.drop 1)) (List.replicate 30 0)

/-- A codeword: its message symbols, then its parity. -/
def rsEncode (msg : List Nat) : List Nat := msg ++ rsParity msg

/-- Whether 544 symbols are a codeword. -/
def rsOk (word : List Nat) : Bool := decide (rsParity (word.take 514) = word.drop 514)

/-! ### Blocks and scrambler -/

/-- Bits of bytes, bit 0 of each first. -/
def bitsOfBytes (bs : List Byte) : List Bool := (bs.map fun b => (List.range 8).map fun i => b.getLsbD i).flatten

/-- The self-synchronising scrambler x^58 + x^39 + 1 on the last 58 bits sent, the newest first. -/
def scramble : List Bool → List Bool → List Bool × List Bool
  | st, [] => ([], st)
  | st, b :: bs =>
    let o := b ^^ (st.getD 38 false ^^ st.getD 57 false)
    let r := scramble ((o :: st).take 58) bs
    (o :: r.1, r.2)

/-- The descrambler, on the last 58 bits received. -/
def descramble : List Bool → List Bool → List Bool × List Bool
  | st, [] => ([], st)
  | st, o :: os =>
    let r := descramble ((o :: st).take 58) os
    ((o ^^ (st.getD 38 false ^^ st.getD 57 false)) :: r.1, r.2)

/-- The blocks of flits: 32 bytes each, with the flag bit 1 in block 0 of each flit. -/
def blocksOf (flits : List (List Byte)) : List (Bool × List Bool) :=
  (flits.map fun f => (List.range 8).map fun k => (k == 0, bitsOfBytes (bytesAt f (32 * k) 32))).flatten

/-- The bits of blocks on the way to the code: the flag bit, then 256 scrambled payload bits. -/
def lineBits : List Bool → List (Bool × List Bool) → List Bool × List Bool
  | st, [] => ([], st)
  | st, (flag, bits) :: bs =>
    let x := scramble st bits
    let r := lineBits x.2 bs
    (flag :: x.1 ++ r.1, r.2)

/-- Ten-bit symbols of a bit stream, first bit least significant. -/
def symbolsOf (bits : List Bool) : List Nat :=
  (chunksOf 10 bits.length bits).map fun c => c.zipIdx.foldl (fun acc x => acc + b2n x.1 * 2 ^ x.2) 0

/-! ### Codeword pairs and lanes -/

/-- Symbols A0, B0, A1, B1, … of two codewords. -/
def interleave : List Nat → List Nat → List Nat
  | a :: as, b :: bs => a :: b :: interleave as bs
  | as, bs => as ++ bs

/-- The 1,088 symbols of a pair of five flits: the first twenty blocks make codeword A, the rest codeword B. -/
def pairSymbols (st : List Bool) (flits : List (List Byte)) : List Nat × List Bool :=
  let x := lineBits st (blocksOf flits)
  let m := symbolsOf x.1
  (interleave (rsEncode (m.take 514)) (rsEncode (m.drop 514)), x.2)

/-- Symbols dealt to `n` lanes in rotation: 136 a lane for a pair on eight lanes, 272 on four. -/
def dealLanes (n : Nat) (syms : List Nat) : List (List Nat) :=
  (List.range n).map fun l => (syms.zipIdx.filter fun x => x.2 % n == l).map (·.1)

/-- The symbols of whole pairs, one after another; flits short of a pair wait. -/
def pairsOf : Nat → List Bool → List (List Byte) → List Nat
  | 0, _, _ => []
  | fuel + 1, st, flits =>
    if flits.length < 5 then []
    else
      let x := pairSymbols st (flits.take 5)
      x.1 ++ pairsOf fuel x.2 (flits.drop 5)

/-- What a port has put on its lanes 0 to 7 since it last trained: the pairs of the flits sent, on all lanes or on the four
that locked (R331, R332). -/
def Port.wire (seed : List Bool) (g : Port) : List (List Nat) :=
  let flits := g.out.drop g.outFrom
  let dealt := dealLanes g.lanes (pairsOf flits.length seed flits)
  let idle := List.replicate 4 []
  if g.lanes = 8 then dealt
  else if g.lanes = 4 then (if g.lockHigh then idle ++ dealt else dealt ++ idle)
  else idle ++ idle

/-- The lanes of a port of the machine; what its scrambler held when training ended is free, as the code descrambles itself. -/
def State.lanesOf (s : State) (p : PortId) : List (List Nat) := (s.port p).wire (Config.scramblerSeed p)

end Sys2Proof.Machine
end

