-- ==== Sys2Proof/WellFormed.lean ====
section
/-! DEFINITION. Which commands are well formed: operands of the sizes and ranges that their formats give. A command
that is not well formed stands for nothing that can happen at the module. -/

namespace Sys2Proof

/-- A descriptor ring of Table 10.4. -/
def isDescRing (r : RingId) : Bool := decide (r.val ≤ 21) || r.val == 64
/-- An event ring of Table 10.4. -/
def isEventRing (r : RingId) : Bool := (decide (32 ≤ r.val) && decide (r.val ≤ 39)) || r.val == 65
/-- A codec ring of Table 10.4. -/
def isCodecRing (r : RingId) : Bool := decide (18 ≤ r.val) && decide (r.val ≤ 21)
/-- The ring's registers lie in the function's BAR0 (Table 17.4). -/
def ringOf (fn : PFn) (r : RingId) : Bool :=
  match fn with
  | .pf0 => decide (r.val < 64)
  | .pf1 => decide (64 ≤ r.val)
/-- A translated page: a power of two of at least 4 KiB, aligned (R268). -/
def pageOk (base size : Nat) : Bool :=
  decide (4096 ≤ size) && size == 2 ^ size.log2 && base % size == 0
/-- Host bytes lie in a 64-bit address space. -/
def hostOk (h : HostData) : Bool := h.cells.all fun c => decide (c.1 < 2 ^ 64)
/-- An MCTP message is an Edxus request, which carries a descriptor of 128 bytes, or a shorter control message (R273). -/
def mctpOk (m : List Byte) : Bool := m.length == 128 || decide (m.length ≤ 64)
/-- A flit is 256 bytes (R335). -/
def flitOk (f : List Byte) : Bool := f.length == 256

/-- Whether a command is well formed. -/
def Instr.wf : Instr → Bool
  | .doorbell ring _ => isDescRing ring
  | .eventDoorbell ring _ => isEventRing ring
  | .descriptorFetch ring => isDescRing ring
  | .descriptorCheck ring => isDescRing ring
  | .completionTimeout _ => true
  | .readCompletion _ status data => decide (data.length ≤ 4096) && (decide (status = .ok) || decide (status = .ep) || data.isEmpty)
  | .recordWrite ring => isEventRing ring
  | .bar4Read _ len _ => decide (1 ≤ len) && decide (len ≤ 4096)
  | .bar4Write _ data be _ _ => decide (1 ≤ data.length) && decide (data.length ≤ 512) && decide (be.length = data.length)
  | .hostProtocolViolation _ _ _ _ _ | .configRequest _ _ _ _ => true
  | .atsTranslationCompletion _ res => match res with
    | none => true
    | some r => pageOk r.base.toNat r.size
  | .atsInvalidate _ addr size => pageOk addr.toNat size
  | .pageRequestResponse _ _ | .flrPf0 | .flrPf1 | .d3hot => true
  | .hostInterfaceReset | .perstNRelease _ | .linkDown => true
  | .job host => hostOk host
  | .jobCompletion => true
  | .imgVerify _ host => hostOk host
  | .tsetVerify _ host => hostOk host
  | .handleRelease _ | .preempt _ | .cancel _ => true
  | .fwStage _ host => hostOk host
  | .fwActivate _ | .setCeiling _ | .portFence _ | .portUnfence _ => true
  | .retireRead _ | .logRead _ | .jobdomSet _ | .windowSet _ => true
  | .mctpRequest _ desc host => mctpOk desc && hostOk host
  | .doeDiscovery _ _ | .getCerts _ | .getLog _ _ _ => true
  | .report _ nonce => decide (nonce.length = 32)
  | .ownerClaim _ key => decide (key.length = 1952)
  | .slotWrite _ payload => decide (payload.length = 5269)
  | .svnCommit _ => true
  | .range host => hostOk host
  | .movers host => hostOk host
  | .sort host => hostOk host
  | .sortComplete _ | .barrier => true
  | .stepEnd host => hostOk host
  | .stepCommand _ _ => true
  | .encodeList host => hostOk host
  | .tileClaim _ | .dispatch _ | .stagingFill _ | .planeLoad _ => true
  | .planeSwitch _ | .tableSetLoad _ | .agBeat _ _ | .brickNop _ _ _ => true
  | .mac _ _ _ | .pass _ _ _ | .ldw _ _ _ | .emax _ _ _ => true
  | .eadd _ _ _ | .vecNop _ | .vecIn _ | .vecOut _ => true
  | .vecAdd _ | .vecSub _ | .vecMul _ | .vecMax _ => true
  | .vecMin _ | .vecSfu _ | .sfuEvaluation _ | .vecRmax _ => true
  | .vecRsum _ | .vecConst _ | .vecCvt _ | .vecSel _ => true
  | .vecLoop _ | .vecEnd _ | .phaseEnd _ | .setSwap _ => true
  | .drain _ | .writeBack _ | .commit _ | .stewardReload _ => true
  | .firmwareResolve _ host => hostOk host
  | .hbmRead addr len reader _ _ => decide (1 ≤ len) && decide (len ≤ 64) && decide (addr.toNat % 64 + len ≤ 64) && decide (reader.toNat ≤ 9)
  | .refresh _ | .scrub _ | .pageWalk _ _ _ _ _ | .moveCopy _ => true
  | .movePraline _ | .moveNoise _ | .moveColl _ => true
  | .resolve ring => decide (2 ≤ ring.val) && decide (ring.val ≤ 17)
  | .pralineStatus _ | .mvDense _ | .mvKFrame _ | .mvVFrame _ => true
  | .statsRows _ | .statsMerge _ | .pralineEadd _ | .emul _ => true
  | .append _ | .gather _ | .encode _ | .decode _ => true
  | .preemptionSignal | .save => true
  | .resume host => hostOk host
  | .shift _ | .allreduce _ | .reduceScatter _ | .allgather _ => true
  | .statsCombine _ | .fondant _ | .collBarrier _ | .add64 _ => true
  | .ringStepSend _ | .portTraining _ _ | .trainTimeout _ | .lockLost _ => true
  | .param _ flit => flitOk flit
  | .sequencedFlit _ flit fecCe fecUe => flitOk flit && decide (fecCe + fecUe ≤ 8)
  | .retryReq _ flit => flitOk flit
  | .retryTimeout _ => true
  | .idle _ flit => flitOk flit
  | .nop _ flit => flitOk flit
  | .violation _ flit => flitOk flit
  | .vcResync _ flit => flitOk flit
  | .readReq _ | .readRsp _ | .msgWrite _ | .writeAck _ => true
  | .atomicAdd _ | .atomicRsp _ | .chunk _ | .sent _ => true
  | .done _ | .msgBarrier _ | .mgmt _ | .mgmtRsp _ => true
  | .nak _ | .messageForward _ | .cblPresN _ _ | .cableOvercurrent _ => true
  | .poolSet ring => isCodecRing ring
  | .codecOpen ring => isCodecRing ring
  | .encFrame ring host => isCodecRing ring && hostOk host
  | .decUnit ring host => isCodecRing ring && hostOk host
  | .flush ring => isCodecRing ring
  | .release ring => isCodecRing ring
  | .codecClose ring => isCodecRing ring
  | .framePacing _ _ => true
  | .poolWait _ _ host => hostOk host
  | .supplyLoss _ | .vaultSave | .coldStart _ _ _ | .bankReady => true
  | .uvHold _ | .uvRelease _ | .railLost _ | .limitEnter _ => true
  | .limitExit | .throttleN _ _ | .thermalHold _ _ | .thermalRelease _ _ => true
  | .thermalTrip _ _ | .dramTrip _ _ => true
  | .creditRefill t => decide (t.temps.length = 32) && decide (t.vset.length = 3)
  | .paceWindow _ _ | .refclkLoss | .progressWatchdog _ | .errorHandle _ => true
  | .reload _ _ | .heartbeatCheck _ _ | .fwHandover _ | .handoverTimeout _ => true
  | .renew _ _ | .acquire _ | .leaseRelease _ _ | .leaseExpiry => true
  | .leaseVacant | .perstN _ | .wakeN _ _ | .alertN _ => true
  | .mgtRstN _ | .mgtRstNRelease _ | .modRst _ | .moduleReset _ _ => true
  | .moduleResetBound _ _ | .inputStuckCount _ => true
  | .i3cTransfer x => match x with
    | .assign _ | .readResponse => true
    | .writePacket desc host => mctpOk desc && hostOk host
  | .i3cSclTimeout | .jtagInstruction _ => true
  | .ringEnable fn ring _ => ringOf fn ring
  | .bar4BaseWrite _ | .debugEnWrite _ | .portEnWrite _ | .fabTopoWrite _ _ => true
  | .w1cCounterWrite _ off _ => off.toNat % 4 == 0
  | .registerWrite _ off size8 value => if size8 then off.toNat % 8 == 0 else off.toNat % 4 == 0 && decide (value.toNat < 2 ^ 32)
  | .refclkReturn | .alertNRelease _ => true
  | .pcieLinkUp width rate flit =>
    [1, 4, 8, 16].contains width && decide (1 ≤ rate) && decide (rate ≤ 6) && (rate != 6 || flit)

end Sys2Proof
end

