-- ==== Sys2Proof/Tests/Slice0.lean ====
section
/-! SUPPORT. Tests: an ill-formed term for each check of WellFormed, the worked examples of the spec, and for each
statement of Certificates/Slice0/Obligations.lean a state and operands that meet its hypotheses, clause by clause. -/

namespace Sys2Proof.Tests

set_option Elab.async false

open Sys2Proof Sys2Proof.Machine Sys2Proof.Laws

/-! ### Helpers -/

/-- A command has a next state, and that state has a property. -/
def ends (o : Out) (p : State → Bool) : Bool :=
  match o with
  | .next t => p t
  | _ => false

/-- A step goes on. -/
def goesOnB (s : State) : Bool := ends (step s) fun _ => true

/-- A write window over the first 16 MiB of host memory. -/
def window : Window := { base := 0, len := 0x1000000, en := true }

/-- A booted module: link up, half A the lead, a Gatehouse window, every set-up field at its reset value. -/
def up : State :=
  { State.reset with
    pwr := { railsOn := true }
    mgt := { ready := true }
    hif := { linkUp := true }
    halves := [{ leads := some 1 }, {}]
    rel := { lease := { holder := 0, epoch := 1 } }
    sec := { windows := window :: List.replicate 31 {} } }

/-- A doorbell's data: INDEX and flags, and the DB_CRC over ring and word. -/
def dbData (r w : Nat) : DWord := BitVec.ofNat 64 w ||| ((crc32c (toLe r 4 ++ toLe w 4)).setWidth 64 <<< 32)

/-- A descriptor of a length with an opcode, VER 1, an index and other fields: (offset, length, value). -/
def mkDesc (len opc idx : Nat) (fields : List (Nat × Nat × Nat)) : List Byte :=
  let d := putAt (putAt (putAt (zeros len) 0 (toLe opc 2)) 2 [1]) 0x10 (toLe idx 4)
  let d := fields.foldl (fun d f => putAt d f.1 (toLe f.2.2 f.2.1)) d
  withCrc (d.take (len - 4))

/-- A descriptor posted on a ring. -/
def post (r : Nat) (d : List Byte) (s : State) : State :=
  s.modRing r fun g => { g with en := true, posted := [{ idx := 0, bytes := d }] }

/-- A job in progress. -/
def jobOf (d : List Byte) : Job := { posted := { idx := 0, bytes := d } }

/-- A state in which a job runs. -/
def busy : State := { up with job := { up.job with cur := some (jobOf (zeros 256)) } }

/-- A message in the receive queue of a port. -/
def withMsg (p vc : Nat) (x : Msg) (s : State) : State := s.modPort p fun q => { q with rxMsgs := [(vc, x)] }

/-! ### Rings and the host interface -/

/-- StepRunsTheFront: a command in front, and an empty queue. -/
theorem test_step : ends (step { up with pending := [.bankReady] }) (fun t => t.pending == []) = true ∧
    State.reset.pending = [] := by decide +kernel

/-- StepKeepsMemoryCanonical, StepKeepsFieldsInRange: states that meet the invariants, and a step from them. -/
theorem test_invariants : up.mem.wf = true ∧ up.shaped = true ∧ up.fieldsOk = true ∧ goesOnB up = true := by decide +kernel

/-- A descriptor ring with 640 free slots: the doorbell example of 10_host_interface.md. -/
def dbState : State := up.modRing 6 fun g => { g with en := true, ci := 0xFFFF80, last := 0x100, log2s := 10 }

/-- Doorbells, clause 1: an INDEX that fills the ring. -/
theorem test_doorbell : dbState.hostUp = true ∧ (dbState.ring 6).en = true ∧ (dbState.ring 6).halted = false ∧
    ends (exec (.doorbell 6 (dbData 6 0x380)) dbState) (fun t => (t.ring 6).last == 0x380) = true := by decide +kernel

/-- Doorbells, clause 2: reasons 1, 5, 2, 3 and 4, the last at the first INDEX beyond the free slots. -/
theorem test_doorbell_rejected :
    let bad := fun (d : DWord) (s : State) => ends (exec (.doorbell 6 d) s) fun t =>
      t.hif.dbBad == 1 && (t.ring 6).last == 0x100 && (t.ring 32).evq.length == 1
    bad 0x101 dbState = true ∧ bad (dbData 6 0x2000101) dbState = true ∧ bad (dbData 6 0x1000101) dbState = true ∧
    bad (dbData 6 0x101) (dbState.modRing 6 fun g => { g with en := false }) = true ∧
    ends (exec (.doorbell 6 (dbData 6 0x381)) dbState) (fun t => t.hif.dbReject == 1 && (t.ring 6).last == 0x100) = true := by
  decide +kernel

/-- An event ring with three records written and none consumed. -/
def evState : State := up.modRing 32 fun g => { g with en := true, ci := 3, last := 0 }

/-- Doorbells, clause 3: INDEX at W, with ARM, and past W. -/
theorem test_event_doorbell : evState.hostUp = true ∧
    ends (exec (.eventDoorbell 32 (dbData 32 3)) evState) (fun t => (t.ring 32).last == 3) = true ∧
    ends (exec (.eventDoorbell 32 (dbData 32 0x1000003)) evState) (fun t => (t.ring 32).armed) = true ∧
    ends (exec (.eventDoorbell 32 (dbData 32 4)) evState) (fun t => (t.ring 32).last == 0 && t.hif.dbReject == 1) = true := by
  decide +kernel

/-- DescriptorsReachConsumers: a fetch at the ring's end takes one slot. -/
theorem test_fetch :
    let s := up.modRing 2 fun g => { g with en := true, ci := 15, last := 20, log2s := 4, base := 0x1000 }
    s.hostUp = true ∧ s.mayRead (fnOfRing 2) = true ∧ (s.ring 2).last ≠ (s.ring 2).ci ∧
    ends (exec (.descriptorFetch 2) s) (fun t => t.hif.tx == [.read .pf0 0 (0x1000 + 15 * 128) 128 none]) = true := by
  decide +kernel

/-- A ring with one fetched descriptor. -/
def fetched (bs : List Byte) : State := up.modRing 2 fun g => { g with en := true, fetched := [{ idx := 7, bytes := bs }], ci := 7 }

set_option maxRecDepth 20000 in
/-- DescriptorsReachConsumers: a right RESOLVE descriptor, one with a wrong DCRC, one with a wrong SEQ. -/
theorem test_check :
    let good := mkDesc 128 2 7 [(0x20, 2, 0x40), (0x24, 4, 1)]
    crcOk good 124 = true ∧ dSeq good = 7 ∧ descriptorOk 2 good = true ∧ (fetched good).bypass 2 good = none ∧
    (fetched good).ghPass 0 8 none false = true ∧
    ends (exec (.descriptorCheck 2) (fetched good)) (fun t => (t.ring 2).posted.length == 1 && (t.ring 2).ci == 8) = true ∧
    ends (exec (.descriptorCheck 2) (fetched (zeros 128))) (fun t => (t.ring 2).hcause == 1 && (t.ring 2).ci == 7) = true ∧
    ends (exec (.descriptorCheck 2) (fetched (mkDesc 128 2 8 []))) (fun t => (t.ring 2).hcause == 2) = true := by
  decide +kernel

/-- DescriptorsReachConsumers: a read answered with its bytes, and one that times out. -/
theorem test_read_answer :
    let s0 := up.modRing 2 fun g => { g with en := true, reading := true, base := 0x1000, ci := 7, last := 8 }
    let rd : OutRead := { tag := 5, fn := .pf0, addr := 0x1000, len := 128, who := .ring 2 7 1 }
    let s := { s0 with hif := { s0.hif with reads := [rd] } }
    s.hif.reads.find? (fun x => x.tag = 5) = some rd ∧
    ends (exec (.readCompletion 5 .ok (zeros 128)) s) (fun t => (t.ring 2).fetched.map (·.idx) == [7] && t.hif.reads == []) = true ∧
    ends (exec (.completionTimeout 5) s) (fun t => (t.ring 2).hcause == 4 && t.hif.reads == []) = true := by decide +kernel

/-- RecordWriteOrdersTwoTlps: one record waits, on a ring that is not armed and on one that is; its TLPs are 124 and 4
bytes long. -/
theorem test_record_write :
    let x : Rec := { kind := 1, src := 1, boot := 0, seq := 0, causeSrc := 0, causeSeq := 0, tag := 9, htime := 0, body := zeros 92 }
    let s0 := up.modRing 32 fun g => { g with en := true, ci := 16, last := 1, evq := [x] }
    let s1 := s0.modRing 32 fun g => { g with armed := true }
    let s2 := { s1 with hif := { s1.hif with msix := [(0, { masked := false })] } }
    (x.bytes false).length = 128 ∧ s0.ghPass 4 124 none false = true ∧ s0.ghPass 0 4 none false = true ∧
    ends (exec (.recordWrite 32) s0) (fun t => (t.ring 32).ci == 17 && t.hif.tx.length == 2) = true ∧
    ends (exec (.recordWrite 32) s2) (fun t => t.hif.tx.length == 3 && !(t.ring 32).armed) = true := by decide +kernel

/-- Bar4Transfers: reads of stored, bad and refused bytes, and writes that are stored and refused, in HBM at BAR4's first
and last byte. -/
theorem test_bar4 :
    let s := { up with mem := { cells := [(5, 0xAB)] } }
    let bad := { up with mem := { synd := [(0, 3)] } }
    let far := { up with hif := { up.hif with bar4Base := 0xFFFF00000000 } }
    s.hostUp = true ∧ s.stackHeld 0 = false ∧ s.mem.wf = true ∧ bad.mem.wf = true ∧ s.mem.flawed 0 8 = [] ∧
    s.rangeAll Region.hostOk 0 8 = true ∧ s.rangeAll Region.hostOk (2 ^ 36 - 1) 1 = true ∧
    bad.mem.anyBad 0 8 = true ∧ far.rangeAll Region.hostOk 0xFFF000000000 8 = false ∧
    ends (exec (.bar4Read 5 1 0) s) (fun t => t.hif.tx == [.completion 0 .sc [0xAB] false]) = true ∧
    ends (exec (.bar4Read 0 8 0) bad) (fun t => t.hif.tx == [.completion 0 .sc (zeros 8) true]) = true ∧
    ends (exec (.bar4Read 0 8 0) far) (fun t => t.hif.violCnt == 1) = true ∧
    ends (exec (.bar4Write (2 ^ 36 - 1) [7] [true] false 0) s) (fun t => t.mem.byte (2 ^ 36 - 1) == 7) = true ∧
    ends (exec (.bar4Write 4 [1, 2] [true, false] false 0) s) (fun t => t.mem.cells == [(4, 1), (5, 0xAB)]) = true ∧
    ends (exec (.bar4Write 0 [1] [true] false 0) far) (fun t => t.mem == {} && t.hif.violCnt == 1) = true := by
  decide +kernel

/-- Bar4Transfers: a read and a write of a fenced stack. -/
theorem test_bar4_held :
    let s := { up with rel := { up.rel with fenced := [0x8000] } }
    s.stackHeld 0 = true ∧ s.rangeAll Region.hostOk 0 8 = true ∧
    ends (exec (.bar4Read 0 8 3) s) (fun t => t.hif.barHeld == [.read 0 8 3] && t.hif.tx == []) = true ∧
    ends (exec (.bar4Write 0 [1] [true] false 0) s) (fun t => t.hif.barHeld.length == 1 && t.mem == {}) = true := by
  decide +kernel

/-- ConfigAndViolations: before READY, a read of the identity, a write of the first register that keeps what is written,
and a violation. -/
theorem test_config :
    let early := { up with mgt := { up.mgt with ready := false } }
    ends (exec (.configRequest .pf0 false 0 0) early) (fun t => t.hif.tx == [.completion 0 .rrs [] false]) = true ∧
    up.mgt.ready = true ∧ up.hif.linkUp = true ∧
    ends (exec (.configRequest .pf0 false 0 0) up) (fun t => t.hif.tx.length == 1) = true ∧
    ends (exec (.configRequest .pf1 true 0x10 0xFFFFFFFF) up) (fun t => t.cfgRead .pf1 0x10 == 0xFFF00004) = true ∧
    up.doorbellRead .pf0 0 (up.doorbellPage 2) = true ∧ up.doorbellRead .pf0 0 1 = false ∧
    ends (exec (.hostProtocolViolation .bar2Access .pf0 0 0 (BitVec.ofNat 64 (up.doorbellPage 2))) up) (fun t =>
      t.hif.violCnt == 0 && t.hif.tx == [.completion 0 .sc (zeros 8) false]) = true ∧
    ends (exec (.hostProtocolViolation .atomicOp .pf0 0 0 0) up) (fun t => t.hif.violCnt == 1) = true := by decide +kernel

/-- AtsAndPageRequests: movers that wait for a translation and for a page. -/
theorem test_ats :
    let s := up.modMover 32 fun m => { m with wait := .ats 0x12345 }
    let p := up.modMover 32 fun m => { m with wait := .pri 0x12345 }
    let c := { up with hif := { up.hif with atc := [{ die := 0, pasid := none, page := 0x12000, base := 0, size := 4096 }] } }
    ends (exec (.atsTranslationCompletion 32 (some { base := 0x8000, size := 4096 })) s)
      (fun t => (t.mover 32).wait == .none && t.hif.atc.length == 1) = true ∧
    ends (exec (.atsInvalidate none 0x12000 4096) c) (fun t => t.hif.atc == [] && t.hif.tx == [.invalidateDone]) = true ∧
    ends (exec (.pageRequestResponse 32 .success) p) (fun t => (t.mover 32).wait == .ats 0x12345) = true := by decide +kernel

/-- LinkLossAndReturn: a link that is up with a read outstanding, and one that trains. -/
theorem test_link :
    let rd : OutRead := { tag := 5, fn := .pf0, addr := 0x1000, len := 128, who := .ring 2 7 1 }
    let s := { up with hif := { up.hif with reads := [rd] } }
    let d := { up with hif := {} }
    ends (exec .linkDown s) (fun t => !t.hif.linkUp && t.hif.reads == [] && !(t.ring 2).reading) = true ∧
    d.regionUp 2 = true ∧ d.rel.pinActive.getD 0 false = false ∧ d.pwr.refclk = true ∧
    ends (exec (.pcieLinkUp 16 6 true) d) (fun t => t.hif.linkUp && t.hif.width == 16 && t.hif.rate == 6) = true := by
  decide +kernel

/-! ### Registers, pins, resets, reliability, power -/

/-- SetUpRegisters: RING_ENABLE before and after READY, of a ring that is enabled, and of the job ring while a job runs. -/
theorem test_ring_enable :
    let on := up.modRing 2 fun g => { g with en := true }
    let early := { up with mgt := { up.mgt with ready := false } }
    let jobRing := busy.modRing 0 fun g => { g with en := true }
    on.fieldsOk = true ∧ busy.job.cur.isSome = true ∧
    ends (exec (.ringEnable .pf0 2 1) up) (fun t => (t.ring 2).en) = true ∧
    ends (exec (.ringEnable .pf0 2 1) early) (fun t => !(t.ring 2).en && t.rel.regViol == 1) = true ∧
    ends (exec (.ringEnable .pf0 2 0) on) (fun t => !(t.ring 2).en) = true ∧
    ends (exec (.ringEnable .pf0 0 0) jobRing) (fun t => (t.ring 0).en && (t.ring 0).disabling) = true := by decide +kernel

/-- SetUpRegisters: BAR4_BASE with a reserved bit, MEM_STACK_LIMIT at 1, at 0 and with a reserved bit, MEM_CE_RETIRE at
255, an offset without a register, and a W1C counter of each block. -/
theorem test_registers :
    let w := fun (off : BitVec 24) (v : DWord) (p : State → Bool) => ends (exec (.registerWrite .pf0 off false v) up) p
    let s := { up with
      hif := { up.hif with violCnt := 0xFF }, regs := { up.regs with ceCnt := 0xFF }, pwr := { up.pwr with uvCnt := 0xFF }
      rel := { up.rel with regViol := 0xFF }, sec := { up.sec with ghRefuse := 0xFF } }
    ends (exec (.bar4BaseWrite 0x0000100000000001) up) (fun t => t.hif.bar4Base == 0x100000000000 && t.rel.regViol == 1) = true ∧
    w 0x3000C 1 (fun t => t.regs.stackLimit == 1 && t.rel.regViol == 0) = true ∧
    w 0x3000C 0 (fun t => t.regs.stackLimit == 1024 && t.rel.regViol == 1) = true ∧
    w 0x3000C 0x10001 (fun t => t.regs.stackLimit == 1 && t.rel.regViol == 1) = true ∧
    w 0x30008 255 (fun t => t.regs.ceRetire == 255) = true ∧ w 0x30014 1 (fun t => t.rel.regViol == 1) = true ∧
    ends (exec (.w1cCounterWrite .pf0 0x20 0x0F) s) (fun t => t.hif.violCnt == 0xF0) = true ∧
    ends (exec (.w1cCounterWrite .pf0 0x30020 0xFFFFFFFF) s) (fun t => t.regs.ceCnt == 0) = true ∧
    ends (exec (.w1cCounterWrite .pf1 0x20040 0x0F) s) (fun t => t.pwr.uvCnt == 0xF0) = true ∧
    ends (exec (.w1cCounterWrite .pf1 0x30010 0x0F) s) (fun t => t.rel.regViol == 0xF0) = true ∧
    ends (exec (.w1cCounterWrite .pf1 0x40010 0x0F) s) (fun t => t.sec.ghRefuse == 0xF0) = true := by decide +kernel

/-- SetUpRegisters: reads of a register, of a counter, of a write-only register, beside every register, and of a stack that is
not there. -/
theorem test_register_reads :
    let s := { up with regs := { up.regs with ceCnt := 7 } }
    let small := { up with variant := .v12H4 }
    s.regRead .pf0 0x3000C false = 1024 ∧ s.regRead .pf0 0x30020 false = 7 ∧ s.regRead .pf0 0x30014 false = 0 ∧
    s.regRead .pf1 0x50004 false = 0 ∧ small.fieldsOk = true ∧ small.variant.hasStack 6 = false ∧
    small.regRead .pf0 (0x30040 + 4 * 6) false = 3 := by decide +kernel

set_option maxRecDepth 20000 in
/-- ControlWritesAct: DEBUG_EN from 0 to 1 and again, PORT_EN up and down, the topology of the example of 17_startup_registers.md (16
by 1 by 1 modules, this one at 5), one out of range, and MOD_RST with a job. -/
theorem test_control :
    let dbg := { up with regs := { up.regs with debugEn := true } }
    let p0 := { up with fab := { up.fab with portEn := 1 } }
    ends (exec (.debugEnWrite 1) up) (fun t => t.regs.debugEn && t.sec.logCount == 1) = true ∧ dbg.regs.debugEn = true ∧
    ends (exec (.debugEnWrite 1) dbg) (fun t => t.sec.logCount == 0) = true ∧
    ends (exec (.portEnWrite 2) p0) (fun t => (t.port 0).state == 0 && (t.port 1).state == 1) = true ∧
    ends (exec (.fabTopoWrite .topo 0x14000000F) up) (fun t => t.fab.topoNow == 0x14000000F) = true ∧
    ends (exec (.fabTopoWrite .topo 0x140000004) up) (fun t => t.fab.topo == 0 && t.rel.regViol == 1) = true ∧
    ends (exec (.fabTopoWrite .linkmap 0x98) up) (fun t => t.fab.linkmap == 0x98 && t.rel.regViol == 0) = true ∧
    ends (exec (.modRst 1) busy) (fun t => t.mgt.resetPending == some .reg &&
      t.job.cur.all fun j => j.preempt == some .moduleReset) = true := by decide +kernel

/-- FilteredInputs: one sample short of N. -/
theorem test_glitches :
    let g := fun (i : Nat) (o : Out) => ends o fun t => t.rel.pinGlitch.getD i 0 == 1
    let low := { up with rel := { up.rel with pinActive := List.replicate 5 true }, mgt := { up.mgt with resetPending := some .pin } }
    up.filtersUp = true ∧ low.filtersUp = true ∧
    g 0 (exec (.perstN 24) up) = true ∧ g 0 (exec (.perstNRelease 24) low) = true ∧
    g 1 (exec (.throttleN true 4) up) = true ∧ g 2 (exec (.wakeN true 24) up) = true ∧
    g 3 (exec (.alertN 249) up) = true ∧ g 3 (exec (.alertNRelease 249) low) = true ∧
    g 4 (exec (.mgtRstN 249) up) = true ∧ g 4 (exec (.mgtRstNRelease 249) low) = true := by decide +kernel

/-- Pins: N samples of each input, a stuck input, cables, and a JTAG instruction. -/
theorem test_pins :
    let low := { busy with rel := { busy.rel with pinActive := List.replicate 5 true }, mgt := { busy.mgt with resetPending := some .pin } }
    let seated := up.modPort 0 fun p => { p with cblPres := true, cblPower := true, state := 4, paired := true }
    ends (exec (.throttleN true 250) busy) (fun t => t.effCeil == 800) = true ∧
    ends (exec (.wakeN true 250) busy) (fun t => t.rel.pinActive.getD 2 false) = true ∧
    ends (exec (.perstNRelease 250) low) (fun t => !t.rel.pinActive.getD 0 true) = true ∧
    ends (exec (.alertNRelease 250) low) (fun t => !t.rel.pinActive.getD 3 true) = true ∧
    ends (exec (.alertN 250) busy) (fun t => t.job.cur.all fun j => j.preempt == some .alert) = true ∧
    ends (exec (.mgtRstN 250) busy) (fun t => t.mgt.resetPending == some .pin) = true ∧
    ends (exec (.inputStuckCount 4) low) (fun t => t.rel.pinStuck.getD 4 0 == 1) = true ∧
    ends (exec (.cblPresN 0 true) up) (fun t => (t.port 0).cblPower) = true ∧
    ends (exec (.cblPresN 0 false) seated) (fun t => !(t.port 0).cblPower && (t.port 0).state == 1) = true ∧
    ends (exec (.cableOvercurrent 0) seated) (fun t => (t.port 0).cblPres && !(t.port 0).cblPower) = true ∧
    ends (exec (.jtagInstruction .extest) up) (fun t => t.side.jtag == .bypass) = true ∧
    ends (exec (.jtagInstruction .extest) low) (fun t => t.side.jtag == .extest) = true := by decide +kernel

/-- FilteredInputs, Pins: samples within a lockout, one beyond it, and samples at the filtered level. -/
theorem test_lockout :
    let s := { up with rel := { up.rel with pinLock := List.replicate 5 100 } }
    s.filtersUp = true ∧
    ends (exec (.perstN 100) s) (fun t => t.rel.pinLock.getD 0 9 == 0 && !t.rel.pinActive.getD 0 true && t.rel.pinGlitch.getD 0 1 == 0) = true ∧
    ends (exec (.alertN 101) s) (fun t => t.rel.pinLock.getD 3 9 == 0 && t.rel.pinGlitch.getD 3 0 == 1) = true ∧
    ends (exec (.throttleN false 7) s) (fun t => t.rel.pinLock.getD 1 9 == 93 && t.rel.pinGlitch.getD 1 1 == 0) = true ∧
    ends (exec (.mgtRstNRelease 7) up) (fun t => t == up) = true := by decide +kernel

/-- HostResets: each with a job that runs and rings of both functions enabled. -/
theorem test_host_resets :
    let s := (busy.modRing 2 fun g => { g with en := true }).modRing 64 fun g => { g with en := true }
    s.shaped = true ∧ s.hostUp = true ∧
    ends (exec .flrPf0 s) (fun t => !(t.ring 2).en && (t.ring 64).en && t.job.cur.all fun j => j.preempt == some .flr) = true ∧
    ends (exec .flrPf1 s) (fun t => (t.ring 2).en && !(t.ring 64).en && t.job.cur.all fun j => j.preempt == none) = true ∧
    ends (exec .d3hot s) (fun t => (t.ring 2).en && t.job.cur.all fun j => j.preempt == some .d3) = true ∧
    ends (exec .hostInterfaceReset s) (fun t => !(t.ring 2).en && !t.hif.linkUp) = true ∧
    ends (exec (.perstN 25) s) (fun t => !t.hif.linkUp && t.rel.pinActive.getD 0 false) = true := by decide +kernel

/-- ModuleReset, ColdStart: no job, the bound with a job, a release, and a first supply with 2,200 and 2,199 uF. -/
theorem test_module_reset :
    let idle := { up with mgt := { up.mgt with resetPending := some .reg } }
    let running := { busy with mgt := { busy.mgt with resetPending := some .pin } }
    let held := { up with mgt := { up.mgt with ready := false }, rel := { up.rel with pinActive := List.replicate 5 true } }
    ends (exec (.moduleReset [] []) idle) (fun t => t.mgt.resetCause == 3 && t.mgt.ready && t.mgt.resetPending == none) = true ∧
    ends (exec (.moduleResetBound [] []) running) (fun t => t.mgt.resetCause == 2 && t.job.cur == none) = true ∧
    ends (exec (.mgtRstNRelease 250) held) (fun t => t.mgt.ready) = true ∧ State.reset.pwr.railsOn = false ∧
    ends (exec (.coldStart [] [] 2200) State.reset) (fun t => t.mgt.boot == 1 && t.mgt.ready && !t.pwr.bankLow) = true ∧
    ends (exec (.coldStart [] [] 2199) State.reset) (fun t => t.pwr.bankLow) = true := by decide +kernel

/-- LeaseRequests, LeaseVacantAndHeartbeat: half A holds the lease under epoch 1; then nobody does. -/
theorem test_lease :
    let free := { up with rel := { up.rel with lease := { epoch := 7, vacant := 100 } } }
    let old := { up with rel := { up.rel with lease := { holder := 0, epoch := 1, age := 100 } } }
    let passing := { up with rel := { up.rel with handover := some { slot := 1, via := .ring .pf1, posted := { idx := 0, bytes := zeros 128 } } } }
    ends (exec (.renew 0 1) old) (fun t => t.rel.lease.age == 0) = true ∧
    ends (exec (.renew 0 0) up) (fun t => (t.half 0).leads == none && t.rel.log.length == 1) = true ∧
    ends (exec (.acquire 1) free) (fun t => t.rel.lease.holder == 1 && t.rel.lease.epoch == 8 && t.mgt.vaultEpoch == 8) = true ∧
    ends (exec (.leaseRelease 0 1) up) (fun t => t.rel.lease.holder == 3) = true ∧
    ends (exec (.leaseRelease 0 1) passing) (fun t => t.rel.lease.holder == 1 && t.rel.lease.epoch == 2) = true ∧
    ends (exec .leaseExpiry old) (fun t => t.rel.lease.holder == 3) = true ∧
    ends (exec .leaseVacant free) (fun t => t.isFenced (srcHalf 1) && t.rel.lease.holder == 0) = true := by decide +kernel

/-- LeaseVacantAndHeartbeat, ErrorHandling: heartbeats, and a queue with errors of rungs 2, 3 and 4. -/
theorem test_errors :
    let quiet := { up with rel := { up.rel with beats := [(0x2000, 1)] } }
    let err := fun (rung : Fin 5) (unit : BitVec 16) => (⟨⟨rung, 1, 0x301, unit, true, 0, 0, 0⟩, 0, 9⟩ : QErr)
    let withErr := fun (q : QErr) => { busy with
      job := { busy.job with cur := some (jobOf (putAt (zeros 256) 0x3C (toLe 9 4))) }, rel := { busy.rel with queue := [q] } }
    tableOk 0 quiet.rel.beats = true ∧
    ends (exec (.heartbeatCheck 0x2000 true) quiet) (fun t => t.rel.beats == []) = true ∧
    ends (exec (.heartbeatCheck 0x3007 false) quiet) (fun t => look 0 t.rel.beats 0x3007 == 1) = true ∧
    ends (exec (.heartbeatCheck 0x2000 false) quiet) (fun t => t.rel.queue.map (·.a.code) == [0x304]) = true ∧
    topRung [err 2 0, err 4 0] = 4 ∧
    ends (exec (.errorHandle []) (withErr (err 2 0))) (fun t => t.job.cur.all fun j => j.ending.isSome) = true ∧
    ends (exec (.errorHandle []) (withErr (err 3 0x4005))) (fun t => t.isFenced (srcEngine 5)) = true ∧
    ends (exec (.errorHandle []) (withErr (err 4 0))) (fun t => t.mgt.fatal) = true := by decide +kernel

/-- ReloadAndHandover: reloads of a course and of a half, and a hand-over that passes, fails and runs out of windows. -/
theorem test_handover :
    let ld := fun (u : BitVec 16) => { up with rel := { up.rel with reloading := [u], fenced := [u] } }
    let s := { up with rel := { up.rel with handover := some { slot := 1, via := .ring .pf1, posted := { idx := 0, bytes := zeros 128 }, windows := 4096 } } }
    s.lead = some 0 ∧ s.halfUp 0 = true ∧ s.halfUp 1 = true ∧
    ends (exec (.reload 0x3001 true) (ld 0x3001)) (fun t => t.rel.fenced == [] && t.rel.reloading == []) = true ∧
    ends (exec (.reload 0x3001 false) (ld 0x3001)) (fun t => t.rel.fenced == [0x3001]) = true ∧
    ends (exec (.reload 0x2000 true) (ld 0x2000)) (fun t => t.rel.fenced == []) = true ∧
    ends (exec (.fwHandover none) s) (fun t => t.rel.lease.holder == 1 && t.mgt.fwSlot == 1) = true ∧
    ends (exec (.fwHandover (some 0x3001)) s) (fun t => t.rel.lease.holder == 0 && t.rel.handover == none) = true ∧
    ends (exec (.handoverTimeout 0x2000) s) (fun t => t.mgt.fwSlot == 0 && t.rel.handover == none) = true := by decide +kernel

/-- RailsAndThermal: each threshold at its first value, in sixteenths of a degree. -/
theorem test_rails :
    let held := { up with pwr := { up.pwr with uvHold := [true, true, true], thermalHold := List.replicate 32 true, limit := true } }
    let t16 := fun (c : Nat) => BitVec.ofNat 16 (16 * c)
    ends (exec (.uvHold 0) up) (fun t => t.pwr.uvCnt == 1 && !t.regionUp 0) = true ∧
    ends (exec (.uvRelease 0) held) (fun t => t.pwr.uvHold == [false, true, true]) = true ∧
    ends (exec (.railLost 0) up) (fun t => t.rel.queue.map (·.a.rung) == [4]) = true ∧
    ends (exec (.limitEnter ⟨500, true⟩) up) (fun t => t.railMv 0 == 500 && t.pwr.freeze) = true ∧
    ends (exec .limitExit held) (fun t => !t.pwr.limit) = true ∧
    ends (exec .limitExit { held with pwr := { held.pwr with freeze := true } }) (fun t => t.pwr.limit && !t.pwr.freeze) = true ∧
    up.variant.hasSensor 8 = true ∧ up.variant.hasSensor 16 = true ∧
    ends (exec (.thermalHold 8 (t16 105)) up) (fun t => t.pwr.thermalHold.getD 8 false && t.railMv 2 == 500) = true ∧
    ends (exec (.thermalHold 16 (t16 95)) up) (fun t => t.pwr.thermalHold.getD 16 false) = true ∧
    ends (exec (.thermalRelease 8 (t16 101)) held) (fun t => !t.pwr.thermalHold.getD 8 true) = true ∧
    ends (exec (.thermalRelease 16 (t16 90)) held) (fun t => !t.pwr.thermalHold.getD 16 true) = true ∧
    ends (exec (.thermalTrip 8 (t16 115)) up) (fun t => !t.regionUp 0 && t.rel.queue.length == 1) = true ∧
    ends (exec (.dramTrip 0 (t16 105)) up) (fun t => t.rel.queue.map (·.a.code) == [0x30F]) = true := by decide +kernel

/-- CreditsAndPace: a refill at 0 and at 103 degrees, windows, and the reference clock's loss and return. -/
theorem test_credits :
    let k : Course := { ranges := [{ first := 0, count := 1, epoch := 0, descBase := 0, slotShift := 7, eclass := 0, affinity := 0, src := 0 }] }
    let s := { up with courses := k :: List.replicate 7 {} }
    let t : Telemetry := { inputMw := 0, railMw := 0, temps := List.replicate 32 (BitVec.ofNat 16 (16 * 103)), vset := [] }
    let dark := { up with pwr := { up.pwr with refclk := false } }
    (s.course 0).wants = true ∧ (s.course 1).wants = false ∧
    heatRoom { s.pwr with temp := List.replicate 32 0 } 0 ≠ 0 ∧
    ends (exec (.creditRefill { t with temps := List.replicate 32 0 }) s) (fun u => (u.course 0).mask == 0xFF) = true ∧
    ends (exec (.creditRefill t) s) (fun u => (u.course 0).bucket == 0 && (u.course 0).mask == 0x0F) = true ∧
    ends (exec (.paceWindow 8 25600) up) (fun u => u.pwr.pace.getD 8 (true, 0) == (false, 25600) && u.rel.lease.age == 1) = true ∧
    ends (exec .refclkLoss up) (fun u => u.pwr.pace.all (·.1)) = true ∧
    ends (exec (.paceWindow 8 1) dark) (fun u => u.rel.lease.age == 0) = true ∧
    ends (exec .refclkReturn dark) (fun u => u.pwr.refclk) = true := by decide +kernel

/-- The worked example of 14_power_thermal_holdup.md: of 12,902 uJ a course at 97 degrees draws 798 and each of seven
cooler ones 1,729. -/
theorem test_credit_shares :
    let s := { up with pwr := { up.pwr with temp := (List.replicate 32 0).set 2 (BitVec.ofNat 16 (16 * 97)) } }
    let t : Telemetry := { inputMw := 680000, railMw := 0, temps := [], vset := [] }
    let k : Course := { sort := some { desc := [], src := 0, descBase := 0 } }
    let total := 7 * heatRoom s.pwr 0 + heatRoom s.pwr 2
    s.refillEnergy t / 100000 = 12902 ∧ (refillCourse s.pwr (s.refillEnergy t) total 2 false k).bucket = 798 ∧
    (refillCourse s.pwr (s.refillEnergy t) total 0 false k).bucket = 1729 := by decide +kernel

/-- SupplyLossAndVault: a loss, its save, a bank that recovers, and a watchdog one unit short of its limit and at it. -/
theorem test_supply :
    let lost := { up with pwr := { up.pwr with halted := true, lossCause := 1 } }
    ends (exec (.supplyLoss true) up) (fun t => t.pwr.halted && t.pwr.lossCause == 2 && !t.hif.linkUp) = true ∧
    ends (exec .vaultSave lost) (fun t => (t.mgt.vaultSlots.getD 0 none).isSome && !t.pwr.railsOn) = true ∧
    ends (exec .bankReady up) (fun t => t.pwr.bankReady) = true ∧
    ends (exec (.progressWatchdog 9999999) busy) (fun t => t.mgt.wdogCount == 9999999) = true ∧
    ends (exec (.progressWatchdog 10000000) busy) (fun t => t.mgt.wdogCount == 0 && (t.ring 32).evq.length == 1) = true := by
  decide +kernel

/-! ### Engines -/

/-- Engine 0 of a module whose half A maps the first 64 KiB of job addresses to the first 64 KiB of HBM, with write
permission; a job runs. -/
def eng (x : Engine) : State :=
  { busy with
    engines := x :: List.replicate 63 {}
    halves := [{ leads := some 1, tcache := [{ base := 0, big := false, entry := 0x7, eaddr := 0 }] }, {}] }

/-- A range of 16 values from 100 on, pinned by residue. -/
def pinned : Range := { first := 100, count := 16, epoch := 3, descBase := 0x1000, slotShift := 7, eclass := 1, affinity := 2, src := 0 }

/-- Engine 0 before a claim, with a course. -/
def claiming (k : Course) : State := { eng { tsetLoaded := true } with courses := k :: List.replicate 7 {} }

/-- TileClaims: the bucket holds exactly the cost, one credit less, no free offset of the residue, none at all, no table
set, a held fault. -/
theorem test_tile_claim :
    let k : Course := { ranges := [pinned], mask := 0xFF, bucket := 76, cost := [0, 76, 0, 0, 0, 0, 0, 0] }
    let taken := { pinned with issued := [(0, 1), (8, 1)] }
    let stalls := fun (s : State) (c : Byte) => ends (exec (.tileClaim 0) s) fun t => (t.engine 0).hold == c && (t.engine 0).claim == none
    (claiming k).engineUp 0 = true ∧ (claiming k).jobClaims = true ∧ pickRange 0 0 k.ranges = some (0, pinned, 0) ∧
    (claiming k).gateOpen 0 1 = true ∧
    ends (exec (.tileClaim 0) (claiming k)) (fun t => ((t.engine 0).claim.map (·.value)) == some 100 && (t.course 0).bucket == 0) = true ∧
    stalls (claiming { k with bucket := 75 }) 0x06 = true ∧ stalls (claiming { k with ranges := [taken] }) 0x05 = true ∧
    stalls (eng { tsetLoaded := true, reloadActive := some 1, fault := some { cause := 0x20, host := false } }) 0x02 = true ∧
    stalls (claiming { k with ranges := [] }) 0x04 = true ∧ stalls (eng {}) 0x02 = true ∧
    stalls (eng { tsetLoaded := true, fault := some { cause := 0x20, host := false } }) 0x07 = true := by decide +kernel

/-- A tile descriptor for the image with handle 1, of class 1, with one staging entry. -/
def tdBytes (fields : List (Nat × Nat × Nat)) : List Byte :=
  let d := putAt (putAt (zeros 64) 0 (toLe 1 4)) 4 [1, 1]
  let d := fields.foldl (fun d f => putAt d f.1 (toLe f.2.2 f.2.1)) d
  withCrc (d.take 60)

/-- A staging entry: job address, local address, length, direction. -/
def seBytes (ja la len dir : Nat) : List Byte :=
  withCrc (toLe ja 8 ++ toLe la 4 ++ toLe len 4 ++ toLe dir 1 ++ zeros 11)

/-- Memory that holds bytes at an address. -/
def memWith (a : Nat) (bs : List Byte) : Memory := ({} : Memory).write a bs false

/-- A claimed tile, its descriptor at 0x1000. -/
def claimed : Tile := { value := 100, epoch := 3, eclass := 1, cost := 76, descAddr := 0x1000 }

/-- A tile that is read and filled. -/
def readTile : Tile := { claimed with read := true, desc := tdBytes [], stage := [seBytes 0 0 64 0], fills := 1 }

/-- A plane that serves handle 1: one phase of two slots, ENTRY_SLOT 0, with a configuration word for brick 0. -/
def planeOf (block : List Byte) (words : List (Nat × (DWord × DWord))) : Plane :=
  { words, params := [block], phases := 1, slots := 2, handle := 1, valid := true }

set_option maxRecDepth 20000 in
/-- TileDispatches: a descriptor that passes its checks, one whose class differs, one with a wrong CRC; a tile that starts,
one whose image is in the idle plane, one whose image must be loaded, and one whose handle names nothing. -/
theorem test_dispatch :
    let at' := fun (bs : List Byte) => { eng { claim := some claimed } with mem := memWith 0x1000 (bs ++ seBytes 0 0 64 0) }
    let faults := fun (s : State) (c : BitVec 16) => ends (exec (.dispatch 0) s) fun t => ((t.engine 0).fault.map (·.cause)) == some c
    let p := planeOf (zeros 128) []
    let stored : Stored := { handle := 1, kind := 1, bytes := [], digest := [], slot := 0 }
    let loading := { eng { claim := some readTile } with mgt := { up.mgt with images := [stored] } }
    tileDescFault (tdBytes []) 1 = none ∧ (at' []).jobStopping = false ∧ stageFault (seBytes 0 0 64 0) = none ∧
    ends (exec (.dispatch 0) (at' (tdBytes []))) (fun t => ((t.engine 0).claim.map (·.read)) == some true) = true ∧
    faults (at' (tdBytes [(4, 1, 2)])) (BitVec.ofNat 16 fEclassMismatch) = true ∧
    faults (at' (zeros 64)) (BitVec.ofNat 16 fDescCrc) = true ∧
    ends (exec (.dispatch 0) (eng { claim := some { readTile with fills := 0 } })) (fun t => (t.engine 0).run == none) = true ∧
    ends (exec (.dispatch 0) (eng { claim := some readTile, plane0 := p })) (fun t => ((t.engine 0).run.map (·.value)) == some 100) = true ∧
    ends (exec (.planeSwitch 0) (eng { claim := some readTile, plane1 := p })) (fun t => (t.engine 0).active == 1) = true ∧
    ends (exec (.dispatch 0) loading) (fun t => (t.course 0).imageReq == [(0, 1)]) = true ∧
    ends (exec (.dispatch 0) (eng { claim := some readTile })) (fun t => ((t.course 0).stewardFault.map (·.cause)) == some 0x1E) = true := by
  decide +kernel

/-- A tile whose fill comes. -/
def filling (ja la : Nat) : State :=
  { eng { claim := some { readTile with stage := [seBytes ja la 64 0], fills := 0 } } with mem := { cells := [(0x40, 7)], synd := [(0x20, 3)] } }

set_option maxRecDepth 20000 in
/-- StagingFills: the last 64 bytes of the scratchpad, the first beyond it, bad words, a fenced stack with the data or with the
tables, a page not present. -/
theorem test_staging_fill :
    let s := filling 0x40 0x3FFFC0
    let held := { s with rel := { s.rel with fenced := [0x8000] } }
    let tables := { held with halves := [{ leads := some 1 }, {}] }
    s.mem.wf = true ∧ s.mem.flawed 0x40 64 = [] ∧ s.mem.anyBad 0x80 64 = true ∧ held.stackHeld 0x40 = true ∧
    (s.translate 0 (engReader 0 claimed) 0x40 false true).1 = .ok 0 0x40 ∧
    (s.translate 0 (engReader 0 claimed) 0x10040 false true).1 = .bad fXlNotPresent 3 0 0 ∧
    ends (exec (.stagingFill 0) s) (fun t => t.mem.byte (scratchBase 0 + 0x3FFFC0) == 7 && ((t.engine 0).claim.map (·.fills)) == some 1) = true ∧
    ends (exec (.stagingFill 0) (filling 0x80 0)) (fun t => t.mem.bad (scratchBase 0 / 4) && ((t.engine 0).claim.map (·.poison)) == some true) = true ∧
    ends (exec (.stagingFill 0) (filling 0x40 0x400000)) (fun t => t.mem.cells == [(0x40, 7)] && (t.engine 0).counters.getD nOorWr 0 == 1) = true ∧
    ends (exec (.stagingFill 0) held) (fun t => (t.engine 0).hold == 0x0D) = true ∧
    (tables.translate 0 (engReader 0 claimed) 0x40 false true).1 = .held ∧
    ends (exec (.stagingFill 0) tables) (fun t => (t.engine 0).hold == 0x0D) = true ∧
    ends (exec (.stagingFill 0) (filling 0x10040 0)) (fun t => ((t.engine 0).fault.map (·.cause)) == some (BitVec.ofNat 16 fXlNotPresent)) = true := by
  decide +kernel

/-- A stored file with a handle. -/
def storedAs (h : Word) (kind : Nat) (bs : List Byte) : Stored := { handle := h, kind, bytes := bs, digest := [], slot := 0 }

/-- PlanesAndTableSetsLoad: a load that starts, one of a debug image, one that ends, a table set, and a reload after a resume
before and after the image is in the idle plane. -/
theorem test_loads :
    let asks := fun (bs : List Byte) => { eng {} with
      courses := { imageReq := [(0, 1)] } :: List.replicate 7 {}, mgt := { up.mgt with images := [storedAs 1 1 bs] } }
    let debugImage := putAt (zeros 256) 0xC [2]
    let ends' := { eng { loading := some 1 } with mgt := { up.mgt with images := [storedAs 1 1 (zeros 256)] } }
    let resumed := fun (p : Plane) => { eng { reloadActive := some 1, plane1 := p } with mgt := { up.mgt with images := [storedAs 1 1 (zeros 256)] } }
    let j := jobOf (putAt (zeros 256) 0x28 [5])
    let tables := { { eng {} with mgt := { up.mgt with images := [storedAs 5 2 (zeros 64)] } } with job := { up.job with cur := some j } }
    ends (exec (.planeLoad 0) (asks (zeros 256))) (fun t => (t.engine 0).loading == some 1 && (t.course 0).imageReq == []) = true ∧
    flagDebug (imgFlags debugImage) = true ∧
    ends (exec (.planeLoad 0) (asks debugImage)) (fun t => ((t.engine 0).fault.map (·.cause)) == some 0x16) = true ∧
    (ends'.engine 0).loading = some (1 : Word) ∧ (ends'.storedOf 1 1).isSome = true ∧ ends'.mem.flawed (stageBase 0 1) 256 = [] ∧
    tables.jobStopping = false ∧ (tables.engine 0).tsetLoaded = false ∧ (tables.storedOf (jTset tables.jobDesc) 2).isSome = true ∧
    tables.mem.flawed (stageBase 0 5) 64 = [] ∧ (tables.engineUp 0) = true ∧
    ends (exec (.planeLoad 0) (resumed {})) (fun t => (t.engine 0).loading == some 1 && (t.engine 0).reloadActive == some 1) = true ∧
    (planeOf [] []).serves 1 = true ∧
    ends (exec (.planeSwitch 0) (resumed (planeOf [] []))) (fun t => (t.engine 0).active == 1 && (t.engine 0).reloadActive == none) = true := by
  decide +kernel

/-- PlanesAndTableSetsLoad: the load of an image that is staged clean ends with the image in the idle plane. -/
theorem test_load_ends (bs : List Byte) :
    let s := { eng { loading := some 1 } with mgt := { up.mgt with images := [storedAs 1 1 bs] } }
    s.touchRows (stageBase 0 1) (imgLen bs) = s := by
  intro s
  have h : 0x10000000000 ≤ stageBase 0 1 := by simp only [stageBase, courseBase]; omega
  exact touchRows_local _ _ _ h

/-- An engine that runs a tile with a parameter block and slot words. -/
def running (block : List Byte) (words : List (Nat × (DWord × DWord))) : Engine :=
  { run := some { readTile with desc := zeros 64 }, plane0 := planeOf block words, tsetLoaded := true }

/-- A parameter block of 512 bytes with fields. -/
def blockOf (fields : List (Nat × Nat × Nat)) : List Byte :=
  fields.foldl (fun d f => putAt d f.1 (toLe f.2.2 f.2.1)) (zeros 512)

/-- A program of two beats of 64 bytes, 64 apart, at offset 0x80 of the block: direction, side streams. -/
def agBlock (g : Nat) (dir side : Nat) : List Byte :=
  blockOf [(0xC + 2 * g, 2, 0x80), (0x80, 1, dir), (0x81, 1, 1), (0x82, 1, 63), (0x83, 1, 1), (0x89, 1, side), (0xB0, 2, 1), (0xB4, 4, 64)]

set_option maxRecDepth 20000 in
/-- AddressGeneratorBeats: each port, side streams, a beat beyond the scratchpad, a port that is taken, write beats. -/
theorem test_beats :
    let m := memWith (scratchBase 0) [1, 2, 3]
    let at' := fun (x : Engine) => { eng x with mem := m }
    let far := { running (agBlock 0 0 0) [] with run := some { readTile with desc := putAt (zeros 64) 8 (toLe 0x400000 4) } }
    let full := { running (agBlock 1 0 0) [] with bricks := { done := false, inN := [.act 0] } :: List.replicate 255 {} }
    let surplus := { running (agBlock 1 0 0) [] with bricks := { done := true, inN := [.act 0] } :: List.replicate 255 {} }
    let out := { running (agBlock 2 1 0) [] with sWord := [9] :: List.replicate 15 [] }
    phProg (agBlock 0 0 0) .a ≠ none ∧ agTotal (bytesAt (agBlock 0 0 0) 0x80 128) (zeros 64) = 2 ∧
    (at' (running (agBlock 0 0 0) [])).engineRuns 0 = true ∧
    ends (exec (.agBeat 0 .a) (at' (running (agBlock 0 0 0) []))) (fun t => ((t.engine 0).brick 0 0).inW == [.act 0x030201]) = true ∧
    ends (exec (.agBeat 0 .b) (at' (running (agBlock 1 0 3) []))) (fun t => ((t.engine 0).brick 0 0).inN.length == 1) = true ∧
    ends (exec (.agBeat 0 .c) (at' (running (agBlock 2 0 0) []))) (fun t => (t.engine 0).laneC.getD 0 [] == [0x030201]) = true ∧
    ends (exec (.agBeat 0 .a) (at' far)) (fun t => ((t.engine 0).brick 0 0).inW == [.act 0] && (t.engine 0).counters.getD nOorRd 0 == 1) = true ∧
    full.takesBeat .b 0 = false ∧ surplus.portFree .b 0 = false ∧ surplus.takesBeat .b 0 = true ∧
    ends (exec (.agBeat 0 .b) (at' full)) (fun t => (t.engine 0).beatB == 0) = true ∧
    ends (exec (.agBeat 0 .b) (at' surplus)) (fun t => (t.engine 0).beatB == 1) = true ∧
    ends (exec (.agBeat 0 .c) (at' out)) (fun t => t.mem.byte (scratchBase 0) == 9 && t.mem.byte (scratchBase 0 + 1) == 0 && (t.engine 0).beatC == 1) = true ∧
    ends (exec (.agBeat 0 .c) (at' (running (agBlock 2 1 0) []))) (fun t => (t.engine 0).beatC == 0) = true := by decide +kernel

/-- The configuration word of the worked example of 03_engine_fabric.md. -/
theorem test_config_word :
    let c : DWord := 0x05218000203F0800
    cOpc c = 1 ∧ cWfmt c = 4 ∧ cAfmt c = 8 ∧ cAsrc c = 3 ∧ cPsrc c = 0 ∧ cDst c = 0 ∧ cRfw c = 0 ∧ cRfInc c = 1 ∧
    cAccRow c = 0 ∧ cRep c = 63 ∧ cNext c = 1 ∧ cLast c = false ∧ cScale c = 0 ∧ slotOk c 0 = true ∧ pairLimit 4 8 = 256 := by
  decide +kernel

/-- BricksFire: each operation of brick 0 with a word at its W input; MAC with weight 1 adds the activation and promotes;
a brick without a word. -/
theorem test_bricks :
    let opw := fun (op rest : Nat) => BitVec.ofNat 64 (op * 2 ^ 58 + rest)
    let west := 3 * 2 ^ 47
    let b : Brick := { done := false, inW := [.act 5], rf := [(0, 1)] }
    let block := blockOf [(6, 2, 16)]
    let x := fun (w : DWord) => { running block [(0, (w, 0))] with bricks := b :: List.replicate 255 { done := true } }
    let fires := fun (i : Instr) (w : DWord) (p : Engine → Bool) =>
      (x w).canFire (cOpc w) 0 0 && ends (exec i (eng (x w))) fun t => p (t.engine 0)
    let mac := opw 1 (4 * 2 ^ 54 + 8 * 2 ^ 50 + west + 2 ^ 41 + 2 ^ 10)
    fires (.brickNop 0 0 0) (opw 0 (2 ^ 10)) (fun y => (y.brick 0 0).done) = true ∧
    fires (.mac 0 0 0) mac (fun y => ((accGet y.acc0 0).map (·.val)) == some 5 && (y.brick 0 0).inW == []) = true ∧
    fires (.pass 0 0 0) (opw 2 (west + 2 ^ 10)) (fun y => (y.brick 0 0).inW == []) = true ∧
    fires (.ldw 0 0 0) (opw 3 (west + 63 * 2 ^ 35)) (fun y => look 0 (y.brick 0 0).rf 63 == 5 && (y.brick 0 0).scale.getD 0 0 == 5) = true ∧
    fires (.emax 0 0 0) (opw 4 (west + 2 ^ 16)) (fun y => (y.brick 0 0).fired == 1) = true ∧
    fires (.eadd 0 0 0) (opw 5 (west + 2 ^ 11)) (fun y => (y.brick 0 0).slot == 1 && !(y.brick 0 0).done) = true ∧
    ends (exec (.pass 0 0 1) (eng { x 0 with bricks := List.replicate 256 { done := false }, plane0 := planeOf block [(32, (opw 2 west, 0))] }))
      (fun t => (t.engine 0).hold == 0x01) = true := by decide +kernel

/-- An engine whose lanes stand before one vector instruction: VD 2, VA 0, VB 1, IMM; register 0 holds 1.0 and register 1
holds 2.0 in every element. -/
def lanes (op imm : Nat) : Engine :=
  let regs := List.replicate 32 0x3F800000#32 :: List.replicate 32 0x40000000#32 :: List.replicate 30 (List.replicate 32 0#32)
  { running (blockOf [(0x12, 2, 0x80), (0x14, 2, 2), (0x16, 2, 0x90), (0x18, 1, 1), (0x80, 4, op * 2 ^ 26 + 2 * 2 ^ 21 + 2 ^ 11 + imm),
      (0x84, 4, 0xF * 2 ^ 26), (0x90, 4, 0x40400000)]) [] with
    vregs := List.replicate 16 regs, vdone := false }

/-- VectorLanes: each instruction, with the value it leaves in the last element of the last lane. -/
theorem test_vector :
    let go := fun (i : Instr) (op imm : Nat) (v : Word) => ends (exec i (eng (lanes op imm))) fun t =>
      ((t.engine 0).vreg 15 2).getD 31 9 == v && (t.engine 0).vpc == 1
    (eng (lanes 3 0)).vecReady 0 3 usesAB = true ∧
    go (.vecNop 0) 0 0 0 = true ∧ go (.vecAdd 0) 3 0 0x40400000 = true ∧ go (.vecSub 0) 4 0 0xBF800000 = true ∧
    go (.vecMul 0) 5 0 0x40000000 = true ∧ go (.vecMax 0) 6 0 0x40000000 = true ∧ go (.vecMin 0) 7 0 0x3F800000 = true ∧
    go (.vecRmax 0) 9 0 0x3F800000 = true ∧ go (.vecRsum 0) 0xA 0 0x42000000 = true ∧ go (.vecConst 0) 0xB 0 0x40400000 = true ∧
    go (.vecCvt 0) 0xC 0 0x3F800000 = true ∧ go (.vecSel 0) 0xD 0 0x3F800000 = true ∧ go (.vecLoop 0) 0xE 0 0 = true ∧
    ends (exec (.vecEnd 0) (eng (lanes 0xF 0))) (fun t => (t.engine 0).vdone) = true := by decide +kernel

/-- VectorPortsAndSfu: IN with and without words, OUT to marks, to the fused operand and to a stream that takes none, SFU
and one evaluation. -/
theorem test_vector_ports :
    let fed := { lanes 1 0 with laneE := List.replicate 16 [.act 7] }
    let fused := lanes 2 2
    let q : SfuReq := { slot := 4, vd := 2, lane := 15, elem := 31, arg := 0 }
    ends (exec (.vecIn 0) (eng fed)) (fun t => ((t.engine 0).vreg 15 2).getD 0 0 == 7 && (t.engine 0).laneE.getD 15 [.act 1] == []) = true ∧
    ends (exec (.vecIn 0) (eng (lanes 1 0))) (fun t => (t.engine 0).hold == 0x01 && (t.engine 0).vpc == 0) = true ∧
    ends (exec (.vecOut 0) (eng (lanes 2 3))) (fun t => (t.engine 0).marks == BitVec.allOnes 256) = true ∧
    ends (exec (.vecOut 0) (eng fused)) (fun t => (t.engine 0).fusedElem == 512) = true ∧
    (lanes 2 1).agDone .c = true ∧ ends (exec (.vecOut 0) (eng (lanes 2 1))) (fun t => (t.engine 0).vpc == 1) = true ∧
    ends (exec (.vecSfu 0) (eng (lanes 8 0))) (fun t => (t.engine 0).sfuQ.length == 512) = true ∧
    ends (exec (.sfuEvaluation 0) (eng { lanes 8 0 with sfuQ := [q] })) (fun t => (t.engine 0).sfuQ == []) = true := by
  decide +kernel

/-- A word with the poison pattern is bad wherever it lies: the staged copies of PlanesAndTableSetsLoad. -/
theorem test_staged_bad (a : Nat) : ({ synd := [(a / 4, 3)] } : Memory).anyBad a 64 = true := by
  have h : a / 4 ≤ (a + 63) / 4 := by omega
  simp [Memory.anyBad, Memory.flawed, Memory.bad, Memory.syn, look, h]
  decide

/-- PhasesAndDrain: a phase that ends, one that does not, a swap, one that waits behind a drain. -/
theorem test_phases :
    let twoPhases := { running (blockOf []) [] with plane0 := { planeOf (blockOf []) [] with phases := 2, params := [blockOf [], blockOf [(3, 1, 1)]] } }
    let last := { running (blockOf []) [] with run := some { readTile with phase := 1 } }
    let d : Drain := { tile := readTile, fmt := 2, fuse := 0, pol := 0, floating := false, masks := 0 }
    twoPhases.phaseOver = true ∧ (running (blockOf [(0x12, 2, 0x80), (0x14, 2, 1)]) []).plane.phases = 1 ∧
    ends (exec (.phaseEnd 0) (eng twoPhases)) (fun t => ((t.engine 0).run.map (·.phase)) == some 1 && ((t.engine 0).brick 0 0).slot == 1) = true ∧
    ends (exec (.phaseEnd 0) (eng (lanes 0 0))) (fun t => ((t.engine 0).run.map (·.phase)) == some 0) = true ∧
    ends (exec (.setSwap 0) (eng last)) (fun t => (t.engine 0).drain.isSome && (t.engine 0).run == none && (t.engine 0).accActive == 1) = true ∧
    ends (exec (.setSwap 0) (eng { last with drain := some d })) (fun t => (t.engine 0).hold == 0x03 && (t.engine 0).run.isSome) = true := by
  decide +kernel

/-- A drain of 128 entries to INT32, all of them EMPTY but entry 1. -/
def draining (n : Nat) : Engine :=
  { drain := some { tile := { readTile with desc := putAt (zeros 64) 6 (toLe n 2) }, fmt := 2, fuse := 0, pol := 0, floating := false, masks := 0 },
    accActive := 1, acc0 := [(1, { val := -2 })] }

/-- PhasesAndDrain: a drain of one block and one of none, and a write-back of the last bytes of a page, of a bad word's mark
and of a page not present. -/
theorem test_drain_writes :
    let wb := fun (ja : Nat) => { eng { wbQ := [{ tile := { readTile with stage := [seBytes ja 0 64 1], wbs := 0 }, fmt := 2, fuse := 0, pol := 0, floating := false, masks := 0 }] } with
      mem := memWith (scratchBase 0) [1, 2, 3] }
    ends (exec (.drain ⟨0, []⟩) (eng (draining 1))) (fun t =>
      t.mem.read (scratchBase 0) 12 == [0, 0, 0, 0, 0xFE, 0xFF, 0xFF, 0xFF, 0, 0, 0, 0] && (t.engine 0).wbQ.length == 1 && (t.engine 0).acc0 == []) = true ∧
    ends (exec (.drain ⟨0, []⟩) (eng (draining 0))) (fun t => t.mem == {} && (t.engine 0).drain == none) = true ∧
    ends (exec (.drain ⟨0, [(131071, true)]⟩) (eng (draining 1))) (fun t => (t.engine 0).wbQ.map (·.tile.poison) == [true]) = true ∧
    ends (exec (.writeBack 0) { wb 0xFFC0 with rel := { up.rel with fenced := [0x8000] } }) (fun t => (t.engine 0).hold == 0x0D) = true ∧
    ends (exec (.writeBack 0) { wb 0xFFC0 with halves := [{ leads := some 1 }, {}], rel := { up.rel with fenced := [0x8000] } }) (fun t =>
      (t.engine 0).hold == 0x0D) = true ∧
    ((wb 0xFFC0).translate 0 (engReader 0 readTile) 0xFFC0 true true).1 = .ok 0 0xFFC0 ∧
    ends (exec (.writeBack 0) (wb 0xFFC0)) (fun t => t.mem.read 0xFFC0 3 == [1, 2, 3] && ((t.engine 0).wbQ.map (·.tile.wbs)) == [1]) = true ∧
    ends (exec (.writeBack 0) (wb 0x10000)) (fun t => (t.engine 0).fault.isSome) = true := by decide +kernel

/-- CommitsCountOnce: a first commit, a duplicate, a stray, and a reload of the steward. -/
theorem test_commit :
    let x : Engine := { wbQ := [{ tile := { readTile with poison := true }, fmt := 2, fuse := 0, pol := 0, floating := false, masks := 0 }] }
    let s := fun (r : List Range) => { eng x with courses := { ranges := r } :: List.replicate 7 {} }
    let k := fun (o : Out) (p : Course → Bool) => ends o fun t => p (t.course 0) && (t.engine 0).wbQ == []
    readTile.landed = true ∧ pinned.holds 100 = true ∧
    k (exec (.commit 0) (s [pinned])) (fun c => c.ranges.map (·.committed) == [[0]] && c.wcPoison == 1) = true ∧
    k (exec (.commit 0) (s [{ pinned with committed := [0] }])) (fun c => c.wcDup == 1) = true ∧
    k (exec (.commit 0) (s [])) (fun c => c.wcStray == 1) = true ∧
    ends (exec (.stewardReload 0) (s [pinned])) (fun t => (t.course 0).epoch == 1 && (t.course 0).ranges.map (·.epoch) == [1]) = true := by
  decide +kernel

/-! ### Management commands -/

/-- A management descriptor posted on ring 1 or 64. -/
def mgmt (fn : PFn) (opc : Nat) (args : List Nat) (s : State) : State :=
  post (mgmtRing fn) (mkDesc 128 opc 0 (args.zipIdx.map fun a => (0x20 + 8 * a.2, 8, a.1))) s

/-- The status of the completion that a management descriptor of PF1 leaves. -/
def status (o : Out) : Nat :=
  match o with
  | .next t => match (t.ring 65).evq with
    | x :: _ => fieldAt x.body 8 2
    | [] => 0xFFFF
  | _ => 0xFFFF

/-- Host memory with bytes at address 0. -/
def hostOf (bs : List Byte) : HostData := { cells := bs.zipIdx.map fun x => (x.2, x.1), status := .ok }

/-- A fabric image of one phase whose program of brick 0 ends at once. -/
def tinyImage : List Byte :=
  let head := [(0, 4, 0x4D394649), (4, 1, 1), (6, 2, 256), (8, 4, 448), (0x14, 1, 1), (0x15, 1, 1), (0x16, 2, 1),
    (0x18, 4, 256), (0x1C, 4, 384), (0x20, 4, 64)].foldl (fun d (f : Nat × Nat × Nat) => putAt d f.1 (toLe f.2.2 f.2.1)) (zeros 256)
  let table := toLe (320 * 2 ^ 32) 8 ++ toLe (64 * 2 ^ 32) 8 ++ zeros 48
  let slot := toLe (2 ^ 10) 8 ++ zeros 56
  let block := [(0, 2, 64), (6, 2, 1), (0xA, 1, 2)].foldl (fun d (f : Nat × Nat × Nat) => putAt d f.1 (toLe f.2.2 f.2.1)) (zeros 64)
  withCrc (head.take 252) ++ table ++ slot ++ block ++ zeros 3320

set_option maxRecDepth 40000 in
/-- VerificationAndHandles: a file that passes every check but the signature's, which is opaque; a file of zeros. -/
theorem test_image : imgFirstFail tinyImage true = 0 ∧ imgFirstFail tinyImage false = 2 ∧ imgFirstFail (zeros 64) true = 1 := by
  decide +kernel

set_option maxRecDepth 40000 in
/-- VerificationAndHandles: a failed verification, a handle released, one that is unknown, one in use, a denied command. -/
theorem test_verification :
    let s := { up with mgt := { up.mgt with images := [storedAs 1 1 (zeros 64)] } }
    let used := s.modEngine 0 fun x => { x with plane0 := planeOf [] [] }
    ends (exec (.imgVerify .pf1 (hostOf [])) (mgmt .pf1 1 [0, 64, 0, 0] s)) (fun t => t.mgt.images.length == 1) = true ∧
    status (exec (.imgVerify .pf1 (hostOf [])) (mgmt .pf1 1 [0, 64, 0, 0] s)) = 2 ∧
    status (exec (.imgVerify .pf1 (hostOf [])) (mgmt .pf1 1 [0, 64, 1, 0] s)) = 2 ∧
    status (exec (.tsetVerify .pf1 (hostOf [])) (mgmt .pf1 2 [0, 64, 0, 0] s)) = 2 ∧
    status (exec (.handleRelease .pf1) (mgmt .pf1 3 [1, 0, 0, 0] s)) = 0 ∧
    ends (exec (.handleRelease .pf1) (mgmt .pf1 3 [1, 0, 0, 0] s)) (fun t => t.mgt.images == []) = true ∧
    status (exec (.handleRelease .pf1) (mgmt .pf1 3 [2, 0, 0, 0] s)) = 1 ∧
    status (exec (.handleRelease .pf1) (mgmt .pf1 3 [1, 0, 0, 0] used)) = 9 ∧
    s.mgmtDenied (.ring .pf0) 0x12 = true ∧
    ends (exec (.setCeiling .pf0) (mgmt .pf0 0x12 [1000, 0, 0, 0] s)) (fun t => t.pwr.ceil == 2000 && (t.ring 32).evq.length == 1) = true := by
  decide +kernel

set_option maxRecDepth 40000 in
/-- GatehouseAndPortCommands: ceilings at 800 and 799 W, a window of the last page of the address space and one beyond it,
the last IDs of the job domain and one beyond, a port fenced and unfenced, and a port that is not there. -/
theorem test_gatehouse :
    let fenced := up.modPort 7 fun p => { p with fenced := true, violCnt := 3 }
    status (exec (.setCeiling .pf1) (mgmt .pf1 0x12 [0, 800, 0, 0] up)) = 0 ∧
    status (exec (.setCeiling .pf1) (mgmt .pf1 0x12 [799, 0, 0, 0] up)) = 1 ∧
    ends (exec (.windowSet .pf1) (mgmt .pf1 0x17 [0x11F, 2 ^ 64 - 4096, 4096, 0] up)) (fun t =>
      t.ghPass (2 ^ 64 - 128) 128 none false && status (.next t) == 0) = true ∧
    status (exec (.windowSet .pf1) (mgmt .pf1 0x17 [0x11F, 2 ^ 64 - 4096, 8192, 0] up)) = 1 ∧
    ends (exec (.jobdomSet .pf1) (mgmt .pf1 0x16 [16380, 4, 1, 0] up)) (fun t =>
      t.sec.jobdom.getLsbD 16383 && !t.sec.jobdom.getLsbD 16379 && status (.next t) == 0) = true ∧
    status (exec (.jobdomSet .pf1) (mgmt .pf1 0x16 [16380, 5, 1, 0] up)) = 1 ∧
    ends (exec (.portFence .pf1) (mgmt .pf1 0x13 [7, 0, 0, 0] up)) (fun t => (t.port 7).fenced) = true ∧
    status (exec (.portFence .pf1) (mgmt .pf1 0x13 [7, 0, 0, 0] fenced)) = 0xE ∧
    ends (exec (.portUnfence .pf1) (mgmt .pf1 0x14 [7, 0, 0, 0] fenced)) (fun t => !(t.port 7).fenced && (t.port 7).violCnt == 0) = true ∧
    status (exec (.portUnfence .pf1) (mgmt .pf1 0x14 [7, 0, 0, 0] up)) = 0xE ∧
    status (exec (.portFence .pf1) (mgmt .pf1 0x13 [7, 0, 0, 0] { up with variant := .v16H2 })) = 1 := by decide +kernel

set_option maxRecDepth 40000 in
/-- FirmwareSlotsAndHostBuffers: a package that is none, a hand-over asked for and one to the running slot, a list of
retired pages of one entry inside the window and outside it, and the log's head and one entry. -/
theorem test_firmware :
    let s := { up with
      mgt := { up.mgt with fwImages := [some [], some []] }
      rel := { up.rel with pages := [(5, 2)] } }
    let logged := s.arrive (plainError 0 0x30A 0)
    pkgVerify (zeros 64) 0 = false ∧ s.retireList.length = 1 ∧ s.halfFenced = false ∧
    status (exec (.fwStage .pf1 (hostOf [])) (mgmt .pf1 0x10 [0, 64, 0, 0] s)) = 2 ∧
    ends (exec (.fwActivate .pf1) (mgmt .pf1 0x11 [0, 0, 0, 0] s)) (fun t => (t.rel.handover.map (·.slot)) == some 1) = true ∧
    status (exec (.fwActivate .pf1) (mgmt .pf1 0x11 [0, 0, 0, 0] { s with mgt := { s.mgt with staged := some 0 } })) = 0xE ∧
    ends (exec (.retireRead .pf1) (mgmt .pf1 0x15 [0, 8, 0, 0] s)) (fun t => t.hif.tx.length == 1 && status (.next t) == 0) = true ∧
    ends (exec (.retireRead .pf1) (mgmt .pf1 0x15 [0x1000000, 8, 0, 0] s)) (fun t => (t.ring 64).hcause == 6 && (t.ring 64).held.isSome) = true ∧
    ends (exec (.logRead .pf1) (mgmt .pf1 0x18 [0, 8192, 0, 0] logged)) (fun t => 1 < t.hif.tx.length && t.rel.log.length == 1) = true := by
  decide +kernel

set_option maxRecDepth 40000 in
/-- SidebandRequests: a wrong DCRC, a malformed descriptor, a denied one, a good one over PCI Express and over I3C, and the
transfers of I3C. -/
theorem test_sideband :
    let d := fun (opc : Nat) (ver : Nat) => mkDesc 128 opc 0 [(2, 1, ver)]
    let h : HostData := hostOf []
    let side := { up with side := { up.side with i3cAddr := some 9, i3cBusy := true, i3cOut := [[1], [2]] }, mgt := { up.mgt with mctp := [[7], [8]] } }
    crcOk (d 4 1) 124 = true ∧ descriptorOk 64 (d 4 2) = false ∧ descriptorOk 64 (d 4 1) = true ∧
    up.mgmtDenied (.mctp false) 0x12 = true ∧ up.mgmtDenied (.mctp false) 4 = false ∧
    ends (exec (.mctpRequest false (zeros 128) h) up) (fun t => t.hif.tx == []) = true ∧
    ends (exec (.mctpRequest false (d 4 2) h) up) (fun t => t.hif.tx.length == 1) = true ∧
    ends (exec (.mctpRequest true (d 0x12 1) h) up) (fun t => t.mgt.mctp.length == 1 && t.side.i3cIbi) = true ∧
    ends (exec (.mctpRequest false (d 4 1) h) up) (fun t => t.hif.tx.length == 1) = true ∧
    ends (exec (.i3cTransfer (.assign 9)) up) (fun t => t.side.i3cAddr == some 9) = true ∧
    ends (exec (.i3cTransfer (.writePacket (d 4 1) h)) side) (fun t => t.mgt.mctp.length == 3) = true ∧
    ends (exec (.i3cTransfer .readResponse) side) (fun t => t.mgt.mctp == [[8]] && t.side.i3cOut.length == 3) = true ∧
    ends (exec .i3cSclTimeout side) (fun t => t.side.i3cOut == [[1]] && !t.side.i3cBusy && t.rel.log.length == 1) = true := by
  decide +kernel

/-- The request and status bytes of the mailbox object that a command sends. -/
def answer (o : Out) : List Byte :=
  match o with
  | .next t => match t.hif.tx with
    | .doe _ b :: _ => bytesAt b 8 2
    | _ => []
  | _ => []

set_option maxRecDepth 40000 in
/-- MailboxObjects: each request; a claim of an unclaimed and of a claimed module; a write to a slot by PF0, and one that the
owner has not signed; a commit of a higher and of a lower SVN. -/
theorem test_mailbox :
    let owned := { up with sec := { up.sec with ownerDigest := [1] } }
    let higher := { up with sec := { up.sec with fwSvn := 3 } }
    let payload := putAt (zeros 64) 0 [4]
    up.doeUp = true ∧ up.claimed = false ∧ owned.claimed = true ∧ up.ownerSigned payload = false ∧
    ends (exec (.doeDiscovery .pf0 0) up) (fun t => t.hif.tx.length == 1) = true ∧
    answer (exec (.getLog .pf0 0 500) up) = [2, 0] ∧ answer (exec (.getLog .pf0 0 501) up) = [2, 1] ∧
    answer (exec (.ownerClaim .pf1 [9]) up) = [4, 0] ∧ answer (exec (.ownerClaim .pf0 [9]) up) = [4, 2] ∧
    answer (exec (.ownerClaim .pf1 [9]) owned) = [4, 2] ∧ answer (exec (.slotWrite .pf0 payload) up) = [5, 2] ∧
    answer (exec (.slotWrite .pf1 payload) up) = [5, 4] ∧
    ends (exec (.svnCommit .pf1) higher) (fun t => t.sec.fuseSvn == 3) = true ∧ answer (exec (.svnCommit .pf0) higher) = [6, 2] := by
  decide +kernel

/-- GET_CERTS and REPORT, whose bytes hold opaque keys: what they answer is read from the model's own equation. -/
theorem test_certs : (∃ t, exec (.getCerts .pf0) up = .next t) ∧ ∃ t, exec (.report .pf0 (zeros 32)) up = .next t := by
  have h : up.doeUp = true := by decide +kernel
  constructor <;> simp [exec, execGetCerts, execReport, h]

/-! ### Jobs, plans, movers -/

/-- HBM with a translation table whose root is at 0x100000 and whose one leaf maps the first 64 KiB of job addresses to the
first 64 KiB of HBM, a plan of one STEP_END segment at 0x40, and its manifest at 0x80. -/
def jobMem : Memory :=
  let seg := withCrc (toLe 5 1 ++ zeros 7 ++ toLe 0x80 8 ++ zeros 12)
  let man := withCrc (zeros 60)
  [(0x100000, toLe 0x101001 8), (0x101000, toLe 0x102001 8), (0x102000, toLe 0x103001 8), (0x103000, toLe 7 8), (0x40, seg),
   (0x80, man)].foldl (fun (m : Memory) x => m.write x.1 x.2 false) {}

/-- A job descriptor: JOB_ID 9, ROOT 0x100000, one segment at 0x40, 4 KiB of checkpoint. -/
def jobDesc (fields : List (Nat × Nat × Nat)) : List Byte :=
  mkDesc 256 1 0 ([(0x20, 8, 0x100000), (0x2C, 1, 1), (0x30, 8, 0x40), (0x38, 4, 1), (0x3C, 4, 9), (0x58, 8, 4096)] ++ fields)

/-- A module that can take a job. -/
def ready (d : List Byte) : State :=
  { post 0 d up with mem := jobMem, pwr := { up.pwr with bankReady := true } }

/-- The status of the completion of the job ring. -/
def jobStatus (o : Out) : Nat :=
  match o with
  | .next t => match (t.ring 32).evq with
    | x :: _ => fieldAt x.body 8 2
    | [] => 0xFFFF
  | _ => 0xFFFF

/-- A saved job. -/
def saved (st : Nat) : SaveArea :=
  { st, boot := 0, job := jobOf (jobDesc []), handles := [], ranges := [], epochs := [], movers := [], lists := [], engines := [],
    scratch := {}, dirty := [], lines := {}, doneCids := [], sorts := [] }

/-- A table set that passes every check but the signature's: the constant 1 in native slots 0, 3 and 4. -/
def tinyTables : List Byte :=
  let head := [(0, 4, 0x4D395354), (4, 1, 1), (6, 2, 64), (8, 4, 64 + 3 * 4160), (0xC, 4, 0x19)].foldl
    (fun d (f : Nat × Nat × Nat) => putAt d f.1 (toLe f.2.2 f.2.1)) (zeros 64)
  let table := zeros 8 ++ toLe 0x3F800000 4 ++ zeros 52 ++ toLe 0x3F800000 4 ++ zeros 4092
  withCrc (head.take 60) ++ table ++ table ++ table ++ zeros 3320

set_option maxRecDepth 100000 in
/-- VerificationAndHandles: a table set that passes, and one without its signature. -/
theorem test_table_set : tsetFirstFail tinyTables true = 0 ∧ tsetFirstFail tinyTables false = 2 := by decide +kernel

set_option maxRecDepth 100000 in
/-- JobsRun: the descriptor's checks and its start, with every reason to leave before the first step. -/
theorem test_jobs :
    let s := ready (jobDesc [])
    let go := fun (s : State) => exec (.job (hostOf [])) s
    let full := { s with job := { s.job with areas := List.replicate 8 (some { saved 2 with job := jobOf (zeros 256) }) } }
    descriptorOk 0 (jobDesc []) = true ∧ s.leadOk = true ∧ s.freeArea = some 0 ∧
    ends (go s) (fun t => t.job.cur.any fun j => j.segs.map (·.kind) == [5] && j.phase == .running) = true ∧
    jobStatus (go { s with job := { s.job with cancelled := [9] } }) = 4 ∧
    jobStatus (go { s with mgt := { s.mgt with fatal := true } }) = 0xD ∧
    jobStatus (go { s with job := { s.job with areas := some (saved 2) :: List.replicate 7 none } }) = 1 ∧
    jobStatus (go (ready (jobDesc [(0x2D, 1, 1)]))) = 1 ∧ jobStatus (go full) = 3 ∧
    jobStatus (go (ready (jobDesc [(0x28, 4, 5)]))) = 7 ∧ jobStatus (go { s with mem := {} }) = 1 ∧
    ends (go { ready (jobDesc [(0x2D, 1, 1)]) with job := { s.job with areas := some (saved 2) :: List.replicate 7 none } })
      (fun t => t.job.cur.any fun j => j.phase == .resuming) = true := by decide +kernel

/-- A state in which the job of `jobDesc` is at some stage. -/
def inJob (f : Job → Job) : State := { ready [] with job := { up.job with cur := some (f (jobOf (jobDesc []))) } }

/-- JobsRun: a job that ran through, one told its end, one that runs on, and one an engine still works for. -/
theorem test_job_completion :
    let s := inJob fun j => { j with phase := .lastStep }
    let works := s.modEngine 0 fun x => { x with run := some readTile }
    s.allStopped = true ∧ jobStatus (exec .jobCompletion s) = 0 ∧
    jobStatus (exec .jobCompletion (inJob fun j => { j with ending := some { status := 0xD } })) = 0xD ∧
    jobStatus (exec .jobCompletion (inJob id)) = 0xFFFF ∧
    ends (exec .jobCompletion works) (fun t => t.job.cur.isSome) = true ∧
    ends (exec .jobCompletion s) (fun t => t.job.cur == none) = true := by decide +kernel

set_option maxRecDepth 40000 in
/-- PreemptAndCancel: each answer of PREEMPT and CANCEL, and the signal on a running and on a resuming job. -/
theorem test_preempt :
    let s := inJob id
    let asked := inJob fun j => { j with preempt := some .command }
    let area := { ready [] with job := { up.job with areas := some (saved 2) :: List.replicate 7 none } }
    let claims := (asked.modEngine 0 fun x => { x with claim := some claimed }).modCourse 0 fun c => { c with ranges := [{ pinned with issued := [(0, 0)] }] }
    let pre := fun (args : List Nat) (s : State) => exec (.preempt .pf1) (mgmt .pf1 4 args s)
    let can := fun (id : Nat) (s : State) => exec (.cancel .pf1) (mgmt .pf1 5 [id, 0, 0, 0] s)
    status (pre [9, 1, 1, 4096] s) = 1 ∧ status (pre [9, 0, 0, 0] up) = 8 ∧ status (pre [8, 0, 0, 0] s) = 8 ∧
    status (pre [9, 0, 0, 0] asked) = 0xE ∧
    ends (pre [9, 0, 0, 0] s) (fun t => t.job.waitPre.isSome && t.job.cur.any fun j => j.preempt == some .command) = true ∧
    ends (can 9 s) (fun t => t.job.cur.any fun j => (j.ending.map (·.status)) == some 4) = true ∧
    ends (can 9 area) (fun t => t.job.areas.all (·.isNone)) = true ∧ status (can 8 s) = 8 ∧
    ends (can 9 (post 0 (jobDesc []) up)) (fun t => t.job.cancelled == [9]) = true ∧
    asked.maySignal (jobOf []) = true ∧
    ends (exec .preemptionSignal claims) (fun t => (t.engine 0).claim == none && (t.course 0).ranges.map (·.issued) == [[]]) = true ∧
    ends (exec .preemptionSignal (inJob fun j => { j with preempt := some .command, phase := .resuming })) (fun t =>
      t.job.cur.any fun j => (j.ending.map (·.status)) == some 5) = true := by decide +kernel

/-- A job that resumes from an area. -/
def resuming (a : SaveArea) : State :=
  { inJob (fun j => { j with phase := .resuming }) with
    job := { (inJob fun j => { j with phase := .resuming }).job with areas := some a :: List.replicate 7 none } }

set_option maxRecDepth 100000 in
/-- SavesAndResumes: a save, the end of a PREEMPT without export, a resume of an area that fits and of one that does not. -/
theorem test_save :
    let s := inJob fun j => { j with preempt := some .command, signalled := true, step := 3 }
    let w : PreWait := { via := .ring .pf1, posted := { idx := 0, bytes := mkDesc 128 4 0 [(0x20, 8, 9)] }, exp := false, addr := 0, len := 0, saved := true }
    (s.stopUnits .abandoned false).allStopped = true ∧ s.mem.synd = [] ∧
    ends (exec .save s) (fun t => (t.job.areas.getD 0 none).any fun a => a.st == 2 && a.job.step == 3) = true ∧
    ends (exec .save { s with job := { s.job with waitPre := some w } }) (fun t => t.job.waitPre == none) = true ∧
    ends (exec (.resume (hostOf [])) (resuming (saved 1))) (fun t => t.job.cur == none && (t.job.areas.getD 0 none).isSome) = true := by
  decide +kernel

set_option maxRecDepth 10000 in
/-- SavesAndResumes: a save area is read with the header that was written, since its memory lists nothing. -/
theorem test_resume_header (a : SaveArea) : ((resuming a).loadArea 0 a).1 = a.header := by
  have hm : (resuming a).mem = jobMem := rfl
  have hb : (resuming a).areaBase 0 = up.areaBase 0 := rfl
  have h : (jobMem.synd.isEmpty && jobMem.cells.all fun c => decide (c.1 < up.areaBase 0 / 4 * 4)) = true := by decide +kernel
  simp only [Bool.and_eq_true, List.isEmpty_iff, List.all_eq_true, decide_eq_true_eq] at h
  exact loadArea_header _ _ _ (hm ▸ h.1) (by rw [hm, hb]; exact h.2)

/-- A save area of the job, saved at step 3. -/
def keptArea : SaveArea :=
  { saved 2 with job := { jobOf (jobDesc []) with step := 3 }, epochs := List.replicate 8 0, sorts := List.replicate 8 none }

theorem test_kept_fields : fieldAt keptArea.header 0 4 = 0x4D395341 ∧ fieldAt keptArea.header 4 1 = 1 ∧
    fieldAt keptArea.header 5 1 = 2 ∧ fieldAt keptArea.header 8 4 = 9 := by decide +kernel

/-- SavesAndResumes: the header is good for the job with JOB_ID 9, and for no other. -/
theorem test_header_good : headerGood keptArea.header 9 = true ∧ headerGood keptArea.header 8 = false := by
  simp [headerGood, header_crc keptArea, test_kept_fields]

set_option maxRecDepth 100000 in
/-- SavesAndResumes: the area matches the descriptor; its sorts, scratchpads and lines are in canonical form; the plan is read
again. -/
theorem test_resume :
    let s := resuming keptArea
    let v := (s.loadArea 0 keptArea).2
    s.jobStopping = false ∧ s.copyHeld s.leadHalf = false ∧ s.leadOk = true ∧ jResumeSrc (jobDesc []) = 0 ∧
    s.mem.synd = [] ∧ s.mem.wf = true ∧ matchesSave (jobDesc []) keptArea.header v [] = true ∧ v.handles = [] ∧
    v.ranges = [] ∧ v.scratch.wf = true ∧ v.lines.wf = true ∧ v.scratch.cells = [] ∧ v.lines.cells = [] ∧ v.job.step = 3 ∧
    (match State.planOf ((s.noteStretch 0 (s.inArea 0)).setUp v.job.jobMib (jTset (jobDesc []))).retirePending (hostOf [])
        (jobDesc []) with
      | .ok segs _ => segs.length == 1
      | _ => false) = true := by decide +kernel

/-- A step in progress whose next segment is given; the half's cache maps the first page. -/
def stepOf (g : Seg) : State :=
  { inJob (fun j => { j with segs := [g], inStep := true }) with
    halves := [{ leads := some 1, tcache := [{ base := 0, big := false, entry := 0x7, eaddr := 0 }] }, {}] }

/-- A segment of a kind. -/
def segOfKind (kind len : Nat) : Seg :=
  { kind, half := 0, course := 0, affinity := 0, eclass := 0, slotShift := 7, first := 100, src := 0x40, len, descBase := 0 }

set_option maxRecDepth 40000 in
/-- SegmentsAppendWork: a range that fits, a fifth one, one that does not fit, a list, a barrier before and after the step is
quiet, and a step command under the lease's epoch and under an older one. -/
theorem test_segments :
    let s := stepOf (segOfKind 1 0)
    let four := s.modCourse 0 fun c => { c with ranges := [pinned, pinned, pinned, pinned] }
    let clash := s.modCourse 0 fun c => { c with ranges := [pinned] }
    let loud := (stepOf (segOfKind 4 0)).modCourse 0 fun c => { c with ranges := [pinned] }
    let open' := inJob id
    let stale := { open' with rel := { open'.rel with lease := { holder := 1, epoch := 2 } } }
    let two := jobDesc [(0x2C, 1, 2), (0x70, 8, 0x200), (0x78, 8, 0x240)]
    let lists := { { stepOf (segOfKind 1 0) with mem := memWith 0x210 (toLe 257 4) } with job := { up.job with cur := some (jobOf two) } }
    let shut := { lists with rel := { up.rel with fenced := [0x8000] } }
    ends (exec (.range (hostOf [])) s) (fun t => (t.course 0).ranges.map (·.count) == [1] && t.mem.read (courseBase 0 + t.splitBytes) 1 == [5]) = true ∧
    ends (exec (.range (hostOf [])) four) (fun t => (t.course 0).ranges.length == 4) = true ∧
    ends (exec (.range (hostOf [])) clash) (fun t => ((t.course 0).counterFault.map (·.cause)) == some 0x18) = true ∧
    ends (exec (.movers (hostOf [])) (stepOf (segOfKind 2 17))) (fun t => (t.mover 0).queue.map (·.dseq) == [0, 16] && t.job.lists.length == 1) = true ∧
    ends (exec .barrier (stepOf (segOfKind 4 0))) (fun t => t.job.cur.any fun j => j.nextSeg == 1) = true ∧
    ends (exec .barrier loud) (fun t => t.job.cur.any fun j => j.nextSeg == 0) = true ∧
    ends (exec (.stepCommand 0 1) open') (fun t => t.job.cur.any (·.inStep)) = true ∧
    ends (exec (.stepCommand 0 1) lists) (fun t => t.job.cur.any fun j => j.inStep && j.order == [1, 0]) = true ∧
    ends (exec (.stepCommand 0 1) shut) (fun t => t.job.cur.any fun j => !j.inStep) = true ∧
    ends (exec (.stepCommand 0 1) stale) (fun t => t.rel.leaseStale == 1 && !(t.job.cur.any (·.inStep))) = true := by decide +kernel

/-- A sort descriptor: 2 pairs in one segment of 2, K = 1, ascending or not. -/
def sortDesc (asc : Nat) : List Byte :=
  let d := [(4, 4, 0x1000), (8, 2, 1), (0xA, 2, 1), (0xE, 1, 2), (0xF, 1, asc)].foldl
    (fun d (f : Nat × Nat × Nat) => putAt d f.1 (toLe f.2.2 f.2.1)) (zeros 64)
  withCrc (d.take 60)

set_option maxRecDepth 40000 in
/-- SortsRank: a sort ranked when its credits are there, one that waits for them, a bad descriptor, a segment that issues a
sort, and one that completes. -/
theorem test_sort :
    let s := fun (d : List Byte) (mask : BitVec 8) => (inJob id).modCourse 0 fun c => { c with mask, sort := some { desc := d, src := 0, descBase := 0 } }
    let ranked := (inJob id).modCourse 0 fun c => { c with sort := some { desc := sortDesc 0, src := 0, descBase := 0, ranked := some ([[1, 2]], false) } }
    sortDescOk (sortDesc 0) = true ∧ (s (sortDesc 0) 1).waitingSort = some 0 ∧
    ends (exec (.sort (hostOf [])) (s (sortDesc 0) 1)) (fun t => (t.course 0).sort.any fun q => q.ranked.isSome) = true ∧
    ends (exec (.sort (hostOf [])) (s (sortDesc 0) 0)) (fun t => (t.course 0).sort.all fun q => q.ranked.isNone) = true ∧
    ends (exec (.sort (hostOf [])) (s (zeros 64) 1)) (fun t => ((t.course 0).sortFault.map (·.cause)) == some 0x19) = true ∧
    ends (exec (.sort (hostOf [])) (stepOf (segOfKind 3 0))) (fun t => (t.course 0).sort.isSome) = true ∧
    ends (exec (.sortComplete 0) ranked) (fun t => (t.course 0).sort == none && t.mem.read (courseBase 0 + 0x1000) 2 == [1, 2]) = true := by
  decide +kernel

set_option maxRecDepth 40000 in
/-- StepsEnd: a step that is not quiet, one with outliers under the fault policy, one that ends, one with the link down. -/
theorem test_step_end :
    let g := { segOfKind 5 0 with man := withCrc (putAt (zeros 60) 0 [7]) }
    let s := stepOf g
    let bare := s.modJob fun j => { j with posted := { j.posted with bytes := jobDesc [(0x2C, 1, 0)] } }
    let go := fun (s : State) (p : State → Job → Bool) => ends (exec (.stepEnd (hostOf [])) s) fun t => t.job.cur.any (p t)
    s.stepQuiet = true ∧ s.leadOk = true ∧ s.copyHeld s.leadHalf = false ∧ jNseq s.jobDesc = 1 ∧ jNseq bare.jobDesc = 0 ∧
    (List.range (jNseq s.jobDesc)).any (s.tokensHeld s.leadHalf) = false ∧ (s.tokensAt s.leadHalf 0).1 = .ok 0 0x10 ∧
    s.rangeAll Region.hostOk 0x10 4 = true ∧ s.mem.wf = true ∧ s.mem.synd = [] ∧
    go (s.modCourse 0 fun c => { c with ranges := [pinned] }) (fun _ j => j.step == 0) = true ∧
    go (s.modJob fun j => { j with outlier := true }) (fun _ j => (j.ending.map (·.status)) == some 6) = true ∧
    go bare (fun t j => j.step == 1 && j.cursors == [7, 0, 0, 0] && j.nextSeg == 1 && !t.hif.tx.isEmpty) = true ∧
    go { bare with hif := {} } (fun t j => j.step == 1 && j.ckptPending && (t.mover 0).fault.any fun f => f.cause == 0x08) = true := by
  decide +kernel

/-- A MOVE of one row of 64 bytes: kind, spaces, source, destination and other fields. -/
def moveDesc (kind spaces src dst : Nat) (fields : List (Nat × Nat × Nat)) : List Byte :=
  mkDesc 128 1 0 ([(0x20, 1, kind), (0x21, 1, spaces), (0x28, 8, src), (0x30, 8, dst), (0x38, 4, 64)] ++ fields)

/-- A host mover with a MOVE of DMA ring 0, and a half mover with one of a list. -/
def moving (d : List Byte) : State :=
  { post 2 d up with mem := memWith 0x1000 [1, 2, 3] }
def listing (d : List Byte) : State :=
  { (inJob id).modMover 0 fun g => { g with queue := [{ ring := none, list := 0, dseq := 0, bytes := d }] } with
    job := { (inJob id).job with lists := [{ id := 0, half := 0, total := 1, doneIdx := [] }] } }

set_option maxRecDepth 40000 in
/-- MoversMove: a copy to the last line of a page, zeros, noise, a source in a hole and one in a fenced stack, a list
descriptor that breaks R303, and a mover that holds a fault. -/
theorem test_moves :
    let held := (moving (moveDesc 1 5 0x1000 0x2FC0 []))
    let far := moving (moveDesc 1 5 0x1000000000 0x2000 [])
    let fenced := { far with rel := { far.rel with fenced := [0x8001] } }
    let bad := listing (zeros 128)
    let stuck := up.modMover 32 fun g => { g with cur := some { ring := some 2, list := 0, dseq := 0, bytes := moveDesc 1 5 0x1000 0x2000 [] },
                                                  fault := some { cause := 0x0A, host := true } }
    held.moverRuns 32 = true ∧ (held.nextTask 32).isSome = true ∧
    ends (exec (.moveCopy 32) held) (fun t => t.mem.read 0x2FC0 4 == [1, 2, 3, 0] && (t.mover 32).cur == none) = true ∧
    ends (exec (.moveCopy 32) (moving (moveDesc 1 4 0 0x1000 [(0x22, 2, 1)]))) (fun t => t.mem == {}) = true ∧
    ends (exec (.moveNoise 32) (moving (moveDesc 3 4 0 0x1000 []))) (fun t => (t.mover 32).cur == none && t.mem.cells.length == 64) = true ∧
    ends (exec (.moveCopy 0) (listing (moveDesc 1 5 0xFFFF00000000 0x2000 []))) (fun t => ((t.mover 0).fault.map (·.cause)) == some 0x0A) = true ∧
    ends (exec (.moveCopy 32) fenced) (fun t => (t.mover 32).hold == 0x0D && (t.mover 32).cur.isSome) = true ∧
    ends (exec (.moveCopy 0) bad) (fun t => ((t.mover 0).fault.map (·.cause)) == some 0x0C) = true ∧
    ends (exec (.moveCopy 32) stuck) (fun t => (t.mover 32).hold == 0x07) = true := by decide +kernel

/-! ### Praline units, faults, memory -/

/-- A state in whose stack 0 a command waits, over the memory given. -/
def queued (c : PCmd) (m : Memory) : State :=
  { up.modStack 0 fun k => { k with queue := [c] } with mem := m }

/-- A command of half mover 0, with operands at 0x1000, 0x2000, 0x3000 and output at 0x4000. -/
def pcmd (opc mode : Nat) : PCmd :=
  { mover := 0, idx := 0, opc, mode, fmt := 0, ofmt := 0, bcast := false, src0 := 0x1000, src1 := 0x2000, src2 := 0x3000, dst := 0x4000,
    mf := none, rows := 1, cols := 2 }

set_option maxRecDepth 40000 in
/-- PralineMatrices: MV of (1, 2) and (3, 4) with scales 1 is 11; one K row and one V row; a statistics record of (1, 1); a merge
of one record; EADD and EMUL of 1.0 and 2.0; a malformed command, one behind a fault and one in a fenced stack. -/
theorem test_praline_matrices :
    let one := toLe 0x3F800000 4
    let two := toLe 0x40000000 4
    let ints := ((memWith 0x1000 [1, 2]).write 0x2000 [3, 4] false).write 0x3000 (one ++ one) false
    let reals := (memWith 0x1000 (one ++ one)).write 0x2000 (two ++ two) false
    let gives := fun (i : Instr) (c : PCmd) (m : Memory) (w : Nat) => ends (exec i (queued c m)) fun t =>
      leNat (t.mem.read 0x4000 4) == w && (t.stack 0).status.length == 1 && (t.stack 0).queue == []
    let bad := queued { pcmd 1 0 with bad := true } {}
    ints.wf = true ∧ reals.wf = true ∧ gives (.mvDense 0) (pcmd 1 0) ints 0x41300000 = true ∧
    gives (.mvKFrame 0) { pcmd 1 1 with d := 2, ks := 0x3F800000 } ints 0x41300000 = true ∧
    gives (.mvVFrame 0) { pcmd 1 2 with d := 1, ks := 0x3F800000 } ints 0x41300000 = true ∧
    gives (.statsRows 0) (pcmd 2 0) reals 2 = true ∧
    gives (.statsMerge 0) { pcmd 2 1 with cols := 1 } (memWith 0x1000 [1]) 1 = true ∧
    gives (.pralineEadd 0) (pcmd 3 0) reals 0x40400000 = true ∧ gives (.emul 0) (pcmd 4 0) reals 0x40000000 = true ∧
    ends (exec (.mvDense 0) bad) (fun t => ((t.stack 0).fault.map (·.cause)) == some 0x1A && (t.stack 0).status.map (·.status) == [1]) = true ∧
    ends (exec (.gather 0) (bad.modStack 0 fun k => { k with fault := some { cause := 0x1A, host := false } })) (fun t => (t.stack 0).queue.length == 1) = true ∧
    ends (exec (.decode 0) { bad with rel := { bad.rel with fenced := [0x8000] } }) (fun t => (t.stack 0).queue.length == 1) = true := by
  decide +kernel

set_option maxRecDepth 40000 in
/-- PralineFrames: APPEND of the first and of a later token, GATHER of a K and of a V part, ENCODE and DECODE of one chunk. -/
theorem test_praline_frames :
    let m := (memWith 0x2000 (toLe 0x3F800000 4)).write 0x1000 [5, 6] false
    let a := fun (tok : Nat) => { pcmd 5 0 with ntok := 1, tok, d := 1, scale := 0x8000, ks := 0x3F800000 }
    let g := fun (part : Nat) => { pcmd 6 0 with ntok := 1, tok := 2, d := 2, part }
    let did := fun (i : Instr) (c : PCmd) (p : State → Bool) => ends (exec i (queued c m)) fun t => p t && (t.stack 0).status.length == 1
    did (.append 0) (a 0) (fun t => t.mem.byte 0x4000 != 0 && t.mem.byte 0x4001 == 0) = true ∧
    did (.append 0) (a 255) (fun t => t.mem.byte 0x40FF == 1) = true ∧
    did (.gather 0) (g 0) (fun t => t.mem.read 0x4000 2 == [5, 6]) = true ∧
    did (.gather 0) (g 1) (fun t => t.mem.read 0x4000 2 == [5, 0]) = true ∧
    did (.encode 0) { pcmd 7 0 with cols := 12, cfw := 1 } (fun _ => true) = true ∧
    did (.decode 0) { pcmd 8 0 with cols := 12, cfw := 1 } (fun _ => true) = true := by decide +kernel

/-- A half mover with a Praline descriptor: EADD of operands in the first page. -/
def praTask : List Byte :=
  let cmd := [(0, 1, 3), (8, 8, 0x1000), (0x10, 8, 0x2000), (0x20, 8, 0x4000), (0x30, 4, 1), (0x34, 4, 16)].foldl
    (fun d (f : Nat × Nat × Nat) => putAt d f.1 (toLe f.2.2 f.2.1)) (zeros 60)
  let d := putAt (putAt (putAt (zeros 128) 0 [1, 0, 1]) 0x20 [2]) 0x38 (withCrc cmd)
  withCrc (d.take 124)

/-- The state in which half mover 0 has it. -/
def praState : State :=
  { (stepOf (segOfKind 5 0)).modMover 0 fun g => { g with queue := [{ ring := none, list := 0, dseq := 0, bytes := praTask }] } with mem := {} }

set_option maxRecDepth 40000 in
/-- PralineCommandsGo: a command that joins an empty queue and one of 32, a status that is not the last, the last, and
MALFORMED. -/
theorem test_praline_commands :
    let full := praState.modStack 0 fun k => { k with queue := List.replicate 32 (pcmd 3 0) }
    let t : MTask := { ring := none, list := 0, dseq := 0, bytes := praTask }
    let stat := fun (left : Nat) (st : Nat) =>
      (praState.modMover 0 fun g => { g with queue := [], cur := some t, wait := .praline, prOpen := List.range left, prNext := left }).modStack 0
        fun k => { k with status := [{ mover := 0, idx := 0, sat := 2 ^ 24 - 1, status := st }] }
    pcOk (praCmd praTask) = true ∧ pcCount (praCmd praTask) = 1 ∧ t.listOk = true ∧
    ends (exec (.movePraline 0) praState) (fun u => (u.stack 0).queue.length == 1 && (u.mover 0).wait == .praline) = true ∧
    ends (exec (.movePraline 0) full) (fun u => (u.stack 0).queue.length == 32 && (u.mover 0).hold == 0x13) = true ∧
    ends (exec (.pralineStatus 0) (stat 2 0)) (fun u => (u.mover 0).prOpen == [1] && (u.mover 0).prSat == 2 ^ 24 - 1) = true ∧
    ends (exec (.pralineStatus 0) (stat 1 0)) (fun u => (u.mover 0).cur == none) = true ∧
    ends (exec (.pralineStatus 0) (stat 1 1)) (fun u => ((u.mover 0).fault.map (·.cause)) == some 0x1A) = true := by
  decide +kernel

/-- A fault held by host mover 32 on its descriptor. -/
def faulted (f : HeldFault) : State :=
  (post 2 (mkDesc 128 2 0 [(0x20, 2, 0x5020), (0x22, 1, 1), (0x24, 4, 7)]) up).modMover 32 fun g =>
    { g with cur := some { ring := some 2, list := 0, dseq := 0, bytes := moveDesc 1 5 0x1000 0x2000 [] }, fault := some f }

set_option maxRecDepth 40000 in
/-- FaultsResolve: a RESOLVE that names no fault, RETRY, CANCEL of a DMA ring's descriptor, RETRY of a fault that firmware
resolves; firmware on a host-resolved fault, and each of its policies. -/
theorem test_resolve :
    let host : HeldFault := { cause := 0x01, host := true, seq := 7, ofJob := false }
    let cancel := fun (s : State) => s.modRing 2 fun g => { g with posted := [{ idx := 0, bytes := mkDesc 128 2 0 [(0x20, 2, 0x5020), (0x22, 1, 2), (0x24, 4, 7)] }] }
    let fw := fun (c : BitVec 16) (p : State → Bool) => ends (exec (.firmwareResolve (.mover 32) (hostOf [])) (faulted { cause := c, host := false })) p
    let freed := fun (t : State) => (t.mover 32).fault == none
    (faulted host).holderOf 0x5020 7 = some (.mover 32, host) ∧
    ends (exec (.resolve 2) (faulted { host with seq := 8 })) (fun t => (t.mover 32).fault.isSome && (t.ring 32).evq.length == 1) = true ∧
    ends (exec (.resolve 2) (faulted host)) freed = true ∧
    ends (exec (.resolve 2) (cancel (faulted host))) (fun t => freed t && (t.mover 32).cur == none) = true ∧
    (faulted host).ownerUp (.mover 32) = true ∧
    ends (exec (.firmwareResolve (.mover 32) (hostOf [])) { faulted { cause := 0x08, host := false } with hif := {} }) (fun t =>
      (t.mover 32).fault.isSome) = true ∧
    ends (exec (.resolve 2) (faulted { host with host := false })) (fun t => (t.mover 32).fault.isSome) = true ∧
    ends (exec (.firmwareResolve (.mover 32) (hostOf [])) (faulted host)) (fun t => (t.mover 32).fault.isSome) = true ∧
    fw 0x0C (fun t => t.rel.queue.map (·.a.rung) == [2] && ((t.mover 32).fault.map (·.escalated)) == some true) = true ∧
    fw 0x17 (fun t => freed t && t.rel.queue.map (·.a.rung) == [2]) = true ∧ fw 0x08 freed = true ∧ fw 0x10 freed = true ∧
    fw 0x15 (fun t => freed t && t.rel.queue.map (·.a.rung) == [1]) = true := by decide +kernel

set_option maxRecDepth 40000 in
/-- MemoryServes, PartialWordsMerge: a read that opens a row, one with an upset of each end of a word, a refresh, walks that
end in a leaf and in an entry not present, a scrub, and merges with clean, corrected and bad words. -/
theorem test_memory :
    let m : Memory := { cells := [(0, 8)] }
    let s := { up with mem := m }
    let walk := fun (ja : Addr) => exec (.pageWalk 0 (.mover 0) ja true false) (inJob id)
    let ce := m.upset 0 (BitVec.twoPow 39 4)
    let ue := m.upset 0 3
    ends (exec (.hbmRead 0 4 0 0 []) s) (fun t => (t.stack 0).openRow 0 == some 0 && t.mem == m) = true ∧
    ends (exec (.hbmRead 0 4 0 0 [(0, BitVec.twoPow 39 0)]) s) (fun t => t.regs.ceCnt == 1 && t.mem.deliver 0 == [8, 0, 0, 0] && t.mem.stored 0 == [9, 0, 0, 0]) = true ∧
    ends (exec (.hbmRead 0 4 0 0 [(0, BitVec.twoPow 39 38)]) s) (fun t => t.regs.ceCnt == 1 && t.mem.stored 0 == [8, 0, 0, 0]) = true ∧
    ends (exec (.refresh 0) (s.modStack 0 fun k => { k with rows := [(0, 3)] })) (fun t => (t.stack 0).rows == []) = true ∧
    ce.wf = true ∧ synClass (ce.syn 0) = .ce 4 ∧ synClass (ue.syn 0) = .ue ∧ ce.stored 0 = [0x18, 0, 0, 0] ∧
    (ce.write 3 [1]).read 0 4 = [8, 0, 0, 1] ∧ (ce.write 3 [1]).syn 0 = 0 ∧ (m.write 1 [7]).read 0 4 = [8, 7, 0, 0] ∧
    (ue.write 0 [1, 2, 3]).stored 0 = [1, 2, 3, 0] ∧ (ue.write 0 [1, 2, 3]).syn 0 = 0x7F ∧
    ends (exec (.scrub 0) { up with mem := ce }) (fun t => t.mem == m && (t.stack 0).scrubPtr == 1) = true ∧
    ends (walk 0xFFFF) (fun t => (t.mover 0).fault == none) = true ∧
    ends (exec (.pageWalk 0 (.mover 0) 0xFFFF true false) { inJob id with rel := { up.rel with fenced := [0x8000] } }) (fun t =>
      (t.mover 0).fault == none && (t.half 0).tcache == []) = true ∧
    ends (walk 0x10000) (fun t => (t.mover 0).fault.isSome) = true := by decide +kernel

/-! ### Limfaette links, messages and collectives -/

/-- Module 0 of a ring of two: port 0 leads to +X and port 1 to -X, both to module 1 and ACTIVE; both modules are in the job's
domain. -/
def ringOfTwo (s : State) : State :=
  let g : Port := { state := 4, lanes := 8, paired := true, peer := 1, txCredits := [128, 128, 1024, 1024, 2048, 16, 32, 32] }
  { s with
    fab := { portEn := 3, topo := 1, topoNow := 1, linkmap := 0x98, linkmapNow := 0x98, nbr := [0x80000001, 0x80000001, 0, 0, 0, 0],
             nbrNow := [0x80000001, 0x80000001, 0, 0, 0, 0], ports := g :: g :: List.replicate 6 {} }
    sec := { s.sec with jobdom := 3 } }

/-- That module while a job runs. -/
def ringJob : State := ringOfTwo (stepOf (segOfKind 5 0))

/-- The PARAM flit of module 1, port 1, that faces this module's port 0. -/
def paramFlit (id seen : Nat) : List Byte :=
  flitBytes 0 0 0 1023 0 0 (toLe 4 1 ++ toLe id 2 ++ [1, 1] ++ [1] ++ toLe 5 2 ++ toLe seen 1 ++ zeros 1 ++ toLe 128 2 ++ toLe 128 2 ++
    toLe 1024 2 ++ toLe 1024 2 ++ toLe 2048 2 ++ toLe 16 2 ++ toLe 32 2 ++ toLe 32 2)

/-- An outstanding operation of host mover 32. -/
def peerOp (mtype : Nat) : PeerOp := { tag := 7, mover := some 32, mtype, addr := 0x1000, len := 64, dst := 1, port := 0 }

set_option maxRecDepth 40000 in
/-- PortsTrain: lock of all lanes, of four with and without ALLOW_X4, a time-out, a lost lock, and PARAM of the neighbour
with and without SEEN, of another module, with a reserved bit, and with a new boot count. -/
theorem test_ports_train :
    let s := ringOfTwo up
    let at' := fun (st : Nat) => s.modPort 0 fun g => { g with state := st, paired := false }
    let x4 := { at' 1 with fab := { (at' 1).fab with allowX4 := true } }
    let dirty := flitBytes 0 0 0 1023 0 0 (putAt (fBody (paramFlit 1 1)) 200 [1])
    let down := s.modPort 0 fun g => { g with state := 2, peerBoot := 4, unacked := [(0, zeros 256)], acked := 1023, txNext := 1 }
    let lost := { down with fab := { down.fab with ops := [peerOp 1] } }
    isControl (paramFlit 1 1) 0 4 = true ∧ s.portDir 0 = some 0 ∧ s.neighbour 0 = some 1 ∧
    ends (exec (.portTraining 0 .all) (at' 1)) (fun t => (t.port 0).state == 2 && (t.port 0).out.length == 1) = true ∧
    ends (exec (.portTraining 0 .low) x4) (fun t => (t.port 0).lanes == 4) = true ∧
    ends (exec (.portTraining 0 .high) (at' 1)) (fun t => (t.port 0).state == 1) = true ∧
    ends (exec (.trainTimeout 0) (at' 2)) (fun t => (t.port 0).state == 1) = true ∧
    ends (exec (.lockLost 0) (at' 4)) (fun t => (t.port 0).state == 1 && (t.port 0).lanes == 0) = true ∧
    ends (exec (.param 0 (paramFlit 1 1)) (at' 2)) (fun t => (t.port 0).state == 4 && (t.port 0).txCredits.getD 7 0 == 32) = true ∧
    ends (exec (.param 0 (paramFlit 1 0)) (at' 2)) (fun t => (t.port 0).state == 2 && (t.port 0).out.length == 1) = true ∧
    ends (exec (.param 0 (paramFlit 2 1)) (at' 3)) (fun t => (t.port 0).state == 3) = true ∧
    flitClean dirty = false ∧ isControl dirty 0 4 = true ∧
    ends (exec (.param 0 dirty) (at' 2)) (fun t => (t.port 0).violCnt == 1 && (t.port 0).state == 2) = true ∧
    lost.opUses 0 (peerOp 1) = true ∧
    ends (exec (.param 0 (paramFlit 1 0)) lost) (fun t => (t.port 0).unacked == [] && t.fab.ops == []) = true := by decide +kernel

set_option maxRecDepth 40000 in
/-- FlitsRetry: each control flit in order, a flit with a wrong FCRC, FTYPE 3, and replays below the limit and at it. -/
theorem test_flits :
    let s := ringOfTwo up
    let f := fun (t n : Nat) (body : List Byte) => flitBytes t 0 n 1023 0 0 body
    let kept := s.modPort 0 fun g => { g with unacked := [(0, f 1 0 [1])], txNext := 1 }
    let worn := kept.modPort 0 fun g => { g with replays := 8 }
    let fenced := s.modPort 0 fun g => { g with fenced := true }
    flitClean (f 1 0 [1]) = true ∧ isControl (f 1 0 [1]) 1 1 = true ∧ isControl (f 0 0 [3]) 0 3 = true ∧
    ends (exec (.sequencedFlit 0 (zeros 256) 8 0) s) (fun t => (t.port 0).rejecting && (t.port 0).fecCe == 8 && !(t.port 0).out.isEmpty) = true ∧
    ends (exec (.sequencedFlit 0 (f 3 0 []) 0 0) s) (fun t => (t.port 0).violCnt == 1) = true ∧
    ends (exec (.sequencedFlit 0 (zeros 256) 8 0) fenced) (fun t =>
      !(t.port 0).rejecting && (t.port 0).out.all fun f => !isControl f 0 2) = true ∧
    ends (exec (.idle 0 (f 1 0 [1])) s) (fun t => (t.port 0).rxNext == 1) = true ∧
    ends (exec (.nop 0 (f 0 0 [3])) s) (fun t => (t.port 0).rxNext == 0) = true ∧
    ends (exec (.retryReq 0 (f 0 0 [2])) kept) (fun t => (t.port 0).replays == 1 && !(t.port 0).out.isEmpty) = true ∧
    ends (exec (.retryReq 0 (f 0 0 [2])) worn) (fun t => (t.port 0).state == 1 && (t.port 0).unacked.length == 1) = true ∧
    ends (exec (.retryTimeout 0) s) (fun t => (t.port 0).replays == 0) = true ∧
    ends (exec (.retryTimeout 0) kept) (fun t => (t.port 0).replays == 1) = true ∧
    ends (exec (.retryTimeout 0) worn) (fun t => (t.port 0).state == 1) = true ∧
    ends (exec (.violation 0 (f 1 0 [5, 2, 7])) s) (fun t => (t.port 0).violRx == 1 && (t.port 0).out.length == 1) = true ∧
    ends (exec (.vcResync 0 (f 1 0 [6, 7])) (s.modPort 0 fun g => { g with framing := List.replicate 8 true })) (fun t =>
      (t.port 0).framing.getD 7 true == false) = true := by decide +kernel

/-- A message from module 1 waiting at port 0 of a state. -/
def got (s : State) (mtype dst addr tag : Nat) (data : List Byte) : State :=
  withMsg 0 (vcOf mtype 0) { hdr := msgHeader mtype 0 (if mtype = 1 then 64 else data.length) dst 1 addr tag 0, data } s

/-- The group table of modules 0 and 1, this one at position 0, in the first page. -/
def groupBytes : List Byte :=
  let head := toLe 2 2 ++ toLe 0 2 ++ zeros 8
  let ids := toLe 0 4 ++ toLe 1 4
  head ++ toLe (crc32c (head ++ ids)).toNat 4 ++ ids

/-- A collective descriptor: operation, units of 64 bytes, other fields. -/
def collDesc (cop units : Nat) (fields : List (Nat × Nat × Nat)) : List Byte :=
  mkDesc 128 1 0 ([(0x20, 1, 4), (0x21, 1, cop), (0x28, 8, 0x100), (0x30, 8, 0x1000), (0x38, 8, 0x2000), (0x48, 4, 64), (0x4C, 4, units)] ++ fields)

/-- Half mover 0 with a collective that it has taken up. -/
def collective (c : Coll) : State :=
  ({ ringJob with mem := memWith 0x1000 [1, 2, 3] }).modMover 0 fun g =>
    { g with cur := some { ring := none, list := 0, dseq := 0, bytes := collDesc c.cop c.units [] }, coll := some c, wait := .coll }

/-- Its members. -/
def collAt (cop units nsteps : Nat) : Coll :=
  { cop, rop := 0, efmt := 0, wfmt := 0xFF, cid := 5, group := [0, 1], pos := 0, src := 0x1000, dst := 0x2000, aux := 0, grain := 64,
    units, arg := 3, nsteps }

set_option maxRecDepth 40000 in
/-- PeerMessages, PeerNakRaises: each message type where it is served, refused and made to wait. -/
theorem test_peer_messages :
    let s := { ringJob with mem := memWith 0x40 [9] }
    let away := s.modJob fun j => { j with signalled := true }
    let idle := ringOfTwo up
    let waits := fun (k : Nat) => { s.modMover 32 (fun g => { g with cur := some { ring := some 2, list := 0, dseq := 0, bytes := moveDesc 1 7 0x1000 0x2000 [] }, wait := .peer 7 }) with
      fab := { s.fab with ops := [peerOp k] } }
    let two := [1, 0, 0, 0, 0, 0, 0, 0] ++ zeros 56
    let held := { s with halves := [{ leads := some 1 }, {}], rel := { s.rel with fenced := [0x8000] } }
    let add := { collAt 8 1 0 with src := 0x3000, started := true }
    let adds := { collective add with fab := { ringJob.fab with ops := [{ peerOp 5 with mover := some 0 }] } }
    let nak := withMsg 0 2 { hdr := msgHeader 0xD 3 0 0 1 0x1000 7 0, data := [] } (waits 1)
    s.peerTarget 0 0x40 = (some 0x40, s) ∧ s.jobAway = false ∧ away.jobAway = true ∧ s.inDomain 1 = true ∧
    ends (exec (.readReq 0) (got s 1 0 0x40 7 [])) (fun t => (t.port 0).rxMsgs == [] && (t.port 0).out.length + ((t.port 0).txQ.getD 2 []).length != 0) = true ∧
    ends (exec (.readReq 0) (got s 1 0 0xFFFF00000000 7 [])) (fun t => (t.port 0).nakCnt == 1) = true ∧
    ends (exec (.msgWrite 0) (got s 3 0 0x40 7 (List.replicate 64 5))) (fun t => t.mem.byte 0x40 == 5 && t.mem.byte 0x80 == 0) = true ∧
    ends (exec (.msgWrite 0) (got idle 3 0 0x40 7 (zeros 64))) (fun t => (t.port 0).nakCnt == 1) = true ∧
    ends (exec (.msgWrite 0) (got away 3 0 0x40 7 (zeros 64))) (fun t => (t.port 0).rxMsgs.length == 1) = true ∧
    ends (exec (.atomicAdd 0) (got s 5 0 0x40 7 two)) (fun t => t.mem.read 0x40 8 == [10, 0, 0, 0, 0, 0, 0, 0]) = true ∧
    ends (exec (.readRsp 0) (got (waits 1) 2 0 0x1000 7 (List.replicate 64 4))) (fun t => t.mem.byte 0x203F == 4 && t.fab.ops == []) = true ∧
    ends (exec (.readRsp 0) (got s 2 0 0x1000 7 (zeros 64))) (fun t => (t.port 0).violCnt == 1) = true ∧
    ends (exec (.readRsp 0) (got (waits 1) 2 0 0x1000 7 (zeros 128))) (fun t => (t.port 0).violCnt == 1 && t.fab.ops.length == 1) = true ∧
    ends (exec (.writeAck 0) (got (waits 3) 4 0 0x1000 7 [])) (fun t => t.fab.ops == []) = true ∧
    held.peerHeld 0 0x40 = true ∧
    ends (exec (.msgWrite 0) (got held 3 0 0x40 7 (zeros 64))) (fun t => (t.port 0).rxMsgs.length == 1) = true ∧
    ends (exec (.atomicRsp 0) (got { (waits 5) with fab := { (waits 5).fab with ops := [{ peerOp 5 with away := true }] } } 6 0 0x1000 7 two)) (fun t =>
      t.fab.ops.any fun o => o.answer == some (two.take 8, false)) = true ∧
    ends (exec (.atomicRsp 0) (got adds 6 0 0x1000 7 two)) (fun t => t.fab.ops == [] && t.mem.read 0x3000 8 == two.take 8) = true ∧
    (s.port 0).passing.getD 0 none = none ∧ s.nextHop 1 = some (0, 0) ∧ s.pickPort 0 3 0 = some 0 ∧
    ends (exec (.atomicRsp 0) (got s 6 0 0x1000 7 two)) (fun t => (t.port 0).violCnt == 1) = true ∧
    ends (exec (.mgmt 0) (got s 0xB 0 0 7 [])) (fun t => (t.port 0).nakCnt == 1) = true ∧
    ends (exec (.mgmt 0) (got { s with fab := { s.fab with mgmtIn := true } } 0xB 0 0 7 [])) (fun t => t.fab.mgmtIn'.length == 1) = true ∧
    ends (exec (.mgmtRsp 0) (got s 0xC 0 0 7 [])) (fun t => (t.port 0).violCnt == 1) = true ∧
    ends (exec (.messageForward 0) (got s 3 1 0 7 [])) (fun t => (t.port 0).rxMsgs == []) = true ∧
    ends (exec (.nak 0) nak) (fun t => (t.mover 32).fault.any fun f => f.cause == 0x1D && f.nak == 3 && f.space == 3) = true := by
  decide +kernel

set_option maxRecDepth 40000 in
/-- CollectivesStart: a collective taken up, a wrong group table, and each operation's start. -/
theorem test_collectives_start :
    let opens := fun (g : List Byte) => { (ringJob.modMover 0 fun m => { m with queue := [{ ring := none, list := 0, dseq := 0, bytes := collDesc 2 4 [(0x22, 1, 1)] }] }) with mem := memWith 0x100 g }
    let starts := fun (i : Instr) (cop nsteps : Nat) => ends (exec i (collective (collAt cop 2 nsteps))) fun t => (t.mover 0).coll.any (·.started)
    let alone := { collAt 2 1 0 with group := [0] }
    let down := (collective (collAt 7 0 0)).modPort 0 fun g => { g with state := 1 }
    let early : Msg := { hdr := msgHeader 7 0 64 0 1 5 0 0, data := zeros 64 }
    groupOk 0 groupBytes = true ∧ ringJob.collDirs (collAt 1 2 1) = some (0, 1) ∧ collBodyOk (collDesc 2 4 [(0x22, 1, 1)]) = true ∧
    ends (exec (.moveColl 0) (opens groupBytes)) (fun t => ((t.mover 0).coll.map (·.nsteps)) == some 2 && (t.mover 0).wait == .coll) = true ∧
    ends (exec (.moveColl 0) (opens (zeros 24))) (fun t => ((t.mover 0).fault.map (·.cause)) == some 0x0C) = true ∧
    starts (.shift 0) 1 1 = true ∧ starts (.allreduce 0) 2 2 = true ∧ starts (.reduceScatter 0) 3 1 = true ∧ starts (.statsCombine 0) 5 2 = true ∧
    ends (exec (.allreduce 0) (collective alone)) (fun t => (t.mover 0).cur == none && t.fab.doneCids == [5]) = true ∧
    ends (exec (.allgather 0) (collective (collAt 4 2 1))) (fun t => t.mem.read 0x2000 4 == [1, 2, 3, 0] && (t.mover 0).coll.any (·.started)) = true ∧
    ends (exec (.collBarrier 0) (collective (collAt 7 0 0))) (fun t => (t.mover 0).coll.any (·.started) && (t.port 0).out.length + ((t.port 0).txQ.getD 5 []).length != 0) = true ∧
    ends (exec (.add64 0) (collective { collAt 8 0 0 with dst := 0x1000, src := 0x3000 })) (fun t => t.mem.read 0x1000 3 == [4, 2, 3] && t.mem.read 0x3000 3 == [1, 2, 3]) = true ∧
    ends (exec (.add64 0) (collective (collAt 8 1 0))) (fun t => t.fab.ops.length == 1) = true ∧
    down.dirPorts 0 = [0] ∧ down.inDomain (collAt 7 0 0).down = true ∧ (down.port 0).txQ.length = 8 ∧
    ends (exec (.collBarrier 0) down) (fun t => ((t.port 0).txQ.getD 5 []).length == 1) = true ∧
    ends (exec (.shift 0) { collective (collAt 1 2 1) with fab := { ringJob.fab with held := [(0, early)] } }) (fun t =>
      t.fab.held == [] && (t.port 0).rxMsgs.length == 1) = true ∧
    ends (exec (.fondant 0) (collective { collAt 6 0 0 with src := 0x3000 })) (fun _ => true) = true := by decide +kernel

set_option maxRecDepth 40000 in
/-- CollectiveStepsExchange: a step sent, a chunk copied, reduced, early, late and out of range, SENT, DONE, BARRIER, and
messages for a collective not started, done, or away. -/
theorem test_collective_steps :
    let go := { collAt 1 2 1 with started := true, arg := 64 }
    let s := collective go
    let chunk := fun (s : State) (step off : Nat) => exec (.chunk 0) (got s 7 0 (5 + off * 65536) (step * 65536) (List.replicate 64 9))
    let red := { collAt 3 2 1 with started := true, rop := 0 }
    let stuck := s.modMover 0 fun g => { g with fault := some { cause := 0x0A, host := false } }
    let more := { collAt 2 2 2 with started := true, sentSeen := [(0, 1)] }
    go.maySend = true ∧ s.collFate 5 = .take 0 { ring := none, list := 0, dseq := 0, bytes := collDesc 1 2 [] } go ∧
    ends (exec (.ringStepSend 0) s) (fun t => ((t.mover 0).coll.map (·.sendStep)) == some 1) = true ∧
    ends (exec (.ringStepSend 0) (collective (collAt 1 2 1))) (fun t => ((t.mover 0).coll.map (·.sendStep)) == some 0) = true ∧
    ends (chunk s 0 0) (fun t => t.mem.byte 0x2000 == 9) = true ∧
    { go with sendStep := 1 }.maySend = false ∧
    ends (exec (.ringStepSend 0) (collective { go with sendStep := 1 })) (fun t => (t.mover 0).hold == 0x0F) = true ∧
    ends (exec (.ringStepSend 0) stuck) (fun t => (t.mover 0).hold == 0x07) = true ∧
    ends (exec (.sent 0) (withMsg 0 (vcOf 8 0) { hdr := msgHeader 8 0 0 0 1 5 0 0, data := [] } (collective more))) (fun t =>
      (t.mover 0).coll.any fun c => c.recvStep == 1 && c.sentSeen == []) = true ∧
    ends (chunk s 1 0) (fun t => (t.port 0).rxMsgs.length == 1) = true ∧
    ends (chunk s 0 0x10000) (fun t => (t.port 0).nakCnt == 1) = true ∧
    ends (chunk (collective red) 0 0) (fun t => (t.port 0).rxMsgs == []) = true ∧
    ends (exec (.chunk 0) (got (collective (collAt 1 2 1)) 7 0 5 0 (zeros 64))) (fun t => t.fab.held.length == 1) = true ∧
    ends (exec (.sent 0) (got { ringJob with fab := { ringJob.fab with doneCids := [5] } } 8 0 5 0 [])) (fun t => (t.port 0).stale == 1) = true ∧
    ends (exec (.sent 0) (got s 8 0 5 65536 [])) (fun t => (t.port 0).rxMsgs.length == 1) = true ∧
    ends (exec (.sent 0) (got s 8 0 5 0 [])) (fun t => ((t.mover 0).coll.map (·.sentSeen)) == some [(0, 0)]) = true ∧
    ends (exec (.done 0) (got s 9 0 5 0 [])) (fun t => ((t.mover 0).coll.map (·.doneSeen)) == some [0]) = true ∧
    ends (exec (.done 0) (got ringJob 9 0 5 0 [])) (fun t => (t.port 0).rxMsgs == []) = true ∧
    ends (exec (.msgBarrier 0) (got (collective { collAt 7 0 0 with started := true }) 0xA 0 5 1 [])) (fun t => (t.mover 0).cur == none) = true := by
  decide +kernel

/-- A module whose codec engine 0 has a descriptor posted on its encode (18) or decode (19) ring. -/
def codecPost (r opc : Nat) (fields : List (Nat × Nat × Nat)) (f : Codec → Codec) : State :=
  (post r (mkDesc 128 opc 0 fields) up).modCodec 0 f

/-- A pool of one buffer, a marked one, and context 1 open on a ring. -/
def onePool (m : BitVec 12) (c : Codec) : Codec := { c with pool := [(0x10000, 0x6040)], marks := m :: List.replicate 31 0 }
def openCtx1 (r : Nat) (f : Ctx → Ctx) (c : Codec) : Codec :=
  c.setCtx 1 (some (f { ring := Fin.ofNat 66 r, codec := 1, stage := 0x20000, stageLen := 4096, refs := List.replicate 8 255 }))

/-- A parameter block of a frame of 16 by 16, by its fields. -/
def epBlock (fields : List (Nat × Nat × Nat)) : List Byte :=
  withCrc (([(0, 2, 16), (2, 2, 16), (4, 1, 8), (8, 4, 30), (0xC, 4, 1), (0x13, 1, 51), (0x17, 1, 1), (0x25, 1, 16), (0x28, 1, 1), (0x29, 1, 1)] ++ fields).foldl
    (fun d (f : Nat × Nat × Nat) => putAt d f.1 (toLe f.2.2 f.2.1)) (zeros 252))

/-- A pool table of one buffer. -/
def poolTable : List Byte := withCrc (toLe 0x10000 8 ++ toLe 0x6040 4)

/-- The status of the completion of a codec ring's descriptor. -/
def codecStatus (o : Out) : Nat :=
  match o with
  | .next t => match (t.ring 32).evq with
    | x :: _ => fieldAt x.body 8 2
    | [] => 0xFFFF
  | _ => 0xFFFF

set_option maxRecDepth 40000 in
/-- CodecsRun: POOL_SET with a context open, with a wrong and a right table; OPEN of an open and of a closed context;
RELEASE; FLUSH and CLOSE of an open and of a closed context; FRAME_PACING. -/
theorem test_codec_rings :
    let at' := fun (s : State) => { s with mem := memWith 0x100 poolTable }
    let pool := codecPost 18 1 [(0x20, 8, 0x100), (0x28, 1, 1)]
    let shut := codecPost 18 5 [(0x20, 1, 2)] id
    let away := codecPost 18 1 [(0x20, 8, 0x8000000000000000), (0x28, 1, 1)] id
    let held := { at' (pool id) with rel := { up.rel with fenced := [0x8000] } }
    let s := (at' (pool id))
    s.shaped = true ∧ s.codecUp 0 = true ∧ (s.ring 18).canTake = true ∧ s.poolOk poolTable 1 = true ∧ s.poolOk (zeros 16) 1 = false ∧
    codecStatus (exec (.poolSet 18) (at' (pool (openCtx1 18 id)))) = 9 ∧
    codecStatus (exec (.poolSet 18) (pool id)) = 1 ∧
    away.rangeAll Region.hostOk 0x8000000000000000 16 = false ∧ codecStatus (exec (.poolSet 18) away) = 1 ∧
    held.stackHeld 0x100 = true ∧ ends (exec (.poolSet 18) held) (fun t => (t.ring 18).posted.length == 1) = true ∧
    held.completionHeld 18 = false ∧
    ends (exec (.poolSet 18) s) (fun t => (t.codec 0).pool == [(0x10000, 0x6040)]) = true ∧ codecStatus (exec (.poolSet 18) s) = 0 ∧
    codecStatus (exec (.codecOpen 19) (codecPost 19 2 [(0x20, 1, 1), (0x21, 1, 1)] (openCtx1 19 id))) = 0xE ∧
    codecStatus (exec (.codecOpen 18) (codecPost 18 2 [(0x20, 1, 1), (0x21, 1, 1)] id)) = 1 ∧
    ends (exec (.codecOpen 19) (codecPost 19 2 [(0x20, 1, 1), (0x21, 1, 1)] id)) (fun t => ((t.codec 0).ctx 1).any fun x => x.ring == 19) = true ∧
    ends (exec (.release 18) (codecPost 18 6 [(0x20, 4, 3)] (onePool 0x20))) (fun t => (t.codec 0).mark 0 == 0) = true ∧
    codecStatus (exec (.flush 18) shut) = 1 ∧
    ends (exec (.flush 19) (codecPost 19 5 [(0x20, 1, 1)] (openCtx1 19 (fun x => { x with waiting := [0] }) ∘ onePool 0xA01))) (fun t =>
      mkOut ((t.codec 0).mark 0) && ((t.codec 0).ctx 1).any fun x => x.waiting == []) = true ∧
    codecStatus (exec (.codecClose 18) (codecPost 18 7 [(0x20, 1, 2)] id)) = 1 ∧
    ends (exec (.codecClose 19) (codecPost 19 7 [(0x20, 1, 1)] (openCtx1 19 id ∘ onePool 0xA01))) (fun t =>
      (t.codec 0).mark 0 == 0 && ((t.codec 0).ctx 1).isNone) = true ∧
    ends (exec (.framePacing 0 1) (up.modCodec 0 (openCtx1 18 id))) (fun t => ((t.codec 0).ctx 1).any (·.paced)) = true := by
  decide +kernel

/-- An ENC_FRAME of packed pixels in context 1, and a DEC_UNIT of one byte there. -/
def encPost (fields : List (Nat × Nat × Nat)) (m : BitVec 12) (f : Ctx → Ctx) : State :=
  codecPost 18 3 [(0x20, 1, 1), (0x22, 1, 3), (0x24, 2, 16), (0x26, 2, 16), (0x28, 8, 0x30000), (0x30, 4, 64), (0x34, 1, 0x11),
    (0x44, 2, 16), (0x46, 2, 16), (0x48, 8, 0x40000), (0x50, 4, 4096)] (openCtx1 18 (fun x => f { x with param := epBlock fields }) ∘ onePool m)
def decPost (m : BitVec 12) : State :=
  codecPost 19 4 [(0x20, 1, 1), (0x21, 1, 1), (0x24, 4, 1), (0x28, 8, 0x30000)] (openCtx1 19 id ∘ onePool m)

/-- What came of a frame: 0 wait, 1 no buffer, 2 busy, 3 another end. -/
def framedKind : Framed → Nat
  | .wait => 0
  | .noBuffer => 1
  | .busy => 2
  | _ => 3

set_option maxRecDepth 40000 in
/-- CodecsRun: frames that wait, find no buffer and no hope of one; contexts not open; a pipeline that holds. -/
theorem test_codec_frames :
    let d := mkDesc 128 3 0 [(0x20, 1, 2)]
    let h : HostData := hostOf []
    let kind := fun (s : State) => framedKind (s.encodeFrame 0 (((s.codec 0).ctx 1).getD { ring := 0, codec := 0 }) ((s.ring 18).posted.headD { idx := 0, bytes := [] }).bytes h (.desc 18 d) false)
    let s := encPost [] 0 id
    let held := (encPost [] 0x20 id).modCodec 0 fun c => { c with encHeld := true }
    ((s.codec 0).openOn 1 18).isSome = true ∧ (s.codec 0).marks.length = 32 ∧
    kind (encPost [(0x2C, 4, 9)] 0 fun x => { x with frames := 1 }) = 0 ∧ kind (encPost [] 0x20 id) = 1 ∧
    kind (encPost [] 1 id) = 2 ∧
    ends (exec (.encFrame 18 h) (encPost [(0x2C, 4, 9)] 0 fun x => { x with frames := 1 })) (fun t => (t.ring 18).posted.length == 1) = true ∧
    ends (exec (.encFrame 18 h) (encPost [] 0x20 id)) (fun t => (t.codec 0).encHeld && (t.codec 0).poolWait == 1) = true ∧
    codecStatus (exec (.encFrame 18 h) (encPost [] 1 id)) = 9 ∧
    codecStatus (exec (.encFrame 18 h) (codecPost 18 3 [(0x20, 1, 2)] id)) = 1 ∧
    codecStatus (exec (.decUnit 19 h) (codecPost 19 4 [(0x20, 1, 2)] id)) = 1 ∧
    ends (exec (.poolWait 0 true h) held) (fun t => (t.codec 0).encHeld && (t.codec 0).poolWait == 0) = true ∧
    ends (exec (.poolWait 0 true h) s) (fun t => t == s) = true ∧ ends (exec (.poolWait 0 false h) s) (fun t => t == s) = true := by
  decide +kernel

/-- CodecsRun: an encoder is the codec's own (log entry 10), so no state decides its bits; where a frame has none, the
frame is coded and placed. -/
theorem test_frame_coded (h : ∀ v p f r pic, Config.encodeFrame v p f r pic = []) (s : State) (x : Ctx)
    (d : List Byte) (o : Owner) (rows : List (List Byte)) (inList : Bool) (hd : eDstSpace d ≠ 2) :
    ∃ res0 ext n s1, s.codeFrame 0 x d o inList 0 rows [] false = .ok res0 ext n s1 := by
  simp [State.codeFrame, State.codecWrite, codecWriteFuel, h, hd]

/-- CodecsRun: such a frame at the head of ring 18. -/
theorem test_frame_reads :
    let s := encPost [] 0 id
    let x := ((s.codec 0).ctx 1).getD { ring := 0, codec := 0 }
    let d := ((s.ring 18).posted.headD { idx := 0, bytes := [] }).bytes
    eDstSpace d = 1 ∧ (epPace x.param = 0) ∧ s.codecHeld 0 x false = false ∧ axisScales (eCropW d) (epWidth x.param) false = true ∧
    axisScales (eCropH d) (epHeight x.param) false = true ∧ swaps (eXform d) = false ∧
    (s.codec 0).freeBuffer (fbSize (epWidth x.param) (epHeight x.param) (epDepth x.param)) = some 0 ∧
    (match readRows 0 (.desc 18 d) false (hostOf []) (ePitch d) (eCropW d * pixBytes (eFmt d)) (eCropH d)
        (eSrc d + eCropY d * ePitch d + eCropX d * pixBytes (eFmt d)) s with
      | .ok rows bad _ => rows.length == 16 && !bad
      | _ => false) = true ∧ 2 < eFmt d := by decide +kernel

/-- CodecsRun: a decoder is the codec's own too; where it makes no picture of a unit, DEC_UNIT is done. -/
theorem test_unit_decoded (h : ∀ c hist u, Config.parseUnit c hist u = (false, [])) (s s1 : State) (x : Ctx)
    (d : List Byte) (o : Owner) (bs : List Byte) (hh : s.codecHeld 0 x false = false) (hs : fieldAt d 0x21 1 = 1)
    (hr : s.codecRead 0 o false (hostOf []) (fieldAt d 0x28 8) (fieldAt d 0x24 4) = .ok bs false s1) :
    ∃ res0 ext s2, s.decodeUnit 0 x d (hostOf []) o = .done 0 res0 0 ext s2 := by
  simp [State.decodeUnit, hh, hs, hr, h, decodePics, stOk]

/-- CodecsRun: such a unit at the head of ring 19. -/
theorem test_unit_reads :
    let s := decPost 0
    let d := ((s.ring 19).posted.headD { idx := 0, bytes := [] }).bytes
    fieldAt d 0x21 1 = 1 ∧ s.codecHeld 0 (((s.codec 0).ctx 1).getD { ring := 0, codec := 0 }) false = false ∧
    ((s.codec 0).openOn 1 19).isSome = true ∧
    (match s.codecRead 0 (.desc 19 d) false (hostOf []) (fieldAt d 0x28 8) (fieldAt d 0x24 4) with
      | .ok bs bad _ => bs == [0] && !bad
      | _ => false) = true := by decide +kernel

/-- An encode list of engine 0 with one frame in context 1, its CLOSE in context 1. -/
def encList : List Byte :=
  let open' := mkDesc 128 2 0 [(0x20, 1, 1), (0x21, 1, 1), (0x28, 8, 0x3000), (0x30, 8, 0x8000), (0x38, 4, 4096)]
  let frame := mkDesc 128 3 1 [(0x20, 1, 1), (0x22, 1, 3), (0x24, 2, 16), (0x26, 2, 16), (0x28, 8, 0x4000), (0x30, 4, 64), (0x34, 1, 0x00),
    (0x44, 2, 16), (0x46, 2, 16), (0x48, 8, 0x5000), (0x50, 4, 4096)]
  withCrc (toLe 0x4D39454C 4 ++ toLe 0 4 ++ toLe 3 4 ++ zeros 48) ++ open' ++ frame ++ mkDesc 128 7 2 [(0x20, 1, 1)]

/-- A job that reaches its encode list, with the list's run, if any. -/
def encoding (l : Option EncRun) (f : Job → Job) : State :=
  let s := { stepOf (segOfKind 5 0) with mem := (memWith 0x2000 encList).write 0x3000 (epBlock []) false }
  (s.modJob fun _ => f { jobOf (jobDesc [(0x60, 8, 0x2000)]) with phase := .encoding }).modCodec 0 fun c =>
    (openCtx1 18 (fun x => { x with ofList := true }) c |> fun k => if l.isSome then { k with list := l } else c)

set_option maxRecDepth 40000 in
/-- CodecsRun: an encode list starts, closes, ends early, and is not there in another phase. -/
theorem test_encode_list :
    let h : HostData := hostOf []
    let ds := (List.range 3).map (elDesc encList)
    let last : EncRun := { descs := ds, next := 2, frames := 1, bytes := 10 }
    let early := fun (j : Job) => { j with ending := some { status := 9 } }
    let first : EncRun := { descs := ds }
    let opens := (encoding (some first) id).modCodec 0 fun c => c.setCtx 1 none
    (match opens.openCtx 0 18 (.desc 0 []) true h (ds.headD []) with
      | .ok x _ => x.ofList
      | _ => false) = true ∧
    ends (exec (.encodeList h) opens) (fun t => ((t.codec 0).ctx 1).isSome && ((t.codec 0).list.map (·.next)) == some 1) = true ∧
    (encoding none id).shaped = true ∧ (encoding none id).leadOk = true ∧ (encoding (some last) id).listEngine = some 0 ∧
    ends (exec (.encodeList h) (encoding none id)) (fun t => ((t.codec 0).list.map (·.descs)) == some ds) = true ∧
    ends (exec (.encodeList h) (encoding (some last) id)) (fun t => (t.codec 0).list == none && (t.job.cur.bind (·.ending)).any fun e =>
      e.status == 0 && e.resExt == [1, 0, 0, 0, 0, 0, 0, 0, 10, 0, 0, 0, 0, 0, 0, 0]) = true ∧
    ends (exec (.encodeList h) (encoding (some last) early)) (fun t => (t.codec 0).list == none && ((t.codec 0).ctx 1).isNone) = true ∧
    ends (exec (.encodeList h) (encoding none fun j => { j with phase := .running })) (fun t => (t.codec 0).list == none) = true := by
  decide +kernel

set_option maxRecDepth 40000 in
/-- CodecsRun: a parameter block that an OPEN takes. -/
theorem test_param_block : paramOk 1 (epBlock []) = true := by decide +kernel

/-! ### Worked examples of the spec -/

/-- The check value of CRC-32C (R274): that of "123456789" is 0xE3069283. -/
theorem test_crc32c : crc32c [0x31, 0x32, 0x33, 0x34, 0x35, 0x36, 0x37, 0x38, 0x39] = 0xE3069283 := by decide +kernel

/-- Values that drain to INT8 in a block of which the others are 1, by position. -/
def outlierBlock : List DVal :=
  let xs := [(3, fpMul (fpOfInt 1372104) 0x39200000), (17, fpMul (fpOfInt (-281)) 0x3F000000), (40, fpMul (fpOfInt 263) 0x3F000000),
    (77, fpMul (fpOfInt (-3001)) 0x3E4CCCCD), (90, fpOfInt 128), (101, fpOfInt (-129))]
  (List.range 128).map fun i =>
    .fp (match xs.find? fun (x : Nat × Word) => x.1 == i with
      | some x => x.2
      | none => if 110 ≤ i ∧ i < 119 then 0x3F000000 else 0x3F800000) false

set_option maxRecDepth 40000 in
/-- The worked example of 04_arithmetic.md: the outlier record, the side record 0x0000_0000_0402_0902, the elements in
place of outliers and of clamped candidates, and what the counters advance by. -/
theorem test_outlier_example :
    let b := blockOutx 4 outlierBlock
    let r := fun (w : Nat) => toLe w 4
    b.outl = [(3, 209), (17, -140), (40, 132), (77, -600)] ∧
    b.outRecord = r 0x830000D1 ++ r 0x9100FF74 ++ r 0xA8000084 ++ r 0xCD00FDA8 ∧
    b.sideRecord 4 0 false false = toLe 0x04020902 8 ∧ b.elems.getD 3 9 = 0 ∧ b.elems.getD 90 0 = 127 ∧ b.elems.getD 101 0 = 0x80 ∧
    ({} : Engine).countBlock b 4 = ((({} : Engine).count nSat 2).count nZero 9).count nClip 2 := by
  decide +kernel

/-- The worked examples of 07_convolution_compression.md: a Glaze sub-block of BF16 at 4:1, and a Crumb chunk. -/
theorem test_compression_examples :
    let xs := [0x3FC0, 0xBF40, 0x3EA0, 0x4038, 0, 0xC050, 0x3E00, 0x3F80]
    let q := glazeSub 1 3 xs
    q = (0x7F, [2, -1, 0, 3, 0, -3, 0, 1], 0) ∧ toLe (packCodes 3 q.2.1) 3 = [0x3A, 0x86, 0x22] ∧
    (glazeBlock 1 32 xs).1.take 1 = [0x7F] ∧ ((glazeBlock 1 32 xs).1.drop 8).take 3 = [0x3A, 0x86, 0x22] ∧
    crumbChunk 1 [0, 0, 0, 0, 0, 7, 0xFD, 0, 9, 0, 0, 0] =
      [0x07, 0xC0, 0x02, 0x00, 0x84, 0x03, 0x07, 0xFD, 0x00, 0x09, 0x82] := by decide +kernel

/-- The worked example of 08_memory_tiers.md: the indexes of the walk of job address 0x0014_6505_3000, and what device
address 0x0020_3A7C_3000 decodes to. -/
theorem test_address_example :
    let ja := 0x001465053000
    let a := 0x00203A7C3000
    [3, 2, 1, 0].map (fun l => entryAddr ja l 0 / 8) = [0, 5, 50, 261] ∧ hbmStack a = 2 ∧ hbmRow a = 233 ∧
    bitsOf a 20 2 = 3 ∧ bitsOf a 18 2 = 3 ∧ bitsOf a 16 2 = 0 ∧ hbmGranule a = 3 ∧ hbmChannel a = 0 ∧ hbmPseudo a = 0 := by
  decide +kernel

/-- The worked example of 06_attention_special_functions.md: merging (3, 2, 2) and (2, 10, +0), rcp(5) being 0.2. -/
theorem test_merge_example :
    smerge (fun _ => 0x3E4CCCCD) ⟨3, 0x40000000, 0x40000000⟩ ⟨2, 0x41200000, 0⟩ = ⟨5, 0x40A66666, 0x429D999A⟩ := by decide +kernel

/-- The parameter block of the worked example of 13_video_codec.md. -/
def clipBlock : List Byte :=
  [(0, 2, 3840), (2, 2, 2160), (4, 1, 10), (8, 4, 24), (0xC, 4, 1), (0x10, 1, 1), (0x11, 1, 30), (0x13, 1, 51), (0x14, 1, 0xFD),
    (0x15, 1, 4), (0x16, 1, 16), (0x18, 4, 40000), (0x1C, 4, 40000), (0x20, 4, 40000), (0x24, 1, 50), (0x25, 1, 64)].foldl
    (fun d (f : Nat × Nat × Nat) => putAt d f.1 (toLe f.2.2 f.2.1)) (zeros 256)

/-- Its key frame: bpf, t and q, and the step after row 5. -/
theorem test_rate_example :
    let f := rcFrame clipBlock true none (rcOpen clipBlock) 34 (fun _ qps => if qps.length = 6 then 1600000 else qps.length * 208333)
    rcOpen clipBlock = 20000000 ∧ rcPerFrame clipBlock 40000 = 1666666 ∧ f.t = 7083330 ∧ f.q = 27 ∧ f.qps.length = 34 ∧
    rcRowStep clipBlock 27 21666666 7083330 34 5 1600000 = 1 ∧ f.qps.getD 6 0 = 28 := by decide +kernel

/-! ### Ill-formed commands, one for each check of WellFormed -/

/-- No command of a list is well formed. -/
def illFormed (is : List Instr) : Bool := is.all fun i => i.wf == false

/-- Host data that names a byte beyond the 64-bit space. -/
def farHost : HostData := { cells := [(2 ^ 64, 0)], status := .ok }

/-- Rings, and reads and writes of the host. -/
theorem test_wf_host :
    illFormed [.doorbell 32 0, .eventDoorbell 1 0, .descriptorFetch 32, .descriptorCheck 22, .recordWrite 1, .readCompletion 0 .ok (zeros 4097),
      .readCompletion 0 .ur [1], .bar4Read 0 0 0, .bar4Read 0 4097 0, .bar4Write 0 [] [] false 0,
      .bar4Write 0 (zeros 513) (List.replicate 513 true) false 0, .bar4Write 0 [1] [] false 0,
      .atsTranslationCompletion 0 (some ⟨0, 2048⟩), .atsInvalidate none 0x1000 0x3000, .atsInvalidate none 0x1000 0x2000,
      .ringEnable .pf1 5 0, .ringEnable .pf0 64 0, .w1cCounterWrite .pf0 2 0, .registerWrite .pf0 4 true 0,
      .registerWrite .pf0 2 false 0, .registerWrite .pf0 4 false 0x100000000, .pcieLinkUp 2 6 true, .pcieLinkUp 16 7 true,
      .pcieLinkUp 16 0 true] = true := by decide +kernel

/-- Host bytes. -/
theorem test_wf_host_bytes :
    illFormed [.job farHost, .imgVerify .pf0 farHost, .tsetVerify .pf0 farHost, .fwStage .pf0 farHost, .mctpRequest false (zeros 128) farHost,
      .range farHost, .movers farHost, .sort farHost, .stepEnd farHost, .encodeList farHost, .firmwareResolve (.engine 0) farHost,
      .resume farHost, .encFrame 18 farHost, .decUnit 19 farHost, .poolWait 0 true farHost,
      .i3cTransfer (.writePacket (zeros 128) farHost)] = true := by decide +kernel

/-- Payloads, sizes and ranges. -/
theorem test_wf_sizes :
    let h : HostData := { cells := [], status := .ok }
    illFormed [.mctpRequest true (zeros 127) h, .i3cTransfer (.writePacket (zeros 129) h), .report .pf0 (zeros 31), .ownerClaim .pf0 (zeros 1951),
      .slotWrite .pf0 (zeros 5270), .hbmRead 0 0 0 0 [], .hbmRead 0 65 0 0 [], .hbmRead 60 8 0 0 [], .hbmRead 0 8 10 0 [],
      .resolve 1, .resolve 18, .poolSet 17, .codecOpen 22, .encFrame 2 h, .decUnit 0 h, .flush 1, .release 17, .codecClose 64,
      .creditRefill { inputMw := 0, railMw := 0, temps := [], vset := [] }] = true := by decide +kernel

/-- Flits. -/
theorem test_wf_flits :
    let f := zeros 255
    illFormed [.param 0 f, .sequencedFlit 0 f 0 0, .sequencedFlit 0 (zeros 256) 4 5, .retryReq 0 f, .idle 0 f, .nop 0 f, .violation 0 f,
      .vcResync 0 f] = true ∧ (Instr.sequencedFlit 0 (zeros 256) 4 4).wf = true ∧
    (Instr.resolve 17).wf = true ∧ (Instr.hbmRead 56 8 9 0 []).wf = true := by decide +kernel

end Sys2Proof.Tests
end

/-! PROOFS. The architecture's obligations on the path of a tile, of a plan's segments and of a step's end. -/

namespace Sys2Proof.Proofs

open Sys2Proof Sys2Proof.Machine Sys2Proof.Laws

/-! ### Units by number -/

theorem modifyNth_congr {α : Type} {f g : α → α} (l : List α) (i : Nat) (d : α) (h : f (l.getD i d) = g (l.getD i d)) :
    modifyNth f l i = modifyNth g l i := by
  induction l generalizing i with
  | nil => simp [modifyNth]
  | cons a as ih => cases i <;> simp_all [modifyNth]

/-- A change of a unit is known by what it makes of that unit. -/
theorem modEngine_congr {f g : Engine → Engine} (s : State) (e : Nat) (h : f (s.engine e) = g (s.engine e)) :
    s.modEngine e f = s.modEngine e g :=
  congrArg (fun l => { s with engines := l }) (modifyNth_congr _ _ _ h)

theorem modCourse_congr {f g : Course → Course} (s : State) (c : Nat) (h : f (s.course c) = g (s.course c)) :
    s.modCourse c f = s.modCourse c g :=
  congrArg (fun l => { s with courses := l }) (modifyNth_congr _ _ _ h)

/-! ### What a shaped state holds -/

theorem shaped_lengths {s : State} (h : s.shaped = true) :
    s.rings.length = 66 ∧ s.movers.length = 48 ∧ s.engines.length = 64 ∧ s.courses.length = 8 ∧ s.halves.length = 2 ∧
      s.hbm.length = 16 ∧ s.fab.ports.length = 8 ∧ s.codecs.length = 2 := by
  simpa [State.shaped, and_assoc] using h

theorem shaped_movers {s : State} (h : s.shaped = true) : s.movers.length = 48 := (shaped_lengths h).2.1
theorem shaped_engines {s : State} (h : s.shaped = true) : s.engines.length = 64 := (shaped_lengths h).2.2.1
theorem shaped_courses {s : State} (h : s.shaped = true) : s.courses.length = 8 := (shaped_lengths h).2.2.2.1

/-! ### Faults raised -/

theorem posted_engine {s t : State} (h : Posted s t) (e : Nat) : t.engine e = s.engine e := by
  rw [State.engine, h.engines]; rfl

theorem posted_course {s t : State} (h : Posted s t) (c : Nat) : t.course c = s.course c := by
  rw [State.course, h.courses]; rfl

/-- A fault raised posts one record and is held with its cause and tile. -/
theorem raiseFault_posted (s : State) (u : FaultUnit) (f : HeldFault) (o : Owner := .job) (c : Nat × Word := (0, 0)) :
    ∃ t g, Posted s t ∧ s.raiseFault u f o c = t.setFault u (some g) ∧ g.cause = f.cause ∧ g.tile = f.tile :=
  ⟨_, _, post_posted _ _, rfl, rfl, rfl⟩

theorem raiseFault_engine {s : State} (e : EngineId) (he : e.val < s.engines.length) (f : HeldFault) :
    ∃ g, (s.raiseFault (.engine e) f).engine e = { s.engine e with fault := some g, hold := 7 } ∧ g.cause = f.cause ∧
      g.tile = f.tile := by
  obtain ⟨t, g, ht, h, hcause, htile⟩ := raiseFault_posted s (.engine e) f
  refine ⟨g, ?_, hcause, htile⟩
  rw [h, ← posted_engine ht]
  exact engine_modEngine_same _ _ _ (ht.engines ▸ he)

/-- A steward's fault leaves the engines as they are. -/
theorem raiseFault_steward {s : State} (c : CourseId) (hc : c.val < s.courses.length) (f : HeldFault) :
    ∃ g, (s.raiseFault (.steward c) f).course c = { s.course c with stewardFault := some g } ∧ g.cause = f.cause ∧
      g.tile = f.tile ∧ ∀ e, (s.raiseFault (.steward c) f).engine e = s.engine e := by
  obtain ⟨t, g, ht, h, hcause, htile⟩ := raiseFault_posted s (.steward c) f
  refine ⟨g, ?_, hcause, htile, fun e => ?_⟩
  · rw [h, ← posted_course ht]
    exact course_modCourse_same _ _ _ (ht.courses ▸ hc)
  · rw [h, ← posted_engine ht]; rfl

theorem raiseFault_counter {s : State} (c : CourseId) (hc : c.val < s.courses.length) (f : HeldFault) :
    ∃ g, (s.raiseFault (.counter c) f).course c = { s.course c with counterFault := some g } ∧ g.cause = f.cause ∧
      (s.raiseFault (.counter c) f).job = s.job := by
  obtain ⟨t, g, ht, h, hcause, -⟩ := raiseFault_posted s (.counter c) f
  refine ⟨g, ?_, hcause, ?_⟩
  · rw [h, ← posted_course ht]
    exact course_modCourse_same _ _ _ (ht.courses ▸ hc)
  · rw [h]
    exact ht.job

@[simp] theorem raiseFault_mem (s : State) (u : FaultUnit) (f : HeldFault) (o : Owner) (c : Nat × Word) :
    (s.raiseFault u f o c).mem = s.mem := by
  obtain ⟨t, g, ht, h, -, -⟩ := raiseFault_posted s u f o c
  rw [h, setFault_frame]
  exact ht.mem

/-! ### Reads of memory without a flaw -/

theorem flawed_nil {m : Memory} (h : m.synd = []) (a n : Nat) : m.flawed a n = [] := by simp [Memory.flawed, h]

theorem readMem_clean {s : State} (h : s.mem.synd = []) (rd : Reader) (a n : Nat) :
    s.readMem rd a n = (s.mem.read a n, false, s.touchRows a n) := by
  simp [State.readMem, State.peek, Memory.anyBad, flawed_nil h]

@[simp] theorem touchRows_engine (s : State) (a n e : Nat) : (s.touchRows a n).engine e = s.engine e := by
  rw [touchRows_frame]; rfl

theorem stallEngine_claim {s : State} {e : Nat} (he : e < s.engines.length) (k : Nat) :
    ((s.stallEngine e k).engine e).claim = (s.engine e).claim := by
  rw [State.stallEngine, engine_modEngine_same _ _ _ he]

/-! ### A claimed tile -/

/-- The tile once its descriptor and staging entries are read (R135, R138). -/
def takenTile (v : Tile) (d : List Byte) (entries : List (List Byte)) : Tile :=
  { v with read := true, desc := d, stage := entries, fills := 0, off := 0 }

/-- A tile with an entry that fills still waits for it. -/
theorem takenTile_unfilled (v : Tile) (d : List Byte) {entries : List (List Byte)}
    (h : (entries.any fun b => !seWrite b) = true) : (takenTile v d entries).filled = false := by
  obtain ⟨b, hb, hb'⟩ := List.any_eq_true.1 h
  simp only [Tile.filled, takenTile, List.drop_zero, List.all_eq_false]
  exact ⟨b, hb, by simpa using hb'⟩

section
variable {s : State} {e : EngineId} {v : Tile}

/-- A descriptor that fails a check leaves the engine holding a fault of that check. -/
theorem readTile_faulty (hs : s.mem.synd = []) {c : Nat}
    (hc : tileDescFault (s.mem.read v.descAddr 64) v.eclass = some c) :
    s.readTile e v = (s.touchRows v.descAddr 64).raiseFault (.engine e) (tileFault (newFault c) v) := by
  simp [State.readTile, readMem_clean hs, hc]

/-- A descriptor and staging entries that pass their checks are taken into the claim. -/
theorem readTile_good (hs : s.mem.synd = []) {d : List Byte} {entries : List (List Byte)}
    (hd : s.mem.read v.descAddr 64 = d) (hc : tileDescFault d v.eclass = none)
    (he : chunksOf 32 (tdStages d) (s.mem.read (v.descAddr + 64) (32 * tdStages d)) = entries)
    (hg : entries.filterMap stageFault = []) :
    s.readTile e v = ((s.touchRows v.descAddr 64).touchRows (v.descAddr + 64) (32 * tdStages d)).modEngine e fun x =>
      { x with claim := some (takenTile v d entries), lastRestart := none } := by
  have hs' : (s.touchRows v.descAddr 64).mem.synd = [] := by rw [touchRows_mem, hs]
  simp [State.readTile, readMem_clean hs, readMem_clean hs', hd, hc, he, hg, takenTile]

/-- DISPATCH of a claimed tile: it is read where it is not yet, then it asks, waits or starts. -/
theorem exec_dispatch {t : State} {w : Tile} (hup : s.engineUp e = true) (hstop : s.jobStopping = false)
    (hcl : (s.engine e).claim = some v) (hf : (s.engine e).fault = none)
    (ht : (if v.read then s else s.readTile e v) = t) (hw : (t.engine e).claim = some w) :
    exec (.dispatch e) s = .next (
      if w.read = false then t
      else if (t.engine e).run.isSome then t.askImage e w
      else if w.filled = false then (t.askImage e w).stallEngine e (t.fillCause e w)
      else t.resolveHandle e w) := by
  show execDispatch e s = _
  simp only [execDispatch, hcl, hup, hstop, hf, ht, hw]
  cases w.read <;> cases (t.engine e).run <;> cases w.filled <;> simp

/-- DISPATCH of a tile that is read. -/
theorem exec_dispatch_read (hup : s.engineUp e = true) (hstop : s.jobStopping = false)
    (hcl : (s.engine e).claim = some v) (hf : (s.engine e).fault = none) (hr : v.read = true) :
    exec (.dispatch e) s = .next (
      if (s.engine e).run.isSome then s.askImage e v
      else if v.filled = false then (s.askImage e v).stallEngine e (s.fillCause e v)
      else s.resolveHandle e v) := by
  rw [exec_dispatch (t := s) (w := v) hup hstop hcl hf (by simp [hr]) hcl]
  simp [hr]

/-- DISPATCH of a tile that is read and filled, with none running before it. -/
theorem exec_dispatch_ready (hup : s.engineUp e = true) (hstop : s.jobStopping = false)
    (hcl : (s.engine e).claim = some v) (hf : (s.engine e).fault = none) (hr : v.read = true) (hfl : v.filled = true)
    (hrun : (s.engine e).run = none) : exec (.dispatch e) s = .next (s.resolveHandle e v) := by
  rw [exec_dispatch_read hup hstop hcl hf hr]
  simp [hrun, hfl]

end

/-! ### The engine at the start of a tile -/

theorem setActive_frame (x : Engine) (l : List (Nat × Acc)) :
    x.setActive l = { x with acc0 := (x.setActive l).acc0, acc1 := (x.setActive l).acc1 } := by
  unfold Engine.setActive; split <;> rfl

/-- A phase starts with its bricks at ENTRY_SLOT; the tiles, the planes and the vector registers stay. -/
theorem startPhase_fields (x : Engine) :
    x.startPhase.run = x.run ∧ x.startPhase.claim = x.claim ∧ x.startPhase.vregs = x.vregs ∧
      x.startPhase.bricks = x.bricks.zipIdx.map (startBrick x.plane (phEntry x.block)) := by
  unfold Engine.startPhase
  simp only
  split
  · rw [setActive_frame]; exact ⟨rfl, rfl, rfl, rfl⟩
  · exact ⟨rfl, rfl, rfl, rfl⟩

theorem startTile_fields (x : Engine) (v : Tile) :
    (x.startTile v).run = some { v with phase := 0 } ∧ (x.startTile v).claim = none ∧
      (x.startTile v).vregs = List.replicate 16 (List.replicate 32 (List.replicate 32 0)) ∧
      (x.startTile v).bricks = x.bricks.zipIdx.map (startBrick x.plane (phEntry (x.plane.block 0))) :=
  startPhase_fields { x with
    run := some { v with phase := 0 }, claim := none, marks := 0, fusedElem := 0, sfuQ := []
    vregs := List.replicate 16 (List.replicate 32 (List.replicate 32 0)) }

theorem startTile_vreg (x : Engine) (v : Tile) {lane reg : Nat} (hl : lane < 16) (hr : reg < 32) :
    (x.startTile v).vreg lane reg = List.replicate 32 0 := by
  obtain ⟨-, -, hv, -⟩ := startTile_fields x v
  simp only [Engine.vreg, hv, List.getD_eq_getElem?_getD, List.getElem?_replicate, if_pos hl, if_pos hr, Option.getD_some]

theorem startTile_brick (x : Engine) (v : Tile) {b : Brick} (hb : b ∈ (x.startTile v).bricks) :
    b.slot = phEntry (x.plane.block 0) ∧ b.done = false ∧ b.fired = 0 := by
  obtain ⟨-, -, -, hbr⟩ := startTile_fields x v
  rw [hbr] at hb
  obtain ⟨q, -, rfl⟩ := List.mem_map.1 hb
  exact ⟨rfl, rfl, rfl⟩

/-- The register files of the bricks last from tile to tile. -/
theorem startTile_rf (x : Engine) (v : Tile) : (x.startTile v).bricks.map (·.rf) = x.bricks.map (·.rf) := by
  obtain ⟨-, -, -, hbr⟩ := startTile_fields x v
  have hcomp : (fun b : Brick => b.rf) ∘ startBrick x.plane (phEntry (x.plane.block 0)) = (fun b => b.rf) ∘ Prod.fst := rfl
  rw [hbr, List.map_map, hcomp, ← List.map_map, List.zipIdx_map_fst]

/-! ### Images asked for -/

theorem requestImage_asks {s : State} {e : Nat} (hc : e / 8 < s.courses.length) (h : Nat) :
    (((s.requestImage e h).course (e / 8)).imageReq.any fun q => q.1 == e) = true := by
  rw [State.requestImage, course_modCourse_same _ _ _ hc]
  split
  · assumption
  · simp

/-- An image request changes the requests of the engine's course alone. -/
theorem requestImage_frame {s : State} {e : Nat} (hc : e / 8 < s.courses.length) (h : Nat) :
    s.requestImage e h = s.modCourse (e / 8) fun c =>
      { c with imageReq := ((s.requestImage e h).course (e / 8)).imageReq } := by
  conv => lhs; rw [State.requestImage]
  refine modCourse_congr _ _ ?_
  rw [State.requestImage, course_modCourse_same _ _ _ hc]
  split <;> rfl

theorem engineCourse_lt {s : State} (hs : s.shaped = true) (e : EngineId) : e.val / 8 < s.courses.length := by
  have := shaped_courses hs
  omega

theorem engine_lt {s : State} (hs : s.shaped = true) (e : EngineId) : e.val < s.engines.length := by
  have := shaped_engines hs
  omega

/-- Asking for the next tile's image changes the courses alone. -/
theorem askImage_frame (s : State) (e : EngineId) (v : Tile) :
    s.askImage e v = { s with courses := (s.askImage e v).courses } := by
  unfold State.askImage
  simp only
  split <;> rfl

/-- What DISPATCH does with a tile that is not filled: it asks for the image, and stalls where no tile runs. -/
def askOrStall (s : State) (e : EngineId) (v : Tile) : State :=
  if (s.engine e).run.isSome then s.askImage e v else (s.askImage e v).stallEngine e (s.fillCause e v)

/-- A tile that waits leaves the engine's tiles as they are, and changes the engines and courses alone. -/
theorem askOrStall_fields {s : State} {e : EngineId} {w : Tile} (he : e.val < s.engines.length) :
    ((askOrStall s e w).engine e).claim = (s.engine e).claim ∧ ((askOrStall s e w).engine e).run = (s.engine e).run ∧
      ((askOrStall s e w).engine e).lastRestart = (s.engine e).lastRestart ∧
      askOrStall s e w = { s with engines := (askOrStall s e w).engines, courses := (askOrStall s e w).courses } := by
  have hask := askImage_frame s e w
  have hae : (s.askImage e w).engine e = s.engine e := by rw [hask]; rfl
  unfold askOrStall
  split
  · rw [hae]
    exact ⟨rfl, rfl, rfl, by rw [hask]⟩
  · rw [State.stallEngine, engine_modEngine_same _ _ _ (by rw [hask]; exact he), hae]
    exact ⟨rfl, rfl, rfl, by rw [hask]; rfl⟩

/-- A tile whose image neither plane holds or loads is asked for. -/
theorem askImage_asks {s : State} {e : EngineId} {v : Tile} (hs : s.shaped = true)
    (hp : (s.engine e).plane.serves (tdHandle v.desc) = false)
    (hi : (s.engine e).idlePlane.serves (tdHandle v.desc) = false) (hl : (s.engine e).loading = none)
    (hst : (s.storedOf (tdHandle v.desc) 1).isSome = true) :
    (((s.askImage e v).course (e.val / 8)).imageReq.any fun q => q.1 == e.val) = true := by
  have hask : s.askImage e v = s.requestImage e (tdHandle v.desc) := by
    simp [State.askImage, hp, hi, hl, Option.isSome_iff_ne_none.1 hst]
  rw [hask]
  exact requestImage_asks (engineCourse_lt hs e) _

/-! ### The handle of a tile that is ready (R74) -/

section
variable {s : State} {e : EngineId} {v : Tile}

theorem resolveHandle_active (hp : (s.engine e).plane.serves (tdHandle v.desc) = true) :
    s.resolveHandle e v = s.modEngine e fun x => x.startTile v := by
  simp [State.resolveHandle, hp]

theorem resolveHandle_idle (hp : (s.engine e).plane.serves (tdHandle v.desc) = false)
    (hi : (s.engine e).idlePlane.serves (tdHandle v.desc) = true) (hl : (s.engine e).loading = none) :
    s.resolveHandle e v = s := by
  simp [State.resolveHandle, hp, hi, hl]

theorem resolveHandle_stored (hp : (s.engine e).plane.serves (tdHandle v.desc) = false)
    (hi : (s.engine e).idlePlane.serves (tdHandle v.desc) = false) (hl : (s.engine e).loading = none)
    (hst : (s.storedOf (tdHandle v.desc) 1).isSome = true) :
    s.resolveHandle e v = (s.requestImage e (tdHandle v.desc)).stallEngine e 0x02 := by
  simp [State.resolveHandle, hp, hi, hl, hst, wImageWait]

theorem resolveHandle_missing (hp : (s.engine e).plane.serves (tdHandle v.desc) = false)
    (hi : (s.engine e).idlePlane.serves (tdHandle v.desc) = false) (hl : (s.engine e).loading = none)
    (hst : s.storedOf (tdHandle v.desc) 1 = none) (hf : (s.course (e.val / 8)).stewardFault = none) :
    s.resolveHandle e v = (s.stallEngine e wFaultWait).raiseFault (.steward (Fin.ofNat 8 (e.val / 8)))
      (tileFault (newFault fImageMissing) v) := by
  have hf' : ((s.stallEngine e wFaultWait).course (e.val / 8)).stewardFault = none := hf
  simp [State.resolveHandle, hp, hi, hl, hst, hf']

/-- PLANE_SWITCH exchanges the planes of an engine that stands at a tile boundary, where its next tile names the image of
the idle plane alone. -/
theorem exec_planeSwitch (hup : s.engineUp e = true) (hcl : (s.engine e).claim = some v) (hr : v.read = true)
    (hrun : (s.engine e).run = none) (hl : (s.engine e).loading = none) (hre : (s.engine e).reloadActive = none)
    (hp : (s.engine e).plane.serves (tdHandle v.desc) = false)
    (hi : (s.engine e).idlePlane.serves (tdHandle v.desc) = true) :
    exec (.planeSwitch e) s = .next (s.modEngine e fun x => { x with active := 1 - x.active }) := by
  have hw : (s.engine e).wantsSwitch = true := by simp [Engine.wantsSwitch, hcl, hr, hrun, hl, hre, hp, hi]
  have hex : exec (.planeSwitch e) s =
      .next (s.modEngine e fun x => { x with active := 1 - x.active, reloadActive := none }) := by
    show execPlaneSwitch e s = _
    simp [execPlaneSwitch, hup, hw]
  rw [hex, modEngine_congr s e]
  simp only [← hre]

end

/-! ### TileDispatches -/

section
variable {s : State} {e : EngineId} {v : Tile}

theorem dispatch_faulty (hs : s.shaped = true) (hup : s.engineUp e = true) (hstop : s.jobStopping = false)
    (hcl : (s.engine e).claim = some v) (hf : (s.engine e).fault = none) (hr : v.read = false) (hsy : s.mem.synd = [])
    {c : Nat} (hc : tileDescFault (s.mem.read v.descAddr 64) v.eclass = some c) :
    ∃ t f, exec (.dispatch e) s = .next t ∧ (t.engine e).fault = some f ∧ f.cause = BitVec.ofNat 16 c ∧
      f.tile = v.value ∧ (t.engine e).claim = some v ∧ t.mem = s.mem := by
  have hread := readTile_faulty hsy hc (e := e)
  have hlt : e.val < (s.touchRows v.descAddr 64).engines.length := by rw [touchRows_frame]; exact engine_lt hs e
  obtain ⟨g, hg, hcause, htile⟩ := raiseFault_engine e hlt (tileFault (newFault c) v)
  rw [← hread] at hg
  have hcl' : ((s.readTile e v).engine e).claim = some v := by rw [hg, touchRows_engine]; exact hcl
  refine ⟨s.readTile e v, g, ?_, by rw [hg], hcause, htile, hcl', by rw [hread, raiseFault_mem, touchRows_mem]⟩
  rw [exec_dispatch (t := s.readTile e v) hup hstop hcl hf (by simp [hr]) hcl']
  simp [hr]

theorem dispatch_reads (hs : s.shaped = true) (hup : s.engineUp e = true) (hstop : s.jobStopping = false)
    (hcl : (s.engine e).claim = some v) (hf : (s.engine e).fault = none) (hr : v.read = false) (hsy : s.mem.synd = [])
    {d : List Byte} {entries : List (List Byte)}
    (hd : s.mem.read v.descAddr 64 = d) (hc : tileDescFault d v.eclass = none)
    (he : chunksOf 32 (tdStages d) (s.mem.read (v.descAddr + 64) (32 * tdStages d)) = entries)
    (hg : entries.filterMap stageFault = []) (hfill : (entries.any fun b => !seWrite b) = true) :
    ∃ t, exec (.dispatch e) s = .next t ∧ (t.engine e).claim = some (takenTile v d entries) ∧
      (t.engine e).run = (s.engine e).run ∧ (t.engine e).lastRestart = none ∧
      t = { s with engines := t.engines, courses := t.courses, hbm := t.hbm } := by
  have hread := readTile_good (e := e) hsy hd hc he hg
  have htr : s.readTile e v = { s with engines := (s.readTile e v).engines, hbm := (s.readTile e v).hbm } := by
    rw [hread, touchRows_frame, touchRows_frame s]; rfl
  have hlen : e.val < (s.readTile e v).engines.length := by
    rw [hread, touchRows_frame, touchRows_frame s, State.modEngine, modifyNth_length]; exact engine_lt hs e
  have heng : (s.readTile e v).engine e =
      { s.engine e with claim := some (takenTile v d entries), lastRestart := none } := by
    rw [hread, engine_modEngine_same _ _ _ (by rw [touchRows_frame, touchRows_frame s]; exact engine_lt hs e),
      touchRows_engine, touchRows_engine]
  have hw := congrArg Engine.claim heng
  obtain ⟨hcl', hrun, hlast, hfr⟩ := askOrStall_fields (w := takenTile v d entries) hlen
  refine ⟨_, ?_, hcl'.trans hw, by rw [hrun, heng], by rw [hlast, heng], ?_⟩
  · rw [exec_dispatch (t := s.readTile e v) hup hstop hcl hf (by simp [hr]) hw]
    simp only [takenTile_unfilled v d hfill, if_true, askOrStall]
    rfl
  · rw [hfr, htr]

section
variable (hs : s.shaped = true) (hup : s.engineUp e = true) (hstop : s.jobStopping = false)
  (hcl : (s.engine e).claim = some v) (hf : (s.engine e).fault = none) (hr : v.read = true) (hfl : v.filled = true)
  (hrun : (s.engine e).run = none)
include hs hup hstop hcl hf hr hfl hrun

/-- A tile whose image the active plane holds starts there, at phase 0. -/
theorem dispatch_starts (hp : (s.engine e).plane.serves (tdHandle v.desc) = true) :
    ∃ t, exec (.dispatch e) s = .next t ∧ (t.engine e).run = some { v with phase := 0 } ∧ (t.engine e).claim = none ∧
      (∀ lane < 16, ∀ reg < 32, (t.engine e).vreg lane reg = List.replicate 32 0) ∧
      (∀ b ∈ (t.engine e).bricks, b.slot = phEntry ((s.engine e).plane.block 0) ∧ b.done = false ∧ b.fired = 0) ∧
      (t.engine e).bricks.map (·.rf) = (s.engine e).bricks.map (·.rf) ∧ t = s.modEngine e fun _ => t.engine e := by
  have he : (s.modEngine e fun x => x.startTile v).engine e = (s.engine e).startTile v :=
    engine_modEngine_same _ _ _ (engine_lt hs e)
  obtain ⟨hrun', hcl', -, -⟩ := startTile_fields (s.engine e) v
  refine ⟨s.modEngine e fun x => x.startTile v, ?_, ?_, ?_, ?_, ?_, ?_, modEngine_congr s e he.symm⟩
  · rw [exec_dispatch_ready hup hstop hcl hf hr hfl hrun, resolveHandle_active hp]
  all_goals rw [he]
  · exact hrun'
  · exact hcl'
  · exact fun lane hl reg hrg => startTile_vreg _ _ hl hrg
  · exact fun b hb => startTile_brick _ _ hb
  · exact startTile_rf _ _

variable (hp : (s.engine e).plane.serves (tdHandle v.desc) = false) (hl : (s.engine e).loading = none)
include hp hl

omit hs in
/-- A tile whose image the idle plane holds waits for PLANE_SWITCH. -/
theorem dispatch_leaves (hi : (s.engine e).idlePlane.serves (tdHandle v.desc) = true) :
    exec (.dispatch e) s = .next s := by
  rw [exec_dispatch_ready hup hstop hcl hf hr hfl hrun, resolveHandle_idle hp hi hl]

variable (hi : (s.engine e).idlePlane.serves (tdHandle v.desc) = false)
include hi

/-- A tile whose image neither plane holds has the steward asked for it. -/
theorem dispatch_asks (hst : (s.storedOf (tdHandle v.desc) 1).isSome = true) :
    ∃ t, exec (.dispatch e) s = .next t ∧ ((t.course (e.val / 8)).imageReq.any fun q => q.1 == e.val) = true ∧
      (t.engine e).claim = some v ∧
      t = (s.modCourse (e.val / 8) fun c => { c with imageReq := (t.course (e.val / 8)).imageReq }).stallEngine e 0x02 := by
  have hc := engineCourse_lt hs e
  refine ⟨(s.requestImage e (tdHandle v.desc)).stallEngine e 0x02, ?_, requestImage_asks hc _,
    (stallEngine_claim (s := s.requestImage e (tdHandle v.desc)) (engine_lt hs e) 0x02).trans hcl,
    congrArg (fun u => u.stallEngine e 0x02) (requestImage_frame hc _)⟩
  rw [exec_dispatch_ready hup hstop hcl hf hr hfl hrun, resolveHandle_stored hp hi hl hst]

/-- A handle that names no image raises IMAGE_MISSING at the steward. -/
theorem dispatch_misses (hst : s.storedOf (tdHandle v.desc) 1 = none)
    (hsf : (s.course (e.val / 8)).stewardFault = none) :
    ∃ t f, exec (.dispatch e) s = .next t ∧ (t.course (e.val / 8)).stewardFault = some f ∧ f.cause = 0x1E ∧
      f.tile = v.value ∧ (t.engine e).claim = some v ∧ t.mem = s.mem := by
  have hc : (Fin.ofNat 8 (e.val / 8)).val = e.val / 8 := Nat.mod_eq_of_lt (by omega)
  obtain ⟨g, hg, hcause, htile, heng⟩ := raiseFault_steward (s := s.stallEngine e wFaultWait) (Fin.ofNat 8 (e.val / 8))
    (by rw [hc]; exact engineCourse_lt hs e) (tileFault (newFault fImageMissing) v)
  rw [hc] at hg
  refine ⟨_, g, ?_, by rw [hg], hcause, htile, ?_, by rw [raiseFault_mem]; rfl⟩
  · rw [exec_dispatch_ready hup hstop hcl hf hr hfl hrun, resolveHandle_missing hp hi hl hst hsf]
  · rw [heng, stallEngine_claim (engine_lt hs e), hcl]

end

end

/-- Settles O27: the read of the descriptor, then each branch of the dispatch of a tile that is read. -/
theorem tileDispatches : Obligations.TileDispatches := by
  unfold Obligations.TileDispatches
  intro e v s hs hup hstop hcl hf d entries x
  refine ⟨fun hr hsy => ⟨fun c hc => dispatch_faulty hs hup hstop hcl hf hr hsy hc, fun hc hg hfill =>
      dispatch_reads hs hup hstop hcl hf hr hsy rfl hc rfl hg hfill⟩,
    fun hr hrun => ?_, fun hr hrun hfl => ?_, fun hp hi hl hst => askImage_asks hs hp hi hl hst,
    fun hr hfl hrun => ⟨dispatch_starts hs hup hstop hcl hf hr hfl hrun,
      fun hp hi hl => ⟨dispatch_leaves hup hstop hcl hf hr hfl hrun hp hl hi,
        fun hre => exec_planeSwitch hup hcl hr hrun hl hre hp hi⟩,
      fun hp hi hl => ⟨dispatch_asks hs hup hstop hcl hf hr hfl hrun hp hl hi,
        dispatch_misses hs hup hstop hcl hf hr hfl hrun hp hl hi⟩⟩⟩
  · rw [exec_dispatch_read hup hstop hcl hf hr, if_pos hrun]
  · have hrun' : ¬ (s.engine e).run.isSome = true := by simp [show (s.engine e).run = none from hrun]
    rw [exec_dispatch_read hup hstop hcl hf hr, if_neg hrun', if_pos hfl]

end Sys2Proof.Proofs

/-! PROOFS. What reads and translations leave of the state. -/

namespace Sys2Proof.Proofs

open Sys2Proof Sys2Proof.Machine Sys2Proof.Laws

/-! ### What a read may change

A read opens rows, counts and reports the flaws it meets, and fills a translation cache (R210, R215, R228). What is left
of each part of the state once those marks are put aside: -/

/-- Registers apart from the error counters. -/
def bareRegs (x : MemRegs) : MemRegs := { x with ceCnt := 0, ueCnt := 0, poisonCnt := 0 }

/-- Reliability apart from the log, the error queue, pages put into retirement and the marks of pages with errors. -/
def quietRel (x : Rel) : Rel :=
  { bareRel x with pages := [], ceCount := [], ceRec := [], poisSeen := [], poisRec := [] }

/-- A job apart from the number of its first memory error record. -/
def bareJob (j : Job) : Job := { j with firstMem := none }

/-- A half apart from its translation cache. -/
def bareHalf (h : Half) : Half := { h with tcache := [] }

/-- A stack apart from its open rows. -/
def bareStack (k : Stack) : Stack := { k with rows := [] }

/-- `t` is `s` after reads: memory and the units stay, and of the rest only the marks named above differ. -/
structure Observed (s t : State) : Prop where
  frame : t = { s with
    regs := t.regs, hif := { s.hif with evqHold := t.hif.evqHold, evqDrop := t.hif.evqDrop }, rings := t.rings,
    job := { s.job with cur := t.job.cur }, halves := t.halves, hbm := t.hbm, rel := t.rel, seqs := t.seqs, free := t.free }
  regs : bareRegs t.regs = bareRegs s.regs
  rings : t.rings.map bareRing = s.rings.map bareRing
  cur : t.job.cur.map bareJob = s.job.cur.map bareJob
  halves : t.halves.map bareHalf = s.halves.map bareHalf
  hbm : t.hbm.map bareStack = s.hbm.map bareStack
  rel : quietRel t.rel = quietRel s.rel

theorem Observed.refl (s : State) : Observed s s := ⟨rfl, rfl, rfl, rfl, rfl, rfl, rfl⟩

theorem Observed.trans {s t u : State} (h : Observed s t) (k : Observed t u) : Observed s u where
  frame := k.frame.trans (by rw [h.frame])
  regs := k.regs.trans h.regs
  rings := k.rings.trans h.rings
  cur := k.cur.trans h.cur
  halves := k.halves.trans h.halves
  hbm := k.hbm.trans h.hbm
  rel := k.rel.trans h.rel

/-- A relation that chains and that every step of a fold keeps holds between its ends. -/
theorem foldl_related {α : Type} {R : State → State → Prop} (hr : ∀ s, R s s) (ht : ∀ {s t u}, R s t → R t u → R s u)
    {f : State → α → State} (h : ∀ s a, R s (f s a)) (l : List α) (s : State) : R s (l.foldl f s) := by
  induction l generalizing s with
  | nil => exact hr s
  | cons a as ih => exact ht (h s a) (ih _)

theorem foldl_observed {α : Type} {f : State → α → State} (h : ∀ s a, Observed s (f s a)) (l : List α) (s : State) :
    Observed s (l.foldl f s) :=
  foldl_related Observed.refl Observed.trans h l s

theorem reported_observed {s t : State} (h : Reported s t) : Observed s t where
  frame := by rw [h.1.1]
  regs := by rw [h.1.1]
  rings := h.1.2
  cur := by rw [h.job]
  halves := by rw [h.halves]
  hbm := by rw [h.hbm]
  rel := congrArg (fun x => { x with pages := [], ceCount := [], ceRec := [], poisSeen := [], poisRec := [] }) h.2

theorem post_observed (s : State) (p : Post) : Observed s (s.post p) := reported_observed (post_posted s p).reported

theorem arrive_observed (s : State) (a : ErrArrival) (b : Bool) : Observed s (s.arrive a b) :=
  reported_observed (arrive_reported s a b)

/-! ### The parts that a read may mark -/

theorem counted_observed (s : State) (x : MemRegs) (y : Rel) (hx : bareRegs x = bareRegs s.regs)
    (hy : quietRel y = quietRel s.rel) : Observed s { s with regs := x, rel := y } :=
  ⟨rfl, hx, rfl, rfl, rfl, rfl, hy⟩

theorem halves_observed (s : State) (x : List Half) (h : x.map bareHalf = s.halves.map bareHalf) :
    Observed s { s with halves := x } :=
  ⟨rfl, rfl, rfl, rfl, h, rfl, rfl⟩

theorem modJob_observed (s : State) (f : Job → Job) (h : ∀ j, bareJob (f j) = bareJob j) : Observed s (s.modJob f) :=
  ⟨rfl, rfl, rfl, by simp [Function.comp_def, h], rfl, rfl, rfl⟩

theorem touch_bareStack (k : Stack) (a n : Nat) : bareStack (k.touch a n) = bareStack k := by
  unfold Stack.touch
  generalize List.range _ = l
  induction l generalizing k with
  | nil => rfl
  | cons i l ih => exact (ih _).trans rfl

theorem touchRows_observed (s : State) (a n : Nat) : Observed s (s.touchRows a n) := by
  unfold State.touchRows
  split
  · exact ⟨rfl, rfl, rfl, rfl, rfl, modifyNth_map _ _ (fun k => touch_bareStack k a n) _ _, rfl⟩
  · exact Observed.refl s

theorem pendPage_observed (s : State) (p : Nat) : Observed s (s.pendPage p) :=
  (counted_observed s s.regs { s.rel with pages := store 0 s.rel.pages p 1 } rfl rfl).trans
    (halves_observed _ _ (by rw [List.map_map]; rfl))

theorem recordWord_observed (s : State) (rd : Reader) (v : WordEvent) (n : Nat) : Observed s (s.recordWord rd v n) := by
  unfold State.recordWord
  simp only
  split
  · have hrel : quietRel (s.rel.openRecord v ((s.seqOf srcMgr).toNat + 1)) = quietRel s.rel := by
      unfold Rel.openRecord
      split
      · rfl
      · split
        · rfl
        · split <;> rfl
    exact ((counted_observed s s.regs _ rfl hrel).trans (post_observed _ _)).trans (modJob_observed _ _ fun _ => rfl)
  · split
    · exact ⟨rfl, rfl, by rw [List.map_map]; rfl, rfl, rfl, rfl, rfl⟩
    · exact Observed.refl s

theorem reportWord_observed (s : State) (rd : Reader) (v : WordEvent) (q : Word) : Observed s (s.reportWord rd v q) := by
  unfold State.reportWord
  split
  · exact Observed.refl s
  · exact arrive_observed _ _ _

theorem wordEvent_observed (s : State) (rd : Reader) (v : WordEvent) : Observed s (s.wordEvent rd v) := by
  have hpend : Observed s (if v.pend then s.pendPage (v.addr / 0x10000) else s) := by
    split
    · exact pendPage_observed _ _
    · exact Observed.refl s
  unfold State.wordEvent
  simp only
  generalize (if v.pend then s.pendPage (v.addr / 0x10000) else s) = t at hpend ⊢
  have hrep := fun n q => (hpend.trans (recordWord_observed t rd v n)).trans (reportWord_observed _ rd v q)
  split
  · exact (hrep _ _).trans (arrive_observed _ _ _)
  · exact hrep _ _

theorem noteWord_observed (s : State) (rd : Reader) (sc : Bool) (w : Nat) : Observed s (s.noteWord rd sc w) := by
  unfold State.noteWord
  simp only
  split
  · exact Observed.refl s
  · refine Observed.trans ?_ (wordEvent_observed _ _ _)
    exact counted_observed s _ _ rfl rfl
  · refine Observed.trans ?_ (wordEvent_observed _ _ _)
    exact counted_observed s _ s.rel rfl rfl
  · split
    · exact counted_observed s _ s.rel rfl rfl
    · refine Observed.trans ?_ (wordEvent_observed _ _ _)
      exact counted_observed s _ _ rfl rfl

/-! ### Reads and translations -/

theorem readMem_observed (s : State) (rd : Reader) (a n : Nat) : Observed s (s.readMem rd a n).2.2 :=
  (touchRows_observed s a n).trans (foldl_observed (fun s w => noteWord_observed s rd false w) _ _)

theorem cacheLeaf_observed (s : State) (h ja l e ea : Nat) : Observed s (s.cacheLeaf h ja l e ea) := by
  have hhalf : ∀ f : Half → Half, (∀ x, bareHalf (f x) = bareHalf x) → Observed s (s.modHalf h f) := fun f hf =>
    halves_observed s _ (modifyNth_map _ _ hf _ _)
  have hfree : ∀ t : State, Observed t t.drawn := fun t => ⟨rfl, rfl, rfl, rfl, rfl, rfl, rfl⟩
  unfold State.cacheLeaf
  simp only
  split
  · exact hhalf _ fun _ => rfl
  · refine Observed.trans ?_ (hfree _)
    exact hhalf _ fun _ => rfl

theorem walkEntry_observed (s : State) (rd : Reader) (ja : Nat) (w st : Bool) (l table : Nat) :
    Observed s (s.walkEntry rd ja w st l table).2 := by
  unfold State.walkEntry
  split
  · exact Observed.refl s
  · exact readMem_observed _ _ _ _

theorem walkLevels_observed (rd : Reader) (ja : Nat) (w st : Bool) (l table : Nat) (s : State) :
    Observed s (walkLevels rd ja w st l table s).2.2 := by
  induction l generalizing table s with
  | zero =>
    unfold walkLevels
    have h := walkEntry_observed s rd ja w st 0 table
    split <;> rename_i e <;> rw [e] at h <;> exact h
  | succ l ih =>
    unfold walkLevels
    have h := walkEntry_observed s rd ja w st (l + 1) table
    split <;> rename_i e <;> rw [e] at h
    · exact h
    · exact h.trans (ih _ _)

theorem translate_observed (s : State) (h : Nat) (rd : Reader) (ja : Nat) (w st : Bool) :
    Observed s (s.translate h rd ja w st).2 := by
  have hw := walkLevels_observed rd ja w st 3 (jRoot s.jobDesc) s
  unfold State.translate
  split
  · exact Observed.refl s
  · simp only
    split
    · exact Observed.refl s
    · split
      · exact hw.trans (cacheLeaf_observed _ _ _ _ _ _)
      · exact hw

/-! ### Control reads -/

/-- The state that a control read leaves. -/
def Ctl.left : Ctl → State
  | .ok _ _ s | .fault _ s | .wait s => s

theorem ctlPiece_observed (s : State) (h : Nat) (rd : Reader) (host : HostData) (ja n : Nat) :
    Observed s (Ctl.left (s.ctlPiece h rd host ja n)) := by
  have ht := translate_observed s h rd ja false false
  unfold State.ctlPiece
  split <;> rename_i e <;> rw [e] at ht
  · split
    · exact ht
    · split
      · exact ht
      · exact ht.trans (readMem_observed _ _ _ _)
  · split <;> exact ht
  · split <;> exact ht
  · exact ht
  · exact ht

theorem ctlFuel_observed (h : Nat) (rd : Reader) (host : HostData) (off fuel : Nat) (s : State) (ja len : Nat) :
    Observed s (Ctl.left (ctlFuel h rd host off fuel s ja len)) := by
  induction fuel generalizing off s ja len with
  | zero => exact Observed.refl s
  | succ fuel ih =>
    unfold ctlFuel
    split
    · exact Observed.refl s
    · have hp := ctlPiece_observed s h rd host ja (min len (0x10000 - ja % 0x10000))
      simp only
      cases e : s.ctlPiece h rd host ja (min len (0x10000 - ja % 0x10000)) with
      | ok bs bad t =>
        rw [e] at hp
        have hr := hp.trans (ih (off + min len (0x10000 - ja % 0x10000)) t (ja + min len (0x10000 - ja % 0x10000))
          (len - min len (0x10000 - ja % 0x10000)))
        simp only
        generalize ctlFuel h rd host _ fuel t _ _ = r at hr ⊢
        cases r <;> exact hr
      | fault f t => rw [e] at hp; exact hp
      | wait t => rw [e] at hp; exact hp

theorem ctlRead_observed {s s1 : State} {h : Nat} {rd : Reader} {host : HostData} {ja len : Nat}
    {bs : List Byte} {bad : Bool} (e : s.ctlRead h rd host ja len = .ok bs bad s1) : Observed s s1 := by
  have := ctlFuel_observed h rd host 0 (len / 0x10000 + 2) s ja len
  rwa [show ctlFuel h rd host 0 (len / 0x10000 + 2) s ja len = _ from e] at this

/-! ### What a read leaves alone -/

section
variable {s t : State} (h : Observed s t)
include h

theorem Observed.mem : t.mem = s.mem := by rw [h.frame]
theorem Observed.courses : t.courses = s.courses := by rw [h.frame]
theorem Observed.movers : t.movers = s.movers := by rw [h.frame]
theorem Observed.lists : t.job.lists = s.job.lists := by rw [h.frame]
theorem Observed.linkUp : t.hif.linkUp = s.hif.linkUp := by rw [h.frame]

theorem Observed.course (c : Nat) : t.course c = s.course c := by rw [State.course, h.courses]; rfl
theorem Observed.mover (m : Nat) : t.mover m = s.mover m := by rw [State.mover, h.movers]; rfl

theorem Observed.lease : t.rel.lease = s.rel.lease := by
  have e := congrArg Rel.lease h.rel
  exact e

theorem Observed.handover : t.rel.handover = s.rel.handover := by
  have e := congrArg Rel.handover h.rel
  exact e

theorem Observed.isFenced (u : Nat) : t.isFenced u = s.isFenced u := by
  have hf : t.rel.fenced = s.rel.fenced := by
    have e := congrArg Rel.fenced h.rel
    exact e
  have hw : t.rel.withdrawn = s.rel.withdrawn := by
    have e := congrArg Rel.withdrawn h.rel
    exact e
  rw [State.isFenced, hf, hw]; rfl

theorem Observed.leadHalf : t.leadHalf = s.leadHalf := by
  rw [State.leadHalf, State.lead, h.lease]; rfl

theorem Observed.copyMover (n : Nat) : t.copyMover n = s.copyMover n := by
  simp only [State.copyMover, h.mover, h.isFenced]

/-- The running job stays, but for the number of its first memory error record. -/
theorem Observed.job {j : Job} (hj : s.job.cur = some j) : ∃ m, t.job.cur = some { j with firstMem := m } := by
  obtain ⟨k, hk, hkj⟩ : ∃ k, t.job.cur = some k ∧ bareJob k = bareJob j := by simpa [hj] using h.cur
  refine ⟨k.firstMem, hk.trans (congrArg some ?_)⟩
  calc k = { bareJob k with firstMem := k.firstMem } := rfl
    _ = _ := by rw [hkj]; rfl

end

end Sys2Proof.Proofs

/-! PROOFS. Bytes of memory after a write of any alignment. -/

namespace Sys2Proof.Proofs

open Sys2Proof Sys2Proof.Machine Sys2Proof.Laws

/-- A byte that is read is the one of its word as delivered. -/
theorem read_one (m : Memory) (k : Nat) : m.read k 1 = [(m.deliver (k / 4)).getD (k % 4) 0] := by
  have hw : wordsOf k 1 = [k / 4] := by
    have hn : (k + 1 - 1) / 4 + 1 - k / 4 = 1 := by omega
    simp only [wordsOf, if_neg Nat.one_ne_zero, hn]
    rfl
  have hlt : k % 4 < (m.deliver (k / 4)).length := by rw [deliver_length]; exact Nat.mod_lt _ (by decide)
  have htake : ((m.deliver (k / 4)).drop (k % 4)).take 1 = [(m.deliver (k / 4))[k % 4]] := by
    rw [List.drop_eq_getElem_cons hlt]
    rfl
  simp [Memory.read, hw, htake, List.getD_eq_getElem?_getD, hlt]

/-- A word whose check bits are right, or that carries the poison pattern, is delivered as stored. -/
theorem deliver_stored {m : Memory} {w : Nat} (h : m.syn w = 0 ∨ m.syn w = poisonSyn) : m.deliver w = m.stored w := by
  have hc : synClass 0 = .clean := by decide
  have hp : synClass poisonSyn = .poison := by decide
  unfold Memory.deliver
  rcases h with h | h
  · rw [h, hc]
  · rw [h, hp]

theorem read_one_stored {m : Memory} {k : Nat} (h : m.syn (k / 4) = 0 ∨ m.syn (k / 4) = poisonSyn) :
    m.read k 1 = [m.byte k] := by
  have hlt : k % 4 < 4 := Nat.mod_lt _ (by decide)
  rw [read_one, deliver_stored h]
  simp [Memory.stored, List.getD_eq_getElem?_getD, hlt, Nat.div_add_mod]

/-- What a word delivers depends on its bytes and its syndrome. -/
theorem deliver_congr {m n : Memory} {w : Nat} (hb : ∀ x, x / 4 = w → n.byte x = m.byte x) (hs : n.syn w = m.syn w) :
    n.deliver w = m.deliver w := by
  have hst : n.stored w = m.stored w :=
    List.map_congr_left fun i hi => hb _ (by have := List.mem_range.1 hi; omega)
  simp only [Memory.deliver, hs, hst]

/-- A partial word is read, corrected, merged and rewritten (R226). -/
theorem mergeWord_partial {m : Memory} (h : m.wf = true) (a : Nat) (bs : List Byte) (p : Bool) (hb : bs.length ≠ 4)
    {k : Nat} (hw : k / 4 = a / 4) (hk : k < a ∨ a + bs.length ≤ k) :
    (m.mergeWord a bs p).byte k = (m.deliver (k / 4)).getD (k % 4) 0 ∧
      ((m.mergeWord a bs p).syn (k / 4) = 0 ∨ (m.mergeWord a bs p).syn (k / 4) = poisonSyn) := by
  have hwf := setBytes_wf m (4 * (a / 4)) (m.deliver (a / 4)) h
  have hb' : (bs.length == 4) = false := by simpa using hb
  simp only [Memory.mergeWord, hb', Bool.false_eq_true, if_false]
  constructor
  · rw [setSyn_byte, setBytes_byte _ _ _ _ hwf, if_neg (by omega), setBytes_byte _ _ _ _ h,
      if_pos (by rw [deliver_length]; omega), hw]
    congr 1; omega
  · rw [setSyn_syn _ _ _ _ (setBytes_wf _ _ _ hwf), if_pos hw]
    split
    · exact Or.inr rfl
    · exact Or.inl rfl

/-- A write within a word leaves what is read of the other bytes. -/
theorem mergeWord_read_other {m : Memory} (h : m.wf = true) (a : Nat) (bs : List Byte) (p : Bool)
    (hb : bs.length ≤ 4 - a % 4) (k : Nat) (hk : k < a ∨ a + bs.length ≤ k) :
    (m.mergeWord a bs p).read k 1 = m.read k 1 := by
  by_cases hw : k / 4 = a / 4
  · obtain ⟨hbyte, hsyn⟩ := mergeWord_partial h a bs p (by omega) hw hk
    rw [read_one_stored hsyn, hbyte, read_one]
  · rw [read_one, read_one, deliver_congr fun x hx => (mergeWord_other m a bs p h hb x (by omega)).1]
    exact (mergeWord_other m a bs p h hb k hw).2

theorem writeFuel_read_other (p : Bool) (n : Nat) {m : Memory} (h : m.wf = true) (a : Nat) (bs : List Byte) (k : Nat)
    (hk : k < a ∨ a + bs.length ≤ k) : (Memory.writeFuel p n m a bs).read k 1 = m.read k 1 := by
  induction n generalizing m a bs with
  | zero => rfl
  | succ n ih =>
    unfold Memory.writeFuel
    split
    · rfl
    · have hm := mergeWord_read_other h a (bs.take (4 - a % 4)) p (by rw [List.length_take]; omega) k
        (by rw [List.length_take]; omega)
      rw [← hm]
      refine ih (mergeWord_wf _ _ _ _ h) _ _ ?_
      rw [List.length_drop]; omega

/-- What is read of a byte that a write does not cover stays. -/
theorem write_read_other {m : Memory} (h : m.wf = true) (a : Nat) (bs : List Byte) (p : Bool) (k : Nat)
    (hk : k < a ∨ a + bs.length ≤ k) : (m.write a bs p).read k 1 = m.read k 1 :=
  writeFuel_read_other p _ h a bs k hk

theorem mergeWord_byte {m : Memory} (h : m.wf = true) (a : Nat) (bs : List Byte) (p : Bool) (i : Nat) (hi : i < bs.length) :
    (m.mergeWord a bs p).byte (a + i) = bs.getD i 0 := by
  have key : ∀ n : Memory, n.wf = true → (n.setBytes a bs).byte (a + i) = bs.getD i 0 := fun n hn => by
    rw [setBytes_byte n a _ bs hn, if_pos (by omega), Nat.add_sub_cancel_left]
  unfold Memory.mergeWord
  rw [setSyn_byte]
  split
  · exact key m h
  · exact key _ (setBytes_wf _ _ _ h)

theorem writeFuel_byte (p : Bool) (n : Nat) {m : Memory} (h : m.wf = true) (a : Nat) (bs : List Byte) (hn : bs.length ≤ n)
    (i : Nat) (hi : i < bs.length) : (Memory.writeFuel p n m a bs).byte (a + i) = bs.getD i 0 := by
  induction n generalizing m a bs i with
  | zero => omega
  | succ n ih =>
    have hne : bs.isEmpty = false := by cases bs <;> simp_all
    have hwf := mergeWord_wf m a (bs.take (4 - a % 4)) p h
    simp only [Memory.writeFuel, hne, Bool.false_eq_true, if_false]
    by_cases hin : i < 4 - a % 4
    · rw [(writeFuel_other p n _ (a + (4 - a % 4)) _ hwf (a + i) (by omega)).1,
        mergeWord_byte h _ _ _ _ (by rw [List.length_take]; omega)]
      simp [List.getD_eq_getElem?_getD, hin]
    · have hai : a + i = a + (4 - a % 4) + (i - (4 - a % 4)) := by omega
      rw [hai, ih hwf _ _ (by rw [List.length_drop]; omega) _ (by rw [List.length_drop]; omega)]
      simp only [List.getD_eq_getElem?_getD, List.getElem?_drop]
      congr 2; omega

/-- A byte written holds what was written. -/
theorem write_byte {m : Memory} (h : m.wf = true) (a : Nat) (bs : List Byte) (p : Bool) (i : Nat) (hi : i < bs.length) :
    (m.write a bs p).byte (a + i) = bs.getD i 0 :=
  writeFuel_byte p _ h a bs (Nat.le_refl _) i hi

end Sys2Proof.Proofs

/-! PROOFS. The order of a step's sequences (R222). -/

namespace Sys2Proof.Proofs

open Sys2Proof Sys2Proof.Machine Sys2Proof.Laws

/-- Bucket b, from 1 on, holds more than 2^(b-1) pages and at most 2^b. -/
theorem lengthBucket_eq_iff {b : Nat} (p : Nat) (hb : 1 ≤ b) : lengthBucket p = b ↔ 2 ^ (b - 1) < p ∧ p ≤ 2 ^ b := by
  have hpos : 1 ≤ 2 ^ (b - 1) := Nat.one_le_two_pow
  unfold lengthBucket
  split
  · constructor <;> omega
  · have hlog := Nat.log2_eq_iff (n := p - 1) (k := b - 1) (by omega)
    have hsucc : b - 1 + 1 = b := by omega
    rw [hsucc] at hlog
    constructor
    · intro h
      have := hlog.1 (by omega)
      omega
    · intro h
      have := hlog.2 (by omega)
      omega

/-- A page count of at most 2^n stands in a bucket of at most n. -/
theorem lengthBucket_le {p n : Nat} (h : p ≤ 2 ^ n) : lengthBucket p ≤ n := by
  rcases Nat.eq_zero_or_pos (lengthBucket p) with h0 | h0
  · omega
  · have hlt := ((lengthBucket_eq_iff p h0).1 rfl).1
    have := (Nat.pow_lt_pow_iff_right (by decide : 1 < 2)).1 (Nat.lt_of_lt_of_le hlt h)
    omega

/-- Gathering a list key by key takes each of its elements of a smaller key once. -/
theorem buckets_perm {α : Type} (f : α → Nat) (l : List α) (n : Nat) :
    (((List.range n).map fun b => l.filter fun a => f a == b).flatten).Perm (l.filter fun a => decide (f a < n)) := by
  induction n with
  | zero => simp
  | succ n ih =>
    have hsplit := List.filter_append_perm (fun a => decide (f a < n)) (l.filter fun a => decide (f a < n + 1))
    have hlow : (l.filter fun a => decide (f a < n + 1)).filter (fun a => decide (f a < n)) =
        l.filter fun a => decide (f a < n) := by
      rw [List.filter_filter]
      exact List.filter_congr fun a _ => by rw [Bool.eq_iff_iff]; simp; omega
    have htop : (l.filter fun a => decide (f a < n + 1)).filter (fun a => !decide (f a < n)) =
        l.filter fun a => f a == n := by
      rw [List.filter_filter]
      exact List.filter_congr fun a _ => by rw [Bool.eq_iff_iff]; simp; omega
    rw [hlow, htop] at hsplit
    rw [List.range_succ, List.map_append, List.flatten_append]
    simpa using (ih.append_right _).trans hsplit

/-- Every sequence has its place in the order of the buckets. -/
theorem bucketOrder_perm {ps : List Nat} (h : ∀ p ∈ ps, p ≤ 2 ^ 24) : (bucketOrder ps).Perm (List.range ps.length) := by
  refine (buckets_perm (fun i => lengthBucket (ps.getD i 0)) (List.range ps.length) 33).trans (List.Perm.of_eq ?_)
  refine List.filter_eq_self.2 fun i hi => decide_eq_true ?_
  have hi := List.mem_range.1 hi
  have hle : ps.getD i 0 ≤ 2 ^ 24 := by
    rw [List.getD_eq_getElem?_getD, List.getElem?_eq_getElem hi]
    exact h _ (List.getElem_mem hi)
  have := lengthBucket_le hle
  omega

/-- Sequences stand in ascending order of bucket, then of index. -/
theorem bucketOrder_pairwise (ps : List Nat) :
    (bucketOrder ps).Pairwise fun i k => lengthBucket (ps.getD i 0) < lengthBucket (ps.getD k 0) ∨
      lengthBucket (ps.getD i 0) = lengthBucket (ps.getD k 0) ∧ i < k := by
  have hmem : ∀ {b i : Nat}, (i ∈ (List.range ps.length).filter fun i => lengthBucket (ps.getD i 0) == b) →
      lengthBucket (ps.getD i 0) = b := fun hi => by simpa using (List.mem_filter.1 hi).2
  refine List.pairwise_flatten.2 ⟨fun l hl => ?_, List.pairwise_map.2 (List.pairwise_lt_range.imp fun hbc x hx y hy => ?_)⟩
  · obtain ⟨b, -, rfl⟩ := List.mem_map.1 hl
    refine (List.pairwise_lt_range.filter _).imp_of_mem fun hi hk hlt => Or.inr ⟨?_, hlt⟩
    rw [hmem hi, hmem hk]
  · left
    rw [hmem hx, hmem hy]
    exact hbc

end Sys2Proof.Proofs

/-! PROOFS. Segments of a plan: RANGE, MOVERS, BARRIER, and the step command (10 R286; 01 R19). -/

namespace Sys2Proof.Proofs

open Sys2Proof Sys2Proof.Machine Sys2Proof.Laws

/-! ### The next segment -/

/-- The job has gone past the segment at which `j` stood, within its step. -/
def Passed (j : Job) (t : State) : Prop := ∃ k, t.job.cur = some k ∧ k.nextSeg = j.nextSeg + 1 ∧ k.inStep = true

theorem nextSeg_cur {s : State} {j : Job} {g : Seg} (h : s.nextSeg = some (j, g)) :
    s.job.cur = some j ∧ j.inStep = true := by
  unfold State.nextSeg at h
  split at h
  · cases h
  · rename_i k hk
    split at h
    · rename_i hc
      obtain ⟨g', -, he⟩ := Option.map_eq_some_iff.1 h
      cases he
      exact ⟨hk, hc.2.1⟩
    · cases h

@[simp] theorem passSeg_mem (s : State) : s.passSeg.mem = s.mem := rfl
@[simp] theorem passSeg_courses (s : State) : s.passSeg.courses = s.courses := rfl
@[simp] theorem passSeg_course (s : State) (c : Nat) : s.passSeg.course c = s.course c := rfl

theorem passSeg_passed {t : State} {j : Job} {m : Option Word} (ht : t.job.cur = some { j with firstMem := m })
    (hj : j.inStep = true) : Passed j t.passSeg :=
  ⟨{ j with firstMem := m, nextSeg := j.nextSeg + 1 }, by rw [State.passSeg, modJob_cur, ht]; rfl, rfl, hj⟩

theorem Passed.of_job {t u : State} {j : Job} (h : Passed j t) (hu : u.job = t.job) : Passed j u := by
  rw [Passed, hu]; exact h

/-! ### Stores leave the ranges of a course -/

theorem addDirty_ranges (o n : Nat) (c : Course) : (addDirty o n c).ranges = c.ranges := rfl

theorem markDirty_ranges (s : State) (a n c : Nat) : ((markDirty s a n).course c).ranges = (s.course c).ranges := by
  have hmap : (markDirty s a n).courses.map (·.ranges) = s.courses.map (·.ranges) := by
    unfold markDirty
    split
    · rfl
    · exact modifyNth_map _ _ (addDirty_ranges _ n) _ _
  have hget : ∀ l : List Course, (l.getD c {}).ranges = (l.map (·.ranges)).getD c [] := fun l => by
    rw [List.getD_eq_getElem?_getD, List.getD_eq_getElem?_getD, List.getElem?_map]
    exact (Option.getD_map _ _ _).symm
  rw [State.course, State.course, hget, hget, hmap]

theorem writeMem_ranges (s : State) (a : Nat) (bs : List Byte) (p : Bool) (c : Nat) :
    ((s.writeMem a bs p).course c).ranges = (s.course c).ranges := by
  rw [State.writeMem, markDirty_ranges, touchRows_frame]; rfl

theorem writeMem_courses_length (s : State) (a : Nat) (bs : List Byte) (p : Bool) :
    (s.writeMem a bs p).courses.length = s.courses.length := by
  unfold State.writeMem markDirty
  split
  · rw [touchRows_frame]
  · rw [modifyNth_length, touchRows_frame]

/-- A store outside HBM changes memory and the dirty lines of the courses. -/
theorem writeMem_local_frame (s : State) {a : Nat} (bs : List Byte) (p : Bool) (ha : 0x10000000000 ≤ a) :
    s.writeMem a bs p = { s with mem := s.mem.write a bs p, courses := (s.writeMem a bs p).courses } := by
  have hhbm : (s.writeMem a bs p).hbm = s.hbm := by rw [State.writeMem, touchRows_local _ _ _ ha, markDirty_frame]
  refine (writeMem_frame s a bs p).trans ?_
  rw [hhbm]

/-! ### RANGE (R139, R286) -/

/-- The range of a RANGE segment, under the course's epoch. -/
def rangeOf (s : State) (g : Seg) : Range :=
  { first := g.first, count := g.len + 1, epoch := (s.course g.course).epoch, descBase := s.splitBytes + g.descBase,
    slotShift := g.slotShift, eclass := g.eclass, affinity := g.affinity, src := g.src }

/-- A fifth range waits. -/
theorem exec_range_full {s : State} {host : HostData} {j : Job} {g : Seg} (hseg : s.nextSeg = some (j, g))
    (h4 : 4 ≤ (s.course g.course).ranges.length) : exec (.range host) s = .next s := by
  show execRange host s = _
  simp [execRange, hseg, h4]

section
variable {s s1 : State} {host : HostData} {j : Job} {g : Seg} {bs : List Byte} {bad : Bool}
  (hseg : s.nextSeg = some (j, g)) (hk : g.kind = 1) (hup : s.courseUp g.course = true)
  (hhalf : s.halfUp (g.course / 4) = true) (hcf : (s.course g.course).counterFault = none)
  (hheld : s.copyHeld (g.course / 4) = false)
include hseg hk hup hhalf hcf hheld

theorem exec_range_bad (h4 : (s.course g.course).ranges.length < 4)
    (hbad : (s.course g.course).rangeOk (rangeOf s g) = false) :
    exec (.range host) s = .next (s.raiseFault (.counter (Fin.ofNat 8 g.course)) (newFault fRangeBad)) := by
  show execRange host s = _
  rw [rangeOf] at hbad
  simp [execRange, hseg, hk, hup, hhalf, hcf, hheld, Nat.not_le.2 h4, hbad]

theorem exec_range_copies (h4 : (s.course g.course).ranges.length < 4)
    (hok : (s.course g.course).rangeOk (rangeOf s g) = true)
    (hread : s.ctlRead (g.course / 4) (coreReader (srcSteward g.course)) host g.src.toNat
      ((rangeOf s g).count * 2 ^ (rangeOf s g).slotShift) = .ok bs bad s1) :
    exec (.range host) s = .next ((s1.writeMem (courseBase g.course + (rangeOf s g).descBase) bs).passSeg.modCourse g.course
      fun x => { x with ranges := x.ranges ++ [rangeOf s g] }) := by
  show execRange host s = _
  simp only [rangeOf] at hok hread ⊢
  simp [execRange, hseg, hk, hup, hhalf, hcf, hheld, Nat.not_le.2 h4, hok, hread]

variable (hs : s.shaped = true) (hc : g.course < 8) (h4 : (s.course g.course).ranges.length < 4)
include hs hc h4

/-- A range that does not fit is refused (RANGE_BAD). -/
theorem range_refused (hbad : (s.course g.course).rangeOk (rangeOf s g) = false) :
    ∃ t f, exec (.range host) s = .next t ∧ (t.course g.course).counterFault = some f ∧ f.cause = 0x18 ∧
      (t.course g.course).ranges = (s.course g.course).ranges ∧ t.mem = s.mem ∧ t.job = s.job := by
  have hcv : (Fin.ofNat 8 g.course).val = g.course := Nat.mod_eq_of_lt hc
  obtain ⟨f, hf, hcause, hjob⟩ := raiseFault_counter (s := s) (Fin.ofNat 8 g.course)
    (by rw [hcv, shaped_courses hs]; exact hc) (newFault fRangeBad)
  rw [hcv] at hf
  exact ⟨_, f, exec_range_bad hseg hk hup hhalf hcf hheld h4 hbad, by rw [hf], hcause, by rw [hf],
    raiseFault_mem _ _ _ _ _, hjob⟩

/-- A range that fits is appended behind the live ones, and its descriptors are copied. -/
theorem range_appends (hok : (s.course g.course).rangeOk (rangeOf s g) = true) (hwf : s.mem.wf = true)
    (hread : s.ctlRead (g.course / 4) (coreReader (srcSteward g.course)) host g.src.toNat
      ((rangeOf s g).count * 2 ^ (rangeOf s g).slotShift) = .ok bs bad s1) :
    ∃ t, exec (.range host) s = .next t ∧ (t.course g.course).ranges = (s.course g.course).ranges ++ [rangeOf s g] ∧
      Passed j t ∧
      (∀ i < bs.length, t.mem.byte (courseBase g.course + (rangeOf s g).descBase + i) = bs.getD i 0) ∧
      (∀ k, k < courseBase g.course + (rangeOf s g).descBase ∨
          courseBase g.course + (rangeOf s g).descBase + bs.length ≤ k → t.mem.read k 1 = s.mem.read k 1) ∧
      t = { s1 with mem := t.mem, courses := t.courses, job := t.job } := by
  have hobs := ctlRead_observed hread
  obtain ⟨hcur, hin⟩ := nextSeg_cur hseg
  obtain ⟨m, hm⟩ := hobs.job hcur
  have hex := exec_range_copies hseg hk hup hhalf hcf hheld h4 hok hread
  have hwr := writeMem_local_frame s1 (a := courseBase g.course + (rangeOf s g).descBase) bs false
    (by unfold courseBase; omega)
  have hranges := writeMem_ranges s1 (courseBase g.course + (rangeOf s g).descBase) bs false g.course
  have hlen := writeMem_courses_length s1 (courseBase g.course + (rangeOf s g).descBase) bs false
  rw [hobs.course] at hranges
  rw [hobs.courses, shaped_courses hs] at hlen
  rw [hobs.mem] at hwr
  generalize rangeOf s g = r at *
  generalize courseBase g.course + r.descBase = a at *
  generalize s1.writeMem a bs = u at *
  have hmem : u.mem = s.mem.write a bs := by rw [hwr]
  have hpass : Passed j u.passSeg := passSeg_passed (by rw [hwr]; exact hm) hin
  refine ⟨_, hex, ?_, hpass.of_job (modCourse_job _ _ _), ?_, ?_, ?_⟩
  · rw [course_modCourse_same _ _ _ (by rw [passSeg_courses]; omega), passSeg_course, hranges]
  · intro i hi
    rw [modCourse_mem, passSeg_mem, hmem]
    exact write_byte hwf a bs false i hi
  · intro i hi
    rw [modCourse_mem, passSeg_mem, hmem]
    exact write_read_other hwf a bs false i hi
  · rw [hwr]; rfl

end

/-! ### MOVERS (R301) -/

theorem mem_insertTask {u t : MTask} {q : List MTask} : u ∈ insertTask t q ↔ u = t ∨ u ∈ q := by
  induction q with
  | nil => simp [insertTask]
  | cons v q ih =>
    unfold insertTask
    split
    · simp
    · simp [ih, or_left_comm]

/-- The mover that takes a descriptor: that of its place, or the next that is not fenced. -/
def taker (s : State) (h : Nat) (t : MTask) : Nat :=
  if s.isFenced (srcMover (16 * h + t.dseq % 16)) then
    (s.nextFreeMover (16 * h + t.dseq % 16)).getD (16 * h + t.dseq % 16)
  else 16 * h + t.dseq % 16

theorem giveTask_eq (s : State) (h : Nat) (t : MTask) :
    s.giveTask h t = s.modMover (taker s h t) fun g => { g with queue := insertTask t g.queue } := rfl

/-- A descriptor stays in its half. -/
theorem taker_half (s : State) (h : Nat) (t : MTask) : taker s h t / 16 = h := by
  unfold taker
  split
  · cases hn : s.nextFreeMover (16 * h + t.dseq % 16) with
    | none => simp only [Option.getD_none]; omega
    | some n =>
      obtain ⟨i, -, hi⟩ := List.mem_map.1 (List.mem_of_find?_eq_some hn)
      simp only [Option.getD_some]
      omega
  · omega

section
variable {s : State} {h : Nat}

theorem taker_lt (hm : s.movers.length = 48) (hh : h < 2) (t : MTask) : taker s h t < s.movers.length := by
  have := taker_half s h t
  omega

theorem giveTask_queue (hm : s.movers.length = 48) (hh : h < 2) (t : MTask) (m : Nat) {u : MTask} :
    u ∈ ((s.giveTask h t).mover m).queue ↔ (m = taker s h t ∧ u = t) ∨ u ∈ (s.mover m).queue := by
  rw [giveTask_eq]
  by_cases hn : taker s h t = m
  · subst hn
    rw [mover_modMover_same _ _ _ (taker_lt hm hh t)]
    simp [mem_insertTask]
  · rw [mover_modMover_other _ _ _ _ hn]
    simp [Ne.symm hn]

theorem giveTasks_keep (hm : s.movers.length = 48) (hh : h < 2) (ts : List MTask) {u : MTask} {m : Nat}
    (hu : u ∈ (s.mover m).queue) : u ∈ ((ts.foldl (fun s t => s.giveTask h t) s).mover m).queue := by
  induction ts generalizing s with
  | nil => exact hu
  | cons t ts ih => exact ih ((modifyNth_length _ _ _).trans hm) ((giveTask_queue hm hh t m).2 (Or.inr hu))

/-- Every descriptor given stands in the queue of its mover, where that is not fenced. -/
theorem giveTasks_queue (hm : s.movers.length = 48) (hh : h < 2) (ts : List MTask) {u : MTask} (hu : u ∈ ts)
    (hf : s.isFenced (srcMover (16 * h + u.dseq % 16)) = false) :
    u ∈ ((ts.foldl (fun s t => s.giveTask h t) s).mover (16 * h + u.dseq % 16)).queue := by
  induction ts generalizing s with
  | nil => cases hu
  | cons t ts ih =>
    have hlen : (s.giveTask h t).movers.length = 48 := (modifyNth_length _ _ _).trans hm
    rcases List.mem_cons.1 hu with rfl | hu
    · refine giveTasks_keep hlen hh ts ?_
      have htk : taker s h u = 16 * h + u.dseq % 16 := by simp [taker, hf]
      exact (giveTask_queue hm hh u _).2 (Or.inl ⟨htk.symm, rfl⟩)
    · exact ih hlen hu hf

end

/-- The movers of the other half take nothing. -/
theorem giveTasks_other (s : State) (h : Nat) (ts : List MTask) {m : Nat} (hmh : m / 16 ≠ h) :
    (ts.foldl (fun s t => s.giveTask h t) s).mover m = s.mover m := by
  induction ts generalizing s with
  | nil => rfl
  | cons t ts ih =>
    have hne : taker s h t ≠ m := fun he => hmh (he ▸ taker_half s h t)
    exact (ih (s.giveTask h t)).trans (mover_modMover_other s _ m _ hne)

theorem giveTasks_frame (s : State) (h : Nat) (ts : List MTask) :
    ts.foldl (fun s t => s.giveTask h t) s =
      { s with movers := (ts.foldl (fun s t => s.giveTask h t) s).movers } := by
  induction ts generalizing s with
  | nil => rfl
  | cons t ts ih => exact (ih (s.giveTask h t)).trans rfl

/-- The pieces of a list cut into `n` pieces of `k`. -/
theorem chunksOf_getElem? {α : Type} {k : Nat} (hk : 0 < k) (n : Nat) (l : List α) (hl : l.length = k * n) {i : Nat}
    (hi : i < n) : (chunksOf k n l)[i]? = some ((l.drop (k * i)).take k) := by
  induction n generalizing l i with
  | zero => omega
  | succ n ih =>
    have hne : l.isEmpty = false := by
      cases l with
      | nil =>
        have hpos : 0 < k * (n + 1) := Nat.mul_pos hk n.succ_pos
        rw [← hl] at hpos
        exact absurd hpos (Nat.lt_irrefl 0)
      | cons => rfl
    simp only [chunksOf, hne, Bool.false_eq_true, if_false]
    cases i with
    | zero => simp
    | succ i =>
      rw [List.getElem?_cons_succ, ih _ (by rw [List.length_drop, hl, Nat.mul_succ, Nat.add_sub_cancel]) (by omega),
        List.drop_drop, Nat.mul_succ, Nat.add_comm k]

/-- The tasks of a MOVERS list. -/
def listTasks (list n : Nat) (bs : List Byte) : List MTask :=
  (chunksOf 128 n bs).zipIdx.map fun x => MTask.mk none list x.2 x.1

/-- The list that a MOVERS segment enters. -/
def listOf (j : Job) (g : Seg) : MList := { id := j.nextSeg, half := g.half, total := g.len, doneIdx := [] }

theorem mem_listTasks {list n : Nat} {bs : List Byte} (hl : bs.length = 128 * n) {i : Nat} (hi : i < n) :
    MTask.mk none list i (bytesAt bs (128 * i) 128) ∈ listTasks list n bs :=
  List.mem_map.2 ⟨(bytesAt bs (128 * i) 128, i),
    List.mk_mem_zipIdx_iff_getElem?.2 (chunksOf_getElem? (by decide) n bs hl hi), rfl⟩

section
variable {s s1 : State} {host : HostData} {j : Job} {g : Seg} {bs : List Byte} {bad : Bool}
  (hseg : s.nextSeg = some (j, g)) (hk : g.kind = 2) (hhalf : s.halfUp g.half = true) (hheld : s.copyHeld g.half = false)
  (hread : s.ctlRead g.half (coreReader (srcHalf g.half)) host g.src.toNat (128 * g.len) = .ok bs bad s1)
include hseg hk hhalf hheld hread

theorem exec_movers : exec (.movers host) s =
    .next (State.passSeg { (listTasks j.nextSeg g.len bs).foldl (fun s t => s.giveTask g.half t) s1 with
      job := { s1.job with lists := s1.job.lists ++ [listOf j g] } }) := by
  have hjob : ((listTasks j.nextSeg g.len bs).foldl (fun s t => s.giveTask g.half t) s1).job = s1.job := by
    rw [giveTasks_frame]
  show execMovers host s = _
  simp only [execMovers, hseg, hk, hhalf, hheld, hread, ← hjob]
  simp
  rfl

variable (hs : s.shaped = true) (hh : g.half < 2) (hlen : bs.length = 128 * g.len)
include hs hh hlen

/-- MOVERS enters the list and gives each descriptor to the mover of its place. -/
theorem movers_gives : ∃ t, exec (.movers host) s = .next t ∧ Passed j t ∧ t.mem = s.mem ∧
    (∃ l, t.job.lists = s.job.lists ++ [l] ∧ l.id = j.nextSeg ∧ l.half = g.half ∧ l.total = g.len ∧ l.doneIdx = []) ∧
    (∀ i < g.len, s.isFenced (srcMover (16 * g.half + i % 16)) = false →
      ∃ k ∈ (t.mover (16 * g.half + i % 16)).queue, k.ring = none ∧ k.list = j.nextSeg ∧ k.dseq = i ∧
        k.bytes = bytesAt bs (128 * i) 128) ∧
    (∀ m, m / 16 ≠ g.half → t.mover m = s1.mover m) := by
  have hobs := ctlRead_observed hread
  obtain ⟨hcur, hin⟩ := nextSeg_cur hseg
  obtain ⟨m, hm⟩ := hobs.job hcur
  have hmem : ((listTasks j.nextSeg g.len bs).foldl (fun s t => s.giveTask g.half t) s1).mem = s.mem := by
    rw [giveTasks_frame]; exact hobs.mem
  refine ⟨_, exec_movers hseg hk hhalf hheld hread, passSeg_passed hm hin, hmem,
    ⟨listOf j g, congrArg (· ++ [_]) hobs.lists, rfl, rfl, rfl, rfl⟩,
    fun i hi hf => ⟨MTask.mk none j.nextSeg i (bytesAt bs (128 * i) 128), ?_, rfl, rfl, rfl, rfl⟩,
    fun m hm' => giveTasks_other s1 g.half _ hm'⟩
  have hm1 : s1.movers.length = 48 := by rw [hobs.movers, shaped_movers hs]
  exact giveTasks_queue hm1 hh _ (mem_listTasks hlen hi) ((hobs.isFenced _).trans hf)

end

/-! ### BARRIER (R286) -/

section
variable {s : State} {j : Job} {g : Seg} (hseg : s.nextSeg = some (j, g)) (hk : g.kind = 4)
include hseg hk

theorem barrier_passes (hq : s.stepQuiet = true) : exec .barrier s = .next s.passSeg ∧ Passed j s.passSeg := by
  obtain ⟨hcur, hin⟩ := nextSeg_cur hseg
  refine ⟨?_, passSeg_passed (m := j.firstMem) hcur hin⟩
  show execBarrier s = _
  simp [execBarrier, hseg, hk, hq]

theorem barrier_waits (hq : s.stepQuiet = false) : exec .barrier s = .next s := by
  show execBarrier s = _
  simp [execBarrier, hseg, hk, hq]

end

/-! ### The step command (R19, R441, R442) -/

/-- The state in which a step opens: the lead record written, the epoch seen by both supervisors. -/
def ledBy (s : State) (j : Job) (e : Word) : State :=
  State.modHalf (State.modHalf { s with rel := { s.rel with lease := { s.rel.lease with
    record := some (BitVec.ofNat 32 (jId j.posted.bytes), j.step, j.nextSeg) } } } 0 fun x => { x with newestEpoch := e }) 1
    fun x => { x with newestEpoch := e }

/-- An effect of a former lead is counted and logged; job, lease and memory stay. -/
theorem stale_fields (s : State) : s.stale.job = s.job ∧ s.stale.rel.lease = s.rel.lease ∧
    s.stale.rel.leaseStale = satAdd s.rel.leaseStale 1 ∧ s.stale.mem = s.mem := by
  have h := arrive_reported { s with rel := { s.rel with leaseStale := satAdd s.rel.leaseStale 1 } }
    (plainError 0 eStaleLead 0 s.rel.lease.epoch.toNat) false
  have hst := congrArg Rel.leaseStale h.2
  exact ⟨h.job, h.lease, hst, h.mem⟩

section
variable {s : State} {j : Job} {h : HalfId} {e : Word} (hcur : s.job.cur = some j) (hio : s.ioUp = true)
  (hup : s.halfUp h = true) (hl : (s.half h).leads = some e) (hph : j.phase = .running) (hin : j.inStep = false)
  (hstop : s.jobStopping = false) (hho : s.rel.handover = none)
include hcur hio hup hl hph hin hstop hho

theorem exec_stepCommand : exec (.stepCommand h e) s =
    .next (if s.rel.lease.heldBy h e then (ledBy s j e).openStep h else s.stale) := by
  show execStepCommand h e s = _
  have hho' : s.rel.handover.isSome = false := by rw [hho]; rfl
  simp only [execStepCommand, hcur, hio, hup, hl, hph, hin, hstop, hho']
  cases hheld : s.rel.lease.heldBy h e
  · simp
  · simp [ledBy]

theorem stepCommand_leads (hh : s.rel.lease.holder = h.val) (he : s.rel.lease.epoch = e) :
    exec (.stepCommand h e) s = .next ((ledBy s j e).openStep h) := by
  rw [exec_stepCommand hcur hio hup hl hph hin hstop hho, if_pos (by simp [Lease.heldBy, hh, he])]

theorem stepCommand_stale (hne : s.rel.lease.holder ≠ h.val ∨ s.rel.lease.epoch ≠ e) :
    exec (.stepCommand h e) s = .next s.stale := by
  rw [exec_stepCommand hcur hio hup hl hph hin hstop hho, if_neg (by simpa [Lease.heldBy] using hne.neg_resolve_left)]

end

theorem openStep_counted {s s2 : State} {h : Nat} {ps : List Nat} (hpc : pageCounts h (jNseq s.jobDesc) s = (some ps, s2)) :
    s.openStep h = s2.modJob fun k => { k with inStep := true, order := bucketOrder ps } := by
  rw [State.openStep, hpc]

/-- A page list in a fenced stack keeps the step closed. -/
theorem openStep_held {s s2 : State} {h : Nat} (hpc : pageCounts h (jNseq s.jobDesc) s = (none, s2)) : s.openStep h = s := by
  rw [State.openStep, hpc]

/-- A job without sequences opens its step with none to take. -/
theorem openStep_empty {s : State} {j : Job} (hcur : s.job.cur = some j) (hn : jNseq s.jobDesc = 0) (h : Nat) :
    s.openStep h = { s with job := { s.job with cur := some { j with inStep := true, order := [] } } } := by
  have hpc : pageCounts h (jNseq s.jobDesc) s = (some [], s) := by rw [hn]; rfl
  have horder : bucketOrder [] = [] := rfl
  rw [openStep_counted hpc, horder, State.modJob, hcur]
  rfl

/-- Settles O44: the order of the buckets, then each segment and the step command in turn. -/
theorem segmentsAppendWork : Obligations.SegmentsAppendWork := by
  unfold Obligations.SegmentsAppendWork
  refine ⟨fun p b hb => lengthBucket_eq_iff p hb, fun ps hps => ⟨bucketOrder_perm hps, bucketOrder_pairwise ps⟩,
    fun host j g bs bad s s1 hs => ⟨fun hseg hc hh => ⟨?_, ?_, ?_⟩, ?_⟩⟩
  · intro hk hup hhalf hcf hheld
    exact ⟨exec_range_full hseg, range_refused hseg hk hup hhalf hcf hheld hs hc,
      range_appends hseg hk hup hhalf hcf hheld hs hc⟩
  · intro hk hhalf hheld hlen hread
    exact movers_gives hseg hk hhalf hheld hread hs hh hlen
  · exact fun hk => ⟨barrier_passes hseg hk, barrier_waits hseg hk⟩
  · intro h e hcur hio hup hl hph hin hstop hho
    refine ⟨fun hh he => ?_, fun hne => ⟨s.stale, ?_, stale_fields s⟩⟩
    · have hlead := stepCommand_leads hcur hio hup hl hph hin hstop hho hh he
      exact ⟨fun ps s2 hpc => hlead.trans (congrArg _ (openStep_counted (s := ledBy s j e) hpc)),
        fun s2 hpc => hlead.trans (congrArg _ (openStep_held (s := ledBy s j e) hpc)),
        fun hn => hlead.trans (congrArg _ (openStep_empty (s := ledBy s j e) hcur hn h))⟩
    · exact stepCommand_stale hcur hio hup hl hph hin hstop hho hne

end Sys2Proof.Proofs

/-! PROOFS. The end of a step: cursors, token counts, the checkpoint stream (11 R319 to R322; 08 R221). -/

namespace Sys2Proof.Proofs

open Sys2Proof Sys2Proof.Machine Sys2Proof.Laws

/-! ### Reads and stores -/

/-- A read does the same whatever memory and courses hold. -/
theorem Observed.with_mem {s t : State} (h : Observed s t) (m : Memory) (c : List Course) :
    Observed { s with mem := m, courses := c } { t with mem := m, courses := c } where
  frame := by rw [h.frame]
  regs := h.regs
  rings := h.rings
  cur := h.cur
  halves := h.halves
  hbm := h.hbm
  rel := h.rel

/-- `t` is `s` after reads and stores: beside memory and the courses, only what a read may mark differs. -/
def Stored (s t : State) : Prop := Observed { s with mem := t.mem, courses := t.courses } t

theorem Observed.stored {s t : State} (h : Observed s t) : Stored s t := by
  have e : ({ s with mem := t.mem, courses := t.courses } : State) = s := by rw [h.mem, h.courses]
  rw [Stored, e]
  exact h

theorem Stored.refl (s : State) : Stored s s := (Observed.refl s).stored

theorem Stored.trans {s t u : State} (h : Stored s t) (k : Stored t u) : Stored s u :=
  Observed.trans (Observed.with_mem h u.mem u.courses) k

theorem foldl_stored {α : Type} {f : State → α → State} (h : ∀ s a, Stored s (f s a)) (l : List α) (s : State) :
    Stored s (l.foldl f s) :=
  foldl_related Stored.refl Stored.trans h l s

theorem writeMem_stored (s : State) (a : Nat) (bs : List Byte) (p : Bool) : Stored s (s.writeMem a bs p) := by
  have hfr := writeMem_frame s a bs p
  have hbm : (s.writeMem a bs p).hbm.map bareStack = s.hbm.map bareStack := by
    rw [State.writeMem, markDirty_frame]
    exact (touchRows_observed { s with mem := s.mem.write a bs p } a bs.length).hbm
  generalize s.writeMem a bs p = t at hfr hbm
  exact ⟨by rw [hfr], by rw [hfr], by rw [hfr], by rw [hfr], by rw [hfr], hbm, by rw [hfr]⟩

/-! ### Token counts (R221) -/

theorem advanceTokens_stored (s : State) (h : Nat) (m : List Byte) (i : Nat) : Stored s (s.advanceTokens h m i) := by
  have ht := translate_observed s h (coreReader (srcHalf h)) (jPlist s.jobDesc i + 0x10) true false
  unfold State.advanceTokens
  simp only
  split
  · rename_i e
    rw [State.tokensAt] at e
    rw [e] at ht
    split
    · exact Stored.refl s
    · exact (ht.trans (readMem_observed _ _ _ _)).stored.trans (writeMem_stored _ _ _ _)
  · exact Stored.refl s

/-- The count of a list in local memory, advanced by the tokens of the step. -/
theorem advanceTokens_mem {s s1 : State} {h : Nat} {m : List Byte} {i a : Nat} (ht : s.tokensAt h i = (.ok 0 a, s1))
    (hr : s1.rangeAll Region.hostOk a 4 = true) :
    (s.advanceTokens h m i).mem = if Config.stepTokens m i = 0 then s.mem
      else s.mem.write a (toLe ((leNat (s.mem.read a 4) + Config.stepTokens m i) % 2 ^ 32) 4) := by
  have hmem : s1.mem = s.mem := by
    have := translate_mem s h (coreReader (srcHalf h)) (jPlist s.jobDesc i + 0x10) true false
    rwa [show s.translate h (coreReader (srcHalf h)) (jPlist s.jobDesc i + 0x10) true false = _ from ht] at this
  by_cases hn : Config.stepTokens m i = 0
  · simp [State.advanceTokens, ht, hn]
  · simp [State.advanceTokens, ht, hn, hr, readMem_bytes, hmem]

theorem toLe_leNat (bs : List Byte) : toLe (leNat bs) bs.length = bs := by
  induction bs with
  | nil => rfl
  | cons b bs ih =>
    have hb := b.isLt
    have hdiv : (b.toNat + 256 * leNat bs) / 256 = leNat bs := by omega
    have hmod : BitVec.ofNat 8 (b.toNat + 256 * leNat bs) = b := BitVec.eq_of_toNat_eq (by simp; omega)
    simp only [leNat, List.length_cons, toLe, hdiv, hmod, ih]

theorem leNat_lt (bs : List Byte) : leNat bs < 256 ^ bs.length := by
  induction bs with
  | nil => simp [leNat]
  | cons b bs ih =>
    have hb := b.isLt
    rw [leNat, List.length_cons, Nat.pow_succ]
    omega

/-- A word at its place in memory without a flaw is read as stored. -/
theorem read_word {m : Memory} {a : Nat} (hs : m.synd = []) (ha : a % 4 = 0) : m.read a 4 = m.stored (a / 4) := by
  have hw : wordsOf a 4 = [a / 4] := by
    have hn : (a + 4 - 1) / 4 + 1 - a / 4 = 1 := by omega
    simp only [wordsOf, if_neg (by decide : ¬ 4 = 0), hn]
    rfl
  have hd : m.deliver (a / 4) = m.stored (a / 4) := deliver_stored (Or.inl (by simp [Memory.syn, hs, look]))
  have htake : (m.stored (a / 4)).take 4 = m.stored (a / 4) := List.take_of_length_le (Nat.le_of_eq (stored_length _ _))
  simp [Memory.read, hw, hd, ha, htake]

/-- The bytes of a word that is advanced by nothing are those of its count. -/
theorem word_bytes {m : Memory} {a i : Nat} (hs : m.synd = []) (ha : a % 4 = 0) (hi : i < 4) :
    m.byte (a + i) = (toLe (leNat (m.read a 4) % 2 ^ 32) 4).getD i 0 := by
  have hlt := leNat_lt (m.stored (a / 4))
  have hle := toLe_leNat (m.stored (a / 4))
  rw [stored_length] at hlt hle
  have ha4 : 4 * (a / 4) = a := by omega
  rw [read_word hs ha, Nat.mod_eq_of_lt (show _ < 2 ^ 32 from hlt), hle]
  simp [Memory.stored, List.getD_eq_getElem?_getD, hi, ha4]

/-- What a word holds after its count is advanced, and what stays. -/
theorem advanceTokens_bytes {s s1 : State} {h : Nat} {m : List Byte} {i a : Nat} (ht : s.tokensAt h i = (.ok 0 a, s1))
    (hr : s1.rangeAll Region.hostOk a 4 = true) (hwf : s.mem.wf = true) (hs : s.mem.synd = []) (ha : a % 4 = 0) :
    (∀ k < 4, (s.advanceTokens h m i).mem.byte (a + k) =
      (toLe ((leNat (s.mem.read a 4) + Config.stepTokens m i) % 2 ^ 32) 4).getD k 0) ∧
    (∀ b, b < a ∨ a + 4 ≤ b → (s.advanceTokens h m i).mem.byte b = s.mem.byte b) := by
  rw [advanceTokens_mem ht hr]
  split
  · rename_i hn
    rw [hn]
    exact ⟨fun k hk => word_bytes hs ha hk, fun _ _ => rfl⟩
  · have hlen : ∀ n, (toLe n 4).length = 4 := fun n => toLe_length n 4
    exact ⟨fun k hk => write_byte hwf a _ false k (by rw [hlen]; exact hk),
      fun b hb => (write_other s.mem a _ false hwf b (by rw [hlen]; omega)).1⟩

/-! ### The step counts (R320) -/

/-- The job once its step has counted. -/
def countedJob (j : Job) (m : List Byte) (first : Option Word) : Job :=
  { j with
    firstMem := first, cursors := j.cursors.zipIdx.map fun x => x.1 + manAdv m x.2, step := j.step + 1
    poisSteps := j.poisSteps + b2n (decide (j.poisTiles ≠ 0)), ckptPois := decide (j.poisTiles ≠ 0), ckptPending := true
    ckptLine := 0 }

theorem countedJob_cursor {j : Job} (m : List Byte) (first : Option Word) {i : Nat} (hi : i < j.cursors.length) :
    (countedJob j m first).cursors.getD i 0 = j.cursors.getD i 0 + manAdv m i := by
  simp [countedJob, List.getD_eq_getElem?_getD, hi]

theorem postPoison_job (s : State) (j : Job) : (s.postPoison j).job = s.job := (post_posted _ _).job

/-- A step end counts in the job, after reads and stores that leave the rest. -/
theorem closeStepEnd_stored (s : State) (j : Job) (m : List Byte) :
    ∃ w, Stored s w ∧ s.closeStepEnd j m = w.modJob fun k =>
      { k with cursors := j.cursors.zipIdx.map fun x => x.1 + manAdv m x.2, step := k.step + 1,
               poisSteps := k.poisSteps + b2n (decide (j.poisTiles ≠ 0)), ckptPois := decide (j.poisTiles ≠ 0),
               ckptPending := true, ckptLine := 0 } := by
  refine ⟨_, ?_, rfl⟩
  refine Stored.trans ?_ (foldl_stored (fun s i => advanceTokens_stored s _ m i) _ _)
  split
  · exact (post_observed _ _).stored
  · exact Stored.refl s

theorem closeStepEnd_cur {s : State} {j : Job} (hcur : s.job.cur = some j) (m : List Byte) :
    ∃ first, (s.closeStepEnd j m).job.cur = some (countedJob j m first) := by
  obtain ⟨w, hw, he⟩ := closeStepEnd_stored s j m
  obtain ⟨first, hf⟩ := Observed.job hw hcur
  refine ⟨first, ?_⟩
  rw [he, modJob_cur, hf]
  rfl

/-- What a step end leaves: the link, the lead and a hand-over asked for. -/
theorem closeStepEnd_keeps (s : State) (j : Job) (m : List Byte) :
    (s.closeStepEnd j m).leadHalf = s.leadHalf ∧ (s.closeStepEnd j m).hif.linkUp = s.hif.linkUp ∧
      (s.closeStepEnd j m).rel.handover = s.rel.handover ∧ (s.closeStepEnd j m).movers = s.movers := by
  obtain ⟨w, hw, he⟩ := closeStepEnd_stored s j m
  have hlead := Observed.leadHalf hw
  have hlink := Observed.linkUp hw
  have hhand := Observed.handover hw
  have hmov := Observed.movers hw
  rw [he]
  exact ⟨hlead, hlink, hhand, hmov⟩

theorem jobDesc_of_job {s t : State} (h : t.job = s.job) : t.jobDesc = s.jobDesc := by rw [State.jobDesc, h]; rfl

/-- A step end of a job without sequences stores nothing. -/
theorem closeStepEnd_mem_none {s : State} {j : Job} (m : List Byte) (hn : jNseq s.jobDesc = 0) :
    (s.closeStepEnd j m).mem = s.mem := by
  have hp : (s.postPoison j).mem = s.mem := post_mem _ _
  simp only [State.closeStepEnd, modJob_mem]
  split
  · rw [jobDesc_of_job (postPoison_job s j), hn]
    exact hp
  · rw [hn]
    rfl

/-- A step end of a job of one sequence and no poisoned tile stores its count. -/
theorem closeStepEnd_mem_one {s : State} {j : Job} (m : List Byte) (hn : jNseq s.jobDesc = 1) (hp : j.poisTiles = 0) :
    (s.closeStepEnd j m).mem = (s.advanceTokens s.leadHalf m 0).mem := by
  have hp' : decide (j.poisTiles ≠ 0) = false := by simp [hp]
  simp only [State.closeStepEnd, modJob_mem, hp', Bool.false_eq_true, if_false, hn]
  rfl

/-! ### Sending the stream (R320, R322) -/

/-- The state that reading a region leaves. -/
def Gathered.left : Gathered → State
  | .ok _ s | .fault _ s | .wait s => s

theorem gather_observed (h : Nat) (rd : Reader) (host : HostData) (n ja : Nat) (s : State) :
    Observed s (Gathered.left (gather h rd host n ja s)) := by
  induction n generalizing ja s with
  | zero => exact Observed.refl s
  | succ n ih =>
    have hp := ctlPiece_observed s h rd host ja 64
    unfold gather
    cases e : s.ctlPiece h rd host ja 64 with
    | ok bs bad t =>
      rw [e] at hp
      have hr := hp.trans (ih (ja + 64) t)
      simp only
      generalize gather h rd host n (ja + 64) t = r at hr ⊢
      cases r <;> exact hr
    | fault f t => rw [e] at hp; exact hp
    | wait t => rw [e] at hp; exact hp

theorem gatherAll_observed (h : Nat) (rd : Reader) (host : HostData) (m : List Byte) (fuel i : Nat) (s : State) :
    Observed s (gatherAll h rd host m fuel i s).2.2.2 := by
  induction fuel generalizing i s with
  | zero => exact Observed.refl s
  | succ fuel ih =>
    have hg := gather_observed h rd host (manBytes m i / 64) (manAddr m i) s
    unfold gatherAll
    cases e : gather h rd host (manBytes m i / 64) (manAddr m i) s with
    | ok ls t => rw [e] at hg; exact hg.trans (ih (i + 1) t)
    | fault f t => rw [e] at hg; exact hg
    | wait t => rw [e] at hg; exact hg

/-- The TLP of a line of the job's stream. -/
def lineTlp (pasid : Option (BitVec 20)) (l : Line) : Tlp := .write .pf0 l.addr l.bytes l.ro l.ep pasid false

/-- TLPs presented one after another. -/
def sentAll (s : State) (ts : List Tlp) : State := { s with hif := { s.hif with tx := s.hif.tx ++ ts } }

/-- Lines that the Gatehouse lets pass go out in order. -/
theorem sendLines_pass {pasid : Option (BitVec 20)} (ls : List Line) (k : Nat) (s : State)
    (h : ∀ l ∈ ls, s.ghPass l.addr l.bytes.length pasid false = true) :
    sendLines pasid ls k s = (k + ls.length, true, sentAll s (ls.map (lineTlp pasid))) := by
  induction ls generalizing k s with
  | nil => simp [sendLines, sentAll]
  | cons l ls ih =>
    have hl : s.hostWrite .pf0 l.addr l.bytes l.ro l.ep pasid = (true, s.send (lineTlp pasid l)) := by
      rw [State.hostWrite, if_pos (h l (by simp))]; rfl
    have hls := ih (k + 1) (s.send (lineTlp pasid l)) fun x hx => h x (by simp [hx])
    rw [sendLines, hl]
    simp only
    rw [hls]
    simp [sentAll, State.send, Nat.add_assoc, Nat.add_comm 1]

theorem finishStep_fields {s : State} {j : Job} (hcur : s.job.cur = some j) (b : Bool) :
    (∃ ph, (s.finishStep b).job.cur = some { j with
      inStep := false, handover := false, nextSeg := j.nextSeg + 1, poisTiles := 0, firstMem := none, ckptPois := false
      phase := ph }) ∧ (s.finishStep b).mem = s.mem ∧ (s.finishStep b).hif.tx = s.hif.tx := by
  unfold State.finishStep
  rw [hcur]
  simp only [modJob_mem, modJob_hif, modJob_cur, post_mem, (post_posted _ _).job, (post_posted _ _).tx, hcur,
    Option.map_some]
  exact ⟨⟨_, rfl⟩, trivial, trivial⟩

/-- The job once the trailer of its stream is written (R321). -/
def streamedJob (j : Job) (m : List Byte) (p : Bool) (k : Job) : Job :=
  { k with ckptPending := false, ckptLine := 0, ckptOff := BitVec.ofNat 64 (j.step % 2 * (jCkptLen j.posted.bytes / 2)),
           ckptTotal := BitVec.ofNat 64 (streamLen m), ckptPois := k.ckptPois || p }

/-- The trailer written, the segment passes and the step is closed. -/
theorem closeStream_fields {s : State} {k : Job} (hcur : s.job.cur = some k) (hho : s.rel.handover = none) (j : Job)
    (m : List Byte) (p : Bool) :
    ∃ q, (s.closeStream j m p).job.cur = some q ∧ q.step = k.step ∧ q.cursors = k.cursors ∧ q.nextSeg = k.nextSeg + 1 ∧
      q.inStep = false ∧ q.ckptPending = false ∧ (s.closeStream j m p).mem = s.mem ∧
      (s.closeStream j m p).hif.tx = s.hif.tx := by
  have heq : s.closeStream j m p = (s.modJob (streamedJob j m p)).finishStep false := by
    simp [State.closeStream, hho]
    rfl
  have hcur' : (s.modJob (streamedJob j m p)).job.cur = some (streamedJob j m p k) := by rw [modJob_cur, hcur]; rfl
  obtain ⟨⟨ph, hq⟩, hmem, htx⟩ := finishStep_fields hcur' false
  rw [heq]
  exact ⟨_, hq, rfl, rfl, rfl, rfl, rfl, hmem, htx⟩

theorem raiseFault_mover {s : State} (m : MoverId) (hm : m.val < s.movers.length) (f : HeldFault) :
    ∃ g, ((s.raiseFault (.mover m) f).mover m).fault = some g ∧ g.cause = f.cause ∧
      (s.raiseFault (.mover m) f).job = s.job ∧ (s.raiseFault (.mover m) f).hif.tx = s.hif.tx ∧
      (s.raiseFault (.mover m) f).movers.length = s.movers.length := by
  obtain ⟨t, g, ht, h, hcause, -⟩ := raiseFault_posted s (.mover m) f
  have hmv := mover_modMover_same t m (fun x => { x with fault := some g, hold := 7 }) (ht.movers ▸ hm)
  refine ⟨g, ?_, hcause, ?_⟩
  · rw [h]
    exact congrArg Mover.fault hmv
  · rw [h]
    exact ⟨ht.job, ht.tx, (modifyNth_length _ _ _).trans (congrArg List.length ht.movers)⟩

/-- A copy of a half that meets a lost link is held by its mover under T3_TIMEOUT. -/
theorem copyFault_timeout {s : State} {h : Nat} {m : MoverId} {f : HeldFault} (hcm : s.copyMover h = some m)
    (hm : m.val < s.movers.length) (hf : f.cause = 0x08) :
    ∃ g, ((s.copyFault h f).mover m).fault = some g ∧ g.cause = 0x08 ∧ (s.copyFault h f).job = s.job ∧
      (s.copyFault h f).hif.tx = s.hif.tx ∧ (s.copyFault h f).mem = s.mem := by
  obtain ⟨g, hg, hcause, hjob, htx, hlen⟩ := raiseFault_mover m hm f
  have heq : s.copyFault h f =
      (s.raiseFault (.mover m) f).modMover m fun g => { g with hold := BitVec.ofNat 8 wT3HostFail } := by
    simp [State.copyFault, hcm, hf, fT3Timeout]
  refine ⟨g, ?_, hcause.trans hf, ?_, ?_, ?_⟩
  · rw [heq, mover_modMover_same _ _ _ (by omega)]
    exact hg
  all_goals rw [heq]
  · exact hjob
  · exact htx
  · exact raiseFault_mem _ _ _ _ _

end Sys2Proof.Proofs

/-! PROOFS. Stopping the units of a job leaves memory and the job (11 R313, R314). -/

namespace Sys2Proof.Proofs

open Sys2Proof Sys2Proof.Machine Sys2Proof.Laws

/-- `t` has the memory and the job of `s`. -/
def KeepsJob (s t : State) : Prop := t.mem = s.mem ∧ t.job = s.job

theorem KeepsJob.refl (s : State) : KeepsJob s s := ⟨rfl, rfl⟩

theorem KeepsJob.trans {s t u : State} (h : KeepsJob s t) (k : KeepsJob t u) : KeepsJob s u :=
  ⟨k.1.trans h.1, k.2.trans h.2⟩

theorem foldl_keepsJob {α : Type} {f : State → α → State} (h : ∀ s a, KeepsJob s (f s a)) (l : List α) (s : State) :
    KeepsJob s (l.foldl f s) :=
  foldl_related KeepsJob.refl KeepsJob.trans h l s

theorem post_keepsJob (s : State) (p : Post) : KeepsJob s (s.post p) := ⟨(post_posted s p).mem, (post_posted s p).job⟩

theorem setFault_keepsJob (s : State) (u : FaultUnit) (f : Option HeldFault) : KeepsJob s (s.setFault u f) := by
  cases u <;> exact ⟨rfl, rfl⟩

theorem setLastRestart_keepsJob (s : State) (u : FaultUnit) (w : Option Word) : KeepsJob s (s.setLastRestart u w) := by
  cases u <;> exact ⟨rfl, rfl⟩

theorem modMover_keepsJob (s : State) (m : Nat) (f : Mover → Mover) : KeepsJob s (s.modMover m f) := ⟨rfl, rfl⟩
theorem modStack_keepsJob (s : State) (n : Nat) (f : Stack → Stack) : KeepsJob s (s.modStack n f) := ⟨rfl, rfl⟩
theorem modCourse_keepsJob (s : State) (c : Nat) (f : Course → Course) : KeepsJob s (s.modCourse c f) := ⟨rfl, rfl⟩
theorem modEngine_keepsJob (s : State) (e : Nat) (f : Engine → Engine) : KeepsJob s (s.modEngine e f) := ⟨rfl, rfl⟩

theorem abandonTile_keepsJob (s : State) (e : Nat) : KeepsJob s (s.abandonTile e) := by
  unfold State.abandonTile
  split <;> exact ⟨rfl, rfl⟩

theorem returnClaim_keepsJob (s : State) (e : Nat) : KeepsJob s (s.returnClaim e) := by
  unfold State.returnClaim
  split <;> exact ⟨rfl, rfl⟩

theorem stopEngine_keepsJob (pre : Bool) (s : State) (e : Nat) : KeepsJob s (State.stopEngine pre s e) := by
  have hab : ∀ b : Prop, [Decidable b] → KeepsJob s (if b then s.abandonTile e else s) := fun b _ => by
    split
    · exact abandonTile_keepsJob s e
    · exact KeepsJob.refl s
  have hret : ∀ t, KeepsJob t (if pre then t.returnClaim e else t) := fun t => by
    split
    · exact returnClaim_keepsJob t e
    · exact KeepsJob.refl t
  exact ((hab _).trans (hret _)).trans (modEngine_keepsJob _ _ _)

/-- A fault that ends posts its records at the units. -/
theorem settleFault_keepsJob (s : State) (u : FaultUnit) (o : FaultEnd) (b : Bool) : KeepsJob s (s.settleFault u o b) := by
  unfold State.settleFault
  split
  · exact KeepsJob.refl s
  · rename_i f _
    have hres : KeepsJob s ((s.postResolved u f o b).setFault u none) :=
      (post_keepsJob s _).trans (setFault_keepsJob _ u none)
    cases o with
    | cancelled | escalated => exact hres.trans (setLastRestart_keepsJob _ _ _)
    | retry | abandoned => exact (hres.trans (post_keepsJob _ _)).trans (setLastRestart_keepsJob _ _ _)

theorem stopFaults_keepsJob (s : State) (o : FaultEnd) (b : Bool) : KeepsJob s (s.stopFaults o b) := by
  refine foldl_keepsJob (fun t u => ?_) _ s
  split
  · split
    · exact KeepsJob.refl t
    · split
      · exact setFault_keepsJob _ _ _
      · exact (settleFault_keepsJob _ _ _ _).trans (setLastRestart_keepsJob _ _ _)
  · exact KeepsJob.refl t

theorem abandonCommands_keepsJob (s : State) : KeepsJob s s.abandonCommands := by
  unfold State.abandonCommands
  exact KeepsJob.trans
    (foldl_keepsJob
      (fun t n => (modStack_keepsJob t n _).trans (foldl_keepsJob (fun u x => modMover_keepsJob u _ _) _ _)) _ s)
    (foldl_keepsJob (fun t m => modMover_keepsJob t m _) _ _)

theorem stopUnits_keepsJob (s : State) (o : FaultEnd) (b : Bool) : KeepsJob s (s.stopUnits o b) := by
  have hstop := ((foldl_keepsJob (stopEngine_keepsJob (decide (o = .abandoned))) (List.range 64) s).trans
    (stopFaults_keepsJob _ o b)).trans (abandonCommands_keepsJob _)
  have hmov := hstop.trans (foldl_keepsJob (fun t m => modMover_keepsJob t m Mover.stop) (List.range 32) _)
  unfold State.stopUnits
  simp only
  generalize (List.range 32).foldl _ _ = u at hmov ⊢
  have hdrop : ∀ p, KeepsJob u (State.dropRequests p { u with courses := u.courses.map (Course.stop p) }) :=
    fun _ => ⟨rfl, rfl⟩
  exact (hmov.trans (hdrop _)).trans
    (foldl_keepsJob (f := fun t c => t.retireRanges c) (fun t c => modCourse_keepsJob t c _) (List.range 8) _)

/-- An end given to a running job stands in it, with its steps and cursors as they are. -/
theorem endJob_fields {s : State} {j : Job} (hcur : s.job.cur = some j) (hend : j.ending = none) (e : JobEnd) :
    (s.endJob e).job.cur = some { j with ending := some e } ∧ (s.endJob e).mem = s.mem := by
  have heq : s.endJob e = (s.modJob fun j => { j with ending := some e }).stopUnits .cancelled false := by
    simp [State.endJob, hcur, hend]
  obtain ⟨hmem, hjob⟩ := stopUnits_keepsJob (s.modJob fun j => { j with ending := some e }) .cancelled false
  rw [heq, hjob, modJob_cur, hcur]
  exact ⟨rfl, hmem⟩

/-! ### STEP_END -/

/-- A step whose segments are not complete does not end. -/
theorem stepEnd_waits {host : HostData} {j : Job} {g : Seg} {s : State} (hcur : s.job.cur = some j)
    (hseg : j.segs[j.nextSeg]? = some g) (hq : s.stepQuiet = false) : exec (.stepEnd host) s = .next s := by
  show execStepEnd host s = _
  simp [execStepEnd, hcur, hseg, hq]

section
variable {host : HostData} {j : Job} {g : Seg} {s : State} (hcur : s.job.cur = some j)
  (hseg : j.segs[j.nextSeg]? = some g) (hk : g.kind = 5) (hph : j.phase = .running) (hin : j.inStep = true)
  (hstop : s.jobStopping = false) (hpre : j.preempt = none) (hho : j.handover = false) (hhalf : s.halfUp s.leadHalf = true)
  (hheld : s.copyHeld s.leadHalf = false) (hlead : s.leadOk = true) (hq : s.stepQuiet = true) (hck : j.ckptPending = false)
include hcur hseg hk hph hin hstop hpre hho hhalf hheld hlead hq hck

/-- An outlier overflow under the fault policy ends the job at its step end (R117). -/
theorem stepEnd_outlier (hout : j.outlier = true) : ∃ t k e, exec (.stepEnd host) s = .next t ∧ t.job.cur = some k ∧
    k.ending = some e ∧ e.status = 6 ∧ k.step = j.step ∧ k.cursors = j.cursors ∧ t.mem = s.mem := by
  have hex : exec (.stepEnd host) s =
      .next (s.endJob { status := BitVec.ofNat 16 stOutlierFault, resExt := j.outlierExt }) := by
    show execStepEnd host s = _
    simp [execStepEnd, State.ifLead, hcur, hseg, hk, hph, hin, hstop, hpre, hho, hhalf, hheld, hlead, hq, hck, hout]
  have hend : j.ending = none := by
    have h : j.signalled = false ∧ j.ending = none := by simpa [State.jobStopping, hcur] using hstop
    exact h.2
  obtain ⟨hcur', hmem⟩ := endJob_fields hcur hend { status := BitVec.ofNat 16 stOutlierFault, resExt := j.outlierExt }
  exact ⟨_, _, _, hex, hcur', rfl, rfl, rfl, rfl, hmem⟩

/-- Any other step counts, and its stream follows. -/
theorem exec_stepEnd (hout : j.outlier = false)
    (htok : (List.range (jNseq s.jobDesc)).any (s.tokensHeld s.leadHalf) = false) {j1 : Job}
    (hj1 : (s.closeStepEnd j g.man).job.cur = some j1) :
    exec (.stepEnd host) s = .next ((s.closeStepEnd j g.man).stream host j1 g.man) := by
  show execStepEnd host s = _
  simp only [execStepEnd, State.ifLead, hcur, hseg, hk, hph, hin, hstop, hpre, hho, hhalf, hheld, hlead, hq, hck, hout,
    htok, hj1]
  simp

end

/-! ### The stream of a step end -/

section
variable {host : HostData} {j : Job} {m : List Byte} {mv : MoverId} {rs : List (List (List Byte × Bool))} {s s2 : State}
  (hmv : s.copyMover s.leadHalf = some mv)
  (hga : gatherAll s.leadHalf { kind := 1, id := mv, owner := .job } host m (manCount m) 0 s = (none, true, rs, s2))
include hmv hga

/-- The stream goes out whole where the link is up and the Gatehouse lets its lines pass. -/
theorem stream_sends (hup : s2.hif.linkUp = true) (hline : j.ckptLine = 0)
    (hpass : ∀ l ∈ s2.checkpointLines j m rs, s2.ghPass l.addr l.bytes.length s2.jobPasid false = true) :
    s.stream host j m = State.closeStream (sentAll s2 ((s2.checkpointLines j m rs).map (lineTlp s2.jobPasid))) j m
      (rs.any fun x => x.any (·.2)) := by
  simp only [State.stream, hmv]
  rw [hga]
  simp only [hup, not_true_eq_false, if_false, hline, List.drop_zero, sendLines_pass _ _ _ hpass, if_true]

/-- Where the link is down the stream is held by its mover. -/
theorem stream_holds (hup : s2.hif.linkUp = false) :
    ∃ a, s.stream host j m = s2.copyFault s.leadHalf (streamFault (addrFault fT3Timeout a 2 true) j.ckptLine) := by
  refine ⟨(((s2.checkpointLines j m rs)[j.ckptLine]?).map (·.addr)).getD 0, ?_⟩
  simp only [State.stream, hmv]
  rw [hga]
  simp only [hup, Bool.false_eq_true, not_false_eq_true, if_true]

omit hmv in
theorem gathered_observed : Observed s s2 := by
  have hobs := gatherAll_observed s.leadHalf { kind := 1, id := mv, owner := .job } host m (manCount m) 0 s
  rwa [hga] at hobs

variable (hcur : s.job.cur = some j)
include hcur

/-- A stream that goes out whole passes the segment and closes the step. -/
theorem stream_sent_fields (hho : s.rel.handover = none) (hup : s.hif.linkUp = true) (hline : j.ckptLine = 0)
    (hpass : ∀ l ∈ s2.checkpointLines j m rs, s2.ghPass l.addr l.bytes.length s2.jobPasid false = true) :
    ∃ q, (s.stream host j m).job.cur = some q ∧ q.step = j.step ∧ q.cursors = j.cursors ∧ q.nextSeg = j.nextSeg + 1 ∧
      q.inStep = false ∧ q.ckptPending = false ∧ (s.stream host j m).mem = s.mem ∧
      (s.stream host j m).hif.tx = s2.hif.tx ++ (s2.checkpointLines j m rs).map (lineTlp s2.jobPasid) := by
  have hobs := gathered_observed hga
  obtain ⟨first, hcur2⟩ := hobs.job hcur
  rw [stream_sends hmv hga (hobs.linkUp.trans hup) hline hpass, ← hobs.mem]
  exact closeStream_fields (s := sentAll s2 _) hcur2 (hobs.handover.trans hho) j m _

/-- A stream that is held leaves the job as it is and a fault at the mover. -/
theorem stream_held_fields (hm : mv.val < s.movers.length) (hdown : s.hif.linkUp = false) :
    (∃ first, (s.stream host j m).job.cur = some { j with firstMem := first }) ∧
      (∃ f, ((s.stream host j m).mover mv).fault = some f ∧ f.cause = 0x08) ∧
      (s.stream host j m).hif.tx = s2.hif.tx ∧ (s.stream host j m).mem = s.mem := by
  have hobs := gathered_observed hga
  obtain ⟨a, heq⟩ := stream_holds hmv hga (hobs.linkUp.trans hdown) (j := j)
  have hcause : (streamFault (addrFault fT3Timeout a 2 true) j.ckptLine).cause = 0x08 := rfl
  obtain ⟨f, hf, hcause, hjob, htx, hmem⟩ := copyFault_timeout ((hobs.copyMover _).trans hmv) (hobs.movers ▸ hm) hcause
  rw [heq, hjob]
  exact ⟨hobs.job hcur, ⟨f, hf, hcause⟩, htx, hmem.trans hobs.mem⟩

end


/-- Settles O46: the counts of a step end, its end by an outlier, and its stream with the link up and down. -/
theorem stepsEnd : Obligations.StepsEnd := by
  unfold Obligations.StepsEnd
  intro host j g s hs hcur hseg hk hph hin hstop hpre hho hhalf hheld hlead hlen htok
  refine ⟨stepEnd_waits hcur hseg, closeStepEnd_mem_none g.man, ?_,
    fun hq hck hout => stepEnd_outlier hcur hseg hk hph hin hstop hpre hho hhalf hheld hlead hq hck hout, ?_⟩
  · intro a s1 hn ht hr hp hwf hsy ha
    dsimp only
    rw [closeStepEnd_mem_one g.man hn hp]
    exact advanceTokens_bytes ht hr hwf hsy ha
  · intro j1 mv rs s2 hq hck hout hhand hj1 hmv hga
    have hex := exec_stepEnd (host := host) hcur hseg hk hph hin hstop hpre hho hhalf hheld hlead hq hck hout htok hj1
    obtain ⟨first, hfirst⟩ := closeStepEnd_cur hcur g.man
    obtain rfl : j1 = countedJob j g.man first := Option.some.inj (hj1.symm.trans hfirst)
    obtain ⟨hlh, hlink, hhand', hmov⟩ := closeStepEnd_keeps s j g.man
    have hcursor : ∀ i < 4, (countedJob j g.man first).cursors.getD i 0 = j.cursors.getD i 0 + manAdv g.man i :=
      fun i hi => countedJob_cursor g.man first (by omega)
    rw [← hlh] at hmv hga
    refine ⟨fun hup hpass => ?_, fun hdown => ?_⟩
    · obtain ⟨q, hq, hstep, hcurs, hnext, hin', hck', hmem, htx⟩ :=
        stream_sent_fields hmv hga hj1 (hhand'.trans hhand) (hlink.trans hup) rfl hpass
      refine ⟨_, q, [], hex, hq, ⟨hstep, fun i hi => ?_⟩, hnext, hin', hck', htx.trans (List.append_nil _).symm, hmem⟩
      rw [hcurs]
      exact hcursor i hi
    · have hm : mv.val < (s.closeStepEnd j g.man).movers.length := by
        rw [hmov, shaped_movers hs]
        exact mv.isLt
      obtain ⟨⟨m2, hq⟩, hfault, htx, hmem⟩ := stream_held_fields hmv hga hj1 hm (hlink.trans hdown)
      exact ⟨_, _, hex, hq, ⟨rfl, hcursor⟩, rfl, hin, rfl, htx, ⟨mv, hfault⟩, hmem⟩

end Sys2Proof.Proofs

/-! PROOFS. Credit refills, pace windows and the reference clock (14 R411; 02 R37, R38, R59, R440). -/

namespace Sys2Proof.Proofs

open Sys2Proof Sys2Proof.Machine Sys2Proof.Laws

/-! ### The refill of one course -/

section
variable (p : Pwr) (e total c : Nat) (up : Bool) {k : Course}

/-- A course that draws credits gets a share, cut off at the cap. -/
theorem refillCourse_bucket_draws (hw : k.wants = true) (hr : heatRoom p c ≠ 0) :
    ∃ share, (refillCourse p e total c up k).bucket.toNat = min (k.bucket.toNat + share) p.creditCap.toNat := by
  simp only [refillCourse, hw, if_true, if_neg hr, BitVec.toNat_ofNat]
  exact ⟨_, Nat.mod_eq_of_lt (by omega)⟩

theorem refillCourse_bucket_rests (hw : k.wants = false) : (refillCourse p e total c up k).bucket = k.bucket := by
  simp [refillCourse, hw]

theorem refillCourse_mask (k : Course) : (refillCourse p e total c up k).mask =
    if 16 * (p.thot : Int) ≤ (p.temp.getD c 0).toInt then BitVec.ofNat 8 (2 ^ (p.hotClass + 1) - 1) else 0xFF := by
  simp [refillCourse, tempOf]

end

/-! ### The governed voltages -/

theorem governed_length (s : State) (vset : List (BitVec 8)) : (s.governed vset).length = 3 := by
  unfold State.governed
  split <;> rfl

theorem governed_le {s : State} {vset : List (BitVec 8)} {v : Nat} (h : v ∈ s.governed vset) : v ≤ 24 := by
  unfold State.governed at h
  split at h
  · exact Nat.le_of_eq (by simpa using h)
  · obtain ⟨r, -, rfl⟩ := List.mem_map.1 h
    exact Nat.min_le_right _ _

theorem governed_full {s : State} (h : s.effCeil = 2000) (vset : List (BitVec 8)) : s.governed vset = [24, 24, 24] :=
  if_pos h

/-! ### CREDIT_REFILL -/

/-- Power after a refill's telemetry: the temperatures read and the voltages set. -/
def refillPwr (t : Telemetry) (s : State) : Pwr := { s.pwr with temp := t.temps, vset := s.governed t.vset }

/-- The sum of the weights that the courses draw by. -/
def refillTotal (t : Telemetry) (s : State) : Nat :=
  (s.courses.zipIdx.map fun (x : Course × Nat) => if x.1.wants then heatRoom (refillPwr t s) x.2 else 0).sum

/-- The state after a refill. -/
def refilled (t : Telemetry) (s : State) : State :=
  { s with
    pwr := refillPwr t s
    courses := s.courses.zipIdx.map fun (x : Course × Nat) =>
      refillCourse (refillPwr t s) (s.refillEnergy t) (refillTotal t s) x.2 (Config.freeBit (s.free + x.2)) x.1
    free := s.free + 8 }

section
variable {s : State}

theorem exec_creditRefill (t : Telemetry) (hup : s.mgrUp = true) (hck : s.pwr.refclk = true) :
    exec (.creditRefill t) s = .next (refilled t s) := by
  show execCreditRefill t s = _
  rw [execCreditRefill, if_neg (by simp [hup, hck])]
  rfl

theorem exec_creditRefill_dark (t : Telemetry) (hck : s.pwr.refclk = false) : exec (.creditRefill t) s = .next s := by
  show execCreditRefill t s = _
  exact if_pos (by simp [hck])

theorem refilled_course (t : Telemetry) {c : Nat} (hc : c < s.courses.length) : (refilled t s).course c =
    refillCourse (refillPwr t s) (s.refillEnergy t) (refillTotal t s) c (Config.freeBit (s.free + c)) (s.course c) := by
  simp [State.course, refilled, hc]

/-- What a refill makes of a course's bucket and mask (R411). -/
theorem refilled_course_fields (t : Telemetry) {c : Nat} (hc : c < s.courses.length) :
    ((s.course c).wants = true → heatRoom { s.pwr with temp := t.temps } c ≠ 0 →
      ((refilled t s).course c).bucket ≤ s.pwr.creditCap ∧
      ((s.course c).bucket ≤ s.pwr.creditCap → (s.course c).bucket ≤ ((refilled t s).course c).bucket)) ∧
    ((s.course c).wants = false → ((refilled t s).course c).bucket = (s.course c).bucket) ∧
    (16 * (s.pwr.thot : Int) ≤ (t.temps.getD c 0).toInt →
      ((refilled t s).course c).mask = BitVec.ofNat 8 (2 ^ (s.pwr.hotClass + 1) - 1)) ∧
    ((t.temps.getD c 0).toInt < 16 * (s.pwr.thot : Int) → ((refilled t s).course c).mask = 0xFF) := by
  rw [refilled_course t hc]
  refine ⟨fun hw hr => ?_, fun hw => refillCourse_bucket_rests _ _ _ _ _ hw,
    fun hhot => (refillCourse_mask _ _ _ _ _ _).trans (if_pos hhot),
    fun hcool => (refillCourse_mask _ _ _ _ _ _).trans (if_neg (Int.not_le.2 hcool))⟩
  obtain ⟨share, hb⟩ := refillCourse_bucket_draws (refillPwr t s) (s.refillEnergy t) (refillTotal t s) c
    (Config.freeBit (s.free + c)) hw hr
  have hcap : (refillPwr t s).creditCap = s.pwr.creditCap := rfl
  rw [hcap] at hb
  simp only [BitVec.le_def, hb]
  omega

/-! ### PACE_WINDOW -/

theorem exec_paceWindow_dark (m : Fin 12) (n : BitVec 16) (hck : s.pwr.refclk = false) :
    exec (.paceWindow m n) s = .next s := by
  show execPaceWindow m n s = _
  simp [execPaceWindow, hck]

/-- A window shows its count; the one of I/O die 0 also counts AGE of a held lease (R37, R440). -/
theorem exec_paceWindow {m : Fin 12} (n : BitVec 16) (hio : s.ioUp = true) (hck : s.pwr.refclk = true)
    (hm : m.val < 8 + s.variant.ioDies) : ∃ x, exec (.paceWindow m n) s =
      .next { s with pwr := { s.pwr with pace := s.pwr.pace.set m (false, n) }, rel := x } ∧
      (m.val = 8 → s.rel.lease.holder ≠ 3 → x.lease.age = s.rel.lease.age + 1) ∧ (m.val ≠ 8 → x = s.rel) := by
  have hex : exec (.paceWindow m n) s = execPaceWindow m n s := rfl
  have hdie : ¬ (8 ≤ m.val ∧ s.variant.ioDies ≤ m.val - 8) := by omega
  rw [hex, execPaceWindow, if_neg hdie, if_neg (by simp [hio, hck])]
  by_cases h8 : m.val = 8
  · simp only [h8, ne_eq, not_true_eq_false, if_false]
    exact ⟨_, rfl, fun _ hh => by simp [hh], False.elim⟩
  · rw [if_pos h8]
    exact ⟨s.rel, rfl, fun h => absurd h h8, fun _ => rfl⟩

end

/-! ### REFCLK_LOSS: what a lost host link leaves (R297) -/

/-- `t` has the power state and the memory of `s`. -/
def KeepsPower (s t : State) : Prop := t.pwr = s.pwr ∧ t.mem = s.mem

theorem KeepsPower.refl (s : State) : KeepsPower s s := ⟨rfl, rfl⟩

theorem KeepsPower.trans {s t u : State} (h : KeepsPower s t) (k : KeepsPower t u) : KeepsPower s u :=
  ⟨k.1.trans h.1, k.2.trans h.2⟩

theorem foldl_keepsPower {α : Type} {f : State → α → State} (h : ∀ s a, KeepsPower s (f s a)) (l : List α) (s : State) :
    KeepsPower s (l.foldl f s) :=
  foldl_related KeepsPower.refl KeepsPower.trans h l s

theorem raiseFault_keepsPower (s : State) (u : FaultUnit) (f : HeldFault) (o : Owner) (c : Nat × Word) :
    KeepsPower s (s.raiseFault u f o c) := by
  obtain ⟨t, g, ht, h, -, -⟩ := raiseFault_posted s u f o c
  rw [h, setFault_frame]
  exact ⟨ht.pwr, ht.mem⟩

theorem endTask_keepsPower (s : State) (m : Nat) (t : MTask) (status res0 : Nat) (resExt : List Byte) :
    KeepsPower s (s.endTask m t status res0 resExt) := by
  unfold State.endTask
  simp only
  split
  · next r _ =>
    have h := complete_posted (s.modMover m Mover.idle) r t.bytes status 0 res0 resExt
    exact ⟨h.pwr, h.mem⟩
  · split <;> exact ⟨rfl, rfl⟩

theorem moverFault_keepsPower (s : State) (m : MoverId) (t : MTask) (f : HeldFault) (hold : Nat) (c : Nat × Word) :
    KeepsPower s (s.moverFault m t f hold c) := by
  unfold State.moverFault
  simp only
  split
  · exact endTask_keepsPower _ _ _ _ _ _
  · exact raiseFault_keepsPower s (.mover m) _ _ _

theorem hostReadFailed_keepsPower (s : State) (m : MoverId) (a : Nat) : KeepsPower s (s.hostReadFailed m a) := by
  have hfree : KeepsPower s (s.modMover m fun g => { g with wait := .none }) := ⟨rfl, rfl⟩
  unfold State.hostReadFailed
  simp only
  split
  · exact hfree
  · split
    · exact hfree
    · exact hfree.trans (moverFault_keepsPower _ _ _ _ _ _)

theorem xlateLost_keepsPower (s : State) (m : MoverId) : KeepsPower s (s.xlateLost m) := by
  unfold State.xlateLost
  split
  · exact hostReadFailed_keepsPower _ _ _
  · exact hostReadFailed_keepsPower _ _ _
  · exact KeepsPower.refl s

theorem hostLinkLost_keepsPower (s : State) : KeepsPower s s.hostLinkLost := by
  unfold State.hostLinkLost
  simp only
  refine KeepsPower.trans ?_ (foldl_keepsPower (fun t m => xlateLost_keepsPower t _) _ _)
  refine KeepsPower.trans (t := { s with hif := _ }) ⟨rfl, rfl⟩ (foldl_keepsPower (fun t rd => ?_) _ _)
  cases rd.who with
  | ring r first n => exact ⟨rfl, rfl⟩
  | mover m => exact hostReadFailed_keepsPower _ _ _

theorem linkDown_keepsPower (s : State) : ∃ t, execLinkDown s = .next t ∧ KeepsPower s t := by
  unfold execLinkDown
  split
  · exact ⟨_, rfl, hostLinkLost_keepsPower s⟩
  · exact ⟨s, rfl, KeepsPower.refl s⟩

/-- The state with the reference clock gone and every monitor stale (R38). -/
def unclocked (s : State) : State :=
  { s with pwr := { s.pwr with refclk := false, pace := s.pwr.pace.map fun p => (true, p.2) } }

theorem exec_refclkLoss {s : State} (hck : s.pwr.refclk = true) : exec .refclkLoss s = execLinkDown (unclocked s) := by
  show execRefclkLoss s = _
  rw [execRefclkLoss, if_neg (by simp [hck])]
  rfl

theorem unclocked_stale {s : State} {p : Bool × BitVec 16} (h : p ∈ (unclocked s).pwr.pace) : p.1 = true := by
  obtain ⟨q, -, rfl⟩ := List.mem_map.1 h
  rfl

theorem unclocked_counts (s : State) : (unclocked s).pwr.pace.map (·.2) = s.pwr.pace.map (·.2) := by
  simp [unclocked, Function.comp_def]

/-- Settles O24: buckets, masks and voltages of a refill, the windows, and both without the reference clock. -/
theorem creditsAndPace : Obligations.CreditsAndPace := by
  unfold Obligations.CreditsAndPace
  intro s hs hio
  refine ⟨fun t hready hck => ?_, fun m n hck hm hlen => ?_, fun hck => ?_,
    fun hck => ⟨fun m n _ => exec_paceWindow_dark m n hck, fun t => exec_creditRefill_dark t hck⟩, rfl⟩
  · have hup : s.mgrUp = true := by simp [State.mgrUp, hready, hio]
    exact ⟨refilled t s, exec_creditRefill t hup hck,
      fun c hc => refilled_course_fields t (by rw [shaped_courses hs]; exact hc),
      governed_length s t.vset, fun v hv => governed_le hv, fun hfull => governed_full hfull t.vset, rfl⟩
  · obtain ⟨x, hex, hage, hrel⟩ := exec_paceWindow n hio hck hm
    exact ⟨_, hex, rfl, hage, hrel, rfl⟩
  · obtain ⟨t, hdown, hpwr, hmem⟩ := linkDown_keepsPower (unclocked s)
    refine ⟨t, (exec_refclkLoss hck).trans hdown, ?_, ?_, ?_, hmem⟩ <;> rw [hpwr]
    · rfl
    · exact fun p hp => unclocked_stale hp
    · exact unclocked_counts s

end Sys2Proof.Proofs

/-! PROOFS. Supply loss, the vault, the holdup bank and the progress watchdog (14 R413 to R415; 02 R58). -/

namespace Sys2Proof.Proofs

open Sys2Proof Sys2Proof.Machine Sys2Proof.Laws

theorem shaped_rings {s : State} (h : s.shaped = true) : s.rings.length = 66 := (shaped_lengths h).1

/-! ### SUPPLY_LOSS -/

/-- The state in which a supply loss halts the module. -/
def haltedBy (ovf : Bool) (s : State) : State :=
  { s with
    pwr := { s.pwr with halted := true, lossCause := if ovf then 2 else 1, bankReady := false }
    hbm := s.hbm.map fun (k : Stack) => ({ k with selfRefresh := true } : Stack)
    hif := { s.hif with linkUp := false, width := 0, rate := 0, flit := false }
    mgt := { s.mgt with resetPending := none }
    fab := { s.fab with ports := s.fab.ports.map fun (p : Port) => ({ p with state := 0, lanes := 0 } : Port) } }

section
variable {s : State} (ovf : Bool)

theorem exec_supplyLoss (hr : s.pwr.railsOn = true) (hh : s.pwr.halted = false) :
    exec (.supplyLoss ovf) s = .next (haltedBy ovf s) := by
  show execSupplyLoss ovf s = _
  rw [execSupplyLoss, if_neg (by simp [hr, hh])]
  rfl

theorem haltedBy_ioUp : (haltedBy ovf s).ioUp = false := by simp [State.ioUp, haltedBy]

theorem haltedBy_selfRefresh {k : Stack} (h : k ∈ (haltedBy ovf s).hbm) : k.selfRefresh = true := by
  obtain ⟨x, -, rfl⟩ := List.mem_map.1 h
  rfl

theorem haltedBy_portDown {p : Port} (h : p ∈ (haltedBy ovf s).fab.ports) : p.state = 0 := by
  obtain ⟨x, -, rfl⟩ := List.mem_map.1 h
  rfl

end

/-! ### VAULT_SAVE -/

/-- A fold that takes over list entries, or keeps what it has, ends with its start or an entry. -/
theorem foldl_taken {α : Type} {f : Option α → α → Option α} (hf : ∀ b x y, f b x = some y → b = some y ∨ y = x)
    (l : List α) (b : Option α) {y : α} (h : l.foldl f b = some y) : b = some y ∨ y ∈ l := by
  induction l generalizing b with
  | nil => exact .inl h
  | cons x l ih =>
    rcases ih (f b x) h with hb | hl
    · exact (hf b x y hb).imp_right fun e => List.mem_cons.2 (.inl e)
    · exact .inr (List.mem_cons_of_mem x hl)

theorem newestSlot_lt {slots : List (Option VaultSlot)} {i : Nat} {w : VaultSlot}
    (h : newestSlot slots = some (i, w)) : i < slots.length := by
  unfold newestSlot at h
  refine (foldl_taken (fun b x y hy => ?_) _ _ h).elim (fun h0 => by cases h0) fun hmem => ?_
  · split at hy
    · split at hy
      · exact .inr (Option.some.inj hy).symm
      · exact .inl hy
    · exact .inr (Option.some.inj hy).symm
  · obtain ⟨⟨o, j⟩, hx, hs⟩ := List.mem_filterMap.1 hmem
    have hj : j < slots.length := (List.mem_zipIdx' hx).1
    cases o with
    | none => cases hs
    | some v =>
      simp only at hs
      split at hs
      · cases hs
        exact hj
      · cases hs

/-- The supply-loss record that follows the one of SAVE_NO `last` (Table 14.4), by a bank that is not weak. -/
def vaultRecord (s : State) (last : Nat) : VaultSlot :=
  { complete := true, cause := s.pwr.lossCause, consumed := false, saveNo := last + 1,
    boot := s.mgt.boot, rings := s.vaultRings, jobs := s.vaultJobs, epoch := s.rel.lease.epoch,
    lead := s.rel.lease.holder, log := s.rel.log, pinned := s.rel.pinned, logNext := s.rel.logNext,
    logOver := s.rel.logOver }

/-- The state once a record is in its slot and the rails are off. -/
def vaulted (s : State) (k : Nat) (v : VaultSlot) : State :=
  { s with
    free := s.free + 1
    mgt := { s.mgt with vaultSlots := s.mgt.vaultSlots.set k (some v) }
    pwr := { s.pwr with railsOn := false, halted := false }
    side := { s.side with modFault := false } }

section
variable {s : State} (hr : s.pwr.railsOn = true) (hh : s.pwr.halted = true) (hb : s.pwr.bankLow = false)
include hr hh hb

/-- The first save goes into slot 0. -/
theorem exec_vaultSave_first (hn : newestSlot s.mgt.vaultSlots = none) :
    exec .vaultSave s = .next (vaulted s 0 (vaultRecord s 0)) := by
  show execVaultSave s = _
  rw [execVaultSave, if_neg (by simp [hr, hh]), hn]
  simp [hb, vaulted, vaultRecord, State.drawn]

/-- A later save goes into the slot beside the newest record. -/
theorem exec_vaultSave_next {i : Nat} {w : VaultSlot} (hn : newestSlot s.mgt.vaultSlots = some (i, w)) :
    exec .vaultSave s = .next (vaulted s (1 - i) (vaultRecord s w.saveNo)) := by
  show execVaultSave s = _
  rw [execVaultSave, if_neg (by simp [hr, hh]), hn]
  simp [hb, vaulted, vaultRecord, State.drawn]

/-- Where a save goes, and the SAVE_NO that its record follows (R414). -/
theorem exec_vaultSave (hl : s.mgt.vaultSlots.length = 2) :
    ∃ k last, exec .vaultSave s = .next (vaulted s k (vaultRecord s last)) ∧ k < 2 ∧
      ∀ i w, newestSlot s.mgt.vaultSlots = some (i, w) → k ≠ i ∧ last = w.saveNo := by
  cases hn : newestSlot s.mgt.vaultSlots with
  | none => exact ⟨0, 0, exec_vaultSave_first hr hh hb hn, by omega, fun i w h => by cases h⟩
  | some x =>
    obtain ⟨i, w⟩ := x
    have hi := newestSlot_lt hn
    refine ⟨1 - i, w.saveNo, exec_vaultSave_next hr hh hb hn, by omega, fun j u h => ?_⟩
    cases h
    exact ⟨by omega, rfl⟩

end

/-! ### BANK_READY -/

theorem notePower_posted (s : State) (event unit temp vcap : Nat) : Posted s (s.notePower event unit temp vcap) := by
  unfold State.notePower
  split
  · exact post_posted _ _
  · exact Posted.refl s

theorem exec_bankReady {s : State} (hr : s.pwr.railsOn = true) (hh : s.pwr.halted = false)
    (hb : s.pwr.bankReady = false) :
    ∃ t, exec .bankReady s = .next t ∧ Posted { s with pwr := { s.pwr with bankReady := true } } t := by
  refine ⟨_, ?_, notePower_posted _ pwBankReady 0 0 0⟩
  show execBankReady s = _
  rw [execBankReady, if_neg (by simp [hr, hh, hb])]

/-! ### PROGRESS_WATCHDOG: the records of a batch of intervals -/

/-- The PROGRESS record of an interval (R58). -/
def progressPost (s : State) : Post :=
  { kind := kProgress, src := srcMgr, owner := .job,
    body := toLe (topRise s.stallSums s.mgt.wdogBase).1 1 ++ zeros 3 ++ toLe s.jobId 4 ++
      toLe (topRise s.stallSums s.mgt.wdogBase).2 8 }

/-- One interval ends: its record is posted and the count starts anew. -/
def progressed (s : State) : State := (s.post (progressPost s)).restartWatch

theorem progressEvents_succ (k : Nat) (s : State) : progressEvents (k + 1) s = progressEvents k (progressed s) := rfl

/-- Records leave room for another change of the manager's state. -/
theorem posted_with_mgt {s t : State} (h : Posted s t) (m : Mgt) : Posted { s with mgt := m } { t with mgt := m } :=
  ⟨by rw [h.1], h.2⟩

theorem progressed_posted (s : State) : Posted { s with mgt := (progressed s).mgt } (progressed s) :=
  posted_with_mgt (post_posted s (progressPost s)) _

theorem progressEvents_posted (k : Nat) (s : State) :
    Posted { s with mgt := (progressEvents k s).mgt } (progressEvents k s) := by
  induction k generalizing s with
  | zero => exact Posted.refl s
  | succ k ih => exact (posted_with_mgt (progressed_posted s) _).trans (ih (progressed s))

theorem progressed_routed (s : State) (kind : Nat) : (progressed s).routed kind = s.routed kind := by
  rw [(progressed_posted s).1]
  rfl

theorem progressed_length (s : State) : (progressed s).rings.length = s.rings.length := (progressed_posted s).length

theorem routed_lt (s : State) (kind : Nat) : s.routed kind < 40 := by
  have h : bitsOf s.hif.evroute.toNat (3 * routeGroup kind) 3 < 2 ^ 3 := Nat.mod_lt _ (by decide)
  unfold State.routed
  omega

/-- A record that is no COMPLETION waits in a queue with room (R293). -/
theorem enqueue_appends {s : State} {r : Nat} {x : Rec} (hr : r < s.rings.length) (hx : x.kind ≠ 1#16)
    (hroom : (s.ring r).evq.length < 64) : ((s.enqueue r x).ring r).evq = (s.ring r).evq ++ [x] := by
  simp only [State.enqueue, if_neg hx, if_pos hroom]
  rw [ring_modRing_same _ _ _ hr]

theorem progressed_queue {s : State} (hs : s.rings.length = 66) (hroom : (s.ring (s.routed kProgress)).evq.length < 64) :
    ((progressed s).ring (s.routed kProgress)).evq.length = (s.ring (s.routed kProgress)).evq.length + 1 := by
  have hdest : s.destinations kProgress .job = [s.routed kProgress] := by
    simp [State.destinations, kProgress, kError, kMemError, kHostViol]
  have hpost : (progressed s).rings = (s.enqueue (s.routed kProgress) (s.record (progressPost s))).rings := by
    show (s.post (progressPost s)).rings = _
    simp [State.post, State.bumpSeq, progressPost, hdest]
  have hkind : (s.record (progressPost s)).kind ≠ 1#16 := by simp [State.record, progressPost, kProgress]
  have hr := routed_lt s kProgress
  have hq := enqueue_appends (by omega) hkind hroom
  rw [State.ring, hpost, ← State.ring, hq, List.length_append, List.length_singleton]

/-- While its queue has room for all of them, each interval adds its record. -/
theorem progressEvents_queue (k : Nat) {s : State} (hs : s.rings.length = 66)
    (hroom : (s.ring (s.routed kProgress)).evq.length + k ≤ 64) :
    ((progressEvents k s).ring (s.routed kProgress)).evq.length = (s.ring (s.routed kProgress)).evq.length + k := by
  induction k generalizing s with
  | zero => rfl
  | succ k ih =>
    have hone := progressed_queue hs (by omega)
    have hrest := ih (s := progressed s) ((progressed_length s).trans hs)
    rw [progressed_routed, hone] at hrest
    rw [progressEvents_succ, hrest (by omega)]
    omega

/-- The state once the watchdog has counted `n` periods, its limit or more (R58). -/
def watched (s : State) (n : Nat) : State :=
  { progressEvents (n / s.mgt.wdogLimit.toNat) s with
    mgt := { (progressEvents (n / s.mgt.wdogLimit.toNat) s).mgt with
      wdogCount := BitVec.ofNat 32 (n % s.mgt.wdogLimit.toNat) } }

theorem watched_posted (s : State) (n : Nat) : Posted { s with mgt := (watched s n).mgt } (watched s n) :=
  posted_with_mgt (progressEvents_posted _ s) _

theorem watched_count {s : State} (h0 : s.mgt.wdogLimit ≠ 0) (n : Nat) :
    (watched s n).mgt.wdogCount.toNat = n % s.mgt.wdogLimit.toNat := by
  have hpos : 0 < s.mgt.wdogLimit.toNat := Nat.pos_of_ne_zero fun h => h0 (BitVec.eq_of_toNat_eq h)
  exact (BitVec.toNat_ofNat _ _).trans (Nat.mod_eq_of_lt (Nat.lt_trans (Nat.mod_lt n hpos) s.mgt.wdogLimit.isLt))

section
variable {s : State} {j : Job} (p : Word) (hcur : s.job.cur = some j) (hup : s.mgrUp = true)
  (hck : s.pwr.refclk = true) (hsig : j.signalled = false) (hend : j.ending = none)
include hcur hup hck hsig hend

/-- Below the limit the periods count. -/
theorem exec_progressWatchdog_counts (hlt : s.mgt.wdogCount.toNat + p.toNat < s.mgt.wdogLimit.toNat) :
    exec (.progressWatchdog p) s = .next { s with mgt := { s.mgt with wdogCount := s.mgt.wdogCount + p } } := by
  have hsum : BitVec.ofNat 32 (min (s.mgt.wdogCount.toNat + p.toNat) (2 ^ 32 - 1)) = s.mgt.wdogCount + p := by
    have hl := s.mgt.wdogLimit.isLt
    rw [Nat.min_eq_left (by omega)]
    exact BitVec.eq_of_toNat_eq (by simp)
  show execProgressWatchdog p s = _
  simp [execProgressWatchdog, hcur, hup, hck, hsig, hend, hlt, ← hsum]

/-- From the limit on each full interval posts its record, and what is left of the last one counts on. -/
theorem exec_progressWatchdog_posts (h0 : s.mgt.wdogLimit ≠ 0)
    (hge : s.mgt.wdogLimit.toNat ≤ s.mgt.wdogCount.toNat + p.toNat) :
    exec (.progressWatchdog p) s = .next (watched s (s.mgt.wdogCount.toNat + p.toNat)) := by
  show execProgressWatchdog p s = _
  simp only [execProgressWatchdog, hcur]
  rw [if_neg (by simp [hup, hck, hsig, hend]), if_neg (not_or.2 ⟨h0, Nat.not_lt.2 hge⟩)]
  rfl

end

/-- Settles O25: the loss, the save, the bank's return, and the watchdog's records. -/
theorem supplyLossAndVault : Obligations.SupplyLossAndVault := by
  unfold Obligations.SupplyLossAndVault
  intro s hs
  refine ⟨fun ovf hr hh => ?_, fun hr hh hb hl => ?_, fun hr hh hb => ?_, fun j p hcur hup hck hsig hend => ?_⟩
  · exact ⟨haltedBy ovf s, exec_supplyLoss ovf hr hh, rfl, haltedBy_ioUp ovf, rfl, rfl, rfl,
      fun k hk => haltedBy_selfRefresh ovf hk, fun p hp => haltedBy_portDown ovf hp, rfl⟩
  · obtain ⟨k, last, hex, hk, hnew⟩ := exec_vaultSave hr hh hb hl
    exact ⟨_, k, vaultRecord s last, hex, hk, rfl,
      fun i w h => (hnew i w h).imp_right fun e => congrArg (· + 1) e, rfl, rfl, rfl, rfl, rfl, rfl, rfl, rfl⟩
  · obtain ⟨t, hex, ht⟩ := exec_bankReady hr hh hb
    exact ⟨t, hex, ht.pwr, by rw [ht.1]⟩
  · refine ⟨fun h0 hge => ?_, exec_progressWatchdog_counts p hcur hup hck hsig hend⟩
    exact ⟨_, exec_progressWatchdog_posts p hcur hup hck hsig hend h0 hge, watched_count h0 _,
      progressEvents_queue _ (shaped_rings hs), by rw [(watched_posted s _).1]⟩

end Sys2Proof.Proofs

/-! PROOFS. Pieces of equal length, cut from what is read and stored one after another over memory without a flaw. -/

namespace Sys2Proof.Proofs

open Sys2Proof Sys2Proof.Machine Sys2Proof.Laws

/-! ### Pieces of equal length -/

/-- Pieces of `k` cut from a list of `n` of them, by number; more fuel than pieces cuts no more. -/
theorem chunksOf_eq_map {α : Type} {k : Nat} (hk : 0 < k) (n : Nat) {fuel : Nat} (hf : n ≤ fuel) (l : List α)
    (hl : l.length = n * k) : chunksOf k fuel l = (List.range n).map fun i => (l.drop (i * k)).take k := by
  induction n generalizing fuel l with
  | zero =>
    have hnil : l = [] := List.eq_nil_of_length_eq_zero (by simpa using hl)
    cases fuel <;> simp [chunksOf, hnil]
  | succ n ih =>
    obtain ⟨fuel, rfl⟩ : ∃ f, fuel = f + 1 := ⟨fuel - 1, by omega⟩
    have hlen : l.length = n * k + k := by rw [hl, Nat.succ_mul]
    have hne : l.isEmpty = false := by
      cases l
      · simp at hlen; omega
      · rfl
    have hrest := ih (fuel := fuel) (by omega) (l.drop k) (by rw [List.length_drop]; omega)
    simp only [chunksOf, hne, Bool.false_eq_true, if_false, hrest, List.range_succ_eq_map, List.map_cons, List.map_map]
    refine List.cons_eq_cons.2 ⟨by simp, List.map_congr_left fun i _ => ?_⟩
    simp [List.drop_drop, Nat.succ_mul, Nat.add_comm]

/-- A list of `a * b` entries by number, row by row. -/
theorem map_range_mul {α : Type} (g : Nat → α) (a b : Nat) :
    (List.range (a * b)).map g = (List.range a).flatMap fun r => (List.range b).map fun j => g (r * b + j) := by
  induction a with
  | zero => simp
  | succ a ih => simp [Nat.succ_mul, List.range_add, List.range_succ, ih, List.flatMap_append, Function.comp_def]

theorem flatten_length_of_pieces {ps : List (List Byte)} {w : Nat} (hw : ∀ p ∈ ps, p.length = w) :
    ps.flatten.length = w * ps.length := by
  induction ps with
  | nil => rfl
  | cons p ps ih =>
    rw [List.flatten_cons, List.length_append, hw p (by simp), ih fun q hq => hw q (by simp [hq]), List.length_cons,
      Nat.mul_succ, Nat.add_comm]

/-- Where a byte of a piece stands when pieces of `w` bytes are put together. -/
theorem flatten_getD_of_pieces {ps : List (List Byte)} {w : Nat} (hw : ∀ p ∈ ps, p.length = w) {r i : Nat} {p : List Byte}
    (hp : ps[r]? = some p) (hi : i < w) : ps.flatten.getD (w * r + i) 0 = p.getD i 0 := by
  induction ps generalizing r with
  | nil => simp at hp
  | cons q ps ih =>
    have hq : q.length = w := hw q (by simp)
    rw [List.flatten_cons]
    cases r with
    | zero =>
      have hqp : q = p := by simpa using hp
      rw [hqp] at hq
      rw [hqp, Nat.mul_zero, Nat.zero_add, List.getD_eq_getElem?_getD, List.getElem?_append_left (by omega),
        ← List.getD_eq_getElem?_getD]
    | succ r =>
      have hoff : w * (r + 1) + i - q.length = w * r + i := by rw [hq, Nat.mul_succ]; omega
      rw [List.getD_eq_getElem?_getD, List.getElem?_append_right (by rw [hq, Nat.mul_succ]; omega), hoff,
        ← List.getD_eq_getElem?_getD]
      exact ih (fun x hx => hw x (by simp [hx])) (by simpa using hp)

/-! ### Ranges of memory -/

/-- A range is read byte by byte, each as its word is delivered. -/
theorem read_eq_map (m : Memory) (a n : Nat) :
    m.read a n = (List.range n).map fun i => (m.deliver ((a + i) / 4)).getD ((a + i) % 4) 0 := by
  have hwords : ∀ w k, ((List.range k).map fun i => m.deliver (w + i)).flatten =
      (List.range (k * 4)).map fun i => (m.deliver ((4 * w + i) / 4)).getD ((4 * w + i) % 4) 0 := by
    intro w k
    rw [map_range_mul, List.flatMap_def]
    refine congrArg List.flatten (List.map_congr_left fun i _ => ?_)
    refine List.ext_getElem (by simp [deliver_length]) fun j hj _ => ?_
    rw [deliver_length] at hj
    have hdiv : (4 * w + (i * 4 + j)) / 4 = w + i := by omega
    have hj4 : j % 4 = j := Nat.mod_eq_of_lt hj
    simp [hdiv, hj4, List.getD_eq_getElem?_getD, deliver_length, hj]
  by_cases hn : n = 0
  · simp [Memory.read, hn]
  · refine List.ext_getElem (by simp [read_length]) fun i hi _ => ?_
    rw [read_length] at hi
    have haddr : 4 * (a / 4) + (a % 4 + i) = a + i := by omega
    simp only [Memory.read, wordsOf, if_neg hn, List.map_map, Function.comp_def, hwords, List.getElem_take,
      List.getElem_drop, List.getElem_map, List.getElem_range, haddr]

/-- Part of what is read of a range is what is read of that part. -/
theorem read_part (m : Memory) (a : Nat) {n off len : Nat} (h : off + len ≤ n) :
    ((m.read a n).drop off).take len = m.read (a + off) len := by
  refine List.ext_getElem (by simp [read_length]; omega) fun i _ _ => ?_
  simp [read_eq_map, Nat.add_assoc]

/-- A range of pieces is read piece by piece. -/
theorem chunksOf_read (m : Memory) (a n : Nat) {k fuel : Nat} (hk : 0 < k) (hf : n ≤ fuel) :
    chunksOf k fuel (m.read a (n * k)) = (List.range n).map fun i => m.read (a + i * k) k := by
  rw [chunksOf_eq_map hk n hf _ (read_length _ _ _)]
  refine List.map_congr_left fun i hi => read_part m a ?_
  calc i * k + k = (i + 1) * k := (Nat.succ_mul i k).symm
    _ ≤ n * k := Nat.mul_le_mul_right k (List.mem_range.1 hi)

/-! ### Stores over memory without a flaw -/

theorem syn_clean {m : Memory} (h : m.synd = []) (w : Nat) : m.syn w = 0 := by simp [Memory.syn, h, look]

@[simp] theorem setBytes_synd (m : Memory) (a : Nat) (bs : List Byte) : (m.setBytes a bs).synd = m.synd := by
  induction bs generalizing m a with
  | nil => rfl
  | cons b bs ih => exact ih _ _

/-- A word merged into memory without a flaw takes correct check bits (R226). -/
theorem mergeWord_synd {m : Memory} (h : m.synd = []) (a : Nat) (bs : List Byte) : (m.mergeWord a bs false).synd = [] := by
  have hbad : m.bad (a / 4) = false := by
    have hc : synClass 0 = .clean := by decide
    rw [Memory.bad, syn_clean h, hc]
  simp only [Memory.mergeWord, hbad, Bool.and_false, Bool.or_self, Bool.false_eq_true, if_false, Memory.setSyn]
  split <;> simp [h, store]

theorem writeFuel_synd (n : Nat) {m : Memory} (h : m.synd = []) (a : Nat) (bs : List Byte) :
    (Memory.writeFuel false n m a bs).synd = [] := by
  induction n generalizing m a bs with
  | zero => exact h
  | succ n ih =>
    unfold Memory.writeFuel
    split
    · exact h
    · exact ih (mergeWord_synd h _ _) _ _

theorem write_synd {m : Memory} (h : m.synd = []) (a : Nat) (bs : List Byte) : (m.write a bs).synd = [] :=
  writeFuel_synd _ h _ _

/-- A store into memory without a flaw leaves every byte that it does not cover. -/
theorem write_byte_other {m : Memory} (hwf : m.wf = true) (h : m.synd = []) (a : Nat) (bs : List Byte) (k : Nat)
    (hk : k < a ∨ a + bs.length ≤ k) : (m.write a bs).byte k = m.byte k := by
  have hread := write_read_other hwf a bs false k hk
  rw [read_one_stored (Or.inl (syn_clean (write_synd h a bs) _)), read_one_stored (Or.inl (syn_clean h _))] at hread
  exact List.singleton_inj.1 hread

/-- Pieces of `w` bytes stored one after another: each stands at its place. -/
theorem write_pieces {m : Memory} (hwf : m.wf = true) (a : Nat) {ps : List (List Byte)} {w : Nat}
    (hw : ∀ p ∈ ps, p.length = w) {r : Nat} {p : List Byte} (hp : ps[r]? = some p) {i : Nat} (hi : i < p.length) :
    (m.write a ps.flatten).byte (a + w * r + i) = p.getD i 0 := by
  have hlen := hw p (List.mem_of_getElem? hp)
  obtain ⟨hr, -⟩ := List.getElem?_eq_some_iff.1 hp
  have hin : w * r + i < ps.flatten.length := by
    rw [flatten_length_of_pieces hw]
    calc w * r + i < w * r + w := by omega
      _ = w * (r + 1) := (Nat.mul_succ w r).symm
      _ ≤ w * ps.length := Nat.mul_le_mul_left w hr
  rw [Nat.add_assoc, write_byte hwf a _ false _ hin, flatten_getD_of_pieces hw hp (by omega)]

end Sys2Proof.Proofs

/-! PROOFS. Praline units: what matrix-vector products, statistics records and element-wise commands deliver (09 R242, R247
to R252; 06 R177, R178). -/

namespace Sys2Proof.Proofs

open Sys2Proof Sys2Proof.Machine Sys2Proof.Laws

/-! ### Rows that a read opens -/

/-- `t` is `s` with other rows open. -/
def Touched (s t : State) : Prop :=
  t = { s with hbm := t.hbm } ∧ t.hbm.map bareStack = s.hbm.map bareStack

theorem Touched.trans {s t u : State} (h : Touched s t) (k : Touched t u) : Touched s u :=
  ⟨k.1.trans (by rw [h.1]), k.2.trans h.2⟩

theorem touchRows_touched (s : State) (a n : Nat) : Touched s (s.touchRows a n) :=
  ⟨touchRows_frame s a n, (touchRows_observed s a n).hbm⟩

@[simp] theorem touchRows_jobTables (s : State) (a n : Nat) : (s.touchRows a n).jobTables = s.jobTables := by
  rw [touchRows_frame]; rfl

/-- A stack apart from its rows is known by the stacks apart from their rows. -/
theorem bareStack_stack {s t : State} (h : t.hbm.map bareStack = s.hbm.map bareStack) (k : Nat) :
    bareStack (t.stack k) = bareStack (s.stack k) := by
  have hk : (t.hbm[k]?).map bareStack = (s.hbm[k]?).map bareStack := by
    simpa using congrArg (fun l : List Stack => l[k]?) h
  simp only [State.stack, List.getD_eq_getElem?_getD]
  cases ht : t.hbm[k]? <;> cases hs : s.hbm[k]? <;> simp_all

theorem queue_status_of_bare {k l : Stack} (h : bareStack k = bareStack l) : k.queue = l.queue ∧ k.status = l.status := by
  have hq := congrArg Stack.queue h
  have hs := congrArg Stack.status h
  exact ⟨hq, hs⟩

/-- A store after reads: memory as written, and rows and dirty lines marked. -/
theorem Touched.writeMem {s v : State} (h : Touched s v) (a : Nat) (bs : List Byte) :
    v.writeMem a bs = { s with mem := s.mem.write a bs, courses := (v.writeMem a bs).courses,
                               hbm := (v.writeMem a bs).hbm } ∧
      (v.writeMem a bs).hbm.map bareStack = s.hbm.map bareStack := by
  refine ⟨(writeMem_frame v a bs false).trans ?_, (writeMem_stored v a bs false).hbm.trans h.2⟩
  rw [h.1]

/-! ### What a unit reads of memory without a flaw -/

theorem unitRead_clean {s : State} (h : s.mem.synd = []) (st a n : Nat) :
    s.unitRead st a n = (s.mem.read a n, false, s.touchRows a n) := readMem_clean h _ a n

/-- The rows of a dense operand. -/
theorem unitMatrix_dense {s : State} (h : s.mem.synd = []) (st : Nat) {c : PCmd} (hmf : c.mf = none) {es : Nat}
    (hw : 0 < c.cols * es) :
    s.unitMatrix st c es = (some ((List.range c.rows).map fun r => s.mem.read (c.src0 + r * (c.cols * es)) (c.cols * es)),
      false, s.touchRows c.src0 (c.rows * c.cols * es)) := by
  simp only [State.unitMatrix, hmf, unitRead_clean h, Nat.mul_assoc, chunksOf_read _ _ _ hw (Nat.le_refl _)]

/-- FP32 word `i` of a range. -/
def wordIn (m : Memory) (a i : Nat) : Word := BitVec.ofNat 32 (leNat (m.read (a + 4 * i) 4))

/-- Element `i` of a range, rounded to FP32. -/
def elemIn (m : Memory) (fmt a i : Nat) : Word :=
  fpRound (elemVal fmt (leNat (m.read (a + i * (elemBits fmt / 8)) (elemBits fmt / 8))))

theorem wordAt_read (m : Memory) (a : Nat) {n i : Nat} (h : 4 * i + 4 ≤ n) : wordAt (m.read a n) i = wordIn m a i := by
  rw [wordAt, fieldAt, bytesAt, read_part m a h, wordIn]

/-- The elements of a row that starts at element `k` of a range. -/
theorem rowWords_read (m : Memory) (fmt a k n : Nat) (hes : 0 < elemBits fmt / 8) :
    rowWords fmt (elemBits fmt / 8) (m.read (a + k * (elemBits fmt / 8)) (n * (elemBits fmt / 8))) =
      (List.range n).map fun j => elemIn m fmt a (k + j) := by
  have hn : n ≤ (m.read (a + k * (elemBits fmt / 8)) (n * (elemBits fmt / 8))).length := by
    rw [read_length]; exact Nat.le_mul_of_pos_right n hes
  rw [rowWords, elemsOf, chunksOf_read m _ n hes hn, List.map_map, List.map_map]
  refine List.map_congr_left fun j _ => ?_
  simp only [Function.comp_apply, elemIn, Nat.add_mul, Nat.add_assoc]

theorem elemBytes_pos {fmt : Nat} (h : fmt ≤ 1) : 0 < elemBits fmt / 8 := by
  obtain rfl | rfl : fmt = 0 ∨ fmt = 1 := by omega
  · decide
  · decide

/-! ### What a command delivers -/

/-- A command delivers `n` pieces: over rows that its reads open it stores them one after another at its destination, and
its status counts `sat` saturated elements. -/
def Delivers (s : State) (c : PCmd) (sat n : Nat) (piece : Nat → List Byte) (r : PStat × State) : Prop :=
  ∃ zeroed nan v, Touched s v ∧
    r = (praStat c sat zeroed nan false, v.writeMem c.dst ((List.range n).map piece).flatten)

/-- The INT8 dot product of row `r` of `w` bytes with the vector, scaled by the first scale and by `b`. -/
def scaledDot (m : Memory) (c : PCmd) (w r : Nat) (b : Word) : Word :=
  fpMul (fpMul (fpOfInt (dotInt8 (m.read (c.src0 + r * w) w) (m.read c.src1 w))) (wordIn m c.src2 0)) b

/-- Element `k` of an element-wise command, converted to the output format. -/
def elementOut (op : Word → Word → Word) (m : Memory) (c : PCmd) (k : Nat) : Conv :=
  convert c.ofmt (op (elemIn m c.fmt c.src0 k) (elemIn m c.fmt c.src1 (if c.bcast then k % c.cols else k)))

/-- The merged record of row `r` of elements. -/
def rowRec (rcp : Word → Word) (m : Memory) (c : PCmd) (r : Nat) : StatRec :=
  rowStat rcp ((List.range c.cols).map fun j => elemIn m c.fmt c.src0 (r * c.cols + j))

/-- The merged record of row `r` of records. -/
def mergedRec (rcp : Word → Word) (m : Memory) (c : PCmd) (r : Nat) : StatRec :=
  mergeTree rcp c.cols ((List.range c.cols).map fun j => StatRec.ofBytes (m.read (c.src0 + 16 * (r * c.cols + j)) 16))

theorem delivers_of_touched {s v : State} (h : Touched s v) (c : PCmd) (sat zeroed : Nat) (nan : Bool) {bs : List Byte}
    {n : Nat} {piece : Nat → List Byte} (hbs : bs = ((List.range n).map piece).flatten) :
    Delivers s c sat n piece (praStat c sat zeroed nan false, v.writeMem c.dst bs) :=
  ⟨zeroed, nan, v, h, by rw [hbs]⟩

/-- The elements of the second operand that row `r` of the first meets: the one row of a broadcast, or its own. -/
theorem secondRow_words (m : Memory) (c : PCmd) (hes : 0 < elemBits c.fmt / 8) {r : Nat} (hr : r < c.rows) :
    let es := elemBits c.fmt / 8
    let ys := m.read c.src1 (if c.bcast then c.cols * es else c.rows * c.cols * es)
    rowWords c.fmt es (if c.bcast then ys else bytesAt ys (r * c.cols * es) (c.cols * es)) =
      (List.range c.cols).map fun j =>
        elemIn m c.fmt c.src1 (if c.bcast then (r * c.cols + j) % c.cols else r * c.cols + j) := by
  cases hb : c.bcast
  · have hin : r * c.cols * (elemBits c.fmt / 8) + c.cols * (elemBits c.fmt / 8) ≤
        c.rows * c.cols * (elemBits c.fmt / 8) := by
      rw [← Nat.add_mul, ← Nat.succ_mul]
      exact Nat.mul_le_mul_right _ (Nat.mul_le_mul_right _ hr)
    simp only [Bool.false_eq_true, if_false, bytesAt, read_part m _ hin, rowWords_read m _ _ _ _ hes]
  · have hrow := rowWords_read m c.fmt c.src1 0 c.cols hes
    rw [Nat.zero_mul, Nat.add_zero] at hrow
    simp only [if_true, hrow]
    refine List.map_congr_left fun j hj => ?_
    rw [Nat.zero_add, Nat.mul_add_mod_self_right, Nat.mod_eq_of_lt (List.mem_range.1 hj)]

/-- The elements of an element-wise command, row by row as the unit forms them, are those of its elements in order. -/
theorem elementRows_eq (op : Word → Word → Word) (m : Memory) (c : PCmd) (hes : 0 < elemBits c.fmt / 8) :
    let es := elemBits c.fmt / 8
    let ys := m.read c.src1 (if c.bcast then c.cols * es else c.rows * c.cols * es)
    (((List.range c.rows).map fun r => m.read (c.src0 + r * (c.cols * es)) (c.cols * es)).zipIdx.flatMap fun r =>
        List.zipWith (fun a b => convert c.ofmt (op a b)) (rowWords c.fmt es r.1)
          (rowWords c.fmt es (if c.bcast then ys else bytesAt ys (r.2 * c.cols * es) (c.cols * es)))) =
      (List.range (c.rows * c.cols)).map (elementOut op m c) := by
  intro es ys
  have hzip : ∀ f : Nat → List Byte, ((List.range c.rows).map f).zipIdx = (List.range c.rows).map fun r => (f r, r) :=
    fun f => List.ext_getElem (by simp) fun i _ _ => by simp
  rw [hzip, map_range_mul, List.flatMap_map, List.flatMap_def, List.flatMap_def]
  refine congrArg List.flatten (List.map_congr_left fun r hr => ?_)
  rw [secondRow_words m c hes (List.mem_range.1 hr), ← Nat.mul_assoc, rowWords_read m _ _ _ _ hes, List.zipWith_map,
    List.zipWith_self]
  rfl

section
variable {s : State} {c : PCmd} (hs : s.mem.synd = []) (st : Nat)
include hs

/-- MV mode 0 (R247). -/
theorem runMvDense_delivers (hmf : c.mf = none) (hc : 0 < c.cols) :
    Delivers s c 0 c.rows (fun r => toLe (scaledDot s.mem c c.cols r (wordIn s.mem c.src2 (r + 1))).toNat 4)
      (runMvDense st c s) := by
  have hm := unitMatrix_dense hs st hmf (es := 1) (by omega)
  simp only [runMvDense, hm, unitRead_clean, touchRows_mem, hs, Bool.or_self]
  refine delivers_of_touched ?_ c 0 0 _ ?_
  · exact ((touchRows_touched _ _ _).trans (touchRows_touched _ _ _)).trans (touchRows_touched _ _ _)
  · rw [wordsBytes, List.map_map]
    refine congrArg List.flatten (List.ext_getElem (by simp) fun r hr _ => ?_)
    have hr : r < c.rows := by simpa using hr
    simp [scaledDot, scaleTwice, wordAt_read, Nat.mul_add, show 4 * r + 4 + 4 ≤ 4 * c.rows + 4 by omega]

/-- MV modes 1 and 2 (R248). -/
theorem runMvFrame_delivers (n : Nat) {w : Nat} (hw : 0 < w) :
    Delivers s c 0 n (fun r => toLe (scaledDot s.mem c w r c.ks).toNat 4) (runMvFrame n w st c s) := by
  simp only [runMvFrame, unitRead_clean, touchRows_mem, hs, Bool.or_self, chunksOf_read _ _ _ hw (Nat.le_refl _)]
  refine delivers_of_touched ?_ c 0 0 _ ?_
  · exact ((touchRows_touched _ _ _).trans (touchRows_touched _ _ _)).trans (touchRows_touched _ _ _)
  · simp only [wordsBytes, List.map_map, Function.comp_def, scaleTwice, scaledDot, wordAt_read _ _ (Nat.le_refl (4 * 0 + 4))]

/-- STATS mode 0 (R251). -/
theorem runStatsRows_delivers (hmf : c.mf = none) (hc : 0 < c.cols) (hfmt : c.fmt ≤ 1) :
    Delivers s c 0 c.rows (fun r => (rowRec (sfuRcp s.jobTables) s.mem c r).bytes) (runStatsRows st c s) := by
  have hes := elemBytes_pos hfmt
  have hm := unitMatrix_dense hs st hmf (Nat.mul_pos hc hes)
  simp only [runStatsRows, hm, statsOut]
  refine delivers_of_touched (touchRows_touched _ _ _) c 0 0 _ ?_
  simp only [List.map_map, Function.comp_def, touchRows_jobTables, ← Nat.mul_assoc, rowWords_read _ _ _ _ _ hes, rowRec]

/-- STATS mode 1 (R251). -/
theorem runStatsMerge_delivers (hmf : c.mf = none) (hc : 0 < c.cols) :
    Delivers s c 0 c.rows (fun r => (mergedRec (sfuRcp s.jobTables) s.mem c r).bytes)
      (runStatsMerge st c s) := by
  have hm := unitMatrix_dense hs st hmf (es := 16) (by omega)
  have haddr : ∀ r j, c.src0 + r * (c.cols * 16) + j * 16 = c.src0 + 16 * (r * c.cols + j) := fun r j => by
    rw [Nat.add_assoc, ← Nat.mul_assoc, ← Nat.add_mul, Nat.mul_comm 16]
  simp only [runStatsMerge, hm, statsOut]
  refine delivers_of_touched (touchRows_touched _ _ _) c 0 0 _ ?_
  simp only [List.map_map, Function.comp_def, touchRows_jobTables, chunksOf_read _ _ _ (by decide : 0 < 16) (Nat.le_refl _),
    haddr, mergedRec]

/-- EADD and EMUL (R252). -/
theorem runElementwise_delivers (op : Word → Word → Word) (hmf : c.mf = none) (hc : 0 < c.cols) (hfmt : c.fmt ≤ 1) :
    Delivers s c (((List.range (c.rows * c.cols)).map (elementOut op s.mem c)).filter (·.sat)).length (c.rows * c.cols)
      (fun k => toLe (elementOut op s.mem c k).bits (elemBits c.ofmt / 8)) (runElementwise op st c s) := by
  have hes := elemBytes_pos hfmt
  have hm := unitMatrix_dense hs st hmf (Nat.mul_pos hc hes)
  simp only [runElementwise, hm, unitRead_clean, touchRows_mem, hs, Bool.or_self, elementRows_eq op _ _ hes]
  exact delivers_of_touched ((touchRows_touched _ _ _).trans (touchRows_touched _ _ _)) c _ _ _
    (by rw [List.map_map]; rfl)

end

end Sys2Proof.Proofs

/-! PROOFS. What a Praline unit does with its oldest command (09 R243, R256, R260). -/

namespace Sys2Proof.Proofs

open Sys2Proof Sys2Proof.Machine Sys2Proof.Laws

/-! ### The oldest command -/

/-- Command `c` is the oldest of unit `st`, whose stack is there, supplied and awake. -/
structure Oldest (st : StackId) (c : PCmd) (rest : List PCmd) (s : State) : Prop where
  shaped : s.shaped = true
  stack : s.variant.hasStack st = true
  up : s.regionUp (st / 8) = true
  awake : (s.stack st).selfRefresh = false
  queue : (s.stack st).queue = c :: rest

/-- Nothing holds the unit: no fault, and no fence of its own stack or of an operand's. -/
def Unheld (st : StackId) (c : PCmd) (s : State) : Prop :=
  (s.stack st).fault = none ∧ s.isFenced (srcPraline st) = false ∧ s.cmdHeld c = false

theorem stack_lt {s : State} (hs : s.shaped = true) (st : StackId) : st.val < s.hbm.length := by
  obtain ⟨-, -, -, -, -, hhbm, -, -⟩ := shaped_lengths hs
  omega

theorem slowUnit_frame (s : State) (st : Nat) (c : PCmd) : s.slowUnit st c = { s with hbm := (s.slowUnit st c).hbm } := by
  unfold State.slowUnit; split <;> rfl

@[simp] theorem slowUnit_mem (s : State) (st : Nat) (c : PCmd) : (s.slowUnit st c).mem = s.mem := by
  rw [slowUnit_frame]

@[simp] theorem slowUnit_jobTables (s : State) (st : Nat) (c : PCmd) : (s.slowUnit st c).jobTables = s.jobTables := by
  rw [slowUnit_frame]; rfl

theorem slowUnit_other (s : State) {st k : Nat} (c : PCmd) (h : k ≠ st) : (s.slowUnit st c).stack k = s.stack k := by
  unfold State.slowUnit
  split
  · exact stack_modStack_other _ _ _ _ h.symm
  · rfl

/-- T2_LATE is counted beside the unit's queue and status. -/
theorem slowUnit_own {s : State} {st : Nat} (hst : st < s.hbm.length) (c : PCmd) :
    (s.slowUnit st c).hbm.length = s.hbm.length ∧ ((s.slowUnit st c).stack st).queue = (s.stack st).queue ∧
      ((s.slowUnit st c).stack st).status = (s.stack st).status := by
  unfold State.slowUnit
  split
  · rw [State.stallUnit, stack_modStack_same _ _ _ hst]
    exact ⟨modifyNth_length _ _ _, rfl, rfl⟩
  · exact ⟨rfl, rfl, rfl⟩

section
variable {st : StackId} {c : PCmd} {rest : List PCmd} {s : State} (h : Oldest st c rest s)
include h

/-- A unit takes its oldest command where it is of the operation named, or malformed. -/
theorem Oldest.runUnit_eq {opc mode : Nat} (go : Nat → PCmd → State → PStat × State)
    (ho : c.bad = true ∨ c.opc = opc ∧ c.mode = mode) :
    s.runUnit st opc mode go =
      if (s.stack st).fault.isSome then .next (s.stallUnit st wFaultWait)
      else if s.isFenced (srcPraline st) ∨ s.cmdHeld c then .next (s.stallUnit st wT2Fail)
      else if c.bad then .next (s.refuseCmd st (malformedStat c false))
      else
        let r := go st c (s.slowUnit st c)
        .next (if r.1.status = 1 then r.2.refuseCmd st r.1 else r.2.endCmd st r.1) := by
  simp only [State.runUnit, h.stack, h.queue, h.up, h.awake, ho]
  simp

theorem Oldest.waits (hf : (s.stack st).fault.isSome = true) {opc mode : Nat}
    (go : Nat → PCmd → State → PStat × State) (ho : c.bad = true ∨ c.opc = opc ∧ c.mode = mode) :
    s.runUnit st opc mode go = .next (s.stallUnit st wFaultWait) := by
  rw [h.runUnit_eq go ho, if_pos hf]

theorem Oldest.held (hf : (s.stack st).fault = none) (hh : s.isFenced (srcPraline st) = true ∨ s.cmdHeld c = true)
    {opc mode : Nat} (go : Nat → PCmd → State → PStat × State) (ho : c.bad = true ∨ c.opc = opc ∧ c.mode = mode) :
    s.runUnit st opc mode go = .next (s.stallUnit st wT2Fail) := by
  rw [h.runUnit_eq go ho, if_neg (by simp [hf]), if_pos hh]

theorem Oldest.unheld (hr : Unheld st c s) {opc mode : Nat} (go : Nat → PCmd → State → PStat × State)
    (ho : c.bad = true ∨ c.opc = opc ∧ c.mode = mode) :
    s.runUnit st opc mode go =
      if c.bad then .next (s.refuseCmd st (malformedStat c false))
      else
        let r := go st c (s.slowUnit st c)
        .next (if r.1.status = 1 then r.2.refuseCmd st r.1 else r.2.endCmd st r.1) := by
  obtain ⟨hf, hfence, hheld⟩ := hr
  rw [h.runUnit_eq go ho, if_neg (by simp [hf]), if_neg (by simp [hfence, hheld])]

/-- A malformed command leaves the queue, and the unit holds PRALINE_CMD; memory stays (R242). -/
theorem Oldest.refused (x : PStat) : ∃ f y, ((s.refuseCmd st x).stack st).fault = some f ∧ f.cause = 0x1A ∧
    ((s.refuseCmd st x).stack st).queue = rest ∧ ((s.refuseCmd st x).stack st).status = (s.stack st).status ++ [y] ∧
    y.status = x.status ∧ (s.refuseCmd st x).mem = s.mem := by
  obtain ⟨t, g, ht, he, hcause, -⟩ := raiseFault_posted s (.praline st) (newFault fPralineCmd)
  have hst : st.val < t.hbm.length := by rw [ht.hbm]; exact stack_lt h.shaped st
  have hstack : t.stack st = s.stack st := by rw [State.stack, ht.hbm]; rfl
  have hlen : st.val < (t.setFault (.praline st) (some g)).hbm.length := by
    simpa [State.setFault, State.modStack] using hst
  have hfault : (t.setFault (.praline st) (some g)).stack st = { s.stack st with fault := some g } := by
    rw [← hstack]
    exact stack_modStack_same _ _ _ hst
  refine ⟨g, { x with recSeq := s.seqOf (srcPraline st) }, ?_, hcause, ?_, ?_, rfl, ?_⟩
  all_goals rw [State.refuseCmd, he, State.endCmd]
  · rw [stack_modStack_same _ _ _ hlen, hfault]
  · rw [stack_modStack_same _ _ _ hlen, hfault, h.queue]; rfl
  · rw [stack_modStack_same _ _ _ hlen, hfault]
  · exact ht.mem

end

/-! ### A command that is done -/

/-- The command has left the queue of unit `st`, and status `x` has joined the unit's. -/
def Ended (s u : State) (st : StackId) (c : PCmd) (rest : List PCmd) (x : PStat) : Prop :=
  x.mover = c.mover ∧ x.status = 0 ∧ (u.stack st).queue = rest ∧ (u.stack st).status = (s.stack st).status ++ [x]

/-- Of memory only the `n` bytes from `a` on may differ, and of the rest only rows, dirty lines and unit `st`. -/
def WroteOnly (s u : State) (st : StackId) (a n : Nat) : Prop :=
  (∀ k, k ≠ st.val → { u.stack k with rows := [] } = { s.stack k with rows := [] }) ∧
  (∀ k, k < a ∨ a + n ≤ k → u.mem.byte k = s.mem.byte k) ∧
  u = { s with mem := u.mem, courses := u.courses, hbm := u.hbm }

/-- Memory holds bytes from `a` on. -/
def Holds (u : State) (a : Nat) (bs : List Byte) : Prop := ∀ i < bs.length, u.mem.byte (a + i) = bs.getD i 0

theorem statRec_bytes_length (x : StatRec) : x.bytes.length = 16 := by
  simp [StatRec.bytes, toLe_length]

section
variable {st : StackId} {c : PCmd} {rest : List PCmd} {s : State} (h : Oldest st c rest s) (hr : Unheld st c s)
  (hbad : c.bad = false) (hs : s.mem.synd = []) (hwf : s.mem.wf = true)
include h hr hbad hs hwf

/-- A command that delivers `n` pieces of `w` bytes ends, each piece stands at its place, and nothing else changes. -/
theorem Oldest.delivers {opc mode : Nat} (ho : c.opc = opc) (hm : c.mode = mode)
    {go : Nat → PCmd → State → PStat × State} {sat n w : Nat} {piece : Nat → List Byte} (hw : ∀ r, (piece r).length = w)
    (hgo : Delivers (s.slowUnit st c) c sat n piece (go st c (s.slowUnit st c))) :
    ∃ u x, s.runUnit st opc mode go = .next u ∧ Ended s u st c rest x ∧ WroteOnly s u st c.dst (w * n) ∧
      x.sat = min sat (2 ^ 24 - 1) ∧ ∀ r < n, Holds u (c.dst + w * r) (piece r) := by
  obtain ⟨zeroed, nan, v, hv, hgo⟩ := hgo
  have hws : ∀ p ∈ (List.range n).map piece, p.length = w := by simpa using fun r _ => hw r
  have hat : ∀ r < n, ((List.range n).map piece)[r]? = some (piece r) := fun r hr => by simp [hr]
  have hbytes : ((List.range n).map piece).flatten.length = w * n := by simp [flatten_length_of_pieces hws]
  generalize (List.range n).map piece = ps at hws hat hbytes hgo
  obtain ⟨hfr, hrows⟩ := hv.writeMem c.dst ps.flatten
  obtain ⟨hlen, hqueue, hstatus⟩ := slowUnit_own (stack_lt h.shaped st) c
  have hrun : s.runUnit st opc mode go =
      .next ((v.writeMem c.dst ps.flatten).endCmd st (praStat c sat zeroed nan false)) := by
    have hzero : ¬ (praStat c sat zeroed nan false).status = 1 := Nat.zero_ne_one
    simp only [h.unheld hr go (Or.inr ⟨ho, hm⟩), hbad, hgo, if_neg hzero, Bool.false_eq_true, if_false]
  have hmem : (v.writeMem c.dst ps.flatten).mem = s.mem.write c.dst ps.flatten := by
    rw [hfr, slowUnit_mem]
  have hbare := bareStack_stack hrows
  generalize v.writeMem c.dst ps.flatten = t at hrun hfr hrows hmem hbare
  have hst : st.val < t.hbm.length := by
    rw [← List.length_map (f := bareStack), hrows, List.length_map, hlen]
    exact stack_lt h.shaped st
  have hown : (t.endCmd st (praStat c sat zeroed nan false)).stack st = _ := stack_modStack_same _ _ _ hst
  refine ⟨_, praStat c sat zeroed nan false, hrun, ⟨rfl, rfl, ?_, ?_⟩, ⟨fun k hk => ?_, fun k hk => ?_, ?_⟩, rfl,
    fun r hr i hi => ?_⟩
  · rw [hown, (queue_status_of_bare (hbare st)).1, hqueue, h.queue]; rfl
  · rw [hown, (queue_status_of_bare (hbare st)).2, hstatus]
  · rw [State.endCmd, stack_modStack_other _ _ _ _ hk.symm]
    exact (hbare k).trans (by rw [slowUnit_other _ _ hk]; rfl)
  · rw [State.endCmd, modStack_mem, hmem]
    exact write_byte_other hwf hs _ _ _ (by rwa [hbytes])
  · rw [State.endCmd, State.modStack, hfr, slowUnit_frame]
  · rw [State.endCmd, modStack_mem, hmem]
    exact write_pieces hwf _ hws (hat r hr) hi

variable (hmf : c.mf = none) (hc : 0 < c.cols)

include hmf hc in
theorem mvDense_writes (ho : c.opc = 1) (hm : c.mode = 0) :
    ∃ u x, exec (.mvDense st) s = .next u ∧ Ended s u st c rest x ∧ WroteOnly s u st c.dst (4 * c.rows) ∧
      ∀ r < c.rows, Holds u (c.dst + 4 * r) (toLe (scaledDot s.mem c c.cols r (wordIn s.mem c.src2 (r + 1))).toNat 4) := by
  have hgo := runMvDense_delivers (s := s.slowUnit st c) (by rw [slowUnit_mem, hs]) st hmf hc
  rw [slowUnit_mem] at hgo
  obtain ⟨u, x, he, hend, hwrote, -, hheld⟩ := h.delivers hr hbad hs hwf ho hm (fun _ => toLe_length _ 4) hgo
  exact ⟨u, x, he, hend, hwrote, hheld⟩

/-- Both frame modes: `n` rows of `w` bytes. -/
theorem runMvFrame_writes {mode : Nat} (ho : c.opc = 1) (hm : c.mode = mode) (n : Nat) {w : Nat} (hw : 0 < w)
    {i : Instr} {go : Nat → PCmd → State → PStat × State} (hi : exec i s = s.runUnit st 1 mode go)
    (hgo : ∀ v, go st c v = runMvFrame n w st c v) :
    ∃ u x, exec i s = .next u ∧ Ended s u st c rest x ∧ WroteOnly s u st c.dst (4 * n) ∧
      ∀ r < n, Holds u (c.dst + 4 * r) (toLe (scaledDot s.mem c w r c.ks).toNat 4) := by
  have hframe := runMvFrame_delivers (s := s.slowUnit st c) (c := c) (by rw [slowUnit_mem, hs]) st n hw
  rw [slowUnit_mem, ← hgo] at hframe
  obtain ⟨u, x, he, hend, hwrote, -, hheld⟩ := h.delivers hr hbad hs hwf ho hm (fun _ => toLe_length _ 4) hframe
  exact ⟨u, x, hi.trans he, hend, hwrote, hheld⟩

include hmf hc in
theorem statsRows_writes (ho : c.opc = 2) (hm : c.mode = 0) (hfmt : c.fmt ≤ 1) :
    ∃ u x, exec (.statsRows st) s = .next u ∧ Ended s u st c rest x ∧ WroteOnly s u st c.dst (16 * c.rows) ∧
      ∀ r < c.rows, Holds u (c.dst + 16 * r) (rowRec (sfuRcp s.jobTables) s.mem c r).bytes := by
  have hgo := runStatsRows_delivers (s := s.slowUnit st c) (by rw [slowUnit_mem, hs]) st hmf hc hfmt
  rw [slowUnit_mem, slowUnit_jobTables] at hgo
  obtain ⟨u, x, he, hend, hwrote, -, hheld⟩ := h.delivers hr hbad hs hwf ho hm (fun _ => statRec_bytes_length _) hgo
  exact ⟨u, x, he, hend, hwrote, hheld⟩

include hmf hc in
theorem statsMerge_writes (ho : c.opc = 2) (hm : c.mode = 1) :
    ∃ u x, exec (.statsMerge st) s = .next u ∧ Ended s u st c rest x ∧ WroteOnly s u st c.dst (16 * c.rows) ∧
      ∀ r < c.rows, Holds u (c.dst + 16 * r) (mergedRec (sfuRcp s.jobTables) s.mem c r).bytes := by
  have hgo := runStatsMerge_delivers (s := s.slowUnit st c) (by rw [slowUnit_mem, hs]) st hmf hc
  rw [slowUnit_mem, slowUnit_jobTables] at hgo
  obtain ⟨u, x, he, hend, hwrote, -, hheld⟩ := h.delivers hr hbad hs hwf ho hm (fun _ => statRec_bytes_length _) hgo
  exact ⟨u, x, he, hend, hwrote, hheld⟩

include hmf hc in
/-- EADD and EMUL: each element is stored converted, and the saturated ones are counted. -/
theorem runElementwise_writes (op : Word → Word → Word) {opc : Nat} (ho : c.opc = opc) (hm : c.mode = 0)
    (hfmt : c.fmt ≤ 1) :
    let z := (List.range (c.rows * c.cols)).map (elementOut op s.mem c)
    let os := elemBits c.ofmt / 8
    ∃ u x, s.runUnit st opc 0 (runElementwise op) = .next u ∧ Ended s u st c rest x ∧
      WroteOnly s u st c.dst (c.rows * c.cols * os) ∧ x.sat = min (z.filter (·.sat)).length (2 ^ 24 - 1) ∧
      ∀ k < c.rows * c.cols, ∀ v, z[k]? = some v → Holds u (c.dst + k * os) (toLe v.bits os) := by
  intro z os
  have hgo := runElementwise_delivers (s := s.slowUnit st c) (by rw [slowUnit_mem, hs]) st op hmf hc hfmt
  rw [slowUnit_mem] at hgo
  obtain ⟨u, x, he, hend, hwrote, hsat, hheld⟩ := h.delivers hr hbad hs hwf ho hm (fun _ => toLe_length _ os) hgo
  rw [Nat.mul_comm os] at hwrote
  refine ⟨u, x, he, hend, hwrote, hsat, fun k hk v hv => ?_⟩
  have hvk : elementOut op s.mem c k = v := by simpa [z, hk] using hv
  rw [← hvk, Nat.mul_comm k]
  exact hheld k hk

end

/-! ### A command that is not done -/

/-- Each command of a unit runs the oldest of the queue where it is of its operation. -/
theorem exec_unit {st : StackId} {i : Instr} (hi : i ∈ [Instr.mvDense st, .mvKFrame st, .mvVFrame st, .statsRows st,
    .statsMerge st, .pralineEadd st, .emul st, .append st, .gather st, .encode st, .decode st]) :
    ∃ opc mode go, ∀ s, exec i s = s.runUnit st opc mode go := by
  simp only [List.mem_cons, List.not_mem_nil, or_false] at hi
  rcases hi with rfl | rfl | rfl | rfl | rfl | rfl | rfl | rfl | rfl | rfl | rfl
  · exact ⟨1, 0, runMvDense, fun _ => rfl⟩
  · exact ⟨1, 1, fun n c s => runMvFrame 256 c.d n c s, fun _ => rfl⟩
  · exact ⟨1, 2, fun n c s => runMvFrame c.d 256 n c s, fun _ => rfl⟩
  · exact ⟨2, 0, runStatsRows, fun _ => rfl⟩
  · exact ⟨2, 1, runStatsMerge, fun _ => rfl⟩
  · exact ⟨3, 0, runElementwise fpAdd, fun _ => rfl⟩
  · exact ⟨4, 0, runElementwise fpMul, fun _ => rfl⟩
  · exact ⟨5, 0, runAppend, fun _ => rfl⟩
  · exact ⟨6, 0, runGather, fun _ => rfl⟩
  · exact ⟨7, 0, runEncode, fun _ => rfl⟩
  · exact ⟨8, 0, runDecode, fun _ => rfl⟩

/-- Settles O49: what each operation delivers, stored piece by piece, and what a malformed command or a held unit does. -/
theorem pralineMatrices : Obligations.PralineMatrices := by
  unfold Obligations.PralineMatrices
  intro st c rest s hs hst hup hawake hq runs clean ended wrote word dot stored es os elem
  have h : Oldest st c rest s := ⟨hs, hst, hup, hawake, hq⟩
  refine ⟨?_, ?_, ?_, ?_, ?_, ?_, ?_⟩
  · rintro hr ⟨hbad, hmf, hsynd, hwf, hc⟩ ho hm
    exact mvDense_writes h hr hbad hsynd hwf hmf hc ho hm
  · rintro hr ⟨hbad, -, hsynd, hwf, -⟩ ho hm hd
    exact runMvFrame_writes h hr hbad hsynd hwf ho hm 256 hd (i := .mvKFrame st)
      (go := fun n c s => runMvFrame 256 c.d n c s) rfl fun _ => rfl
  · rintro hr ⟨hbad, -, hsynd, hwf, -⟩ ho hm
    exact runMvFrame_writes h hr hbad hsynd hwf ho hm c.d (by decide : 0 < 256) (i := .mvVFrame st)
      (go := fun n c s => runMvFrame c.d 256 n c s) rfl fun _ => rfl
  · rintro hr ⟨hbad, hmf, hsynd, hwf, hc⟩ ho hm hfmt
    exact statsRows_writes h hr hbad hsynd hwf hmf hc ho hm hfmt
  · rintro hr ⟨hbad, hmf, hsynd, hwf, hc⟩ ho hm
    exact statsMerge_writes h hr hbad hsynd hwf hmf hc ho hm
  · rintro i op hop hr ⟨hbad, hmf, hsynd, hwf, hc⟩ hm hfmt -
    rcases hop with ⟨rfl, rfl, ho⟩ | ⟨rfl, rfl, ho⟩
    · exact runElementwise_writes h hr hbad hsynd hwf hmf hc fpAdd ho hm hfmt
    · exact runElementwise_writes h hr hbad hsynd hwf hmf hc fpMul ho hm hfmt
  · intro i hi hbad
    obtain ⟨opc, mode, go, hex⟩ := exec_unit hi
    refine ⟨fun hr => ?_, fun hf => (hex s).trans (h.waits hf go (Or.inl hbad)),
      fun hf hheld => (hex s).trans (h.held hf hheld go (Or.inl hbad))⟩
    obtain ⟨f, y, hfault, hcause, hqueue, hstatus, hy, hmem⟩ := h.refused (malformedStat c false)
    refine ⟨_, f, y, (hex s).trans ?_, hfault, hcause, hqueue, hstatus, hy, hmem⟩
    rw [h.unheld hr go (Or.inl hbad), if_pos hbad]

end Sys2Proof.Proofs
